-- ==== Sys2Proof/Word.lean ====
section
/-! DEFINITION. The word types of the block: command words, bytes and 8-bit indices
(spec 00_scope.md R8, 10_state.md R10, R13). -/

namespace Sys2Proof

/-- A command word or a result register, 32 bits (R10, R55). -/
abbrev Word := BitVec 32

/-- One byte of host memory, of a setup buffer or of a data buffer (R29). -/
abbrev Byte := BitVec 8

/-- The index of a device, port or packet slot, 8 bits (R13, R14, R23). -/
abbrev Index := BitVec 8

/-- `0xFF`: no device, no port, no packet (R13, R14, R15, R25). -/
abbrev noIndex : Index := 0xFF#8

/-- `0xFFFFFFFF`: no device, or an empty queue, in a result register (R81, R157). -/
abbrev noResult : Word := 0xFFFFFFFF#32

end Sys2Proof
end

