-- ==== Sys2Proof/Syntax.lean ====
section
/-! DEFINITION. The twenty commands of spec/opcode_table.json, one constructor each, and the
backend response record (spec 30_encoding.md R58 to R61, R67). -/

namespace Sys2Proof

/-- The direction bit of an endpoint operand: 1 selects the IN array, 0 the OUT array (R58). -/
inductive Dir where
  | out
  | inn
deriving DecidableEq, Repr, Inhabited

/-- The token of a packet: 0 reserved, 1 SETUP, 2 IN, 3 OUT (10_state.md R25). -/
inductive Token where
  | reserved
  | setup
  | inn
  | out
deriving DecidableEq, Repr, Inhabited

/-- A backend response (R67): a status code of three bits as it stands on the wire, a byte
count, and the data bytes. Its shape is checked where it is applied (R67, R100). -/
structure Resp where
  status : BitVec 3
  n      : BitVec 32
  data   : List Byte
deriving DecidableEq, Repr, Inhabited

/-- A command. Operand fields carry exactly the bits the encoding gives them (R58 to R60). -/
inductive Instr where
  /-- EP_SET_TYPE d, ep, type (R76). -/
  | epSetType (d n : Index) (dir : Dir) (type : BitVec 3)
  /-- EP_SET_IFNUM d, ep, ifnum (R77). -/
  | epSetIfnum (d n : Index) (dir : Dir) (ifnum : BitVec 8)
  /-- EP_SET_MPS d, ep, raw (R78). -/
  | epSetMps (d n : Index) (dir : Dir) (raw : BitVec 16)
  /-- EP_SET_PIPE d, ep, flag (R79). -/
  | epSetPipe (d n : Index) (dir : Dir) (flag : Bool)
  /-- EP_SET_HALT d, ep, flag (R80). -/
  | epSetHalt (d n : Index) (dir : Dir) (flag : Bool)
  /-- EP_GET d, ep (R81). -/
  | epGet (d n : Index) (dir : Dir)
  /-- PKT_SETUP k, d, token, n, stream, id, short_ok, int_req (R91). -/
  | pktSetup (k d n : Index) (token : Token) (shortOk intReq : Bool) (stream : BitVec 16) (id : Word)
  /-- PKT_IOV_ADD k, addr, len (R92). -/
  | pktIovAdd (k : Index) (addr len : Word)
  /-- PKT_SET_PARAM k, param (R93). -/
  | pktSetParam (k : Index) (param : BitVec 64)
  /-- SUBMIT k, d (R94). -/
  | submit (k d : Index)
  /-- CANCEL k (R107). -/
  | cancel (k : Index)
  /-- COMPLETE k (R108). -/
  | complete (k : Index)
  /-- PKT_READ k (R113). -/
  | pktRead (k : Index)
  /-- PORT_BIND p, d (R150). -/
  | portBind (p d : Index)
  /-- ATTACH p (R151). -/
  | attach (p : Index)
  /-- DETACH p (R152). -/
  | detach (p : Index)
  /-- RESET_PORT p (R153). -/
  | resetPort (p : Index)
  /-- FIND_DEVICE p, addr (R157). -/
  | findDevice (p : Index) (addr : BitVec 8)
  /-- DEV_SET_ADDR d, addr (R155). -/
  | devSetAddr (d : Index) (addr : BitVec 8)
  /-- DEV_SET_RWAKE d, flag (R156). -/
  | devSetRwake (d : Index) (flag : Bool)
deriving DecidableEq, Repr

end Sys2Proof
end

