-- ==== Sys2Proof/Config.lean ====
section
/-! DEFINITION. What an implementation fixes (spec 00_scope.md R5) and the free values: the
backend's answers beyond those the response channel already holds. -/

namespace Sys2Proof

/-- The parameters of R5 that the rules read. They are constant over a run and stand in State,
so that every statement holds for every choice of them (log 1). The sizes `N_DEV`, `N_PORT` and
`N_PKT` are the lengths of State's three tables. -/
structure Config where
  /-- `CTRL_BUF_SIZE`, the capacity in bytes of a device's control data buffer. -/
  ctrlBufSize    : Nat := 4096
  /-- `IOV_MAX`, the most segments one packet's I/O vector holds. -/
  iovMax         : Nat := 8
  /-- `HADDR_BITS`, the width of a host-memory byte address (at most 32, log 16). -/
  haddrBits      : Nat := 32
  /-- `STRICT_INFLIGHT` (90_conflicts.md C1). -/
  strictInflight : Bool := false
  /-- `CAPS[d]`, one 11-bit mask per device; a device with no entry has all hooks. -/
  caps           : List (BitVec 11) := []
  /-- `HOST_ROLE[d]`, one flag per device; a device with no entry has 0. -/
  hostRole       : List Bool := []
  /-- `SPEEDMASK[p]`, one mask per port; a port with no entry has 0. No rule reads it. -/
  speedMask      : List Nat := []
deriving DecidableEq, Repr

/-- `N_DEV`, `N_PORT`, `N_PKT` at launch, with the defaults of R5. -/
structure Sizes where
  nDev  : Nat := 4
  nPort : Nat := 4
  nPkt  : Nat := 16
deriving DecidableEq, Repr

namespace Config

/-- The defaults of R5. -/
def default : Config := {}

/-- The limits R5 sets on the parameters (and log 16 on `HADDR_BITS`; `iov_cnt` is 8 bits wide,
10_state.md R25). -/
abbrev Legal (c : Config) : Prop :=
  1 ≤ c.ctrlBufSize ∧ c.ctrlBufSize ≤ 65536 ∧ c.iovMax ≤ 255 ∧ c.haddrBits ≤ 32

/-- The bytes of host memory, `2^HADDR_BITS` (20_memory.md R40). -/
def hostSize (c : Config) : Nat := 2 ^ c.haddrBits

/-- The backend's answers as a free input (00_scope.md R7, 93 I8): the value of the n-th response
the block takes when the channel holds none. It has no body, so nothing can be proved of it
(log 6). -/
opaque freeResp : Nat → Resp

/-- What an unlisted byte of a memory reads as: `data_buf` is all 0 at reset (10_state.md R15);
for host memory, whose launch contents the spec leaves to the launch (20_memory.md R40), it is a
convention of the representation (log 3, DESIGN CHOICE). -/
def unlistedByte : Byte := 0#8

end Config

end Sys2Proof
end

