-- ==== Sys2Proof/WellFormed.lean ====
section
/-! DEFINITION. The operand checks that depend on a command and the sizes alone (spec
30_encoding.md R62 (b) (c) (d), 40_endpoint_config.md R75). A command that fails one is not
executed: it raises the contract violation named beside the check. -/

namespace Sys2Proof

/-- What the operand checks need to know of the machine. -/
structure Limits where
  nDev      : Nat
  nPort     : Nat
  nPkt      : Nat
  haddrBits : Nat
deriving DecidableEq, Repr

namespace WellFormed

/-- A device operand where a device is needed: not `0xFF`, below `N_DEV` (cause 5; R62 (c)). -/
def device (l : Limits) (d : Index) : Bool := d != noIndex && decide (d.toNat < l.nDev)

/-- A device operand where `0xFF` is allowed: SUBMIT and PORT_BIND (cause 5; R59, R60, R62 (c)). -/
def deviceOrNone (l : Limits) (d : Index) : Bool := d == noIndex || decide (d.toNat < l.nDev)

/-- A port operand below `N_PORT` (cause 16; R62 (c)). -/
def port (l : Limits) (p : Index) : Bool := decide (p.toNat < l.nPort)

/-- A packet operand below `N_PKT` (cause 16; R62 (c)). -/
def packet (l : Limits) (k : Index) : Bool := decide (k.toNat < l.nPkt)

/-- An endpoint number of at most 15 (cause 4; R75). -/
def endpoint (n : Index) : Bool := decide (n.toNat ≤ 15)

/-- A token that is not the reserved value 0 (cause 16; R62 (d)). -/
def token (t : Token) : Bool := t != .reserved

/-- A segment address with no bit set above `HADDR_BITS` (cause 16; R59, R62 (b)). -/
def hostAddr (l : Limits) (a : Word) : Bool := decide (a.toNat < 2 ^ l.haddrBits)

end WellFormed

/-- Every operand check of a command that does not depend on the run. -/
def Instr.wellFormed (l : Limits) : Instr → Bool
  | .epSetType d n _ _       => WellFormed.device l d && WellFormed.endpoint n
  | .epSetIfnum d n _ _      => WellFormed.device l d && WellFormed.endpoint n
  | .epSetMps d n _ _        => WellFormed.device l d && WellFormed.endpoint n
  | .epSetPipe d n _ _       => WellFormed.device l d && WellFormed.endpoint n
  | .epSetHalt d n _ _       => WellFormed.device l d && WellFormed.endpoint n
  | .epGet d n _             => WellFormed.device l d && WellFormed.endpoint n
  | .pktSetup k d n t _ _ _ _ =>
      WellFormed.packet l k && WellFormed.device l d && WellFormed.token t && WellFormed.endpoint n
  | .pktIovAdd k a _         => WellFormed.packet l k && WellFormed.hostAddr l a
  | .pktSetParam k _         => WellFormed.packet l k
  | .submit k d              => WellFormed.packet l k && WellFormed.deviceOrNone l d
  | .cancel k                => WellFormed.packet l k
  | .complete k              => WellFormed.packet l k
  | .pktRead k               => WellFormed.packet l k
  | .portBind p d            => WellFormed.port l p && WellFormed.deviceOrNone l d
  | .attach p                => WellFormed.port l p
  | .detach p                => WellFormed.port l p
  | .resetPort p             => WellFormed.port l p
  | .findDevice p _          => WellFormed.port l p
  | .devSetAddr d _          => WellFormed.device l d
  | .devSetRwake d _         => WellFormed.device l d

end Sys2Proof
end

