-- ==== Sys2Proof/Decode.lean ====
section
/-! DEFINITION. The command decoder and encoder (spec 30_encoding.md R55 to R64), the wire form of
a backend response (R67), the pseudo-instructions (R66) and the assembler text (R65). -/

namespace Sys2Proof

/-- The opcodes of R61. -/
inductive Opcode where
  | epSetType | epSetIfnum | epSetMps | epSetPipe | epSetHalt | epGet
  | pktSetup | pktIovAdd | pktSetParam | submit | cancel | complete | pktRead
  | portBind | attach | detach | resetPort | findDevice | devSetAddr | devSetRwake
deriving DecidableEq, Repr

/-- A bit field of a word: `width` bits from bit `lo` up (R8). -/
def field (lo width : Nat) (w : Word) : BitVec width := w.extractLsb' lo width

namespace Opcode

/-- The opcode map (R61). -/
def code : Opcode → BitVec 8
  | epSetType => 0x01 | epSetIfnum => 0x02 | epSetMps => 0x03
  | epSetPipe => 0x04 | epSetHalt => 0x05 | epGet => 0x06
  | pktSetup => 0x10 | pktIovAdd => 0x11 | pktSetParam => 0x12
  | submit => 0x13 | cancel => 0x14 | complete => 0x15 | pktRead => 0x16
  | portBind => 0x20 | attach => 0x21 | detach => 0x22 | resetPort => 0x23
  | findDevice => 0x24 | devSetAddr => 0x25 | devSetRwake => 0x26

/-- The rows of the opcode map, in its order. -/
def all : List Opcode :=
  [epSetType, epSetIfnum, epSetMps, epSetPipe, epSetHalt, epGet,
   pktSetup, pktIovAdd, pktSetParam, submit, cancel, complete, pktRead,
   portBind, attach, detach, resetPort, findDevice, devSetAddr, devSetRwake]

/-- The opcode a code stands for; every code not in R61 is illegal (R62 (a), R63). -/
def ofCode (c : BitVec 8) : Option Opcode := all.find? fun o => o.code == c

/-- The number of words of a command, fixed by its opcode (R57). -/
def words : Opcode → Nat
  | epSetType | epSetIfnum | epSetMps | epSetPipe | epSetHalt => 2
  | pktSetup | pktIovAdd | pktSetParam => 3
  | epGet | submit | cancel | complete | pktRead
  | portBind | attach | detach | resetPort | findDevice | devSetAddr | devSetRwake => 1

/-- The fields of `w0` that must be 0, as (low bit, width) (R56, R58 to R60). -/
def zero0 : Opcode → List (Nat × Nat)
  | epSetType | epSetIfnum | epSetMps | epSetPipe | epSetHalt | epGet => [(0, 7)]
  | pktSetup => []
  | pktIovAdd | pktSetParam | cancel | complete | pktRead => [(0, 16)]
  | submit => [(0, 8)]
  | attach | detach | resetPort => [(0, 16)]
  | portBind | findDevice | devSetAddr => [(0, 8)]
  | devSetRwake => [(0, 8), (9, 7)]

/-- The fields of `w1` that must be 0 (R58, R59). The high bits of a PKT_IOV_ADD address depend on
`HADDR_BITS` and are checked where the command runs. -/
def zero1 : Opcode → List (Nat × Nat)
  | epSetType => [(3, 29)]
  | epSetIfnum => [(8, 24)]
  | epSetMps => [(16, 16)]
  | epSetPipe | epSetHalt => [(1, 31)]
  | pktSetup => [(2, 6), (10, 6)]
  | epGet | pktIovAdd | pktSetParam | submit | cancel | complete | pktRead
  | portBind | attach | detach | resetPort | findDevice | devSetAddr | devSetRwake => []

end Opcode

/-- Whether every field of a list is 0 in a word. -/
def fieldsZero (fs : List (Nat × Nat)) (w : Word) : Bool :=
  fs.all fun f => field f.1 f.2 w == 0

/-- A one-bit field as a flag. -/
def flagOf (b : BitVec 1) : Bool := b == 1#1

/-- A flag as a one-bit field. -/
def flagBit (b : Bool) : BitVec 1 := if b then 1#1 else 0#1

/-- The direction bit of an endpoint operand (R58). -/
def Dir.ofBit (b : BitVec 1) : Dir := if b == 1#1 then .inn else .out

/-- The direction bit of an endpoint operand (R58). -/
def Dir.bit : Dir → BitVec 1
  | .inn => 1#1
  | .out => 0#1

/-- The token codes (10_state.md R25). -/
def Token.code : Token → BitVec 2
  | .reserved => 0#2
  | .setup => 1#2
  | .inn => 2#2
  | .out => 3#2

/-- The token a code stands for (10_state.md R25). -/
def Token.ofCode (c : BitVec 2) : Token :=
  if c == 1#2 then .setup else if c == 2#2 then .inn else if c == 3#2 then .out else .reserved

/-- The command of an opcode from its words; words past the command's length are not read
(R58 to R60). -/
def Opcode.build (o : Opcode) (w0 w1 w2 : Word) : Instr :=
  let a := field 16 8 w0
  let b := field 8 8 w0
  let c := field 0 8 w0
  let dir := Dir.ofBit (field 7 1 w0)
  match o with
  | .epSetType => .epSetType a b dir (field 0 3 w1)
  | .epSetIfnum => .epSetIfnum a b dir (field 0 8 w1)
  | .epSetMps => .epSetMps a b dir (field 0 16 w1)
  | .epSetPipe => .epSetPipe a b dir (flagOf (field 0 1 w1))
  | .epSetHalt => .epSetHalt a b dir (flagOf (field 0 1 w1))
  | .epGet => .epGet a b dir
  | .pktSetup =>
      .pktSetup a b c (Token.ofCode (field 0 2 w1)) (flagOf (field 8 1 w1)) (flagOf (field 9 1 w1))
        (field 16 16 w1) w2
  | .pktIovAdd => .pktIovAdd a w1 w2
  | .pktSetParam => .pktSetParam a (w2 ++ w1)
  | .submit => .submit a b
  | .cancel => .cancel a
  | .complete => .complete a
  | .pktRead => .pktRead a
  | .portBind => .portBind a b
  | .attach => .attach a
  | .detach => .detach a
  | .resetPort => .resetPort a
  | .findDevice => .findDevice a b
  | .devSetAddr => .devSetAddr a b
  | .devSetRwake => .devSetRwake a (flagOf (field 8 1 w0))

/-- Why a command is not taken as an instruction (R62). -/
inductive Reject where
  /-- The opcode is not in R61 (R62 (a), cause 14). -/
  | badOpcode
  /-- A field that must be 0 is not (R62 (b), cause 16). -/
  | reservedBits
deriving DecidableEq, Repr

/-- What the command port holds at its head (R55, R57). -/
inductive Fetched where
  /-- No command, or not all words of one: the block waits (R55). -/
  | waiting
  /-- A whole command that is illegal, its first word, and the words behind it. -/
  | rejected (r : Reject) (w0 : Word) (rest : List Word)
  /-- A whole command and the words behind it. -/
  | command (i : Instr) (rest : List Word)
deriving DecidableEq, Repr

/-- The command of an opcode's whole words, or its refusal (R62 (b)). -/
def decodeWords (o : Opcode) (w0 w1 w2 : Word) (rest : List Word) : Fetched :=
  if fieldsZero o.zero0 w0 && fieldsZero o.zero1 w1 then .command (o.build w0 w1 w2) rest
  else .rejected .reservedBits w0 rest

/-- The decoder: total on every list of words. An unknown opcode is a one-word command (R57). -/
def decode : List Word → Fetched
  | [] => .waiting
  | w0 :: ws =>
    match Opcode.ofCode (field 24 8 w0) with
    | none => .rejected .badOpcode w0 ws
    | some o =>
      match o.words, ws with
      | 1, ws => decodeWords o w0 0#32 0#32 ws
      | 2, w1 :: ws => decodeWords o w0 w1 0#32 ws
      | 3, w1 :: w2 :: ws => decodeWords o w0 w1 w2 ws
      | _, _ => .waiting

/-- The opcode of a command (R61). -/
def Instr.opcode : Instr → Opcode
  | .epSetType .. => .epSetType
  | .epSetIfnum .. => .epSetIfnum
  | .epSetMps .. => .epSetMps
  | .epSetPipe .. => .epSetPipe
  | .epSetHalt .. => .epSetHalt
  | .epGet .. => .epGet
  | .pktSetup .. => .pktSetup
  | .pktIovAdd .. => .pktIovAdd
  | .pktSetParam .. => .pktSetParam
  | .submit .. => .submit
  | .cancel .. => .cancel
  | .complete .. => .complete
  | .pktRead .. => .pktRead
  | .portBind .. => .portBind
  | .attach .. => .attach
  | .detach .. => .detach
  | .resetPort .. => .resetPort
  | .findDevice .. => .findDevice
  | .devSetAddr .. => .devSetAddr
  | .devSetRwake .. => .devSetRwake

/-- The first word from its four bytes (R56). -/
def word0 (o : Opcode) (a b c : BitVec 8) : Word := o.code ++ a ++ b ++ c

/-- The third byte of a format E command: the direction bit over seven zeros (R58). -/
def dirByte (d : Dir) : BitVec 8 := d.bit ++ 0#7

/-- The encoder (R56 to R60). -/
def encode : Instr → List Word
  | .epSetType d n dir ty => [word0 .epSetType d n (dirByte dir), 0#29 ++ ty]
  | .epSetIfnum d n dir v => [word0 .epSetIfnum d n (dirByte dir), 0#24 ++ v]
  | .epSetMps d n dir raw => [word0 .epSetMps d n (dirByte dir), 0#16 ++ raw]
  | .epSetPipe d n dir f => [word0 .epSetPipe d n (dirByte dir), 0#31 ++ flagBit f]
  | .epSetHalt d n dir f => [word0 .epSetHalt d n (dirByte dir), 0#31 ++ flagBit f]
  | .epGet d n dir => [word0 .epGet d n (dirByte dir)]
  | .pktSetup k d n t so ir st id =>
      [word0 .pktSetup k d n,
       st ++ 0#6 ++ flagBit ir ++ flagBit so ++ 0#6 ++ t.code, id]
  | .pktIovAdd k a l => [word0 .pktIovAdd k 0 0, a, l]
  | .pktSetParam k p => [word0 .pktSetParam k 0 0, p.extractLsb' 0 32, p.extractLsb' 32 32]
  | .submit k d => [word0 .submit k d 0]
  | .cancel k => [word0 .cancel k 0 0]
  | .complete k => [word0 .complete k 0 0]
  | .pktRead k => [word0 .pktRead k 0 0]
  | .portBind p d => [word0 .portBind p d 0]
  | .attach p => [word0 .attach p 0 0]
  | .detach p => [word0 .detach p 0 0]
  | .resetPort p => [word0 .resetPort p 0 0]
  | .findDevice p a => [word0 .findDevice p a 0]
  | .devSetAddr d a => [word0 .devSetAddr d a 0]
  | .devSetRwake d f => [word0 .devSetRwake d (0#7 ++ flagBit f) 0]

/-- The first word of a command, which a fault records (60_exceptions.md R171, R173). -/
def Instr.firstWord (i : Instr) : Word := (encode i).headD 0#32

/-- The words of a command numbered as one bit string: bit 0 is the least significant bit of the
first word, and a later word's bits count on from it. Three words are the longest command (R57). -/
def tableWords (w : Nat) : List Word :=
  [BitVec.ofNat 32 w, BitVec.ofNat 32 (w / 2 ^ 32), BitVec.ofNat 32 (w / 2 ^ 64)]

/-- Those words that belong to the command: as many as its opcode says, one for an unknown
opcode (R57). -/
def tableCommand (w : Nat) : List Word :=
  let ws := tableWords w
  match Opcode.ofCode (field 24 8 (ws.headD 0#32)) with
  | some o => ws.take o.words
  | none => ws.take 1

/-- The instruction the decoder reads from a word of the opcode table; bits at or above `nbits`
are 0. -/
def decodeTableWord (nbits w : Nat) : Option Instr :=
  match decode (tableCommand (w % 2 ^ nbits)) with
  | .command i _ => some i
  | .rejected _ _ _ => none
  | .waiting => none

/-! ### The wire form of a response (R67) -/

/-- Data bytes packed four to a word, byte `i` in bits `8 (i mod 4) + 7 : 8 (i mod 4)` of word
`i div 4`, unused bits 0 (R67). -/
def packBytes : List Byte → List Word
  | [] => []
  | [a] => [0#24 ++ a]
  | [a, b] => [0#16 ++ b ++ a]
  | [a, b, c] => [0#8 ++ c ++ b ++ a]
  | a :: b :: c :: d :: rest => (d ++ c ++ b ++ a) :: packBytes rest

/-- The first `n` bytes of packed words and the words behind them; `none` when words are missing
or an unused bit is set (R67). -/
def unpackBytes : List Word → Nat → Option (List Byte × List Word)
  | ws, 0 => some ([], ws)
  | [], _ + 1 => none
  | w :: ws, 1 => if field 8 24 w == 0 then some ([field 0 8 w], ws) else none
  | w :: ws, 2 => if field 16 16 w == 0 then some ([field 0 8 w, field 8 8 w], ws) else none
  | w :: ws, 3 =>
      if field 24 8 w == 0 then some ([field 0 8 w, field 8 8 w, field 16 8 w], ws) else none
  | w :: ws, n + 4 =>
      match unpackBytes ws n with
      | some (bs, rest) => some (field 0 8 w :: field 8 8 w :: field 16 8 w :: field 24 8 w :: bs, rest)
      | none => none

/-- A response as words: `n`, then the status in bits 2:0 of a word, then the packed data (R67). -/
def Resp.toWire (r : Resp) : List Word := r.n :: (0#29 ++ r.status) :: packBytes r.data

/-- A response read from words. `produces` says whether the response it answers carries data, since
the record's length does not say it (R67, R100). -/
def Resp.ofWire (produces : Bool) : List Word → Option (Resp × List Word)
  | n :: w :: ws =>
      if field 3 29 w == 0 then
        match unpackBytes ws (if produces then n.toNat else 0) with
        | some (bs, rest) => some (⟨field 0 3 w, n, bs⟩, rest)
        | none => none
      else none
  | _ => none

/-! ### Pseudo-instructions (R66) -/

/-- `EP_CONFIG d, ep, type, ifnum, raw`. -/
def epConfig (d n : Index) (dir : Dir) (ty : BitVec 3) (ifnum : BitVec 8) (raw : BitVec 16) :
    List Instr :=
  [.epSetType d n dir ty, .epSetIfnum d n dir ifnum, .epSetMps d n dir raw]

/-- `PKT_PREP k, d, token, n, addr, len`. -/
def pktPrep (k d : Index) (t : Token) (n : Index) (addr len : Word) : List Instr :=
  [.pktSetup k d n t false false 0 0, .pktIovAdd k addr len]

/-- `PLUG p, d`. -/
def plug (p d : Index) : List Instr := [.portBind p d, .attach p]

/-! ### Assembler text (R65) -/

/-- A device operand: `d0`, `d1`, ... or `dnone`. -/
def asmDevice (d : Index) : String := if d == noIndex then "dnone" else "d" ++ d.toNat.repr

/-- An endpoint operand: `in N`, `out N` or `ep0` (number 0, direction bit 0). R65 names no text for
number 0 with direction bit 1; `in 0` is the model's choice, so that the text gives back the word
(log 27, DESIGN CHOICE). -/
def asmEndpoint (n : Index) (dir : Dir) : String :=
  if n == 0 && dir == .out then "ep0"
  else (match dir with | .inn => "in " | .out => "out ") ++ n.toNat.repr

/-- A token operand; the reserved token has no name in R65 and is written as its number (log 27,
DESIGN CHOICE). -/
def asmToken : Token → String
  | .reserved => "0"
  | .setup => "SETUP"
  | .inn => "IN"
  | .out => "OUT"

/-- A type operand by its name, or its number where R65 gives it none. -/
def asmType (t : BitVec 3) : String :=
  if t == 0 then "control" else if t == 1 then "bulk" else if t == 2 then "interrupt"
  else if t == 3 then "iso" else t.toNat.repr

/-- A flag operand. -/
def asmFlag (f : Bool) : String := if f then "1" else "0"

/-- A mnemonic and its operands, separated by commas. -/
def asmLine (mnemonic : String) (operands : List String) : String :=
  mnemonic ++ " " ++ ", ".intercalate operands

/-- The textual form of a command, numbers in decimal (R65). -/
def Instr.asm : Instr → String
  | .epSetType d n dir t => asmLine "EP_SET_TYPE" [asmDevice d, asmEndpoint n dir, asmType t]
  | .epSetIfnum d n dir v => asmLine "EP_SET_IFNUM" [asmDevice d, asmEndpoint n dir, v.toNat.repr]
  | .epSetMps d n dir v => asmLine "EP_SET_MPS" [asmDevice d, asmEndpoint n dir, v.toNat.repr]
  | .epSetPipe d n dir f => asmLine "EP_SET_PIPE" [asmDevice d, asmEndpoint n dir, asmFlag f]
  | .epSetHalt d n dir f => asmLine "EP_SET_HALT" [asmDevice d, asmEndpoint n dir, asmFlag f]
  | .epGet d n dir => asmLine "EP_GET" [asmDevice d, asmEndpoint n dir]
  | .pktSetup k d n t so ir st id =>
      asmLine "PKT_SETUP" (["k" ++ k.toNat.repr, asmDevice d, asmToken t, n.toNat.repr,
        st.toNat.repr, id.toNat.repr] ++ (if so then ["short_ok"] else []) ++
        (if ir then ["int_req"] else []))
  | .pktIovAdd k a l => asmLine "PKT_IOV_ADD" ["k" ++ k.toNat.repr, a.toNat.repr, l.toNat.repr]
  | .pktSetParam k p => asmLine "PKT_SET_PARAM" ["k" ++ k.toNat.repr, p.toNat.repr]
  | .submit k d => asmLine "SUBMIT" ["k" ++ k.toNat.repr, asmDevice d]
  | .cancel k => asmLine "CANCEL" ["k" ++ k.toNat.repr]
  | .complete k => asmLine "COMPLETE" ["k" ++ k.toNat.repr]
  | .pktRead k => asmLine "PKT_READ" ["k" ++ k.toNat.repr]
  | .portBind p d => asmLine "PORT_BIND" ["p" ++ p.toNat.repr, asmDevice d]
  | .attach p => asmLine "ATTACH" ["p" ++ p.toNat.repr]
  | .detach p => asmLine "DETACH" ["p" ++ p.toNat.repr]
  | .resetPort p => asmLine "RESET_PORT" ["p" ++ p.toNat.repr]
  | .findDevice p a => asmLine "FIND_DEVICE" ["p" ++ p.toNat.repr, a.toNat.repr]
  | .devSetAddr d a => asmLine "DEV_SET_ADDR" [asmDevice d, a.toNat.repr]
  | .devSetRwake d f => asmLine "DEV_SET_RWAKE" [asmDevice d, asmFlag f]

end Sys2Proof
end

