-- ==== Sys2Proof/Machine/State.lean ====
section
/-! DEFINITION. The state of the block (spec 10_state.md, 60_exceptions.md R171, R181), the reasons
a step can stop, and the state after a hardware reset (70_reset_and_hazards.md R196). -/

namespace Sys2Proof.Machine

/-- A byte-addressed space as (address, byte) pairs in canonical form: addresses strictly rising,
no byte equal to `Config.unlistedByte`. Host memory and each device's data buffer are held so
(R29; log 3, log 14). -/
abbrev Memory := List Host.Cell

/-- Status codes, each with its code in Flags.lean (R27). 6 and 7 are never written. -/
inductive Status where
  | success
  | noDevice
  | nak
  | stall
  | async
  | addToQueue
deriving DecidableEq, Repr, Inhabited

/-- Packet lifecycle states (R24). 5 to 7 never occur. -/
inductive PktState where
  | setup
  | queued
  | async
  | complete
  | canceled
deriving DecidableEq, Repr, Inhabited

/-- Device lifecycle states (R16). The block never writes `addressed` or `configured` (log 19). -/
inductive DevState where
  | notAttached
  | attached
  | default
  | addressed
  | configured
deriving DecidableEq, Repr, Inhabited

/-- Control states (R17). 5 to 7 never occur. -/
inductive CtlState where
  | idle
  | setup
  | data
  | ack
  | param
deriving DecidableEq, Repr, Inhabited

/-- The causes of a contract violation (R172), each with its number in Ops.lean. -/
inductive Cause where
  | setupInflight
  | submitState
  | cancelState
  | epRange
  | devAbsent
  | copyOverrun
  | haltQueue
  | isoAsync
  | intAsync
  | inflightLimit
  | attachState
  | detachState
  | completeState
  | badOpcode
  | badStatus
  | badOperand
  | pktInvalid
  | pktNotSetup
  | devMismatch
  | bindState
  | order
deriving DecidableEq, Repr, Inhabited

/-- The 31 endpoints of a device: the control endpoint, `ep_in[i+1]` and `ep_out[i+1]` (R19). -/
inductive EpId where
  | ctl
  | inn (i : Fin 15)
  | out (i : Fin 15)
deriving DecidableEq, Repr

/-- One endpoint of one device (R19). -/
structure EpRef where
  dev : Index
  ep  : EpId
deriving DecidableEq, Repr

/-- An endpoint (R20). `type` keeps the values 4 to 6 as written (R76). -/
structure Endpoint where
  type          : BitVec 3
  ifnum         : BitVec 8
  maxPacketSize : BitVec 11
  halted        : Bool
  pipeline      : Bool
  queue         : List Index
deriving DecidableEq, Repr, Inhabited

/-- The 8-byte setup buffer (R15). -/
structure SetupBuf where
  b0 : Byte
  b1 : Byte
  b2 : Byte
  b3 : Byte
  b4 : Byte
  b5 : Byte
  b6 : Byte
  b7 : Byte
deriving DecidableEq, Repr, Inhabited

/-- A device context (R15). -/
structure Device where
  attached     : Bool
  addr         : BitVec 8
  state        : DevState
  remoteWakeup : Bool
  port         : Index
  setupBuf     : SetupBuf
  ctlState     : CtlState
  dataBuf      : Memory
  setupLen     : BitVec 16
  setupIndex   : BitVec 16
  epCtl        : Endpoint
  epIn         : Vector Endpoint 15
  epOut        : Vector Endpoint 15
deriving DecidableEq, Repr

/-- One segment of an I/O vector (R25). -/
structure Segment where
  addr : Word
  len  : Word
deriving DecidableEq, Repr, Inhabited

/-- A packet slot (R25). `iov` lists the segments in use, so `iov_cnt` is its length (log 13). -/
structure Packet where
  valid        : Bool
  id           : Word
  token        : Token
  dev          : Index
  epDir        : Dir
  epNr         : BitVec 4
  stream       : BitVec 16
  status       : Status
  actualLength : Word
  parameter    : BitVec 64
  shortOk      : Bool
  intReq       : Bool
  iov          : List Segment
  state        : PktState
  combined     : Index
deriving DecidableEq, Repr, Inhabited

/-- A port (R13). -/
structure Port where
  dev : Index
deriving DecidableEq, Repr, Inhabited

/-- The events that leave the block (R181). -/
inductive Event where
  | handleControl (d k : Index) (request value index length : BitVec 16) (payload : List Byte)
  | handleData (d k : Index)
  | outBytes (d k : Index) (bytes : List Byte)
  | cancelHook (d k : Index)
  | attachHook (d : Index)
  | resetHook (d : Index)
  | findHook (d : Index) (addr : BitVec 8)
  | portAttach (p d : Index)
  | portDetach (p d : Index)
  | complete (k : Index) (id : Word) (intReq : Bool)
deriving DecidableEq, Repr

/-- The state of the block, its inputs and its configuration. -/
structure State where
  /-- The parameters of R5, constant over a run (log 1). -/
  cfg       : Config
  /-- The fault latch (R12, R171). -/
  fault     : Bool
  fcause    : BitVec 8
  finfo     : Word
  /-- The result registers (R10). -/
  res0      : Word
  res1      : Word
  res2      : Word
  res3      : Word
  /-- `N_PORT` ports (R13). -/
  ports     : List Port
  /-- `N_DEV` device contexts (R14). -/
  devs      : List Device
  /-- `N_PKT` packet slots (R23). -/
  pkts      : List Packet
  /-- Host memory (20_memory.md R40). -/
  hmem      : Memory
  /-- The events emitted so far, oldest first (R181). -/
  trace     : List Event
  /-- Input: words on the command port not yet taken, first word first (R55; log 4). -/
  cmds      : List Word
  /-- Input: responses on the response channel not yet taken (R67; log 6). -/
  resps     : List Resp
  /-- How many free responses the block has taken (log 6). -/
  respCount : Nat
  /-- Input: the hardware reset line (70_reset_and_hazards.md R195; log 15). -/
  resetIn   : Bool
deriving DecidableEq, Repr

/-- Why the machine stops with a fault. A contract violation is no such stop: it is a next state
with the fault latch set (60_exceptions.md R171; log 7). -/
inductive Fault where
  /-- Raised by the byte mover (Ops.lean, `vectorRead` and `vectorWrite`) when a position of an I/O
  vector has no address below `2^HADDR_BITS`. The spec says no such access is made (20_memory.md
  R41) because PKT_IOV_ADD refuses the segment (R92), so no run reaches it. Safe (log 17). -/
  | hostAddress
deriving DecidableEq, Repr

/-- Why a command has no meaning. -/
inductive Refusal where
  /-- Raised by an arm of Dispatch.lean whose command has no meaning yet; no arm does. Safe. -/
  | notModelled (mnemonic : String)
deriving DecidableEq, Repr

/-- The outcome of a step of this machine. -/
abbrev Outcome := Host.Outcome State Fault Refusal

/-- A control endpoint at reset: type Control, max packet size 64 (R21, R196). -/
def Endpoint.resetCtl : Endpoint := ⟨0#3, 0#8, 64#11, false, false, []⟩

/-- Any other endpoint at reset: type Invalid, max packet size 0 (R21, R196). -/
def Endpoint.resetOther : Endpoint := ⟨7#3, 0#8, 0#11, false, false, []⟩

/-- A device context at reset (R15, R196). -/
def Device.reset : Device where
  attached     := false
  addr         := 0
  state        := .notAttached
  remoteWakeup := false
  port         := noIndex
  setupBuf     := ⟨0, 0, 0, 0, 0, 0, 0, 0⟩
  ctlState     := .idle
  dataBuf      := []
  setupLen     := 0
  setupIndex   := 0
  epCtl        := Endpoint.resetCtl
  epIn         := Vector.replicate 15 Endpoint.resetOther
  epOut        := Vector.replicate 15 Endpoint.resetOther

/-- A packet slot at reset (R25, R196). -/
def Packet.reset : Packet where
  valid        := false
  id           := 0
  token        := .reserved
  dev          := noIndex
  epDir        := .out
  epNr         := 0
  stream       := 0
  status       := .success
  actualLength := 0
  parameter    := 0
  shortOk      := false
  intReq       := false
  iov          := []
  state        := .setup
  combined     := noIndex

/-- A port at reset (R13, R196). -/
def Port.reset : Port := ⟨noIndex⟩

/-- The state right after a hardware reset, for any configuration, sizes and launch memory
(70_reset_and_hazards.md R195, R196). -/
def State.resetWith (c : Config) (z : Sizes) (m : Memory) : State where
  cfg       := c
  fault     := false
  fcause    := 0
  finfo     := 0
  res0      := 0
  res1      := 0
  res2      := 0
  res3      := 0
  ports     := List.replicate z.nPort Port.reset
  devs      := List.replicate z.nDev Device.reset
  pkts      := List.replicate z.nPkt Packet.reset
  hmem      := m
  trace     := []
  cmds      := []
  resps     := []
  respCount := 0
  resetIn   := false

/-- The machine right after reset with the default parameters of R5 and nothing listed in host
memory (R196; log 1, log 3). -/
def State.reset : State := State.resetWith Config.default {} []

end Sys2Proof.Machine
end

