-- ==== Sys2Proof/Machine/Ops.lean ====
section
/-! DEFINITION. The shared operations over registers, devices, packets, memory and the outside
channels; taking a contract violation (60_exceptions.md R171) and the hardware reset, the only
return from it (R177); the byte mover (20_memory.md R43, R44). -/

namespace Sys2Proof.Machine

/-! ### Ports, devices, endpoints and packets

An index that names no port, device or packet reads as its reset value and a write to it is
dropped; no rule makes such an access in a state a run reaches (log 22). -/

/-- `N_DEV`, `N_PORT`, `N_PKT` and `HADDR_BITS` of a machine (R5). -/
def State.limits (s : State) : Limits := ⟨s.devs.length, s.ports.length, s.pkts.length, s.cfg.haddrBits⟩

/-- `port[p]` (R8, R13). -/
def State.port (s : State) (p : Index) : Port := s.ports.getD p.toNat Port.reset

/-- `dev[d]` (R8, R14). -/
def State.dev (s : State) (d : Index) : Device := s.devs.getD d.toNat Device.reset

/-- `pkt[k]` (R8, R23). -/
def State.pkt (s : State) (k : Index) : Packet := s.pkts.getD k.toNat Packet.reset

/-- Writes to fields of `port[p]`. -/
def State.updPort (s : State) (p : Index) (f : Port → Port) : State :=
  { s with ports := s.ports.modify p.toNat f }

/-- Writes to fields of `dev[d]`. -/
def State.updDev (s : State) (d : Index) (f : Device → Device) : State :=
  { s with devs := s.devs.modify d.toNat f }

/-- Writes to fields of `pkt[k]`. -/
def State.updPkt (s : State) (k : Index) (f : Packet → Packet) : State :=
  { s with pkts := s.pkts.modify k.toNat f }

/-- An endpoint of a device (R19). -/
def Device.endpoint (D : Device) : EpId → Endpoint
  | .ctl => D.epCtl
  | .inn i => D.epIn.get i
  | .out i => D.epOut.get i

/-- Writes to fields of an endpoint of a device. -/
def Device.updEndpoint (D : Device) (e : EpId) (f : Endpoint → Endpoint) : Device :=
  match e with
  | .ctl => { D with epCtl := f D.epCtl }
  | .inn i => { D with epIn := D.epIn.set i (f (D.epIn.get i)) }
  | .out i => { D with epOut := D.epOut.set i (f (D.epOut.get i)) }

/-- `dev[d].ep(dir, n)` (R8). -/
def State.ep (s : State) (r : EpRef) : Endpoint := (s.dev r.dev).endpoint r.ep

/-- Writes to fields of an endpoint. -/
def State.updEp (s : State) (r : EpRef) (f : Endpoint → Endpoint) : State :=
  s.updDev r.dev fun D => D.updEndpoint r.ep f

/-- The endpoint with number `nr` in the array `dir` names; number 0 is the control endpoint
whatever the direction (R19, R75). -/
def epId (dir : Dir) (nr : Nat) : EpId :=
  if nr = 0 then .ctl
  else match dir with
    | .inn => .inn (Fin.ofNat 15 (nr - 1))
    | .out => .out (Fin.ofNat 15 (nr - 1))

/-- The owning endpoint of a packet, the triple (`dev`, `ep_dir`, `ep_nr`) (R25). -/
def Packet.endpoint (P : Packet) : EpRef := ⟨P.dev, epId P.epDir P.epNr.toNat⟩

/-- Whether `CAPS[d]` has hook bit `b` (R18, R158). -/
def State.hasHook (s : State) (d : Index) (b : Nat) : Bool :=
  (s.cfg.caps.getD d.toNat (BitVec.allOnes 11)).getLsbD b

/-- `HOST_ROLE[d]` (R5). -/
def State.hostRole (s : State) (d : Index) : Bool := s.cfg.hostRole.getD d.toNat false

/-! ### Memory (20_memory.md R40 to R42) -/

/-- One byte (R41). -/
def Memory.read : Memory → Nat → Byte
  | [], _ => Config.unlistedByte
  | (a, b) :: m, x => if a = x then b else Memory.read m x

/-- One byte stored, keeping the canonical form (R42). -/
def Memory.write : Memory → Nat → Byte → Memory
  | [], x, v => if v = Config.unlistedByte then [] else [(x, v)]
  | (a, b) :: m, x, v =>
    if x < a then
      if v = Config.unlistedByte then (a, b) :: m else (x, v) :: (a, b) :: m
    else if a = x then
      if v = Config.unlistedByte then m else (x, v) :: m
    else (a, b) :: Memory.write m x v

/-- `n` bytes from an address, lowest first (R41). -/
def Memory.readList (m : Memory) (x : Nat) : Nat → List Byte
  | 0 => []
  | n + 1 => m.read x :: Memory.readList m (x + 1) n

/-- Bytes stored in rising order from an address (R42). -/
def Memory.writeList : Memory → Nat → List Byte → Memory
  | m, _, [] => m
  | m, x, b :: bs => Memory.writeList (m.write x b) (x + 1) bs

/-- The canonical form: addresses strictly rising and below a bound, no entry equal to an unlisted
byte. -/
def Memory.wfFrom : Nat → Memory → Bool
  | _, [] => true
  | lo, (a, b) :: m => decide (lo ≤ a) && b != Config.unlistedByte && Memory.wfFrom (a + 1) m

/-- The canonical form of a memory (log 3, log 14). -/
def Memory.wf (m : Memory) : Bool := Memory.wfFrom 0 m

/-- Whether every listed address is below a bound. -/
def Memory.below (m : Memory) (bound : Nat) : Bool := m.all fun c => decide (c.1 < bound)

/-! ### Running a command -/

/-- How a part of a command ends: it goes on, it raises a contract violation with the writes made
so far (60_exceptions.md R171), or the model stops (log 17). -/
inductive Run (α : Type) where
  | ok (a : α) (s : State)
  | raised (c : Cause) (s : State)
  | stopped (f : Fault)
deriving DecidableEq, Repr

/-- One part of a command after another, in the order written (R8). -/
def Run.bind {α β : Type} (x : Run α) (f : α → State → Run β) : Run β :=
  match x with
  | .ok a s => f a s
  | .raised c s => .raised c s
  | .stopped e => .stopped e

/-- The cause codes (60_exceptions.md R172). -/
def Cause.code : Cause → BitVec 8
  | .setupInflight => 1
  | .submitState => 2
  | .cancelState => 3
  | .epRange => 4
  | .devAbsent => 5
  | .copyOverrun => 6
  | .haltQueue => 7
  | .isoAsync => 8
  | .intAsync => 9
  | .inflightLimit => 10
  | .attachState => 11
  | .detachState => 12
  | .completeState => 13
  | .badOpcode => 14
  | .badStatus => 15
  | .badOperand => 16
  | .pktInvalid => 17
  | .pktNotSetup => 18
  | .devMismatch => 19
  | .bindState => 20
  | .order => 21

/-- Taking a contract violation: the latch is set, and the cause and the first command word are
recorded unless one was already latched (60_exceptions.md R171, R173). -/
def contractViolation (c : Cause) (w0 : Word) (s : State) : State :=
  if s.fault then { s with fault := true }
  else { s with fault := true, fcause := c.code, finfo := w0 }

/-- The hardware reset, the only thing that clears the latch: every piece of the block's state at
its reset value; configuration, sizes and host memory stay (70_reset_and_hazards.md R195, R196;
log 15). -/
def State.hardwareReset (s : State) : State :=
  { State.resetWith s.cfg ⟨s.devs.length, s.ports.length, s.pkts.length⟩ s.hmem with
    respCount := s.respCount }

/-- A whole command: refused without effect while the latch is set (R171), otherwise run to its end
or to its contract violation. -/
def command (i : Instr) (s : State) (body : State → Run Unit) : Outcome :=
  if s.fault then .next s
  else match body s with
    | .ok _ t => .next t
    | .raised c t => .next (contractViolation c i.firstWord t)
    | .stopped f => .fault f

/-- The contract violation of a command refused by the decoder (30_encoding.md R62 (a), (b)). -/
def rejectCause : Reject → Cause
  | .badOpcode => .badOpcode
  | .reservedBits => .badOperand

/-- The effect of a command refused by the decoder, none while the latch is set (R62, R171). -/
def rejectCommand (r : Reject) (w0 : Word) (s : State) : State :=
  if s.fault then s else contractViolation (rejectCause r) w0 s

/-! ### The outside channels -/

/-- `emit EV_x` (60_exceptions.md R181). -/
def State.emit (s : State) (e : Event) : State := { s with trace := s.trace ++ [e] }

/-- The next response: the head of the channel, else a free value (R67, R100; log 6). -/
def State.nextResp (s : State) : Resp :=
  match s.resps with
  | r :: _ => r
  | [] => Config.freeResp s.respCount

/-- The state once the next response is taken (log 6). -/
def State.dropResp (s : State) : State :=
  match s.resps with
  | _ :: rs => { s with resps := rs }
  | [] => { s with respCount := s.respCount + 1 }

/-! ### The byte mover -/

/-- `iov_size(k)`: the capacity of a packet's vector (10_state.md R25). -/
def iovSize : List Segment → Nat
  | [] => 0
  | g :: gs => g.len.toNat + iovSize gs

/-- `IovLocate`: the segment and the offset of a position in a vector; empty segments are skipped
(20_memory.md R44). -/
def iovLocate : List Segment → Nat → Option (Nat × Nat)
  | [], _ => none
  | g :: gs, pos =>
    if pos < g.len.toNat then some (0, pos)
    else match iovLocate gs (pos - g.len.toNat) with
      | some (i, o) => some (i + 1, o)
      | none => none

/-- The host address of a position in a vector, `iov[s].addr + o`; none where host memory has no
such byte (R41, R43; log 17). -/
def hostAddress (c : Config) (iov : List Segment) (pos : Nat) : Option Nat :=
  match iovLocate iov pos with
  | some (i, o) =>
    let a := (iov.getD i ⟨0, 0⟩).addr.toNat + o
    if a < c.hostSize then some a else none
  | none => none

/-- Bytes read from a vector in rising position (R43, R47). -/
def vectorRead (c : Config) (iov : List Segment) (m : Memory) : Nat → Nat → Option (List Byte)
  | _, 0 => some []
  | pos, n + 1 =>
    match hostAddress c iov pos, vectorRead c iov m (pos + 1) n with
    | some a, some bs => some (m.read a :: bs)
    | _, _ => none

/-- Bytes written to a vector in rising position (R43, R47). -/
def vectorWrite (c : Config) (iov : List Segment) : Memory → Nat → List Byte → Option Memory
  | m, _, [] => some m
  | m, pos, b :: bs =>
    match hostAddress c iov pos with
    | some a => vectorWrite c iov (m.write a b) (pos + 1) bs
    | none => none

/-- `PacketCopy(k, buf, off, n)` (R43). `buf` is the `n` bytes of the buffer from its offset, which
an IN packet writes to its vector. The answer is the bytes the buffer receives there: the `n` bytes
read from the vector for any other token, none for an IN packet. -/
def packetCopy (k : Index) (buf : List Byte) (n : Nat) (s : State) : Run (List Byte) :=
  let P := s.pkt k
  let a := P.actualLength.toNat
  let moved := fun t : State => t.updPkt k fun P => { P with actualLength := BitVec.ofNat 32 (a + n) }
  if iovSize P.iov < a + n then .raised .copyOverrun s
  else match P.token with
    | .inn =>
      match vectorWrite s.cfg P.iov s.hmem a buf with
      | some m => .ok [] (moved { s with hmem := m })
      | none => .stopped .hostAddress
    | .setup | .out | .reserved =>
      match vectorRead s.cfg P.iov s.hmem a n with
      | some bs => .ok bs (moved s)
      | none => .stopped .hostAddress

end Sys2Proof.Machine
end

