-- ==== Sys2Proof/Machine/Flags.lean ====
section
/-! DEFINITION. The block has no condition codes (10_state.md R12): the codes of its enumerations
(R16, R17, R24, R27), which states and statuses the rules group together, and the words the query
commands pack into the result registers (40_endpoint_config.md R81, 41_packet_lifecycle.md R113). -/

namespace Sys2Proof.Machine

/-- The status codes (R27). -/
def Status.code : Status → BitVec 3
  | .success => 0
  | .noDevice => 1
  | .nak => 2
  | .stall => 3
  | .async => 4
  | .addToQueue => 5

/-- The status of a code; 6 and 7 are reserved (R27, R67). -/
def Status.ofCode (c : BitVec 3) : Option Status :=
  if c == 0 then some .success
  else if c == 1 then some .noDevice
  else if c == 2 then some .nak
  else if c == 3 then some .stall
  else if c == 4 then some .async
  else if c == 5 then some .addToQueue
  else none

/-- The packet state codes (R24). -/
def PktState.code : PktState → BitVec 3
  | .setup => 0
  | .queued => 1
  | .async => 2
  | .complete => 3
  | .canceled => 4

/-- The device state codes (R16). -/
def DevState.code : DevState → BitVec 3
  | .notAttached => 0
  | .attached => 1
  | .default => 2
  | .addressed => 3
  | .configured => 4

/-- The control state codes (R17). -/
def CtlState.code : CtlState → BitVec 3
  | .idle => 0
  | .setup => 1
  | .data => 2
  | .ack => 3
  | .param => 4

/-- In flight: Queued or Async (00_scope.md R9). -/
def PktState.inFlight : PktState → Bool
  | .queued | .async => true
  | .setup | .complete | .canceled => false

/-- The statuses a COMPLETE cannot carry: Async, NAK, AddToQueue (41_packet_lifecycle.md R108). -/
def Status.unfinished : Status → Bool
  | .async | .nak | .addToQueue => true
  | .success | .noDevice | .stall => false

/-- `RES0` of EP_GET: type in bits 2:0, halted bit 8, pipeline bit 9, ifnum bits 23:16 (R81). -/
def endpointWord (e : Endpoint) : Word :=
  0#8 ++ e.ifnum ++ 0#6 ++ flagBit e.pipeline ++ flagBit e.halted ++ 0#5 ++ e.type

/-- `RES3` of EP_GET: the head of the queue, or `0xFFFFFFFF` (R81). -/
def queueHeadWord : List Index → Word
  | k :: _ => k.zeroExtend 32
  | [] => noResult

/-- `RES0` of PKT_READ: status in bits 2:0, state in bits 10:8 (R113). -/
def packetWord (P : Packet) : Word := 0#21 ++ P.state.code ++ 0#5 ++ P.status.code

end Sys2Proof.Machine
end

