-- ==== Sys2Proof/Machine/Operands.lean ====
section
/-! DEFINITION. The operand checks every command makes first (30_encoding.md R62 (c), 60_exceptions.md
R175), endpoint selection (40_endpoint_config.md R75), and the fields of a setup packet
(42_control_transfer.md R121, R122). -/

namespace Sys2Proof.Machine

/-- A condition that must hold, or a contract violation. -/
def require (ok : Bool) (c : Cause) (s : State) : Run Unit := if ok then .ok () s else .raised c s

/-- A device operand where a device is needed (R62 (c), cause 5). -/
def checkDevice (d : Index) (s : State) : Run Unit :=
  require (WellFormed.device s.limits d) .devAbsent s

/-- A device operand where `0xFF` is allowed (R62 (c), cause 5). -/
def checkDeviceOrNone (d : Index) (s : State) : Run Unit :=
  require (WellFormed.deviceOrNone s.limits d) .devAbsent s

/-- A port operand (R62 (c), cause 16). -/
def checkPort (p : Index) (s : State) : Run Unit :=
  require (WellFormed.port s.limits p) .badOperand s

/-- A packet operand (R62 (c), cause 16). -/
def checkPacket (k : Index) (s : State) : Run Unit :=
  require (WellFormed.packet s.limits k) .badOperand s

/-- A slot that has been set up (R23, cause 17). -/
def checkValid (k : Index) (s : State) : Run Unit := require (s.pkt k).valid .pktInvalid s

/-- `SelectEp(d, dir, n)`: the device check comes before the range check (R75). -/
def selectEp (d : Index) (dir : Dir) (n : Index) (s : State) : Run EpRef :=
  if !WellFormed.device s.limits d then .raised .devAbsent s
  else if !WellFormed.endpoint n then .raised .epRange s
  else .ok ⟨d, epId dir n.toNat⟩ s

/-- The direction PKT_SETUP takes from a token: IN selects the IN array, SETUP and OUT the OUT
array (R75, R91). -/
def tokenDir : Token → Dir
  | .inn => .inn
  | .setup | .out | .reserved => .out

/-- The setup bytes of a parameter word: byte `i` is bits `8i+7 : 8i` (R122). -/
def SetupBuf.ofParameter (p : BitVec 64) : SetupBuf :=
  ⟨p.extractLsb' 0 8, p.extractLsb' 8 8, p.extractLsb' 16 8, p.extractLsb' 24 8,
   p.extractLsb' 32 8, p.extractLsb' 40 8, p.extractLsb' 48 8, p.extractLsb' 56 8⟩

/-- The setup bytes of a byte list, in order (R125). -/
def SetupBuf.ofBytes (bs : List Byte) : SetupBuf :=
  ⟨bs.getD 0 0, bs.getD 1 0, bs.getD 2 0, bs.getD 3 0,
   bs.getD 4 0, bs.getD 5 0, bs.getD 6 0, bs.getD 7 0⟩

/-- The request direction is IN: bit 7 of byte 0 (R121). -/
def SetupBuf.dirIn (b : SetupBuf) : Bool := b.b0.getLsbD 7

/-- `request`: byte 0 in bits 15:8, byte 1 in bits 7:0 (R121). -/
def SetupBuf.request (b : SetupBuf) : BitVec 16 := b.b0 ++ b.b1

/-- `value`, little-endian (R121). -/
def SetupBuf.value (b : SetupBuf) : BitVec 16 := b.b3 ++ b.b2

/-- `index`, little-endian (R121). -/
def SetupBuf.index (b : SetupBuf) : BitVec 16 := b.b5 ++ b.b4

/-- `length`, little-endian (R121). -/
def SetupBuf.length (b : SetupBuf) : BitVec 16 := b.b7 ++ b.b6

end Sys2Proof.Machine
end

