-- ==== Sys2Proof/Machine/Endpoint.lean ====
section
/-! DEFINITION. The endpoint commands (spec 40_endpoint_config.md R76 to R81). -/

namespace Sys2Proof.Machine

/-- A pure attribute setter: one write to the selected endpoint (40_endpoint_config.md section 2). -/
def setEndpoint (d n : Index) (dir : Dir) (f : Endpoint → Endpoint) (s : State) : Run Unit :=
  (selectEp d dir n s).bind fun r s => .ok () (s.updEp r f)

/-- EP_SET_TYPE: the three bits are stored as written (R76). -/
def execEpSetType (d n : Index) (dir : Dir) (type : BitVec 3) (s : State) : Outcome :=
  command (.epSetType d n dir type) s (setEndpoint d n dir fun e => { e with type := type })

/-- EP_SET_IFNUM; no result register is written (R77). -/
def execEpSetIfnum (d n : Index) (dir : Dir) (ifnum : BitVec 8) (s : State) : Outcome :=
  command (.epSetIfnum d n dir ifnum) s (setEndpoint d n dir fun e => { e with ifnum := ifnum })

/-- The low 11 bits of a raw packet size (R78). -/
def maskPacketSize (raw : BitVec 16) : BitVec 11 := raw.extractLsb' 0 11

/-- EP_SET_MPS (R78). -/
def execEpSetMps (d n : Index) (dir : Dir) (raw : BitVec 16) (s : State) : Outcome :=
  command (.epSetMps d n dir raw) s
    (setEndpoint d n dir fun e => { e with maxPacketSize := maskPacketSize raw })

/-- EP_SET_PIPE (R79). -/
def execEpSetPipe (d n : Index) (dir : Dir) (flag : Bool) (s : State) : Outcome :=
  command (.epSetPipe d n dir flag) s (setEndpoint d n dir fun e => { e with pipeline := flag })

/-- EP_SET_HALT; the queue is neither looked at nor changed (R80). -/
def execEpSetHalt (d n : Index) (dir : Dir) (flag : Bool) (s : State) : Outcome :=
  command (.epSetHalt d n dir flag) s (setEndpoint d n dir fun e => { e with halted := flag })

/-- EP_GET: the selected endpoint's fields go to the result registers (R81). -/
def execEpGet (d n : Index) (dir : Dir) (s : State) : Outcome :=
  command (.epGet d n dir) s fun s =>
    (selectEp d dir n s).bind fun r s =>
      let e := s.ep r
      .ok () { s with
        res0 := endpointWord e
        res1 := e.maxPacketSize.zeroExtend 32
        res2 := BitVec.ofNat 32 e.queue.length
        res3 := queueHeadWord e.queue }

end Sys2Proof.Machine
end

