-- ==== Sys2Proof/Machine/Packet.lean ====
section
/-! DEFINITION. Preparing and reading a packet (spec 41_packet_lifecycle.md R91 to R93, R113). -/

namespace Sys2Proof.Machine

/-- The common checks of PKT_SETUP, then its own in the order R91 lists them (R62 (c), R175;
log 10). -/
def pktSetupChecks (k d n : Index) (t : Token) (s : State) : Run Unit :=
  (checkPacket k s).bind fun _ s =>
  (checkDevice d s).bind fun _ s =>
  (require (!((s.pkt k).valid && (s.pkt k).state.inFlight)) .setupInflight s).bind fun _ s =>
  (require (WellFormed.token t) .badOperand s).bind fun _ s =>
  (selectEp d (tokenDir t) n s).bind fun _ s => .ok () s

/-- PKT_SETUP: every field of the slot is written (R91, R26). -/
def execPktSetup (k d n : Index) (token : Token) (shortOk intReq : Bool) (stream : BitVec 16)
    (id : Word) (s : State) : Outcome :=
  command (.pktSetup k d n token shortOk intReq stream id) s fun s =>
    (pktSetupChecks k d n token s).bind fun _ s =>
      .ok () (s.updPkt k fun _ => {
        valid := true, id := id, token := token
        dev := d, epDir := tokenDir token, epNr := n.extractLsb' 0 4
        stream := stream, shortOk := shortOk, intReq := intReq
        status := .success, actualLength := 0, parameter := 0
        combined := noIndex, iov := [], state := .setup })

/-- A slot that has been set up and is in state Setup, as PKT_IOV_ADD and PKT_SET_PARAM need
(R92, R93). -/
def checkPrepared (k : Index) (s : State) : Run Unit :=
  (checkValid k s).bind fun _ s =>
    require ((s.pkt k).state == .setup) .pktNotSetup s

/-- The address operand fits `HADDR_BITS` (R59, R62 (b), cause 16). -/
def checkHostAddr (a : Word) (s : State) : Run Unit :=
  require (WellFormed.hostAddr s.limits a) .badOperand s

/-- The three checks of a segment against the vector and the top of memory (R92, R32 (a) (b)). -/
def checkSegment (k : Index) (g : Segment) (s : State) : Run Unit :=
  let P := s.pkt k
  require (P.iov.length != s.cfg.iovMax &&
    decide (g.addr.toNat + g.len.toNat ≤ s.cfg.hostSize) &&
    decide (iovSize P.iov + g.len.toNat < 2 ^ 32)) .badOperand s

/-- PKT_IOV_ADD: one segment at the end of the vector (R92). -/
def execPktIovAdd (k : Index) (addr len : Word) (s : State) : Outcome :=
  command (.pktIovAdd k addr len) s fun s =>
    (checkHostAddr addr s).bind fun _ s =>
    (checkPacket k s).bind fun _ s =>
    (checkPrepared k s).bind fun _ s =>
    (checkSegment k ⟨addr, len⟩ s).bind fun _ s =>
      .ok () (s.updPkt k fun P => { P with iov := P.iov ++ [⟨addr, len⟩] })

/-- PKT_SET_PARAM (R93). -/
def execPktSetParam (k : Index) (param : BitVec 64) (s : State) : Outcome :=
  command (.pktSetParam k param) s fun s =>
    (checkPacket k s).bind fun _ s =>
    (checkPrepared k s).bind fun _ s =>
      .ok () (s.updPkt k fun P => { P with parameter := param })

/-- PKT_READ: the packet's outcome goes to the result registers (R113). -/
def execPktRead (k : Index) (s : State) : Outcome :=
  command (.pktRead k) s fun s =>
    (checkPacket k s).bind fun _ s =>
    (checkValid k s).bind fun _ s =>
      let P := s.pkt k
      .ok () { s with
        res0 := packetWord P
        res1 := P.actualLength
        res2 := P.id
        res3 := BitVec.ofNat 32 (iovSize P.iov) }

end Sys2Proof.Machine
end

