-- ==== Sys2Proof/Machine/Port.lean ====
section
/-! DEFINITION. Ports and devices (spec 43_port_device.md R150 to R158). -/

namespace Sys2Proof.Machine

/-- A port or device name that is not `0xFF` and whose device is attached (R150). -/
def isAttached (d : Index) (s : State) : Bool := d != noIndex && (s.dev d).attached

/-- The device leaves the port it was bound to (R150). -/
def leaveOldPort (d : Index) (s : State) : State :=
  if d ≠ noIndex ∧ (s.dev d).port ≠ noIndex then
    s.updPort (s.dev d).port fun P => { P with dev := noIndex }
  else s

/-- `dev[d].port <- p` for a device index that names one (R150). -/
def setDevPort (d p : Index) (s : State) : State :=
  if d ≠ noIndex then s.updDev d fun D => { D with port := p } else s

/-- PORT_BIND (R150). -/
def execPortBind (p d : Index) (s : State) : Outcome :=
  command (.portBind p d) s fun s =>
    (checkPort p s).bind fun _ s =>
    (checkDeviceOrNone d s).bind fun _ s =>
      let old := (s.port p).dev
      (require (!isAttached old s) .bindState s).bind fun _ s =>
      (require (!isAttached d s) .bindState s).bind fun _ s =>
        let s := setDevPort old noIndex (leaveOldPort d s)
        let s := s.updPort p fun P => { P with dev := d }
        .ok () (setDevPort d p s)

/-- An event of a hook that is called only if it is present (R158). -/
def emitHook (d : Index) (b : Nat) (e : Event) (s : State) : State :=
  if s.hasHook d b then s.emit e else s

/-- `Attach(p)`: hook bit 4 (R151). -/
def attachPort (p : Index) (s : State) : Run Unit :=
  let d := (s.port p).dev
  (require (d != noIndex && !(s.dev d).attached) .attachState s).bind fun _ s =>
    let s := s.emit (.portAttach p d)
    let s := s.updDev d fun D => { D with attached := true, state := .attached }
    .ok () (emitHook d 4 (.attachHook d) s)

/-- ATTACH (R151). -/
def execAttach (p : Index) (s : State) : Outcome :=
  command (.attach p) s fun s => (checkPort p s).bind fun _ s => attachPort p s

/-- `Detach(p)`: queues and packets stay (R152). -/
def detachPort (p : Index) (s : State) : Run Unit :=
  let d := (s.port p).dev
  (require (isAttached d s) .detachState s).bind fun _ s =>
    let s := s.emit (.portDetach p d)
    .ok () (s.updDev d fun D => { D with attached := false, state := .notAttached })

/-- DETACH (R152). -/
def execDetach (p : Index) (s : State) : Outcome :=
  command (.detach p) s fun s => (checkPort p s).bind fun _ s => detachPort p s

/-- `DeviceReset(d)`: three fields and hook bit 5, and nothing else (R154). -/
def deviceReset (d : Index) (s : State) : State :=
  emitHook d 5 (.resetHook d)
    (s.updDev d fun D => { D with remoteWakeup := false, addr := 0, state := .default })

/-- RESET_PORT: detach, attach, device reset (R153). -/
def execResetPort (p : Index) (s : State) : Outcome :=
  command (.resetPort p) s fun s =>
    (checkPort p s).bind fun _ s =>
    (detachPort p s).bind fun _ s =>
    (attachPort p s).bind fun _ s => .ok () (deviceReset (s.port p).dev s)

/-- DEV_SET_ADDR (R155). -/
def execDevSetAddr (d : Index) (addr : BitVec 8) (s : State) : Outcome :=
  command (.devSetAddr d addr) s fun s =>
    (checkDevice d s).bind fun _ s => .ok () (s.updDev d fun D => { D with addr := addr })

/-- DEV_SET_RWAKE (R156). -/
def execDevSetRwake (d : Index) (flag : Bool) (s : State) : Outcome :=
  command (.devSetRwake d flag) s fun s =>
    (checkDevice d s).bind fun _ s =>
      .ok () (s.updDev d fun D => { D with remoteWakeup := flag })

/-- The device's own resolver, hook bit 1: its answer is the count of a response whose status is not
looked at (R157; log 11). -/
def resolver (d : Index) (addr : BitVec 8) (s : State) : Run Unit :=
  if s.hasHook d 1 then
    let s := s.emit (.findHook d addr)
    let r := s.nextResp
    let s := s.dropResp
    (require (r.data.length == 0 && (decide (r.n.toNat < s.devs.length) || r.n == noResult))
      .badOperand s).bind fun _ s => .ok () { s with res0 := r.n }
  else .ok () { s with res0 := noResult }

/-- FIND_DEVICE: only `RES0` is written (R157). -/
def execFindDevice (p : Index) (addr : BitVec 8) (s : State) : Outcome :=
  command (.findDevice p addr) s fun s =>
    (checkPort p s).bind fun _ s =>
      let d := (s.port p).dev
      if !isAttached d s then .ok () { s with res0 := noResult }
      else if (s.dev d).state = .default ∧ (s.dev d).addr = addr then
        .ok () { s with res0 := d.zeroExtend 32 }
      else resolver d addr s

end Sys2Proof.Machine
end

