-- ==== Sys2Proof/Machine/Control.lean ====
section
/-! DEFINITION. The control-transfer phase sequencer of endpoint 0 (spec 42_control_transfer.md
R120 to R140). It runs inside SUBMIT and COMPLETE. -/

namespace Sys2Proof.Machine

/-- `P.status <- st`. -/
def State.setStatus (s : State) (k : Index) (st : Status) : State :=
  s.updPkt k fun P => { P with status := st }

/-- `P.actual_length <- n`. -/
def State.setActual (s : State) (k : Index) (n : Word) : State :=
  s.updPkt k fun P => { P with actualLength := n }

/-- `D.ctl_state <- c`. -/
def State.setCtl (s : State) (d : Index) (c : CtlState) : State :=
  s.updDev d fun D => { D with ctlState := c }

/-- The transfer is stalled and the control state goes to Idle (R123, R124, R132, R137; 60 R174). -/
def stallToIdle (d k : Index) (s : State) : State := (s.setStatus k .stall).setCtl d .idle

/-- The answer of a hook that is absent: `Resp(Success, 0, [])` (R100, R158). -/
def absentResp : Resp := ⟨Status.success.code, 0, []⟩

/-- The handler call event of the current request; the payload is what the data buffer holds up to
the current length (R121, R140; log 23). -/
def controlEvent (d k : Index) (s : State) : Event :=
  let D := s.dev d
  .handleControl d k D.setupBuf.request D.setupBuf.value D.setupBuf.index D.setupLen
    (D.dataBuf.readList 0 D.setupLen.toNat)

/-- `ApplyCtlResp(d, k, r)`: the response's bytes go to the data buffer and its status to the
packet; the answer is the length the handler reports (R100; log 11). -/
def applyCtlResp (d k : Index) (r : Resp) (s : State) : Run Nat :=
  match Status.ofCode r.status with
  | none => .raised .badOperand s
  | some st =>
    if r.data.length = r.n.toNat ∧ r.n.toNat ≤ s.cfg.ctrlBufSize then
      .ok r.n.toNat
        ((s.updDev d fun D => { D with dataBuf := D.dataBuf.writeList 0 r.data }).setStatus k st)
    else .raised .badOperand s

/-- `ApplyCtlResp(d, k, call HandleControl(...))`: hook bit 6 (R100, R140). -/
def controlHandler (d k : Index) (s : State) : Run Nat :=
  if s.hasHook d 6 then
    let s := s.emit (controlEvent d k s)
    applyCtlResp d k s.nextResp s.dropResp
  else applyCtlResp d k absentResp s

/-- A handler that reports less shortens `setup_len`; one that reports more changes nothing
(R128). -/
def shortenSetup (d : Index) (n : Nat) (s : State) : State :=
  if n < (s.dev d).setupLen.toNat then
    s.updDev d fun D => { D with setupLen := BitVec.ofNat 16 n }
  else s

/-- `PacketCopy(k, D.data_buf, off, n)` (R43, R131, R136). -/
def copyDataBuf (d k : Index) (off n : Nat) (s : State) : Run Unit :=
  (packetCopy k ((s.dev d).dataBuf.readList off n) n s).bind fun bs s =>
    .ok () (s.updDev d fun D => { D with dataBuf := D.dataBuf.writeList off bs })

/-- How many bytes a Param packet's copy moves: the current length, clamped to the vector (R122). -/
def paramLength (d k : Index) (s : State) : Nat :=
  min (s.dev d).setupLen.toNat (iovSize (s.pkt k).iov)

/-- `ParamFinish(d, k, n)` (R122, R128). -/
def paramFinish (d k : Index) (n : Nat) (s : State) : Run Unit :=
  let s := shortenSetup d n s
  if (s.pkt k).token = .inn then
    copyDataBuf d k 0 (paramLength d k s) (s.setActual k 0)
  else .ok () s

/-- The OUT payload of a Param packet goes to the data buffer before the handler call (R122). -/
def paramPayload (d k : Index) (s : State) : Run Unit :=
  if (s.pkt k).token = .out then
    copyDataBuf d k 0 (paramLength d k s) (s.setActual k 0)
  else .ok () s

/-- `D.setup_buf <- buf`, `D.ctl_state <- c`, `D.setup_len <- length`, `D.setup_index <- 0`
(R122, R125). -/
def beginRequest (d : Index) (buf : SetupBuf) (c : CtlState) (s : State) : State :=
  s.updDev d fun D =>
    { D with setupBuf := buf, ctlState := c, setupLen := buf.length, setupIndex := 0 }

/-- `ParamPath(d, k)` (R122, R123). -/
def paramPath (d k : Index) (s : State) : Run Unit :=
  let buf := SetupBuf.ofParameter (s.pkt k).parameter
  let s := beginRequest d buf .param s
  if s.cfg.ctrlBufSize < buf.length.toNat then .ok () (stallToIdle d k s)
  else
    (paramPayload d k s).bind fun _ s =>
    (controlHandler d k s).bind fun n s =>
      if (s.pkt k).status = .success then paramFinish d k n s else .ok () s

/-- A SETUP token whose request direction is IN: the handler is called at once (R126). -/
def setupTokenIn (d k : Index) (s : State) : Run Unit :=
  (controlHandler d k s).bind fun n s =>
    match (s.pkt k).status with
    | .async => .ok () s
    | .success => .ok () (((shortenSetup d n s).setCtl d .data).setActual k 8)
    | .noDevice | .nak | .stall | .addToQueue => .ok () (s.setCtl d .idle)

/-- A SETUP token whose request direction is OUT (R127, R125). -/
def setupTokenOut (d k : Index) (s : State) : State :=
  (s.setCtl d (if (s.dev d).setupLen = 0 then .ack else .data)).setActual k 8

/-- `TokenSetup(d, k)` (R123 to R127). -/
def tokenSetup (d k : Index) (s : State) : Run Unit :=
  if iovSize (s.pkt k).iov ≠ 8 then .ok () (stallToIdle d k s)
  else
    (packetCopy k [] 8 (s.setActual k 0)).bind fun bs s =>
      let buf := SetupBuf.ofBytes bs
      let s := beginRequest d buf .setup (s.setActual k 0)
      if s.cfg.ctrlBufSize < buf.length.toNat then .ok () (stallToIdle d k s)
      else if buf.dirIn then setupTokenIn d k s
      else .ok () (setupTokenOut d k s)

/-- How many bytes a Data-phase token moves: the least of the bytes remaining, the max packet size
and the room left in the vector (R131, R136). -/
def chunkLength (d k : Index) (s : State) : Nat :=
  let D := s.dev d
  let P := s.pkt k
  min (min (D.setupLen.toNat - D.setupIndex.toNat) D.epCtl.maxPacketSize.toNat)
    (iovSize P.iov - P.actualLength.toNat)

/-- One chunk of the Data phase, in either direction, and the step to Ack at the full length
(R131, R136). -/
def dataChunk (d k : Index) (s : State) : Run Unit :=
  let i := (s.dev d).setupIndex.toNat
  let len := chunkLength d k s
  (copyDataBuf d k i len s).bind fun _ s =>
    .ok () (s.updDev d fun D =>
      { D with
        setupIndex := BitVec.ofNat 16 (i + len)
        ctlState := if D.setupLen.toNat ≤ i + len then .ack else D.ctlState })

/-- An IN token in Ack: the status phase of an OUT-direction transfer calls the handler; of an
IN-direction transfer it is ignored (R130). -/
def statusPhaseIn (d k : Index) (s : State) : Run Unit :=
  if (s.dev d).setupBuf.dirIn then .ok () s
  else
    (controlHandler d k s).bind fun _ s =>
      if (s.pkt k).status = .async then .ok () s
      else .ok () ((s.setCtl d .idle).setActual k 0)

/-- `TokenIn(d, k)` (R129 to R132). -/
def tokenIn (d k : Index) (s : State) : Run Unit :=
  match (s.dev d).ctlState with
  | .ack => statusPhaseIn d k s
  | .data => if (s.dev d).setupBuf.dirIn then dataChunk d k s else .ok () (stallToIdle d k s)
  | .idle | .setup | .param => .ok () (stallToIdle d k s)

/-- `TokenOut(d, k)` (R133 to R137). -/
def tokenOut (d k : Index) (s : State) : Run Unit :=
  match (s.dev d).ctlState with
  | .ack => .ok () (if (s.dev d).setupBuf.dirIn then s.setCtl d .idle else s)
  | .data => if (s.dev d).setupBuf.dirIn then .ok () (stallToIdle d k s) else dataChunk d k s
  | .idle | .setup | .param => .ok () (stallToIdle d k s)

/-- `ControlDispatch(d, k)`: the path is picked by the packet's parameter and token only (R120). -/
def controlDispatch (d k : Index) (s : State) : Run Unit :=
  if (s.pkt k).parameter ≠ 0 then paramPath d k s
  else match (s.pkt k).token with
    | .setup => tokenSetup d k s
    | .inn => tokenIn d k s
    | .out | .reserved => tokenOut d k s

/-- The control state in which a packet's handler call was left pending; none for an OUT token
(R138). -/
def pendingKind (P : Packet) : Option CtlState :=
  if P.parameter ≠ 0 then some .param
  else match P.token with
    | .setup => some .setup
    | .inn => some .ack
    | .out | .reserved => none

/-- `CtlAsyncDone(d, k, r)`: the tail of the synchronous path, if the device is still in the state
the call was left pending in (R138). -/
def ctlAsyncDone (d k : Index) (r : Resp) (s : State) : Run Unit :=
  (applyCtlResp d k r s).bind fun n s =>
    if pendingKind (s.pkt k) ≠ some (s.dev d).ctlState then .ok () s
    else match (s.dev d).ctlState with
      | .setup =>
        if (s.pkt k).status = .success then
          .ok () (((shortenSetup d n s).setCtl d .data).setActual k 8)
        else .ok () (s.setCtl d .idle)
      | .ack => .ok () ((s.setCtl d .idle).setActual k 0)
      | .param => if (s.pkt k).status = .success then paramFinish d k n s else .ok () s
      | .idle | .data => .ok () s

end Sys2Proof.Machine
end

