-- ==== Sys2Proof/Machine/Transfer.lean ====
section
/-! DEFINITION. SUBMIT, CANCEL, COMPLETE and the endpoint queue (spec 41_packet_lifecycle.md R94 to
R112). -/

namespace Sys2Proof.Machine

/-- `append(E.queue, k)` (R20). -/
def State.appendQueue (s : State) (r : EpRef) (k : Index) : State :=
  s.updEp r fun e => { e with queue := e.queue ++ [k] }

/-- `remove(E.queue, k)` (R20; log 20). -/
def State.removeQueue (s : State) (r : EpRef) (k : Index) : State :=
  s.updEp r fun e => { e with queue := e.queue.filter (· != k) }

/-- `P.state <- st`. -/
def State.setPktState (s : State) (k : Index) (st : PktState) : State :=
  s.updPkt k fun P => { P with state := st }

/-- `QueueOne(k)` (R99). -/
def queueOne (k : Index) (r : EpRef) (s : State) : State :=
  ((s.setPktState k .queued).setStatus k .async).appendQueue r k

/-- `ApplyDataResp(k, r)`; the sink of an OUT or SETUP packet is emitted unless the hook is absent
(R100, R158; log 11, log 12). -/
def applyDataResp (d k : Index) (r : Resp) (emits : Bool) (s : State) : Run Unit :=
  match Status.ofCode r.status with
  | none => .raised .badOperand s
  | some st =>
    if (s.pkt k).token = .inn then
      (require (r.data.length == r.n.toNat) .badOperand s).bind fun _ s =>
      (packetCopy k r.data r.n.toNat s).bind fun _ s => .ok () (s.setStatus k st)
    else
      (require (r.data.length == 0) .badOperand s).bind fun _ s =>
      (packetCopy k [] r.n.toNat s).bind fun sink s =>
        .ok () ((if emits then s.emit (.outBytes d k sink) else s).setStatus k st)

/-- `ApplyDataResp(k, call HandleData(d, k))`: hook bit 7 (R100, R101). -/
def dataHandler (d k : Index) (s : State) : Run Unit :=
  if s.hasHook d 7 then
    let s := s.emit (.handleData d k)
    applyDataResp d k s.nextResp true s.dropResp
  else applyDataResp d k absentResp false s

/-- `Dispatch(k)`: control dispatch for endpoint 0, data dispatch otherwise (R101). -/
def dispatch (k : Index) (s : State) : Run Unit :=
  let P := s.pkt k
  let s := s.setStatus k .success
  if P.epNr = 0 then controlDispatch P.dev k s else dataHandler P.dev k s

/-- Whether the endpoint and the device may answer Async (R103). -/
def checkAsync (r : EpRef) (s : State) : Run Unit :=
  (require ((s.ep r).type != 3) .isoAsync s).bind fun _ s =>
    require ((s.ep r).type != 2 || s.hostRole r.dev) .intAsync s

/-- `AfterDispatch(k)` (R102 to R105). -/
def afterDispatch (k : Index) (r : EpRef) (s : State) : Run Unit :=
  match (s.pkt k).status with
  | .async =>
    (checkAsync r s).bind fun _ s => .ok () ((s.setPktState k .async).appendQueue r k)
  | .addToQueue => .ok () (queueOne k r s)
  | .nak => .ok () s
  | .success | .stall | .noDevice => .ok () (s.setPktState k .complete)

/-- A packet that must wait: the queue is not empty, the endpoint is not pipelined and the packet
has no stream id (R99). -/
def mustQueue (k : Index) (r : EpRef) (s : State) : Bool :=
  !(s.ep r).queue.isEmpty && !(s.ep r).pipeline && (s.pkt k).stream == 0

/-- The halt invariant: a halted endpoint accepts a packet only with an empty queue, and the halt is
cleared (R22, R97). -/
def clearHalt (r : EpRef) (s : State) : Run Unit :=
  if (s.ep r).halted then
    (require (s.ep r).queue.isEmpty .haltQueue s).bind fun _ s =>
      .ok () (s.updEp r fun e => { e with halted := false })
  else .ok () s

/-- No device to submit to: the operand is `0xFF` or the device is not attached (R95). -/
def noTarget (d : Index) (s : State) : Bool := d == noIndex || !(s.dev d).attached

/-- The part of SUBMIT behind its checks: queue or dispatch (R94, R99, R106). -/
def submitAccepted (k : Index) (r : EpRef) (s : State) : Run Unit :=
  (clearHalt r s).bind fun _ s =>
    if mustQueue k r s then
      if s.cfg.strictInflight then .raised .inflightLimit s else .ok () (queueOne k r s)
    else (dispatch k s).bind fun _ s => afterDispatch k r s

/-- `SUBMIT(k, d)` (R94 to R98). -/
def submitPacket (k d : Index) (s : State) : Run Unit :=
  (checkValid k s).bind fun _ s =>
  (require ((s.pkt k).state == .setup) .submitState s).bind fun _ s =>
    if noTarget d s then .ok () ((s.setStatus k .noDevice).setPktState k .complete)
    else
      (require (d == (s.pkt k).dev) .devMismatch s).bind fun _ s =>
        submitAccepted k (s.pkt k).endpoint s

/-- SUBMIT (R94). -/
def execSubmit (k d : Index) (s : State) : Outcome :=
  command (.submit k d) s fun s =>
    (checkPacket k s).bind fun _ s =>
    (checkDeviceOrNone d s).bind fun _ s => submitPacket k d s

/-- The cancel hook of a packet that was Async, hook bit 2 (R107). -/
def cancelHook (d k : Index) (wasAsync : Bool) (s : State) : State :=
  if wasAsync && s.hasHook d 2 then s.emit (.cancelHook d k) else s

/-- CANCEL: no queue advance runs (R107). -/
def execCancel (k : Index) (s : State) : Outcome :=
  command (.cancel k) s fun s =>
    (checkPacket k s).bind fun _ s =>
    (checkValid k s).bind fun _ s =>
    (require (s.pkt k).state.inFlight .cancelState s).bind fun _ s =>
      let P := s.pkt k
      let s := (s.setPktState k .canceled).removeQueue P.endpoint k
      .ok () (cancelHook P.dev k (P.state == .async) s)

/-- `CompleteOne(k)` on the endpoint whose queue holds the packet (R109, R182). -/
def completeOne (k : Index) (r : EpRef) (s : State) : State :=
  let P := s.pkt k
  ((s.setPktState k .complete).removeQueue r k).emit (.complete k P.id P.intReq)

/-- `Advance(E)`: the Queued packets at the head are dispatched in turn, until the queue is empty or
its head is Async (R110, R111). Each turn ends the loop or takes the head from the queue, so a fuel
of the queue's length is enough. -/
def advance (r : EpRef) : Nat → State → Run Unit
  | 0, s => .ok () s
  | fuel + 1, s =>
    match (s.ep r).queue with
    | [] => .ok () s
    | h :: _ =>
      if (s.pkt h).state = .async then .ok () s
      else
        (dispatch h s).bind fun _ s =>
          match (s.pkt h).status with
          | .async => (checkAsync r s).bind fun _ s => .ok () (s.setPktState h .async)
          | .nak | .addToQueue => .raised .badStatus s
          | .success | .stall | .noDevice => advance r fuel (completeOne h r s)

/-- The completion order of a non-pipelined endpoint, for a packet without a stream id (R108,
R112). -/
def inOrder (k : Index) (r : EpRef) (s : State) : Bool :=
  (s.pkt k).stream != 0 || (s.ep r).pipeline || (s.ep r).queue.head? == some k

/-- The response of a COMPLETE applied to its packet (R108). -/
def applyCompletion (k : Index) (r : Resp) (s : State) : Run Unit :=
  let P := s.pkt k
  if P.epNr = 0 then ctlAsyncDone P.dev k r s else applyDataResp P.dev k r true s

/-- Whether a response carries one of the statuses a COMPLETE cannot (R108, cause 15). -/
def unfinishedResp (r : Resp) : Bool :=
  match Status.ofCode r.status with
  | some st => st.unfinished
  | none => false

/-- `COMPLETE(k) <- r`: the response is taken once the packet is known to be Async (R108; log 25). -/
def completePacket (k : Index) (s : State) : Run Unit :=
  (checkValid k s).bind fun _ s =>
  (require ((s.pkt k).state == .async) .completeState s).bind fun _ s =>
    let e := (s.pkt k).endpoint
    let r := s.nextResp
    let s := s.dropResp
    (require (!unfinishedResp r) .badStatus s).bind fun _ s =>
    (require (inOrder k e s) .order s).bind fun _ s =>
    (applyCompletion k r s).bind fun _ s =>
      let s := completeOne k e s
      advance e (s.ep e).queue.length s

/-- COMPLETE (R108). -/
def execComplete (k : Index) (s : State) : Outcome :=
  command (.complete k) s fun s =>
    (checkPacket k s).bind fun _ s => completePacket k s

end Sys2Proof.Machine
end

