-- ==== Sys2Proof/Machine/Dispatch.lean ====
section
/-! DEFINITION. One arm per command (spec/opcode_table.json), each one call of its meaning. -/

namespace Sys2Proof.Machine

def exec (i : Instr) (s : State) : Host.Outcome State Fault Refusal :=
  match i with
  -- 40_endpoint_config.md
  | .epSetType d n dir type => Sys2Proof.Machine.execEpSetType d n dir type s
  | .epSetIfnum d n dir ifnum => Sys2Proof.Machine.execEpSetIfnum d n dir ifnum s
  | .epSetMps d n dir raw => Sys2Proof.Machine.execEpSetMps d n dir raw s
  | .epSetPipe d n dir flag => Sys2Proof.Machine.execEpSetPipe d n dir flag s
  | .epSetHalt d n dir flag => Sys2Proof.Machine.execEpSetHalt d n dir flag s
  | .epGet d n dir => Sys2Proof.Machine.execEpGet d n dir s
  -- 41_packet_lifecycle.md
  | .pktSetup k d n token shortOk intReq stream id => Sys2Proof.Machine.execPktSetup k d n token shortOk intReq stream id s
  | .pktIovAdd k addr len => Sys2Proof.Machine.execPktIovAdd k addr len s
  | .pktSetParam k param => Sys2Proof.Machine.execPktSetParam k param s
  | .submit k d => Sys2Proof.Machine.execSubmit k d s
  | .cancel k => Sys2Proof.Machine.execCancel k s
  | .complete k => Sys2Proof.Machine.execComplete k s
  | .pktRead k => Sys2Proof.Machine.execPktRead k s
  -- 43_port_device.md
  | .portBind p d => Sys2Proof.Machine.execPortBind p d s
  | .attach p => Sys2Proof.Machine.execAttach p s
  | .detach p => Sys2Proof.Machine.execDetach p s
  | .resetPort p => Sys2Proof.Machine.execResetPort p s
  | .findDevice p addr => Sys2Proof.Machine.execFindDevice p addr s
  | .devSetAddr d addr => Sys2Proof.Machine.execDevSetAddr d addr s
  | .devSetRwake d flag => Sys2Proof.Machine.execDevSetRwake d flag s

end Sys2Proof.Machine
end

