-- ==== Sys2Proof/Machine/Step.lean ====
section
/-! DEFINITION. One step of the block: the hardware reset, or one whole command from the command
port, or waiting for one (spec 30_encoding.md R55, 70_reset_and_hazards.md R195, R197). -/

namespace Sys2Proof.Machine

/-- A step. The reset input comes first; with no whole command on the port the block waits; a
command the decoder refuses raises its contract violation; any other command runs to its end with
its words taken from the port (R6, R55, R62, R171, R195, R197; log 4, log 8, log 15). -/
def step (s : State) : Host.Outcome State Fault Refusal :=
  if s.resetIn then .next s.hardwareReset
  else match decode s.cmds with
    | .waiting => .next s
    | .rejected r w0 rest => .next (rejectCommand r w0 { s with cmds := rest })
    | .command i rest => exec i { s with cmds := rest }

/-- The state with one command of the opcode table pushed at the front of the command port, so that
the next step runs it (log 5). The words are those of the table's bit numbering, as many as the
command's opcode says; bits at or above `nbits` are 0. The reset input is released. -/
def State.withFetchWord (s : State) (nbits w : Nat) : State :=
  { s with cmds := tableCommand (w % 2 ^ nbits) ++ s.cmds, resetIn := false }

end Sys2Proof.Machine
end

