-- ==== Sys2Proof/Safety.lean ====
section
/-! DEFINITION. What counts as a safe run, and the properties of the spec that every step keeps
(spec 10_state.md R20, R28, R32, 41_packet_lifecycle.md R114, 42_control_transfer.md R140, R141). -/

namespace Sys2Proof.Machine

/-- A state a run may end in: no contract violation is latched and no whole command waits on the
port. A faulted state is never final (60_exceptions.md R171). -/
def State.final (s : State) : Bool :=
  !s.fault && (match decode s.cmds with | .waiting => true | _ => false)

/-- The limits R5 sets on the sizes and the parameters. -/
def SizesLegal (s : State) : Prop :=
  s.cfg.Legal ∧ s.devs.length ≤ 255 ∧ s.ports.length ≤ 256 ∧ s.pkts.length ≤ 256

/-- Host memory is in canonical form and lists no address at or above `2^HADDR_BITS`
(20_memory.md R40; log 3). -/
def HostMemoryOk (s : State) : Prop :=
  s.hmem.wf = true ∧ s.hmem.below s.cfg.hostSize = true

/-- A segment that lies in host memory (41_packet_lifecycle.md R92). -/
def Segment.inHost (c : Config) (g : Segment) : Prop := g.addr.toNat + g.len.toNat ≤ c.hostSize

/-- A packet slot as the rules keep it: `combined` is none (R26); a slot in use belongs to an
existing device and its direction comes from its token (R91); its vector lies in host memory, its
capacity fits 32 bits and holds what was moved (R28 (a), R32 (a) (b), R92, R114 (e)); and an
endpoint-0 SETUP packet whose handler call is pending has an 8-byte vector (R124). -/
structure PacketOk (c : Config) (nDev : Nat) (P : Packet) : Prop where
  combined : P.combined = noIndex
  unused   : P.valid = false → P.state = .setup
  device   : P.valid = true → P.dev.toNat < nDev
  token    : P.valid = true → P.token ≠ .reserved
  dir      : P.epDir = tokenDir P.token
  segments : P.iov.length ≤ c.iovMax
  inHost   : ∀ g ∈ P.iov, g.inHost c
  capacity : iovSize P.iov < 2 ^ 32
  moved    : P.actualLength.toNat ≤ iovSize P.iov
  pending  : P.state = .async → P.epNr = 0 → P.token = .setup → P.parameter = 0 →
    iovSize P.iov = 8

/-- Every packet slot is as the rules keep it. -/
def PacketsOk (s : State) : Prop := ∀ k : Index, PacketOk s.cfg s.devs.length (s.pkt k)

/-- A device context as the rules keep it: the data buffer is in canonical form and stays within
`CTRL_BUF_SIZE` (R141 (c)); the cursor does not pass the length (R15), which fits the buffer while a
transfer is in progress (R28 (c), R140); the cursor is 0 before the Data phase; and the attached
flag agrees with the lifecycle state, which is one the block writes (R16, R151, R152). -/
structure DeviceOk (c : Config) (D : Device) : Prop where
  buffer    : D.dataBuf.wf = true
  bound     : D.dataBuf.below c.ctrlBufSize = true
  cursor    : D.setupIndex.toNat ≤ D.setupLen.toNat
  length    : D.ctlState ≠ .idle → D.setupLen.toNat ≤ c.ctrlBufSize
  start     : D.ctlState = .setup ∨ D.ctlState = .param → D.setupIndex = 0
  attached  : D.attached = true ↔ D.state ≠ .notAttached
  lifecycle : D.state ≠ .addressed ∧ D.state ≠ .configured

/-- Every device context is as the rules keep it. -/
def DevicesOk (s : State) : Prop := ∀ d : Index, DeviceOk s.cfg (s.dev d)

/-- The endpoint queues and the packet states agree: a queue holds no index twice (R20); every
packet in a queue is a slot in use that is in flight and belongs to that endpoint (R114 (b), (c));
every packet in flight is in its endpoint's queue (R114 (a)). -/
structure QueuesOk (s : State) : Prop where
  nodup  : ∀ r : EpRef, (s.ep r).queue.Nodup
  member : ∀ (r : EpRef) (k : Index), k ∈ (s.ep r).queue →
    k.toNat < s.pkts.length ∧ (s.pkt k).valid = true ∧ (s.pkt k).state.inFlight = true ∧
      (s.pkt k).endpoint = r
  queued : ∀ k : Index, (s.pkt k).state.inFlight = true →
    (s.pkt k).dev.toNat < s.devs.length ∧ k ∈ (s.ep (s.pkt k).endpoint).queue

/-- Ports and devices agree on who is bound to whom (R150), and an attached device is bound. -/
structure BindingOk (s : State) : Prop where
  portDev  : ∀ p : Index, p.toNat < s.ports.length → (s.port p).dev ≠ noIndex →
    (s.port p).dev.toNat < s.devs.length ∧ (s.dev (s.port p).dev).port = p
  devPort  : ∀ d : Index, d.toNat < s.devs.length → (s.dev d).port ≠ noIndex →
    (s.dev d).port.toNat < s.ports.length ∧ (s.port (s.dev d).port).dev = d
  attached : ∀ d : Index, d.toNat < s.devs.length → (s.dev d).attached = true →
    (s.dev d).port ≠ noIndex

end Sys2Proof.Machine
end

