-- ==== Sys2Proof/Certificates/Slice0/Obligations.lean ====
section
/-! DEFINITION. The statements about the block, from the numbered rules of spec/, and the words they are
written in: operands that exist, the frames (which part of the state may differ), and what the
backend answers. A record update such as `{ s with pkts := t.pkts }` says that every other part of
the state, every byte of host memory included, is as it was. -/

namespace Sys2Proof.Claim

open Sys2Proof.Machine

/-! ### Operands and contract violations -/

/-- An index that names a device (R14, R75). -/
def IsDevice (s : State) (d : Index) : Prop := d ≠ noIndex ∧ d.toNat < s.devs.length

/-- An index that names a port (R13). -/
def IsPort (s : State) (p : Index) : Prop := p.toNat < s.ports.length

/-- An index that names a packet slot (R23). -/
def IsPacket (s : State) (k : Index) : Prop := k.toNat < s.pkts.length

/-- The command raises a contract violation having reached the state `u`: the latch, the cause and
the first word of the command are recorded there, and nothing else changes (R171). -/
def RaisesFrom (i : Instr) (cause : BitVec 8) (s u : State) : Prop :=
  exec i s = .next { u with fault := true, fcause := cause, finfo := i.firstWord }

/-- The command raises a contract violation before it has changed anything. -/
def Raises (i : Instr) (cause : BitVec 8) (s : State) : Prop := RaisesFrom i cause s s

/-! ### Frames -/

/-- Every byte of host memory reads as before. -/
def SameMemory (s t : State) : Prop := ∀ a, t.hmem.read a = s.hmem.read a

/-- Of the packet slots only `k` may differ, and it is now `P`. -/
def PacketIs (k : Index) (P : Packet) (s t : State) : Prop :=
  t.pkts.length = s.pkts.length ∧ t.pkt k = P ∧ ∀ j, j ≠ k → t.pkt j = s.pkt j

/-- Of the devices only `d` may differ, and it is now `D`. -/
def DeviceIs (d : Index) (D : Device) (s t : State) : Prop :=
  t.devs.length = s.devs.length ∧ t.dev d = D ∧ ∀ j, j ≠ d → t.dev j = s.dev j

/-- Of the endpoints only `r` may differ, and it is now `e`; no other field of a device differs. -/
def EndpointIs (r : EpRef) (e : Endpoint) (s t : State) : Prop :=
  t.ep r = e ∧ (∀ q, q ≠ r → t.ep q = s.ep q) ∧
  DeviceIs r.dev
    { s.dev r.dev with
      epCtl := (t.dev r.dev).epCtl, epIn := (t.dev r.dev).epIn, epOut := (t.dev r.dev).epOut } s t

/-! ### Bytes -/

/-- Byte `i` of a list. -/
def byte (bs : List Byte) (i : Nat) : Byte := bs.getD i 0

/-- The bytes are those the vector's positions from `pos` hold in host memory (R43, R44). -/
def Reads (s : State) (iov : List Segment) (pos : Nat) (bs : List Byte) : Prop :=
  ∀ j < bs.length, ∃ a, hostAddress s.cfg iov (pos + j) = some a ∧ s.hmem.read a = byte bs j

/-- The bytes went to the vector's positions from `pos`, a later position winning where two lie at
one address (R43, R47), and every other byte of host memory reads as before. -/
def Stored (s t : State) (iov : List Segment) (pos : Nat) (bs : List Byte) : Prop :=
  (∀ a, (∀ j < bs.length, hostAddress s.cfg iov (pos + j) ≠ some a) →
    t.hmem.read a = s.hmem.read a) ∧
  ∀ a, ∀ j < bs.length, hostAddress s.cfg iov (pos + j) = some a →
    (∀ l < bs.length, j < l → hostAddress s.cfg iov (pos + l) ≠ some a) →
    t.hmem.read a = byte bs j

/-- The bytes went to a buffer from its offset `off`, and every other byte of it reads as before. -/
def Written (m m' : Memory) (off : Nat) (bs : List Byte) : Prop :=
  ∀ x, m'.read x = if off ≤ x ∧ x < off + bs.length then byte bs (x - off) else m.read x

/-- `n` bytes of a buffer from its offset `off`. -/
def bytesOf (m : Memory) (off n : Nat) : List Byte := (List.range n).map fun j => m.read (off + j)

/-! ### The fields of a setup packet (R121, R45) -/

def bufferOf (bs : List Byte) : SetupBuf :=
  ⟨byte bs 0, byte bs 1, byte bs 2, byte bs 3, byte bs 4, byte bs 5, byte bs 6, byte bs 7⟩

def requestOf (bs : List Byte) : BitVec 16 := byte bs 0 ++ byte bs 1

def valueOf (bs : List Byte) : BitVec 16 := byte bs 3 ++ byte bs 2

def indexOf (bs : List Byte) : BitVec 16 := byte bs 5 ++ byte bs 4

def lengthOf (bs : List Byte) : BitVec 16 := byte bs 7 ++ byte bs 6

/-- The request direction is IN. -/
def dirInOf (bs : List Byte) : Bool := (byte bs 0).getLsbD 7

/-- The eight bytes in a setup buffer. -/
def bytesOfBuffer (b : SetupBuf) : List Byte := [b.b0, b.b1, b.b2, b.b3, b.b4, b.b5, b.b6, b.b7]

/-- The eight bytes of a parameter word, byte `i` from bits `8i+7 : 8i` (R122). -/
def parameterBytes (p : BitVec 64) : List Byte := (List.range 8).map fun i => p.extractLsb' (8 * i) 8

/-- The handler call event for a request, with the length and payload of the moment (R140). -/
def controlCall (d k : Index) (bs : List Byte) (length : BitVec 16) (m : Memory) : Event :=
  .handleControl d k (requestOf bs) (valueOf bs) (indexOf bs) length (bytesOf m 0 length.toNat)

/-! ### Handler calls and their outcome -/

/-- What a call of hook `b` answers: the next response, or `Resp(Success, 0, [])` where the hook is
absent (R100, R158). -/
def reply (d : Index) (b : Nat) (s : State) : Resp := if s.hasHook d b then s.nextResp else ⟨0, 0, []⟩

/-- The state once hook `b` was called: the events are emitted and a response is taken, unless the
hook is absent (R100, R158). -/
def called (d : Index) (b : Nat) (es : List Event) (s : State) : State :=
  if s.hasHook d b then { s.dropResp with trace := s.trace ++ es } else s

/-- A control response the block accepts (R100). -/
def AcceptedByControl (s : State) (r : Resp) : Prop :=
  r.data.length = r.n.toNat ∧ r.n.toNat ≤ s.cfg.ctrlBufSize

/-- The endpoint and its device may answer Async (R103). -/
def MayDefer (r : EpRef) (s : State) : Prop :=
  (s.ep r).type ≠ 3 ∧ ((s.ep r).type = 2 → s.hostRole r.dev = true)

/-- The packet a dispatch by SUBMIT leaves for a handler status: Complete for Success, Stall and
NoDevice; Setup for NAK; Async for Async; Queued with status Async for AddToQueue (R103 to R105). -/
def settled (st : Status) (P : Packet) : Packet :=
  match st with
  | .success | .stall | .noDevice => { P with status := st, state := .complete }
  | .nak => { P with status := .nak }
  | .async => { P with status := .async, state := .async }
  | .addToQueue => { P with status := .async, state := .queued }

/-- The queue such a dispatch leaves (R103 to R105). -/
def queueAfter (st : Status) (k : Index) (q : List Index) : List Index :=
  match st with
  | .async | .addToQueue => q ++ [k]
  | .success | .stall | .noDevice | .nak => q

/-- A status that ends a packet (R105, R108). -/
def Final (st : Status) : Prop := st = .success ∨ st = .stall ∨ st = .noDevice

/-! ### Hypotheses of SUBMIT and COMPLETE -/

/-- SUBMIT of a packet in state Setup to its own, attached device (R94). -/
structure Submittable (k d : Index) (s : State) : Prop where
  clear    : s.fault = false
  packet   : IsPacket s k
  valid    : (s.pkt k).valid = true
  setup    : (s.pkt k).state = .setup
  device   : IsDevice s d
  attached : (s.dev d).attached = true
  own      : (s.pkt k).dev = d

/-- SUBMIT dispatches the packet at once: the endpoint is not halted, and its queue is empty, or it
is pipelined, or the packet carries a stream id (R97, R99). -/
structure Dispatchable (k d : Index) (s : State) : Prop extends Submittable k d s where
  running : (s.ep (s.pkt k).endpoint).halted = false
  free    : (s.ep (s.pkt k).endpoint).queue = [] ∨ (s.ep (s.pkt k).endpoint).pipeline = true ∨
    (s.pkt k).stream ≠ 0

/-- The invariants of the model a transfer of packet `k` on device `d` rests on. -/
structure Sound (k d : Index) (s : State) : Prop where
  memory : s.hmem.wf = true
  packet : PacketOk s.cfg s.devs.length (s.pkt k)
  device : DeviceOk s.cfg (s.dev d)

/-- COMPLETE of an Async packet that may complete now, on an endpoint where nothing is left to
dispatch behind it: the queue without it is empty or begins with an Async packet (R108, R110). -/
structure Completable (k : Index) (s : State) : Prop where
  clear   : s.fault = false
  packet  : IsPacket s k
  valid   : (s.pkt k).valid = true
  async   : (s.pkt k).state = .async
  device  : (s.pkt k).dev.toNat < s.devs.length
  inOrder : (s.pkt k).stream ≠ 0 ∨ (s.ep (s.pkt k).endpoint).pipeline = true ∨
    (s.ep (s.pkt k).endpoint).queue.head? = some k
  quiet   : ∀ h, ((s.ep (s.pkt k).endpoint).queue.filter (· != k)).head? = some h →
    (s.pkt h).state = .async

/-- Packet `k` of device `d` calls the control handler (R120, R140), for the setup bytes `bs`; at the
call the packet is `P` and the device is `D`. -/
inductive ControlCall (s : State) (k d : Index) : List Byte → Packet → Device → Prop
  /-- The SETUP token of an IN request (R125, R126). -/
  | setupToken (bs : List Byte) :
      (s.pkt k).parameter = 0 → (s.pkt k).token = .setup → iovSize (s.pkt k).iov = 8 →
      bs.length = 8 → Reads s (s.pkt k).iov 0 bs → (lengthOf bs).toNat ≤ s.cfg.ctrlBufSize →
      dirInOf bs = true →
      ControlCall s k d bs { s.pkt k with status := .success, actualLength := 0 }
        { s.dev d with
          setupBuf := bufferOf bs, ctlState := .setup, setupLen := lengthOf bs, setupIndex := 0 }
  /-- The IN token that is the status phase of an OUT request (R130). -/
  | statusPhase :
      (s.pkt k).parameter = 0 → (s.pkt k).token = .inn → (s.dev d).ctlState = .ack →
      dirInOf (bytesOfBuffer (s.dev d).setupBuf) = false →
      ControlCall s k d (bytesOfBuffer (s.dev d).setupBuf) { s.pkt k with status := .success }
        (s.dev d)
  /-- A Param packet, whose OUT payload is in the data buffer by then (R122). -/
  | param (ps : List Byte) :
      (s.pkt k).parameter ≠ 0 →
      (lengthOf (parameterBytes (s.pkt k).parameter)).toNat ≤ s.cfg.ctrlBufSize →
      (if (s.pkt k).token = .out then
        ps.length = min (lengthOf (parameterBytes (s.pkt k).parameter)).toNat
          (iovSize (s.pkt k).iov) ∧ Reads s (s.pkt k).iov 0 ps
      else ps = []) →
      ControlCall s k d (parameterBytes (s.pkt k).parameter)
        { s.pkt k with
          status := .success
          actualLength := if (s.pkt k).token = .out then BitVec.ofNat 32 ps.length
            else (s.pkt k).actualLength }
        { s.dev d with
          setupBuf := bufferOf (parameterBytes (s.pkt k).parameter), ctlState := .param
          setupLen := lengthOf (parameterBytes (s.pkt k).parameter), setupIndex := 0
          dataBuf := (s.dev d).dataBuf.writeList 0 ps }

/-! ### The queue advance -/

/-- The state with packet `h` Async, so that a queue advance stops when it comes to it (R110). -/
def held (h : Index) (s : State) : State := s.setPktState h .async

/-- The state with packet `h` in state Setup and nothing in the way of its SUBMIT: its device is
attached, and its endpoint `q` is not halted and has an empty queue. -/
def ready (q : EpRef) (h : Index) (s : State) : State :=
  ((s.setPktState h .setup).updEp q fun e => { e with halted := false, queue := [] }).updDev q.dev
    fun D => { D with attached := true }

/-- What the advance from `u` leaves of a packet that a SUBMIT from `ready q h u` leaves in `w`: the
device's attached flag and the endpoint's halt are those of `u`, and the packet's status and state
and the endpoint's queue are as given. -/
def resumed (q : EpRef) (h : Index) (u w : State) (st : Status) (p : PktState) (rest : List Index) :
    State :=
  ((w.updPkt h fun P => { P with status := st, state := p }).updDev q.dev
    fun D => { D with attached := (u.dev q.dev).attached }).updEp q
    fun _ => { u.ep q with queue := rest }

/-- The packets an event list reports complete, in order (R182). -/
def completions : List Event → List Index
  | [] => []
  | .complete k _ _ :: es => k :: completions es
  | _ :: es => completions es

/-- The packet state transitions of R90, by the command that makes them; `k` is the slot. -/
def Transition (i : Instr) (k : Index) (a b : PktState) : Prop :=
  match i with
  | .pktSetup j _ _ _ _ _ _ _ => k = j ∧ a.inFlight = false ∧ b = .setup
  | .submit j _ => k = j ∧ a = .setup ∧ (b = .queued ∨ b = .async ∨ b = .complete)
  | .cancel j => k = j ∧ a.inFlight = true ∧ b = .canceled
  | .complete j => (k = j ∧ a = .async ∧ b = .complete) ∨
      (k ≠ j ∧ a = .queued ∧ (b = .async ∨ b = .complete))
  | .epSetType .. | .epSetIfnum .. | .epSetMps .. | .epSetPipe .. | .epSetHalt .. | .epGet ..
  | .pktIovAdd .. | .pktSetParam .. | .pktRead .. | .portBind .. | .attach .. | .detach ..
  | .resetPort .. | .findDevice .. | .devSetAddr .. | .devSetRwake .. => False

/-- Commands that may change host memory, `ctl_state` and the other fields of the control sequencer:
the two that dispatch (R15, R43). -/
def dispatches : Instr → Bool
  | .submit .. | .complete .. => true
  | .epSetType .. | .epSetIfnum .. | .epSetMps .. | .epSetPipe .. | .epSetHalt .. | .epGet ..
  | .pktSetup .. | .pktIovAdd .. | .pktSetParam .. | .cancel .. | .pktRead .. | .portBind ..
  | .attach .. | .detach .. | .resetPort .. | .findDevice .. | .devSetAddr .. | .devSetRwake .. => false

end Sys2Proof.Claim

open Sys2Proof Sys2Proof.Machine Sys2Proof.Claim

/-! ### Encoding and decoding -/

/-- The decoder reads back every command the encoder writes, with every operand at every value, and
leaves the words behind it (R56 to R61). -/
def Obligations.DecodeOfEncode : Prop :=
  ∀ (i : Instr) (rest : List Word), decode (encode i ++ rest) = .command i rest

/-- A whole command with an opcode of R61 either is the encoding of an instruction, which is then
executed, or is none, and then raises cause 16 with nothing else done (R56 to R60, R62 (b)). That the
refused command's words, as many as its opcode says, leave the port is the model's reading (log 8,
DEDUCED). -/
def Obligations.WholeCommandRunsOrRaises : Prop :=
  ∀ (s : State) (w0 : Word) (ws : List Word) (o : Opcode),
    s.fault = false → s.resetIn = false → s.cmds = w0 :: ws →
    Opcode.ofCode (field 24 8 w0) = some o → o.words ≤ s.cmds.length →
    (∃ i, encode i = s.cmds.take o.words ∧
      step s = exec i { s with cmds := s.cmds.drop o.words }) ∨
    ((∀ i, encode i ≠ s.cmds.take o.words) ∧
      step s = .next { s with
        cmds := s.cmds.drop o.words, fault := true, fcause := 16, finfo := w0 })

/-- A reserved opcode is a one-word command that raises cause 14; every other opcode is in the map
(R57, R61, R62 (a), R63). -/
def Obligations.ReservedOpcodes : Prop :=
  ∀ (s : State) (w0 : Word) (ws : List Word),
    let op := (field 24 8 w0).toNat
    let reserved := op = 0 ∨ (0x07 ≤ op ∧ op ≤ 0x0F) ∨ (0x17 ≤ op ∧ op ≤ 0x1F) ∨ 0x27 ≤ op
    (¬ reserved → (Opcode.ofCode (field 24 8 w0)).isSome) ∧
    (reserved → s.fault = false → s.resetIn = false → s.cmds = w0 :: ws →
      step s = .next { s with cmds := ws, fault := true, fcause := 14, finfo := w0 })

/-- The worked encodings of R65 and of the examples of 40, 41 and 43 decode to the commands they
stand for. -/
def Obligations.SpecWordsDecode : Prop :=
  decode [0x03000000, 0x00000040] = .command (.epSetMps 0 0 .out 64) [] ∧
  decode [0x03010280, 0x00000C00] = .command (.epSetMps 1 2 .inn 0x0C00) [] ∧
  decode [0x01000180, 0x00000002] = .command (.epSetType 0 1 .inn 2) [] ∧
  decode [0x10030000, 0x00000202, 0x00000007] = .command (.pktSetup 3 0 0 .inn false true 0 7) [] ∧
  decode [0x11000000, 0x00001000, 0x00000008] = .command (.pktIovAdd 0 0x1000 8) [] ∧
  decode [0x12010000, 0x01000680, 0x00080000] =
    .command (.pktSetParam 1 0x0008000001000680) [] ∧
  decode [0x1303FF00] = .command (.submit 3 0xFF) [] ∧
  decode [0x24010500] = .command (.findDevice 1 5) [] ∧
  decode [0x26000100] = .command (.devSetRwake 0 true) []

/-! ### The step and the reset -/

/-- A step runs exactly the command at the head of the port, as decoded, with its words taken; so it
runs any command whose encoding stands there. With no command on the port, or not all words of one,
the block waits (R6, R55, R57, R197; log 4). -/
def Obligations.StepRunsTheDecodedCommand : Prop :=
  ∀ s : State, s.resetIn = false →
    (∀ i rest, decode s.cmds = .command i rest → step s = exec i { s with cmds := rest }) ∧
    (∀ i rest, s.cmds = encode i ++ rest → step s = exec i { s with cmds := rest }) ∧
    ((s.cmds = [] ∨ ∃ w0 ws o, s.cmds = w0 :: ws ∧ Opcode.ofCode (field 24 8 w0) = some o ∧
        s.cmds.length < o.words) → step s = .next s)

/-- The hardware reset clears the latch and gives every piece of state its reset value; the
configuration, the sizes and host memory stay (R195, R196). That the two input channels and the
trace are emptied with it is the model's choice (log 15). -/
def Obligations.HardwareReset : Prop :=
  ∀ s : State, s.resetIn = true → ∃ t, step s = .next t ∧
    t.fault = false ∧ t.fcause = 0 ∧ t.finfo = 0 ∧
    t.res0 = 0 ∧ t.res1 = 0 ∧ t.res2 = 0 ∧ t.res3 = 0 ∧
    t.cfg = s.cfg ∧ t.ports.length = s.ports.length ∧ t.devs.length = s.devs.length ∧
    t.pkts.length = s.pkts.length ∧ t.hmem = s.hmem ∧ t.trace = [] ∧ t.cmds = [] ∧ t.resps = [] ∧
    t.resetIn = false ∧
    (∀ p, t.port p = Port.reset) ∧ (∀ d, t.dev d = Device.reset) ∧ (∀ k, t.pkt k = Packet.reset)

/-- The reset table, field by field. -/
def Obligations.ResetValues : Prop :=
  State.reset.fault = false ∧ State.reset.fcause = 0 ∧ State.reset.finfo = 0 ∧
  State.reset.res0 = 0 ∧ State.reset.res1 = 0 ∧ State.reset.res2 = 0 ∧ State.reset.res3 = 0 ∧
  State.reset.trace = [] ∧
  (∀ p, (State.reset.port p).dev = 0xFF) ∧
  (∀ d, let D := State.reset.dev d
    D.attached = false ∧ D.addr = 0 ∧ D.state = .notAttached ∧ D.remoteWakeup = false ∧
    D.port = 0xFF ∧ D.setupBuf = ⟨0, 0, 0, 0, 0, 0, 0, 0⟩ ∧ D.ctlState = .idle ∧
    (∀ x, D.dataBuf.read x = 0) ∧ D.setupLen = 0 ∧ D.setupIndex = 0) ∧
  (∀ d e, State.reset.ep ⟨d, e⟩ =
    if e = .ctl then ⟨0, 0, 64, false, false, []⟩ else ⟨7, 0, 0, false, false, []⟩) ∧
  (∀ k, State.reset.pkt k =
    ⟨false, 0, .reserved, 0xFF, .out, 0, 0, .success, 0, 0, false, false, [], .setup, 0xFF⟩)

/-- A faulted block stays faulted, with the same cause and word, until the hardware reset: any step
without reset at most takes words from the command port (R171, R177). -/
def Obligations.FaultedUntilReset : Prop :=
  ∀ s : State, s.fault = true → s.resetIn = false →
    ∃ t, step s = .next t ∧ t.fault = true ∧ t.fcause = s.fcause ∧ t.finfo = s.finfo ∧
      t = { s with cmds := t.cmds }

/-- A fault records its cause in `FCAUSE` and the first word of the running command in `FINFO`, also
when it is raised inside a queue advance (R171 to R173). -/
def Obligations.FaultRecordsCauseAndWord : Prop :=
  ∀ s t : State, s.fault = false → s.resetIn = false → step s = .next t → t.fault = true →
    1 ≤ t.fcause.toNat ∧ t.fcause.toNat ≤ 21 ∧ s.cmds.head? = some t.finfo

/-! ### Rules about every command -/

/-- The result registers are written by EP_GET, PKT_READ and FIND_DEVICE and by no other command;
FIND_DEVICE writes only `RES0` (R10, R157). -/
def Obligations.ResultRegisterWriters : Prop :=
  ∀ (i : Instr) (s t : State), exec i s = .next t →
    match i with
    | .epGet .. | .pktRead .. => True
    | .findDevice .. => t.res1 = s.res1 ∧ t.res2 = s.res2 ∧ t.res3 = s.res3
    | .epSetType .. | .epSetIfnum .. | .epSetMps .. | .epSetPipe .. | .epSetHalt .. | .pktSetup ..
    | .pktIovAdd .. | .pktSetParam .. | .submit .. | .cancel .. | .complete .. | .portBind ..
    | .attach .. | .detach .. | .resetPort .. | .devSetAddr .. | .devSetRwake .. =>
      t.res0 = s.res0 ∧ t.res1 = s.res1 ∧ t.res2 = s.res2 ∧ t.res3 = s.res3

/-- Host memory changes only in SUBMIT and COMPLETE, and only at bytes that the vector of some IN
packet names: nothing else in it can be overwritten by any command (R40, R43, R44). -/
def Obligations.HostMemoryChangesInsideVectors : Prop :=
  ∀ (i : Instr) (s t : State) (a : Nat), s.hmem.wf = true → exec i s = .next t →
    t.hmem.read a ≠ s.hmem.read a →
    dispatches i = true ∧
    ∃ k pos, (s.pkt k).token = .inn ∧ hostAddress s.cfg (s.pkt k).iov pos = some a

/-- The configuration and the sizes are constant over a run (R5, R196). -/
def Obligations.ConfigurationConstant : Prop :=
  ∀ s t : State, step s = .next t →
    t.cfg = s.cfg ∧ t.ports.length = s.ports.length ∧ t.devs.length = s.devs.length ∧
    t.pkts.length = s.pkts.length

/-- A command only adds events, and only COMPLETE adds completion events: a packet that completes
inside its own SUBMIT is not reported (R181, R182). -/
def Obligations.EventsOnlyAdded : Prop :=
  ∀ (i : Instr) (s t : State), exec i s = .next t →
    ∃ es, t.trace = s.trace ++ es ∧ ((∀ k, i ≠ .complete k) → completions es = [])

/-- Each field of a device is written only by the commands the table of R15 names, and only of the
device the command is about: the lifecycle fields by the port commands of the port that holds it, the
address and the remote wakeup also by their setters, the port by a PORT_BIND that binds or unbinds
it, and the fields of the control sequencer by SUBMIT and COMPLETE of one of its endpoint-0
packets. -/
def Obligations.DeviceFieldWriters : Prop :=
  ∀ (i : Instr) (s t : State) (d : Index), QueuesOk s → exec i s = .next t →
    let D := s.dev d
    let D' := t.dev d
    let reset := ∃ p, i = .resetPort p ∧ (s.port p).dev = d
    ((D'.attached ≠ D.attached ∨ D'.state ≠ D.state) →
      reset ∨ ∃ p, (i = .attach p ∨ i = .detach p) ∧ (s.port p).dev = d) ∧
    (D'.addr ≠ D.addr → reset ∨ ∃ a, i = .devSetAddr d a) ∧
    (D'.remoteWakeup ≠ D.remoteWakeup → reset ∨ ∃ f, i = .devSetRwake d f) ∧
    (D'.port ≠ D.port → ∃ p e, i = .portBind p e ∧ (e = d ∨ (s.port p).dev = d)) ∧
    ((D'.setupBuf ≠ D.setupBuf ∨ D'.ctlState ≠ D.ctlState ∨ D'.dataBuf ≠ D.dataBuf ∨
        D'.setupLen ≠ D.setupLen ∨ D'.setupIndex ≠ D.setupIndex) →
      ∃ k, (i = .complete k ∨ ∃ e, i = .submit k e) ∧ (s.pkt k).dev = d ∧ (s.pkt k).epNr = 0)

/-- Each field of an endpoint is written only by the commands the table of R20 names, and only of the
endpoint the command selects; SUBMIT only clears the halt, and a queue changes only for a packet of
its own endpoint (R20, R22, R31). -/
def Obligations.EndpointFieldWriters : Prop :=
  ∀ (i : Instr) (s t : State) (r : EpRef), exec i s = .next t →
    let E := s.ep r
    let E' := t.ep r
    let picks := fun (d n : Index) (dir : Dir) => r = ⟨d, epId dir n.toNat⟩
    (E'.type ≠ E.type → ∃ d n dir v, i = .epSetType d n dir v ∧ picks d n dir) ∧
    (E'.ifnum ≠ E.ifnum → ∃ d n dir v, i = .epSetIfnum d n dir v ∧ picks d n dir) ∧
    (E'.maxPacketSize ≠ E.maxPacketSize →
      ∃ d n dir v, i = .epSetMps d n dir v ∧ picks d n dir) ∧
    (E'.pipeline ≠ E.pipeline → ∃ d n dir f, i = .epSetPipe d n dir f ∧ picks d n dir) ∧
    (E'.halted ≠ E.halted → (∃ d n dir f, i = .epSetHalt d n dir f ∧ picks d n dir) ∨
      (E'.halted = false ∧ ∃ k d, i = .submit k d ∧ r = (s.pkt k).endpoint)) ∧
    (E'.queue ≠ E.queue → ∃ k, (i = .cancel k ∨ i = .complete k ∨ ∃ d, i = .submit k d) ∧
      r = (s.pkt k).endpoint)

/-- Each field of a packet is written only by the commands the table of R25 names: identity, token,
endpoint and flags by PKT_SETUP, the parameter also by PKT_SET_PARAM, the vector also by
PKT_IOV_ADD, status and length also by SUBMIT and COMPLETE, the state also by SUBMIT and CANCEL of
that packet and by COMPLETE. -/
def Obligations.PacketFieldWriters : Prop :=
  ∀ (i : Instr) (s t : State) (k : Index), exec i s = .next t →
    let P := s.pkt k
    let P' := t.pkt k
    (∃ d n tk so ir st id, i = .pktSetup k d n tk so ir st id) ∨
    (P' = { P with
        parameter := P'.parameter, iov := P'.iov, status := P'.status
        actualLength := P'.actualLength, state := P'.state } ∧
      (P'.parameter ≠ P.parameter → ∃ p, i = .pktSetParam k p) ∧
      (P'.iov ≠ P.iov → ∃ a l, i = .pktIovAdd k a l) ∧
      (P'.status ≠ P.status ∨ P'.actualLength ≠ P.actualLength → dispatches i = true) ∧
      (P'.state ≠ P.state → i = .cancel k ∨ (∃ d, i = .submit k d) ∨ ∃ j, i = .complete j))

/-- A packet's state changes only as the table of R90 allows, by the command it names, whether or not
the command ends in a contract violation. -/
def Obligations.PacketTransitions : Prop :=
  ∀ (i : Instr) (s t : State) (k : Index), QueuesOk s → exec i s = .next t →
    (t.pkt k).state = (s.pkt k).state ∨ Transition i k (s.pkt k).state (t.pkt k).state

/-- A COMPLETE that completes its packet then takes packets from the head of the same queue, in
order: the events report that packet and then exactly the packets taken, and what is left of the
queue is the rest in its order. Unless a contract violation ends it, it goes on until nothing is left
to dispatch: the queue is empty or its head is Async (R109 to R112, R182). -/
def Obligations.CompletionsInQueueOrder : Prop :=
  ∀ (k : Index) (s t : State), QueuesOk s → exec (.complete k) s = .next t →
    let r := (s.pkt k).endpoint
    (∃ es, t.trace = s.trace ++ es ∧
      ((completions es = [] ∧ (t.ep r).queue = (s.ep r).queue) ∨
       ∃ done, completions es = k :: done ∧
        (s.ep r).queue.filter (· != k) = done ++ (t.ep r).queue ∧
        ∀ h ∈ done, (t.pkt h).state = .complete)) ∧
    (t.fault = false → ∀ h, (t.ep r).queue.head? = some h → (t.pkt h).state = .async)

/-! ### Invariants -/

/-- Host memory keeps its canonical form and never lists a byte at or above `2^HADDR_BITS` (R40). -/
def Obligations.HostMemoryInvariant : Prop :=
  ∀ s t : State, HostMemoryOk s → step s = .next t → HostMemoryOk t

/-- Every packet slot stays as the rules keep it: `actual_length` never exceeds the capacity of its
vector, which lies in host memory (R28 (a), R32 (a) (b), R114 (e)). -/
def Obligations.PacketsInvariant : Prop :=
  ∀ s t : State, PacketsOk s → QueuesOk s → step s = .next t → PacketsOk t

/-- Every device stays as the rules keep it: the cursor never passes the length, the length fits the
buffer while a transfer is in progress, and the buffer is never written past its capacity (R15,
R28 (c), R32 (c), R141 (c)). -/
def Obligations.DevicesInvariant : Prop :=
  ∀ s t : State, DevicesOk s → step s = .next t → DevicesOk t

/-- A queue holds no packet twice and holds exactly the packets in flight on its endpoint (R20,
R114 (a) (b) (c)). -/
def Obligations.QueuesInvariant : Prop :=
  ∀ s t : State, QueuesOk s → step s = .next t → QueuesOk t

/-- Ports and devices agree on who is bound to whom (R150). R5 allows at most 255 devices; with 256
ports the index of the last one is the one that means none, hence the other bound, which is the
model's (log 21). -/
def Obligations.BindingInvariant : Prop :=
  ∀ s t : State, s.ports.length ≤ 255 → s.devs.length ≤ 255 → BindingOk s → step s = .next t →
    BindingOk t

/-- Every step answers a next state where the packets are as the rules keep them: no command is
refused by the model and no host address is missing (R41, R92). -/
def Obligations.StepNeverStops : Prop :=
  ∀ s : State, PacketsOk s → ∃ t, step s = .next t

/-- The reset state meets every invariant, for every legal configuration, all sizes and any launch
memory in canonical form. -/
def Obligations.ResetMeetsInvariants : Prop :=
  ∀ (c : Config) (z : Sizes) (m : Memory), m.wf = true → m.below c.hostSize = true →
    HostMemoryOk (State.resetWith c z m) ∧ PacketsOk (State.resetWith c z m) ∧
    DevicesOk (State.resetWith c z m) ∧ QueuesOk (State.resetWith c z m) ∧
    BindingOk (State.resetWith c z m)

/-! ### Endpoint commands -/

/-- Each setter writes its one field of the selected endpoint and nothing else, at any time: the
type as given, the interface number, the low 11 bits of the packet size, the pipeline flag and the
halted flag (R75 to R80). -/
def Obligations.EndpointSetters : Prop :=
  ∀ (s : State) (d n : Index) (dir : Dir), s.fault = false → IsDevice s d → n.toNat ≤ 15 →
    let r : EpRef := ⟨d, epId dir n.toNat⟩
    let sets := fun (i : Instr) (e : Endpoint) =>
      ∃ t, exec i s = .next t ∧ t = { s with devs := t.devs } ∧ SameMemory s t ∧ EndpointIs r e s t
    (∀ v, sets (.epSetType d n dir v) { s.ep r with type := v }) ∧
    (∀ v, sets (.epSetIfnum d n dir v) { s.ep r with ifnum := v }) ∧
    (∀ v, sets (.epSetMps d n dir v) { s.ep r with maxPacketSize := v.extractLsb' 0 11 }) ∧
    (∀ f, sets (.epSetPipe d n dir f) { s.ep r with pipeline := f }) ∧
    (∀ f, sets (.epSetHalt d n dir f) { s.ep r with halted := f })

/-- EP_GET copies the selected endpoint to the result registers: type in bits 2:0, halted bit 8,
pipeline bit 9 and interface number in bits 23:16 of `RES0`, all other bits 0; the packet size; the
queue length; the head of the queue or `0xFFFFFFFF` (R81). -/
def Obligations.EndpointRead : Prop :=
  ∀ (s : State) (d n : Index) (dir : Dir), s.fault = false → IsDevice s d → n.toNat ≤ 15 →
    let e := s.ep ⟨d, epId dir n.toNat⟩
    ∃ t, exec (.epGet d n dir) s = .next t ∧
      t = { s with res0 := t.res0, res1 := t.res1, res2 := t.res2, res3 := t.res3 } ∧
      SameMemory s t ∧
      t.res0.extractLsb' 0 3 = e.type ∧ t.res0.getLsbD 8 = e.halted ∧
      t.res0.getLsbD 9 = e.pipeline ∧ t.res0.extractLsb' 16 8 = e.ifnum ∧
      t.res0 &&& 0xFF00FCF8 = 0 ∧
      t.res1.toNat = e.maxPacketSize.toNat ∧
      (e.queue.length < 2 ^ 32 → t.res2.toNat = e.queue.length) ∧
      (e.queue = [] → t.res3 = 0xFFFFFFFF) ∧
      ∀ h tl, e.queue = h :: tl → t.res3.toNat = h.toNat

/-- Endpoint number 0 is the shared control endpoint whatever the direction; number `n` from 1 to 15
is element `n` of the array the direction names. For every endpoint command, a device that does not
exist raises cause 5, before the endpoint number is looked at, and a number above 15 raises cause 4
(R19, R75). -/
def Obligations.EndpointLookup : Prop :=
  (∀ dir, epId dir 0 = .ctl) ∧
  (∀ n, 1 ≤ n → n ≤ 15 → (∃ i : Fin 15, epId .inn n = .inn i ∧ i.val + 1 = n) ∧
    ∃ i : Fin 15, epId .out n = .out i ∧ i.val + 1 = n) ∧
  ∀ (s : State) (d n : Index) (dir : Dir) (i : Instr), s.fault = false →
    ((∃ v, i = .epSetType d n dir v) ∨ (∃ v, i = .epSetIfnum d n dir v) ∨
      (∃ v, i = .epSetMps d n dir v) ∨ (∃ f, i = .epSetPipe d n dir f) ∨
      (∃ f, i = .epSetHalt d n dir f) ∨ i = .epGet d n dir) →
    (¬ IsDevice s d → Raises i 5 s) ∧
    (IsDevice s d → 15 < n.toNat → Raises i 4 s)

/-- An index operand out of range raises cause 16 for a port or a packet and cause 5 for a device,
before any rule of the command runs (R62 (c), R175); a packet slot never set up raises cause 17
(R23). Two orders are the model's: `a` is looked at before `b` (log 9, DESIGN CHOICE), and the cause 5
of PKT_SETUP comes before its causes 1 and 16, as R62 and R175 have it against R91's own list
(log 10, DEDUCED). -/
def Obligations.IndexOperandFaults : Prop :=
  ∀ s : State, s.fault = false →
    (∀ p, ¬ IsPort s p →
      Raises (.attach p) 16 s ∧ Raises (.detach p) 16 s ∧ Raises (.resetPort p) 16 s ∧
      (∀ a, Raises (.findDevice p a) 16 s) ∧ ∀ d, Raises (.portBind p d) 16 s) ∧
    (∀ k, ¬ IsPacket s k →
      Raises (.cancel k) 16 s ∧ Raises (.complete k) 16 s ∧ Raises (.pktRead k) 16 s ∧
      (∀ p, Raises (.pktSetParam k p) 16 s) ∧ (∀ a l, Raises (.pktIovAdd k a l) 16 s) ∧
      (∀ d, Raises (.submit k d) 16 s) ∧
      ∀ d n tk so ir st id, Raises (.pktSetup k d n tk so ir st id) 16 s) ∧
    (∀ d, ¬ IsDevice s d →
      (∀ a, Raises (.devSetAddr d a) 5 s) ∧ (∀ f, Raises (.devSetRwake d f) 5 s) ∧
      (∀ k n tk so ir st id, IsPacket s k → Raises (.pktSetup k d n tk so ir st id) 5 s) ∧
      (d ≠ noIndex → (∀ p, IsPort s p → Raises (.portBind p d) 5 s) ∧
        ∀ k, IsPacket s k → Raises (.submit k d) 5 s)) ∧
    (∀ k, IsPacket s k → (s.pkt k).valid = false →
      Raises (.cancel k) 17 s ∧ Raises (.complete k) 17 s ∧ Raises (.pktRead k) 17 s ∧
      (∀ p, Raises (.pktSetParam k p) 17 s) ∧
      (∀ a l, a.toNat < s.cfg.hostSize → Raises (.pktIovAdd k a l) 17 s) ∧
      ∀ d, d = noIndex ∨ IsDevice s d → Raises (.submit k d) 17 s)

/-! ### Preparing and reading a packet -/

/-- PKT_SETUP writes every field of a slot that is not in flight: the operands, the direction from
the token, and the resets (R91, R26). -/
def Obligations.PacketSetup : Prop :=
  ∀ (s : State) (k d n : Index) (tk : Token) (so ir : Bool) (st : BitVec 16) (id : Word),
    s.fault = false → IsPacket s k → IsDevice s d →
    let i := Instr.pktSetup k d n tk so ir st id
    let busy := (s.pkt k).valid = true ∧ (s.pkt k).state.inFlight = true
    (busy → Raises i 1 s) ∧
    (¬ busy → tk = .reserved → Raises i 16 s) ∧
    (¬ busy → tk ≠ .reserved → 15 < n.toNat → Raises i 4 s) ∧
    (¬ busy → tk ≠ .reserved → n.toNat ≤ 15 → ∃ t, exec i s = .next t ∧
      t = { s with pkts := t.pkts } ∧ SameMemory s t ∧
      PacketIs k
        ⟨true, id, tk, d, if tk = .inn then .inn else .out, n.extractLsb' 0 4, st, .success, 0, 0,
          so, ir, [], .setup, 0xFF⟩ s t)

/-- PKT_IOV_ADD adds one segment at the end of the vector of a packet in state Setup; a full vector,
a segment past the top of host memory or a capacity of `2^32` raises cause 16, and so does, whatever
the packet, an address with a bit set at or above `HADDR_BITS` (R59, R62 (b)). PKT_SET_PARAM writes
the parameter of a packet in state Setup (R92, R93). -/
def Obligations.PacketPrepared : Prop :=
  ∀ (s : State) (k : Index), s.fault = false → IsPacket s k →
    let P := s.pkt k
    let writes := fun (i : Instr) (P' : Packet) =>
      ∃ t, exec i s = .next t ∧ t = { s with pkts := t.pkts } ∧ SameMemory s t ∧ PacketIs k P' s t
    (∀ p,
      let i := Instr.pktSetParam k p
      (P.valid = false → Raises i 17 s) ∧
      (P.valid = true → P.state ≠ .setup → Raises i 18 s) ∧
      (P.valid = true → P.state = .setup → writes i { P with parameter := p })) ∧
    ∀ addr len : Word,
      let i := Instr.pktIovAdd k addr len
      let fits := addr.toNat < s.cfg.hostSize
      let bad := P.iov.length = s.cfg.iovMax ∨ s.cfg.hostSize < addr.toNat + len.toNat ∨
        2 ^ 32 ≤ iovSize P.iov + len.toNat
      (¬ fits → Raises i 16 s) ∧
      (fits → P.valid = false → Raises i 17 s) ∧
      (fits → P.valid = true → P.state ≠ .setup → Raises i 18 s) ∧
      (fits → P.valid = true → P.state = .setup → bad → Raises i 16 s) ∧
      (fits → P.valid = true → P.state = .setup → ¬ bad →
        writes i { P with iov := P.iov ++ [⟨addr, len⟩] })

/-- PKT_READ copies a packet's outcome to the result registers in any packet state and changes
nothing else: status in bits 2:0 and state in bits 10:8 of `RES0`, all other bits 0; the length; the
id; the capacity of the vector (R113, R24, R27). -/
def Obligations.PacketRead : Prop :=
  ∀ (s : State) (k : Index), s.fault = false → IsPacket s k →
    let P := s.pkt k
    (P.valid = false → Raises (.pktRead k) 17 s) ∧
    (P.valid = true → ∃ t, exec (.pktRead k) s = .next t ∧
      t = { s with res0 := t.res0, res1 := t.res1, res2 := t.res2, res3 := t.res3 } ∧
      SameMemory s t ∧
      (t.res0.extractLsb' 0 3).toNat =
        (match P.status with
          | .success => 0 | .noDevice => 1 | .nak => 2 | .stall => 3 | .async => 4
          | .addToQueue => 5) ∧
      (t.res0.extractLsb' 8 3).toNat =
        (match P.state with
          | .setup => 0 | .queued => 1 | .async => 2 | .complete => 3 | .canceled => 4) ∧
      t.res0 &&& 0xFFFFF8F8 = 0 ∧ t.res1 = P.actualLength ∧ t.res2 = P.id ∧
      (iovSize P.iov < 2 ^ 32 → t.res3.toNat = (P.iov.map fun g => g.len.toNat).sum))

/-! ### SUBMIT -/

/-- SUBMIT with no device, or to a device that is not attached, completes the packet with NoDevice
and does nothing else (R95). -/
def Obligations.SubmitNoDevice : Prop :=
  ∀ (s : State) (k d : Index), s.fault = false → IsPacket s k → (s.pkt k).valid = true →
    (s.pkt k).state = .setup → d = noIndex ∨ (IsDevice s d ∧ (s.dev d).attached = false) →
    ∃ t, exec (.submit k d) s = .next t ∧ t = { s with pkts := t.pkts } ∧ SameMemory s t ∧
      PacketIs k { s.pkt k with status := .noDevice, state := .complete } s t

/-- What a SUBMIT refuses before it changes anything: a packet that is not in state Setup, cause 2,
and an attached device that is not the packet's own, cause 19 (R96, R98). -/
def Obligations.SubmitRefusals : Prop :=
  ∀ (s : State) (k d : Index), s.fault = false → IsPacket s k → (s.pkt k).valid = true →
    d = noIndex ∨ IsDevice s d →
    ((s.pkt k).state ≠ .setup → Raises (.submit k d) 2 s) ∧
    ((s.pkt k).state = .setup → d ≠ noIndex → (s.dev d).attached = true → d ≠ (s.pkt k).dev →
      Raises (.submit k d) 19 s)

/-- Submitting to a halted endpoint: cause 7 when its queue is not empty; otherwise the halt is
cleared and the command goes on as if the endpoint had not been halted, and the halt stays cleared
whatever the outcome (R97, R22). -/
def Obligations.SubmitClearsHalt : Prop :=
  ∀ (s : State) (k d : Index), Submittable k d s →
    let r := (s.pkt k).endpoint
    (s.ep r).halted = true →
    ((s.ep r).queue ≠ [] → Raises (.submit k d) 7 s) ∧
    ((s.ep r).queue = [] →
      exec (.submit k d) s = exec (.submit k d) (s.updEp r fun e => { e with halted := false }) ∧
      ∀ t, exec (.submit k d) s = .next t → (t.ep r).halted = false)

/-- A packet without a stream id submitted to a busy endpoint that is not pipelined goes to the tail
of the queue without being processed, its status Async; with `STRICT_INFLIGHT` it raises cause 10
instead (R99, R106). -/
def Obligations.SubmitBusy : Prop :=
  ∀ (s : State) (k d : Index), Submittable k d s →
    let r := (s.pkt k).endpoint
    (s.ep r).halted = false → (s.ep r).queue ≠ [] → (s.ep r).pipeline = false →
    (s.pkt k).stream = 0 →
    (s.cfg.strictInflight = true → Raises (.submit k d) 10 s) ∧
    (s.cfg.strictInflight = false → ∃ t, exec (.submit k d) s = .next t ∧
      t = { s with pkts := t.pkts, devs := t.devs } ∧ SameMemory s t ∧
      PacketIs k { s.pkt k with state := .queued, status := .async } s t ∧
      EndpointIs r { s.ep r with queue := (s.ep r).queue ++ [k] } s t)

/-- An IN packet on an endpoint other than 0: the data handler is called, its bytes go to the vector
behind what was moved before, the length advances, and the status decides the rest; an absent
handler is a plain success that moves nothing (R100 to R105, R43). -/
def Obligations.SubmitDataIn : Prop :=
  ∀ (s : State) (k d : Index) (st : Status), Dispatchable k d s → Sound k d s →
    (s.pkt k).epNr ≠ 0 → (s.pkt k).token = .inn →
    let P := s.pkt k
    let r := reply d 7 s
    st.code = r.status → r.data.length = r.n.toNat →
    P.actualLength.toNat + r.n.toNat ≤ iovSize P.iov → (st = .async → MayDefer P.endpoint s) →
    ∃ t, exec (.submit k d) s = .next t ∧
      t = { called d 7 [.handleData d k] s with
            hmem := t.hmem, pkts := t.pkts, devs := t.devs } ∧
      Stored s t P.iov P.actualLength.toNat r.data ∧
      PacketIs k (settled st { P with actualLength := P.actualLength + r.n }) s t ∧
      EndpointIs P.endpoint
        { s.ep P.endpoint with queue := queueAfter st k (s.ep P.endpoint).queue } s t

/-- An OUT or SETUP packet on an endpoint other than 0: the data handler is called, the bytes it
takes are read from the vector and handed to it, and the rest is as for an IN packet; host memory is
unchanged (R100 to R105, R43). -/
def Obligations.SubmitDataOut : Prop :=
  ∀ (s : State) (k d : Index) (st : Status), Dispatchable k d s → Sound k d s →
    (s.pkt k).epNr ≠ 0 → (s.pkt k).token = .out ∨ (s.pkt k).token = .setup →
    let P := s.pkt k
    let r := reply d 7 s
    st.code = r.status → r.data = [] →
    P.actualLength.toNat + r.n.toNat ≤ iovSize P.iov → (st = .async → MayDefer P.endpoint s) →
    ∃ t bs, exec (.submit k d) s = .next t ∧
      bs.length = r.n.toNat ∧ Reads s P.iov P.actualLength.toNat bs ∧
      t = { called d 7 [.handleData d k, .outBytes d k bs] s with
            pkts := t.pkts, devs := t.devs } ∧ SameMemory s t ∧
      PacketIs k (settled st { P with actualLength := P.actualLength + r.n }) s t ∧
      EndpointIs P.endpoint
        { s.ep P.endpoint with queue := queueAfter st k (s.ep P.endpoint).queue } s t

/-- What a handler's response can violate. A reserved status or a data list of the wrong length raises
cause 16 and moving more than the vector holds, or answering a control call with more than
`CTRL_BUF_SIZE` bytes, raises cause 6 or 16, before any byte moves, with the packet in state Setup and
its status the Success of the dispatch; that a reserved status is noticed before the copy is the
model's reading (log 11, DEDUCED). An answer Async raises cause 8 on an Isochronous endpoint, and
cause 9 on an Interrupt endpoint of a device that is not in host-emulation role, after its bytes
moved, with the packet in state Setup, its status Async, and in no queue. The first part is about
endpoints other than 0, the second about endpoint 0, whatever its type, for every call of its
handler (R67, R100, R103, R43). -/
def Obligations.ResponseFaults : Prop :=
  (∀ (s : State) (k d : Index), Dispatchable k d s → Sound k d s → (s.pkt k).epNr ≠ 0 →
    s.hasHook d 7 = true →
    let P := s.pkt k
    let r := s.nextResp
    let shape := if P.token = .inn then r.data.length = r.n.toNat else r.data = []
    let u := { (called d 7 [.handleData d k] s) with
      pkts := s.pkts.modify k.toNat fun P => { P with status := .success } }
    (6 ≤ r.status.toNat ∨ ¬ shape → RaisesFrom (.submit k d) 16 s u) ∧
    (r.status.toNat < 6 → shape → iovSize P.iov < P.actualLength.toNat + r.n.toNat →
      RaisesFrom (.submit k d) 6 s u) ∧
    (r.status = 4 → shape → P.actualLength.toNat + r.n.toNat ≤ iovSize P.iov →
      ¬ MayDefer P.endpoint s → ∃ t bs, exec (.submit k d) s = .next t ∧
        (P.token ≠ .inn → bs.length = r.n.toNat ∧ Reads s P.iov P.actualLength.toNat bs ∧
          SameMemory s t) ∧
        (P.token = .inn → Stored s t P.iov P.actualLength.toNat r.data) ∧
        t = { called d 7
              (.handleData d k :: if P.token = .inn then [] else [.outBytes d k bs]) s with
            hmem := t.hmem, pkts := t.pkts, fault := true
            fcause := if (s.ep P.endpoint).type = 3 then 8 else 9
            finfo := (Instr.submit k d).firstWord } ∧
        PacketIs k { P with status := .async, actualLength := P.actualLength + r.n } s t)) ∧
  ∀ (s : State) (k d : Index) (bs : List Byte) (P : Packet) (D : Device), Dispatchable k d s →
    Sound k d s → (s.pkt k).epNr = 0 → s.hasHook d 6 = true → ControlCall s k d bs P D →
    let r := s.nextResp
    let r0 := (s.pkt k).endpoint
    let raised := fun (c : BitVec 8) (t : State) =>
      t = { called d 6 [controlCall d k bs D.setupLen D.dataBuf] s with
          pkts := t.pkts, devs := t.devs, fault := true, fcause := c
          finfo := (Instr.submit k d).firstWord }
    (6 ≤ r.status.toNat ∨ ¬ AcceptedByControl s r → ∃ t, exec (.submit k d) s = .next t ∧
      raised 16 t ∧ PacketIs k P s t ∧ DeviceIs d D s t) ∧
    (r.status = 4 → AcceptedByControl s r → ¬ MayDefer r0 s →
      ∃ t, exec (.submit k d) s = .next t ∧ raised (if (s.ep r0).type = 3 then 8 else 9) t ∧
        PacketIs k { P with status := .async } s t ∧
        Written D.dataBuf (t.dev d).dataBuf 0 r.data ∧
        DeviceIs d { D with dataBuf := (t.dev d).dataBuf } s t)

/-! ### Control transfers -/

/-- A SETUP token whose vector does not hold exactly 8 bytes stalls and leaves control state Idle;
the setup buffer is not changed and no handler is called (R124). -/
def Obligations.SetupWrongSizeStalls : Prop :=
  ∀ (s : State) (k d : Index), Dispatchable k d s → (s.pkt k).epNr = 0 →
    (s.pkt k).parameter = 0 → (s.pkt k).token = .setup → iovSize (s.pkt k).iov ≠ 8 →
    ∃ t, exec (.submit k d) s = .next t ∧ t = { s with pkts := t.pkts, devs := t.devs } ∧
      SameMemory s t ∧ PacketIs k (settled .stall (s.pkt k)) s t ∧
      DeviceIs d { s.dev d with ctlState := .idle } s t

/-- A request longer than the control buffer stalls and leaves control state Idle, with no handler
call, on the SETUP token path and on the Param path, in both directions; `setup_len` keeps the
value (R123). -/
def Obligations.OversizedRequestStalls : Prop :=
  ∀ (s : State) (k d : Index) (bs : List Byte), Dispatchable k d s → Sound k d s →
    (s.pkt k).epNr = 0 → bs.length = 8 → s.cfg.ctrlBufSize < (lengthOf bs).toNat →
    ((s.pkt k).parameter = 0 ∧ (s.pkt k).token = .setup ∧ iovSize (s.pkt k).iov = 8 ∧
        Reads s (s.pkt k).iov 0 bs ∨
      (s.pkt k).parameter ≠ 0 ∧ bs = parameterBytes (s.pkt k).parameter) →
    ∃ t, exec (.submit k d) s = .next t ∧ t = { s with pkts := t.pkts, devs := t.devs } ∧
      SameMemory s t ∧
      PacketIs k (settled .stall
        (if (s.pkt k).parameter = 0 then { s.pkt k with actualLength := 0 } else s.pkt k)) s t ∧
      DeviceIs d { s.dev d with
        setupBuf := bufferOf bs, ctlState := .idle, setupLen := lengthOf bs, setupIndex := 0 } s t

/-- A SETUP token of an OUT request: no handler call yet; control state Data when a data stage is
expected, else Ack; the packet completes with length 8 (R125, R127). -/
def Obligations.SetupOutRequest : Prop :=
  ∀ (s : State) (k d : Index) (bs : List Byte), Dispatchable k d s → Sound k d s →
    (s.pkt k).epNr = 0 → (s.pkt k).parameter = 0 → (s.pkt k).token = .setup →
    iovSize (s.pkt k).iov = 8 → bs.length = 8 → Reads s (s.pkt k).iov 0 bs →
    (lengthOf bs).toNat ≤ s.cfg.ctrlBufSize → dirInOf bs = false →
    ∃ t, exec (.submit k d) s = .next t ∧ t = { s with pkts := t.pkts, devs := t.devs } ∧
      SameMemory s t ∧
      PacketIs k (settled .success { s.pkt k with actualLength := 8 }) s t ∧
      DeviceIs d { s.dev d with
        setupBuf := bufferOf bs, setupLen := lengthOf bs, setupIndex := 0
        ctlState := if lengthOf bs = 0 then .ack else .data } s t

/-- A SETUP token of an IN request calls the control handler at once: Success gives control state
Data, a length shortened to what the handler reports and `actual_length` 8; Async leaves control
state Setup; any other status gives Idle (R125, R126, R128, R140). -/
def Obligations.SetupInRequest : Prop :=
  ∀ (s : State) (k d : Index) (bs : List Byte) (st : Status), Dispatchable k d s → Sound k d s →
    (s.pkt k).epNr = 0 → (s.pkt k).parameter = 0 → (s.pkt k).token = .setup →
    iovSize (s.pkt k).iov = 8 → bs.length = 8 → Reads s (s.pkt k).iov 0 bs →
    (lengthOf bs).toNat ≤ s.cfg.ctrlBufSize → dirInOf bs = true →
    let P := s.pkt k
    let D := s.dev d
    let r := reply d 6 s
    st.code = r.status → AcceptedByControl s r → (st = .async → MayDefer P.endpoint s) →
    ∃ t, exec (.submit k d) s = .next t ∧
      t = { called d 6 [controlCall d k bs (lengthOf bs) D.dataBuf] s with
            pkts := t.pkts, devs := t.devs } ∧ SameMemory s t ∧
      PacketIs k (settled st { P with actualLength := if st = .success then 8 else 0 }) s t ∧
      Written D.dataBuf (t.dev d).dataBuf 0 r.data ∧
      DeviceIs d { D with
        setupBuf := bufferOf bs, setupIndex := 0, dataBuf := (t.dev d).dataBuf
        setupLen := if st = .success ∧ r.n.toNat < (lengthOf bs).toNat then r.n.extractLsb' 0 16
          else lengthOf bs
        ctlState := match st with
          | .success => .data
          | .async => .setup
          | .stall | .nak | .noDevice | .addToQueue => .idle
        epCtl := { D.epCtl with queue := queueAfter st k D.epCtl.queue } } s t

/-- An IN token in the Data phase of an IN request moves one chunk from the data buffer at the cursor
to the vector: the least of the bytes remaining, the max packet size and the room in the vector; at
the full length control state goes to Ack (R129, R131). -/
def Obligations.DataPhaseIn : Prop :=
  ∀ (s : State) (k d : Index), Dispatchable k d s → Sound k d s →
    let P := s.pkt k
    let D := s.dev d
    P.epNr = 0 → P.parameter = 0 → P.token = .inn → D.ctlState = .data →
    dirInOf (bytesOfBuffer D.setupBuf) = true →
    let len := min (D.setupLen.toNat - D.setupIndex.toNat)
      (min D.epCtl.maxPacketSize.toNat (iovSize P.iov - P.actualLength.toNat))
    ∃ t, exec (.submit k d) s = .next t ∧
      t = { s with hmem := t.hmem, pkts := t.pkts, devs := t.devs } ∧
      Stored s t P.iov P.actualLength.toNat (bytesOf D.dataBuf D.setupIndex.toNat len) ∧
      PacketIs k (settled .success
        { P with actualLength := P.actualLength + BitVec.ofNat 32 len }) s t ∧
      DeviceIs d { D with
        setupIndex := D.setupIndex + BitVec.ofNat 16 len
        ctlState := if D.setupIndex.toNat + len = D.setupLen.toNat then .ack else .data } s t

/-- An OUT token in the Data phase of an OUT request moves one chunk from the vector to the data
buffer at the cursor, by the same measure; host memory is unchanged and no handler is called
(R133, R136). -/
def Obligations.DataPhaseOut : Prop :=
  ∀ (s : State) (k d : Index), Dispatchable k d s → Sound k d s →
    let P := s.pkt k
    let D := s.dev d
    P.epNr = 0 → P.parameter = 0 → P.token = .out → D.ctlState = .data →
    dirInOf (bytesOfBuffer D.setupBuf) = false →
    let len := min (D.setupLen.toNat - D.setupIndex.toNat)
      (min D.epCtl.maxPacketSize.toNat (iovSize P.iov - P.actualLength.toNat))
    ∃ t bs, exec (.submit k d) s = .next t ∧ bs.length = len ∧
      Reads s P.iov P.actualLength.toNat bs ∧
      t = { s with pkts := t.pkts, devs := t.devs } ∧ SameMemory s t ∧
      PacketIs k (settled .success
        { P with actualLength := P.actualLength + BitVec.ofNat 32 len }) s t ∧
      Written D.dataBuf (t.dev d).dataBuf D.setupIndex.toNat bs ∧
      DeviceIs d { D with
        dataBuf := (t.dev d).dataBuf
        setupIndex := D.setupIndex + BitVec.ofNat 16 len
        ctlState := if D.setupIndex.toNat + len = D.setupLen.toNat then .ack else .data } s t

/-- An IN token in control state Ack of an OUT request is the status phase: the handler is called
with the payload; control state Idle and length 0 whatever it answers, except Async (R130, R140). -/
def Obligations.StatusPhaseOfOutRequest : Prop :=
  ∀ (s : State) (k d : Index) (st : Status), Dispatchable k d s → Sound k d s →
    let P := s.pkt k
    let D := s.dev d
    let bs := bytesOfBuffer D.setupBuf
    let r := reply d 6 s
    P.epNr = 0 → P.parameter = 0 → P.token = .inn → D.ctlState = .ack → dirInOf bs = false →
    st.code = r.status → AcceptedByControl s r → (st = .async → MayDefer P.endpoint s) →
    ∃ t, exec (.submit k d) s = .next t ∧
      t = { called d 6 [controlCall d k bs D.setupLen D.dataBuf] s with
            pkts := t.pkts, devs := t.devs } ∧ SameMemory s t ∧
      PacketIs k
        (settled st { P with actualLength := if st = .async then P.actualLength else 0 }) s t ∧
      Written D.dataBuf (t.dev d).dataBuf 0 r.data ∧
      DeviceIs d { D with
        dataBuf := (t.dev d).dataBuf
        ctlState := if st = .async then .ack else .idle
        epCtl := { D.epCtl with queue := queueAfter st k D.epCtl.queue } } s t

/-- The tokens of control state Ack that call no handler and move nothing: an OUT token ends an IN
request with control state Idle; an OUT token of an OUT request and an IN token of an IN request are
ignored (R130, R134). -/
def Obligations.AckTokens : Prop :=
  ∀ (s : State) (k d : Index), Dispatchable k d s →
    let P := s.pkt k
    let D := s.dev d
    let dirIn := dirInOf (bytesOfBuffer D.setupBuf)
    P.epNr = 0 → P.parameter = 0 → D.ctlState = .ack →
    P.token = .out ∨ (P.token = .inn ∧ dirIn = true) →
    ∃ t, exec (.submit k d) s = .next t ∧ t = { s with pkts := t.pkts, devs := t.devs } ∧
      SameMemory s t ∧ PacketIs k (settled .success P) s t ∧
      DeviceIs d { D with
        ctlState := if P.token = .out ∧ dirIn = true then .idle else .ack } s t

/-- An IN or OUT token in an unexpected control state stalls and gives control state Idle, with no
copy and no handler call: in Idle, Setup and Param, and in Data against the request's direction
(R132, R137). -/
def Obligations.UnexpectedTokenStalls : Prop :=
  ∀ (s : State) (k d : Index), Dispatchable k d s →
    let P := s.pkt k
    let D := s.dev d
    let dirIn := dirInOf (bytesOfBuffer D.setupBuf)
    P.epNr = 0 → P.parameter = 0 → P.token = .inn ∨ P.token = .out →
    D.ctlState = .idle ∨ D.ctlState = .setup ∨ D.ctlState = .param ∨
      (D.ctlState = .data ∧ (P.token = .inn ∧ dirIn = false ∨ P.token = .out ∧ dirIn = true)) →
    ∃ t, exec (.submit k d) s = .next t ∧ t = { s with pkts := t.pkts, devs := t.devs } ∧
      SameMemory s t ∧ PacketIs k (settled .stall P) s t ∧
      DeviceIs d { D with ctlState := .idle } s t

/-- A Param packet: the eight setup bytes come from the parameter; the payload of an OUT packet goes
to the data buffer, clamped to the vector; the handler is called; after Success the length is
shortened and an IN packet receives its bytes, clamped to the vector; control state stays Param
(R120, R122, R128, R140). -/
def Obligations.ParameterRequest : Prop :=
  ∀ (s : State) (k d : Index) (st : Status) (ps : List Byte), Dispatchable k d s → Sound k d s →
    let P := s.pkt k
    let D := s.dev d
    let bs := parameterBytes P.parameter
    let r := reply d 6 s
    P.epNr = 0 → P.parameter ≠ 0 → (lengthOf bs).toNat ≤ s.cfg.ctrlBufSize →
    (if P.token = .out then
      ps.length = min (lengthOf bs).toNat (iovSize P.iov) ∧ Reads s P.iov 0 ps else ps = []) →
    st.code = r.status → AcceptedByControl s r → (st = .async → MayDefer P.endpoint s) →
    let len := if st = .success ∧ r.n.toNat < (lengthOf bs).toNat then r.n.extractLsb' 0 16
      else lengthOf bs
    let back := st = .success ∧ P.token = .inn
    let moved := min len.toNat (iovSize P.iov)
    ∃ t m, exec (.submit k d) s = .next t ∧
      Written D.dataBuf m 0 ps ∧ Written m (t.dev d).dataBuf 0 r.data ∧
      t = { called d 6 [controlCall d k bs (lengthOf bs) m] s with
            hmem := t.hmem, pkts := t.pkts, devs := t.devs } ∧
      (back → Stored s t P.iov 0 (bytesOf (t.dev d).dataBuf 0 moved)) ∧
      (¬ back → SameMemory s t) ∧
      PacketIs k (settled st { P with
        actualLength := if P.token = .out then BitVec.ofNat 32 ps.length
          else if back then BitVec.ofNat 32 moved else P.actualLength }) s t ∧
      DeviceIs d { D with
        setupBuf := bufferOf bs, setupIndex := 0, dataBuf := (t.dev d).dataBuf
        setupLen := len, ctlState := .param
        epCtl := { D.epCtl with queue := queueAfter st k D.epCtl.queue } } s t

/-! ### CANCEL and COMPLETE -/

/-- CANCEL makes a packet in flight Canceled and removes it from its queue at once; one that was Async
gets its cancel hook, exactly once; nothing else changes and no queue advance runs (R107). -/
def Obligations.Cancel : Prop :=
  ∀ (s : State) (k : Index), s.fault = false → IsPacket s k →
    let P := s.pkt k
    let r := P.endpoint
    (P.valid = false → Raises (.cancel k) 17 s) ∧
    (P.valid = true → P.state.inFlight = false → Raises (.cancel k) 3 s) ∧
    (P.valid = true → P.state.inFlight = true → ∃ t, exec (.cancel k) s = .next t ∧
      t = { s with
        pkts := t.pkts, devs := t.devs
        trace := s.trace ++
          if P.state = .async ∧ s.hasHook P.dev 2 = true then [.cancelHook P.dev k] else [] } ∧
      SameMemory s t ∧ PacketIs k { P with state := .canceled } s t ∧
      EndpointIs r { s.ep r with queue := (s.ep r).queue.filter (· != k) } s t)

/-- What a COMPLETE refuses, with nothing but its response taken: a packet that is not Async, cause 13,
before the response is taken; a status Async, NAK or AddToQueue, cause 15; a packet without a stream
id that is not at the head of a queue that is not pipelined, cause 21; then a response with a
reserved status or of the wrong shape, cause 16, and one that moves more than the vector of a packet
of another endpoint than 0 holds, cause 6 (R100, R108, R112, R67). That the response is taken before
cause 15 and the later ones, and that a reserved status is noticed before the copy, are the model's
readings (log 25 and log 11, DEDUCED). -/
def Obligations.CompleteRefusals : Prop :=
  ∀ (s : State) (k : Index), s.fault = false → IsPacket s k → (s.pkt k).valid = true →
    let P := s.pkt k
    let e := s.ep P.endpoint
    let r := s.nextResp
    let held := r.status = 2 ∨ r.status = 4 ∨ r.status = 5
    let inOrder := P.stream ≠ 0 ∨ e.pipeline = true ∨ e.queue.head? = some k
    let shape := if P.epNr = 0 then AcceptedByControl s r
      else if P.token = .inn then r.data.length = r.n.toNat else r.data = []
    (P.state ≠ .async → Raises (.complete k) 13 s) ∧
    (P.state = .async → held → RaisesFrom (.complete k) 15 s s.dropResp) ∧
    (P.state = .async → ¬ held → ¬ inOrder → RaisesFrom (.complete k) 21 s s.dropResp) ∧
    (P.state = .async → ¬ held → inOrder → 6 ≤ r.status.toNat ∨ ¬ shape →
      RaisesFrom (.complete k) 16 s s.dropResp) ∧
    (P.state = .async → ¬ held → inOrder → r.status.toNat < 6 → shape → P.epNr ≠ 0 →
      iovSize P.iov < P.actualLength.toNat + r.n.toNat →
      RaisesFrom (.complete k) 6 s s.dropResp)

/-- COMPLETE of a packet on an endpoint other than 0: the response moves its bytes and gives the
status; the packet becomes Complete, leaves the queue and is reported, all once (R108, R109,
R182). -/
def Obligations.CompleteData : Prop :=
  ∀ (s : State) (k : Index) (st : Status), Completable k s → Sound k (s.pkt k).dev s →
    let P := s.pkt k
    let q := P.endpoint
    let r := s.nextResp
    P.epNr ≠ 0 → Final st → st.code = r.status →
    (if P.token = .inn then r.data.length = r.n.toNat else r.data = []) →
    P.actualLength.toNat + r.n.toNat ≤ iovSize P.iov →
    ∃ t bs, exec (.complete k) s = .next t ∧
      (P.token ≠ .inn → bs.length = r.n.toNat ∧ Reads s P.iov P.actualLength.toNat bs ∧
        SameMemory s t) ∧
      (P.token = .inn → Stored s t P.iov P.actualLength.toNat r.data) ∧
      t = { s.dropResp with
        hmem := t.hmem, pkts := t.pkts, devs := t.devs
        trace := s.trace ++ (if P.token = .inn then [] else [.outBytes P.dev k bs]) ++
          [.complete k P.id P.intReq] } ∧
      PacketIs k { P with
        status := st, state := .complete, actualLength := P.actualLength + r.n } s t ∧
      EndpointIs q { s.ep q with queue := (s.ep q).queue.filter (· != k) } s t

/-- COMPLETE of an endpoint-0 packet whose transfer is still the one its call belonged to, for the
SETUP token of an IN request and for the status phase: the rest of the synchronous path (R138). -/
def Obligations.CompleteControl : Prop :=
  ∀ (s : State) (k : Index) (st : Status), Completable k s → Sound k (s.pkt k).dev s →
    let P := s.pkt k
    let d := P.dev
    let D := s.dev d
    let r := s.nextResp
    P.epNr = 0 → P.parameter = 0 → Final st → st.code = r.status → AcceptedByControl s r →
    (P.token = .setup ∧ D.ctlState = .setup ∨ P.token = .inn ∧ D.ctlState = .ack) →
    ∃ t, exec (.complete k) s = .next t ∧
      t = { s.dropResp with
        pkts := t.pkts, devs := t.devs, trace := s.trace ++ [.complete k P.id P.intReq] } ∧
      SameMemory s t ∧
      PacketIs k { P with
        status := st, state := .complete
        actualLength := if P.token = .inn then 0 else if st = .success then 8
          else P.actualLength } s t ∧
      Written D.dataBuf (t.dev d).dataBuf 0 r.data ∧
      DeviceIs d { D with
        dataBuf := (t.dev d).dataBuf
        setupLen := if P.token = .setup ∧ st = .success ∧ r.n.toNat < D.setupLen.toNat then
          r.n.extractLsb' 0 16 else D.setupLen
        ctlState := if P.token = .setup ∧ st = .success then .data else .idle
        epCtl := { D.epCtl with queue := D.epCtl.queue.filter (· != k) } } s t

/-- COMPLETE of an endpoint-0 Param packet while its device is in control state Param: the bytes come
back as on the synchronous path (R138, R122); and where the device is in another control state than
the one the call was left pending in, only the packet's status and the data buffer change (R138). -/
def Obligations.CompleteParamOrAbandoned : Prop :=
  ∀ (s : State) (k : Index) (st : Status), Completable k s → Sound k (s.pkt k).dev s →
    let P := s.pkt k
    let d := P.dev
    let D := s.dev d
    let r := s.nextResp
    let kind := if P.parameter ≠ 0 then CtlState.param
      else if P.token = .setup then .setup else if P.token = .inn then .ack else .idle
    P.epNr = 0 → Final st → st.code = r.status → AcceptedByControl s r →
    (D.ctlState ≠ kind ∨ kind = .param ∨ kind = .idle) →
    let live := D.ctlState = .param ∧ kind = .param ∧ st = .success
    let len := if live ∧ r.n.toNat < D.setupLen.toNat then r.n.extractLsb' 0 16 else D.setupLen
    let back := live ∧ P.token = .inn
    let moved := min len.toNat (iovSize P.iov)
    ∃ t, exec (.complete k) s = .next t ∧
      t = { s.dropResp with
        hmem := t.hmem, pkts := t.pkts, devs := t.devs
        trace := s.trace ++ [.complete k P.id P.intReq] } ∧
      (back → Stored s t P.iov 0 (bytesOf (t.dev d).dataBuf 0 moved)) ∧
      (¬ back → SameMemory s t) ∧
      PacketIs k { P with
        status := st, state := .complete
        actualLength := if back then BitVec.ofNat 32 moved else P.actualLength } s t ∧
      Written D.dataBuf (t.dev d).dataBuf 0 r.data ∧
      DeviceIs d { D with
        dataBuf := (t.dev d).dataBuf, setupLen := len
        epCtl := { D.epCtl with queue := D.epCtl.queue.filter (· != k) } } s t

/-- The queue advance hands the Queued packet at the head of the queue to its handler as a SUBMIT does
(R101, R110, R111). Let `u` be what the COMPLETE leaves when the advance stops at packet `h`, and `w`
what a SUBMIT of `h` would leave from there with nothing in its way. Bytes, length, control state,
events, answers taken and faults of the dispatch are those of `w`. After Success, Stall or NoDevice
the packet is Complete, leaves the queue and is reported, and where the next packet is not Queued the
advance is over; after Async it keeps its place in state Async; after NAK or AddToQueue the COMPLETE
raises cause 15 with the packet Queued in its place; and a fault of the dispatch, or cause 8 or 9, is
a fault of the COMPLETE. Where the next packet is Queued too, the statement says what follows with
that packet as `h`. -/
def Obligations.QueueAdvanceDispatches : Prop :=
  ∀ (s u w : State) (k h : Index), s.fault = false → s.devs.length ≤ 255 → QueuesOk s →
    (s.pkt h).state = .queued →
    let q := (s.pkt k).endpoint
    exec (.complete k) (held h s) = .next u → u.fault = false → (u.ep q).queue.head? = some h →
    exec (.submit h q.dev) (ready q h u) = .next w →
    let P := w.pkt h
    let leaves := resumed q h u w
    let queue := (u.ep q).queue
    let i := Instr.complete k
    (w.fault = false → P.state = .complete →
      (∀ j, queue.tail.head? = some j → (s.pkt j).state = .async) →
      exec i s = .next { leaves P.status .complete queue.tail with
        trace := w.trace ++ [.complete h P.id P.intReq] }) ∧
    (w.fault = false → P.state = .async → exec i s = .next (leaves .async .async queue)) ∧
    (w.fault = false → P.state = .setup → exec i s = .next { leaves .nak .queued queue with
        fault := true, fcause := 15, finfo := i.firstWord }) ∧
    (w.fault = false → P.state = .queued → exec i s = .next { leaves .addToQueue .queued queue with
        fault := true, fcause := 15, finfo := i.firstWord }) ∧
    (w.fault = true → exec i s = .next { leaves P.status .queued queue with finfo := i.firstWord })

/-! ### Ports and devices -/

/-- PORT_BIND moves a binding without attaching: it is refused while a device involved is attached;
otherwise the port holds the new device, the device's old port and the port's old device are
unbound, and nothing else changes (R150). -/
def Obligations.PortBind : Prop :=
  ∀ (s : State) (p d : Index), s.fault = false → s.ports.length ≤ 255 → BindingOk s → IsPort s p →
    d = noIndex ∨ IsDevice s d →
    let old := (s.port p).dev
    let held := (old ≠ noIndex ∧ (s.dev old).attached = true) ∨
      (d ≠ noIndex ∧ (s.dev d).attached = true)
    (held → Raises (.portBind p d) 20 s) ∧
    (¬ held → ∃ t, exec (.portBind p d) s = .next t ∧
      t = { s with ports := t.ports, devs := t.devs } ∧ SameMemory s t ∧
      t.ports.length = s.ports.length ∧ t.devs.length = s.devs.length ∧
      (∀ q, IsPort s q → (t.port q).dev =
        if q = p then d else if d ≠ noIndex ∧ (s.port q).dev = d then noIndex
        else (s.port q).dev) ∧
      (∀ e, IsDevice s e → t.dev e = { s.dev e with
        port := if e = d then p else if e = old then noIndex else (s.dev e).port }))

/-- ATTACH marks the bound, detached device attached in state Attached and emits the port event and
then the class hook; DETACH emits the port event, marks it not attached and leaves packets and
queues alone. Each is refused otherwise, causes 11 and 12 (R151, R152). -/
def Obligations.AttachDetach : Prop :=
  ∀ (s : State) (p : Index), s.fault = false → IsPort s p →
    let d := (s.port p).dev
    let D := s.dev d
    (d = noIndex ∨ D.attached = true → Raises (.attach p) 11 s) ∧
    (IsDevice s d → D.attached = false → ∃ t, exec (.attach p) s = .next t ∧
      t = { s with
        devs := t.devs
        trace := s.trace ++ [.portAttach p d] ++
          if s.hasHook d 4 = true then [.attachHook d] else [] } ∧
      SameMemory s t ∧ DeviceIs d { D with attached := true, state := .attached } s t) ∧
    (d = noIndex ∨ D.attached = false → Raises (.detach p) 12 s) ∧
    (IsDevice s d → D.attached = true → ∃ t, exec (.detach p) s = .next t ∧
      t = { s with devs := t.devs, trace := s.trace ++ [.portDetach p d] } ∧
      SameMemory s t ∧ DeviceIs d { D with attached := false, state := .notAttached } s t)

/-- RESET_PORT detaches, attaches and resets the device: state Default, address 0, remote wakeup
cleared, one reset hook per call, and nothing else changes; with no attached device it raises
cause 12 (R153, R154). -/
def Obligations.ResetPort : Prop :=
  ∀ (s : State) (p : Index), s.fault = false → IsPort s p →
    let d := (s.port p).dev
    let D := s.dev d
    (d = noIndex ∨ D.attached = false → Raises (.resetPort p) 12 s) ∧
    (IsDevice s d → D.attached = true → ∃ t, exec (.resetPort p) s = .next t ∧
      t = { s with
        devs := t.devs
        trace := s.trace ++ [.portDetach p d, .portAttach p d] ++
          (if s.hasHook d 4 = true then [.attachHook d] else []) ++
          (if s.hasHook d 5 = true then [.resetHook d] else []) } ∧
      SameMemory s t ∧
      DeviceIs d { D with
        attached := true, state := .default, addr := 0, remoteWakeup := false } s t)

/-- DEV_SET_ADDR stores all 8 bits of the address and DEV_SET_RWAKE the flag, whatever the state of
the device (R155, R156). -/
def Obligations.DeviceSetters : Prop :=
  ∀ (s : State) (d : Index), s.fault = false →
    (¬ IsDevice s d → (∀ a, Raises (.devSetAddr d a) 5 s) ∧ ∀ f, Raises (.devSetRwake d f) 5 s) ∧
    (IsDevice s d →
      (∀ a, ∃ t, exec (.devSetAddr d a) s = .next t ∧ t = { s with devs := t.devs } ∧
        SameMemory s t ∧ DeviceIs d { s.dev d with addr := a } s t) ∧
      ∀ f, ∃ t, exec (.devSetRwake d f) s = .next t ∧ t = { s with devs := t.devs } ∧
        SameMemory s t ∧ DeviceIs d { s.dev d with remoteWakeup := f } s t)

/-- FIND_DEVICE writes only `RES0`: none for a port with nothing attached, without asking anyone; the
device itself when it is in state Default at that address; otherwise what its resolver answers, if
that is a device index or none, and cause 16 if not; none where the resolver is absent (R157,
R158). -/
def Obligations.FindDevice : Prop :=
  ∀ (s : State) (p : Index) (a : BitVec 8), s.fault = false → IsPort s p →
    let d := (s.port p).dev
    let D := s.dev d
    let i := Instr.findDevice p a
    let empty := d = noIndex ∨ D.attached = false
    let direct := D.state = .default ∧ D.addr = a
    let r := s.nextResp
    let good := r.data = [] ∧ (r.n.toNat < s.devs.length ∨ r.n = 0xFFFFFFFF)
    let asked := { s.dropResp with trace := s.trace ++ [.findHook d a] }
    (empty → exec i s = .next { s with res0 := 0xFFFFFFFF }) ∧
    (¬ empty → direct → exec i s = .next { s with res0 := 0#24 ++ d }) ∧
    (¬ empty → ¬ direct → s.hasHook d 1 = false →
      exec i s = .next { s with res0 := 0xFFFFFFFF }) ∧
    (¬ empty → ¬ direct → s.hasHook d 1 = true → good →
      exec i s = .next { asked with res0 := r.n }) ∧
    (¬ empty → ¬ direct → s.hasHook d 1 = true → ¬ good → RaisesFrom i 16 s asked)
end

