-- ==== Sys2Proof/Laws/Memory.lean ====
section
/-! SUPPORT. The laws of memory: reading after writing, the canonical form, address bounds, and byte
lists. -/

namespace Sys2Proof.Machine

theorem Memory.wfFrom_cons {lo a : Nat} {b : Byte} {m : Memory} :
    Memory.wfFrom lo ((a, b) :: m) = true ↔
      lo ≤ a ∧ b ≠ Config.unlistedByte ∧ Memory.wfFrom (a + 1) m = true := by
  simp [Memory.wfFrom, and_assoc]

/-- Below the lowest listed address a memory reads as unlisted. -/
theorem Memory.read_below {m : Memory} {lo x : Nat} (h : Memory.wfFrom lo m = true) (hx : x < lo) :
    Memory.read m x = Config.unlistedByte := by
  induction m generalizing lo with
  | nil => rfl
  | cons c m ih =>
    obtain ⟨a, b⟩ := c
    rw [Memory.wfFrom_cons] at h
    rw [Memory.read, if_neg (by omega)]
    exact ih h.2.2 (by omega)

theorem Memory.wfFrom_mono {m : Memory} {lo lo' : Nat} (h : Memory.wfFrom lo m = true)
    (hl : lo' ≤ lo) : Memory.wfFrom lo' m = true := by
  cases m with
  | nil => rfl
  | cons c m =>
    obtain ⟨a, b⟩ := c
    rw [Memory.wfFrom_cons] at h ⊢
    exact ⟨by omega, h.2⟩

/-- A byte read after a byte was written, in canonical form from any address on. -/
theorem Memory.read_write_from {m : Memory} {lo : Nat} (h : Memory.wfFrom lo m = true) (x y : Nat)
    (v : Byte) : Memory.read (Memory.write m x v) y = if y = x then v else Memory.read m y := by
  induction m generalizing lo with
  | nil =>
    by_cases hv : v = Config.unlistedByte <;> by_cases hy : y = x <;>
      simp [Memory.write, Memory.read, hv, hy, eq_comm (a := x)]
  | cons c m ih =>
    obtain ⟨a, b⟩ := c
    rw [Memory.wfFrom_cons] at h
    have rest := ih h.2.2
    have low := fun z hz => Memory.read_below (x := z) h.2.2 hz
    simp only [Memory.write]
    rcases Nat.lt_trichotomy x a with hx | hx | hx
    · rw [if_pos hx]
      by_cases hy : y = x
      · by_cases hv : v = Config.unlistedByte
        · simp [hv, hy, Memory.read, show a ≠ x by omega, low x (by omega)]
        · simp [hv, hy, Memory.read]
      · by_cases hv : v = Config.unlistedByte <;>
          simp [hv, hy, Memory.read, eq_comm (a := x)]
    · subst hx
      simp only [Nat.lt_irrefl, if_false, if_true]
      by_cases hy : y = x
      · by_cases hv : v = Config.unlistedByte
        · simp [hv, hy, low x (by omega)]
        · simp [hv, hy, Memory.read]
      · by_cases hv : v = Config.unlistedByte <;>
          simp [hv, hy, Memory.read, eq_comm (a := x)]
    · rw [if_neg (by omega), if_neg (by omega)]
      by_cases hy : a = y
      · simp [hy, Memory.read, show y ≠ x by omega]
      · simp [hy, Memory.read, rest]

/-- A byte read after a byte was written. -/
theorem Memory.read_write {m : Memory} (h : m.wf = true) (x y : Nat) (v : Byte) :
    (m.write x v).read y = if y = x then v else m.read y :=
  Memory.read_write_from h x y v

/-- A write keeps the canonical form from any address at or below the one written. -/
theorem Memory.wfFrom_write {m : Memory} {lo x : Nat} (v : Byte) (h : Memory.wfFrom lo m = true)
    (hx : lo ≤ x) : Memory.wfFrom lo (Memory.write m x v) = true := by
  induction m generalizing lo with
  | nil => by_cases hv : v = Config.unlistedByte <;> simp [Memory.write, hv, Memory.wfFrom, hx]
  | cons c m ih =>
    obtain ⟨a, b⟩ := c
    rw [Memory.wfFrom_cons] at h
    simp only [Memory.write]
    rcases Nat.lt_trichotomy x a with hlt | heq | hgt
    · rw [if_pos hlt]
      by_cases hv : v = Config.unlistedByte
      · simpa [hv, Memory.wfFrom_cons] using h
      · simp only [hv, if_false, Memory.wfFrom_cons]
        exact ⟨hx, hv, by omega, h.2⟩
    · subst heq
      simp only [Nat.lt_irrefl, if_false, if_true]
      by_cases hv : v = Config.unlistedByte
      · simpa [hv] using Memory.wfFrom_mono h.2.2 (by omega)
      · simp only [hv, if_false, Memory.wfFrom_cons]
        exact ⟨hx, hv, h.2.2⟩
    · rw [if_neg (by omega), if_neg (by omega), Memory.wfFrom_cons]
      exact ⟨h.1, h.2.1, ih h.2.2 (by omega)⟩

/-- A write keeps the canonical form. -/
theorem Memory.wf_write {m : Memory} (x : Nat) (v : Byte) (h : m.wf = true) :
    (m.write x v).wf = true :=
  Memory.wfFrom_write v h (Nat.zero_le x)

/-- A write below a bound keeps the listed addresses below it. -/
theorem Memory.below_write {m : Memory} {n x : Nat} (v : Byte) (h : m.below n = true)
    (hx : x < n) : (m.write x v).below n = true := by
  induction m with
  | nil => by_cases hv : v = Config.unlistedByte <;> simp [Memory.write, hv, Memory.below, hx]
  | cons c m ih =>
    obtain ⟨a, b⟩ := c
    simp only [Memory.below, List.all_cons, Bool.and_eq_true, decide_eq_true_eq] at h ih
    simp only [Memory.write, Memory.below]
    have rest := ih h.2
    split
    · split <;> simp [h.1, h.2, hx]
    split
    · split <;> simp [h.2, hx]
    · simp [h.1, rest]

@[simp] theorem Memory.readList_length (m : Memory) (x n : Nat) : (m.readList x n).length = n := by
  induction n generalizing x with
  | zero => rfl
  | succ n ih => simp [Memory.readList, ih]

/-- The bytes of a byte list read from memory. -/
theorem Memory.readList_getD (m : Memory) (x n i : Nat) (d : Byte) (hi : i < n) :
    (m.readList x n).getD i d = m.read (x + i) := by
  induction n generalizing x i with
  | zero => omega
  | succ n ih =>
    cases i with
    | zero => simp [Memory.readList]
    | succ i =>
      simp only [Memory.readList, List.getD_cons_succ]
      rw [ih (x + 1) i (by omega)]
      congr 1
      omega

theorem Memory.wf_writeList {m : Memory} (x : Nat) (bs : List Byte) (h : m.wf = true) :
    (m.writeList x bs).wf = true := by
  induction bs generalizing m x with
  | nil => exact h
  | cons b bs ih => exact ih (x + 1) (Memory.wf_write x b h)

theorem Memory.below_writeList {m : Memory} {n x : Nat} (bs : List Byte) (h : m.below n = true)
    (hx : x + bs.length ≤ n) : (m.writeList x bs).below n = true := by
  induction bs generalizing m x with
  | nil => exact h
  | cons b bs ih =>
    simp only [List.length_cons] at hx
    exact ih (Memory.below_write b h (by omega)) (by omega)

/-- A byte read after a byte list was written. -/
theorem Memory.read_writeList {m : Memory} (x y : Nat) (bs : List Byte) (h : m.wf = true) :
    (m.writeList x bs).read y =
      if x ≤ y ∧ y < x + bs.length then bs.getD (y - x) 0 else m.read y := by
  induction bs generalizing m x with
  | nil => simp [Memory.writeList, show ¬ (x ≤ y ∧ y < x) by omega]
  | cons b bs ih =>
    rw [Memory.writeList, ih (x + 1) (Memory.wf_write x b h), Memory.read_write h]
    simp only [List.length_cons]
    by_cases hy : y = x
    · subst hy
      simp
    · by_cases hlt : x < y
      · have : y - x = (y - (x + 1)) + 1 := by omega
        rw [this, List.getD_cons_succ]
        grind
      · grind

/-- Two canonical memories that read alike are equal. -/
theorem Memory.ext_from {m m' : Memory} {lo lo' : Nat} (h : Memory.wfFrom lo m = true)
    (h' : Memory.wfFrom lo' m' = true) (hr : ∀ x, Memory.read m x = Memory.read m' x) : m = m' := by
  induction m generalizing m' lo lo' with
  | nil =>
    cases m' with
    | nil => rfl
    | cons c m' =>
      obtain ⟨a, b⟩ := c
      rw [Memory.wfFrom_cons] at h'
      have := hr a
      simp [Memory.read] at this
      exact absurd this.symm h'.2.1
  | cons c m ih =>
    obtain ⟨a, b⟩ := c
    rw [Memory.wfFrom_cons] at h
    cases m' with
    | nil =>
      have := hr a
      simp [Memory.read] at this
      exact absurd this h.2.1
    | cons c' m' =>
      obtain ⟨a', b'⟩ := c'
      rw [Memory.wfFrom_cons] at h'
      have haa : a = a' := by
        rcases Nat.lt_trichotomy a a' with hl | he | hl
        · have := hr a
          rw [Memory.read, if_pos rfl, Memory.read, if_neg (by omega),
            Memory.read_below h'.2.2 (by omega)] at this
          exact absurd this h.2.1
        · exact he
        · have := hr a'
          rw [Memory.read, if_neg (by omega), Memory.read_below h.2.2 (by omega), Memory.read,
            if_pos rfl] at this
          exact absurd this.symm h'.2.1
      subst haa
      have hbb : b = b' := by simpa [Memory.read] using hr a
      subst hbb
      congr 1
      refine ih h.2.2 h'.2.2 fun x => ?_
      by_cases hx : a = x
      · subst hx
        rw [Memory.read_below h.2.2 (by omega), Memory.read_below h'.2.2 (by omega)]
      · simpa [Memory.read, hx] using hr x

/-- Two canonical memories that read alike are equal. -/
theorem Memory.ext {m m' : Memory} (h : m.wf = true) (h' : m'.wf = true)
    (hr : ∀ x, m.read x = m'.read x) : m = m' :=
  Memory.ext_from h h' hr

end Sys2Proof.Machine
end

