-- ==== Sys2Proof/Laws/Run.lean ====
section
/-! SUPPORT. The laws of Run: how the parts of a command compose, and what holds of the state a part
leaves, whether it goes on or raises. -/

namespace Sys2Proof.Machine

variable {α β : Type}

@[simp] theorem Run.bind_ok (a : α) (s : State) (f : α → State → Run β) :
    (Run.ok a s).bind f = f a s := rfl

@[simp] theorem Run.bind_raised (c : Cause) (s : State) (f : α → State → Run β) :
    (Run.raised c s : Run α).bind f = .raised c s := rfl

@[simp] theorem Run.bind_stopped (e : Fault) (f : α → State → Run β) :
    (Run.stopped e : Run α).bind f = .stopped e := rfl

theorem Run.bind_assoc {γ : Type} (x : Run α) (f : α → State → Run β) (g : β → State → Run γ) :
    (x.bind f).bind g = x.bind fun a s => (f a s).bind g := by
  cases x <;> rfl

/-- A part that goes on answers from a part that goes on, and from what follows it. -/
theorem Run.bind_eq_ok {x : Run α} {f : α → State → Run β} {b : β} {t : State} :
    x.bind f = .ok b t ↔ ∃ a s, x = .ok a s ∧ f a s = .ok b t := by
  cases x <;> simp [Run.bind]

@[simp] theorem require_true (c : Cause) (s : State) : require true c s = .ok () s := rfl

@[simp] theorem require_false (c : Cause) (s : State) : require false c s = .raised c s := rfl

/-- A condition that holds lets the command go on with the state as it was. -/
theorem require_eq_ok {b : Bool} {c : Cause} {s t : State} :
    require b c s = .ok () t ↔ b = true ∧ t = s := by
  cases b <;> simp [require, eq_comm]

/-- A property of the state a part of a command leaves, whether it goes on or raises. -/
def Run.All (I : State → Prop) : Run α → Prop
  | .ok _ s => I s
  | .raised _ s => I s
  | .stopped _ => True

@[simp] theorem Run.all_ok (I : State → Prop) (a : α) (s : State) : (Run.ok a s).All I ↔ I s :=
  Iff.rfl

@[simp] theorem Run.all_raised (I : State → Prop) (c : Cause) (s : State) :
    (Run.raised c s : Run α).All I ↔ I s := Iff.rfl

@[simp] theorem Run.all_stopped (I : State → Prop) (e : Fault) :
    (Run.stopped e : Run α).All I := trivial

/-- A property two parts keep in turn. -/
theorem Run.All.bind {I J : State → Prop} {x : Run α} {f : α → State → Run β}
    (hx : x.All I) (hraise : ∀ s, I s → J s) (hf : ∀ a s, x = .ok a s → I s → (f a s).All J) :
    (x.bind f).All J := by
  cases x with
  | ok a s => exact hf a s rfl hx
  | raised c s => exact hraise s hx
  | stopped e => trivial

/-- A weaker property. -/
theorem Run.All.mono {I J : State → Prop} {x : Run α} (hx : x.All I) (h : ∀ s, I s → J s) :
    x.All J := by
  cases x with
  | ok a s => exact h s hx
  | raised c s => exact h s hx
  | stopped e => trivial

theorem require_all {I : State → Prop} (b : Bool) (c : Cause) {s : State} (h : I s) :
    (require b c s).All I := by
  cases b <;> exact h

theorem selectEp_all {I : State → Prop} (d : Index) (dir : Dir) (n : Index) {s : State}
    (h : I s) : (selectEp d dir n s).All I := by
  unfold selectEp
  split
  · exact h
  split <;> exact h

/-- The endpoint a selection that goes on answers, and the state as it was (R75). -/
theorem selectEp_eq_ok {d : Index} {dir : Dir} {n : Index} {s t : State} {r : EpRef} :
    selectEp d dir n s = .ok r t ↔
      WellFormed.device s.limits d = true ∧ WellFormed.endpoint n = true ∧
        r = ⟨d, epId dir n.toNat⟩ ∧ t = s := by
  unfold selectEp
  cases WellFormed.device s.limits d <;> cases WellFormed.endpoint n <;> simp [eq_comm]

/-- A command while the latch is set: refused without effect (R171). -/
theorem command_of_fault (i : Instr) {s : State} (body : State → Run Unit) (h : s.fault = true) :
    command i s body = .next s := by
  simp [command, h]

/-- A command whose body goes on answers the state it leaves. -/
theorem command_of_ok (i : Instr) {s t : State} {body : State → Run Unit} (h : s.fault = false)
    (hb : body s = .ok () t) : command i s body = .next t := by
  simp [command, h, hb]

/-- A command whose body raises answers the state with the violation taken (R171). -/
theorem command_of_raised (i : Instr) {s t : State} {c : Cause} {body : State → Run Unit}
    (h : s.fault = false) (hb : body s = .raised c t) :
    command i s body = .next (contractViolation c i.firstWord t) := by
  simp [command, h, hb]

/-- Everything a command that answers a next state can have done. -/
theorem command_eq_next {i : Instr} {s t : State} {body : State → Run Unit}
    (h : command i s body = .next t) :
    (s.fault = true ∧ t = s) ∨
    (s.fault = false ∧ body s = .ok () t) ∨
    (s.fault = false ∧ ∃ c u, body s = .raised c u ∧ t = contractViolation c i.firstWord u) := by
  unfold command at h
  split at h
  · exact .inl ⟨‹_›, by simpa using h.symm⟩
  · rename_i hf
    simp only [Bool.not_eq_true] at hf
    split at h
    · rename_i u hu
      cases h
      exact .inr (.inl ⟨hf, hu⟩)
    · rename_i c u hu
      cases h
      exact .inr (.inr ⟨hf, c, u, hu, rfl⟩)
    · cases h

/-- A property of the state that a command's body keeps, and that does not look at the latch, is
kept by the command. -/
theorem command_keeps {I : State → Prop} {i : Instr} {s t : State} {body : State → Run Unit}
    (h : command i s body = .next t) (hs : I s) (hb : (body s).All I)
    (hv : ∀ c w u, I u → I (contractViolation c w u)) : I t := by
  rcases command_eq_next h with ⟨-, rfl⟩ | ⟨-, hok⟩ | ⟨-, c, u, hr, rfl⟩
  · exact hs
  · rw [hok] at hb; exact hb
  · rw [hr] at hb; exact hv _ _ _ hb

/-! ### What the operand checks say -/

theorem device_limits (s : State) (d : Index) :
    WellFormed.device s.limits d = true ↔ d ≠ noIndex ∧ d.toNat < s.devs.length := by
  show (d != noIndex && decide (d.toNat < s.devs.length)) = true ↔ _
  simp

theorem deviceOrNone_limits (s : State) (d : Index) :
    WellFormed.deviceOrNone s.limits d = true ↔ d = noIndex ∨ d.toNat < s.devs.length := by
  show (d == noIndex || decide (d.toNat < s.devs.length)) = true ↔ _
  simp

theorem port_limits (s : State) (p : Index) :
    WellFormed.port s.limits p = true ↔ p.toNat < s.ports.length := by
  show decide (p.toNat < s.ports.length) = true ↔ _
  simp

theorem packet_limits (s : State) (k : Index) :
    WellFormed.packet s.limits k = true ↔ k.toNat < s.pkts.length := by
  show decide (k.toNat < s.pkts.length) = true ↔ _
  simp

theorem hostAddr_limits (s : State) (a : Word) :
    WellFormed.hostAddr s.limits a = true ↔ a.toNat < s.cfg.hostSize := by
  show decide (a.toNat < 2 ^ s.cfg.haddrBits) = true ↔ _
  simp [Config.hostSize]

/-! ### Every command runs through the latch -/

/-- Every command is one body run behind the latch (R171). -/
theorem exec_is_command (i : Instr) : ∃ body, ∀ s, exec i s = command i s body := by
  cases i <;> exact ⟨_, fun _ => rfl⟩

/-- No command does anything while the latch is set (R171). -/
theorem exec_of_fault (i : Instr) {s : State} (h : s.fault = true) : exec i s = .next s := by
  obtain ⟨body, hb⟩ := exec_is_command i
  rw [hb, command_of_fault i body h]

/-- A property of the state that every command's body keeps, and that does not look at the latch, is
kept by every command. -/
theorem exec_keeps {I : State → Prop} {i : Instr} {s t : State} (h : exec i s = .next t)
    (hs : I s) (hb : ∀ body, (∀ s, exec i s = command i s body) → (body s).All I)
    (hv : ∀ c w u, I u → I (contractViolation c w u)) : I t := by
  obtain ⟨body, he⟩ := exec_is_command i
  exact command_keeps (he s ▸ h) hs (hb body he) hv

end Sys2Proof.Machine
end

