-- ==== Sys2Proof/Laws/State.lean ====
section
/-! SUPPORT. The small lemmas of State: one per field per update, each true by definition, and what
a port, a device, an endpoint or a packet reads as after an update. -/

namespace Sys2Proof.Machine

variable (s : State)

/-! ### A port -/

@[simp] theorem State.updPort_cfg (p : Index) (f : Port → Port) : (s.updPort p f).cfg = s.cfg := rfl
@[simp] theorem State.updPort_fault (p : Index) (f : Port → Port) : (s.updPort p f).fault = s.fault := rfl
@[simp] theorem State.updPort_fcause (p : Index) (f : Port → Port) : (s.updPort p f).fcause = s.fcause := rfl
@[simp] theorem State.updPort_finfo (p : Index) (f : Port → Port) : (s.updPort p f).finfo = s.finfo := rfl
@[simp] theorem State.updPort_res0 (p : Index) (f : Port → Port) : (s.updPort p f).res0 = s.res0 := rfl
@[simp] theorem State.updPort_res1 (p : Index) (f : Port → Port) : (s.updPort p f).res1 = s.res1 := rfl
@[simp] theorem State.updPort_res2 (p : Index) (f : Port → Port) : (s.updPort p f).res2 = s.res2 := rfl
@[simp] theorem State.updPort_res3 (p : Index) (f : Port → Port) : (s.updPort p f).res3 = s.res3 := rfl
@[simp] theorem State.updPort_devs (p : Index) (f : Port → Port) : (s.updPort p f).devs = s.devs := rfl
@[simp] theorem State.updPort_pkts (p : Index) (f : Port → Port) : (s.updPort p f).pkts = s.pkts := rfl
@[simp] theorem State.updPort_hmem (p : Index) (f : Port → Port) : (s.updPort p f).hmem = s.hmem := rfl
@[simp] theorem State.updPort_trace (p : Index) (f : Port → Port) : (s.updPort p f).trace = s.trace := rfl
@[simp] theorem State.updPort_cmds (p : Index) (f : Port → Port) : (s.updPort p f).cmds = s.cmds := rfl
@[simp] theorem State.updPort_resps (p : Index) (f : Port → Port) : (s.updPort p f).resps = s.resps := rfl
@[simp] theorem State.updPort_respCount (p : Index) (f : Port → Port) : (s.updPort p f).respCount = s.respCount := rfl
@[simp] theorem State.updPort_resetIn (p : Index) (f : Port → Port) : (s.updPort p f).resetIn = s.resetIn := rfl

/-! ### A device -/

@[simp] theorem State.updDev_cfg (d : Index) (f : Device → Device) : (s.updDev d f).cfg = s.cfg := rfl
@[simp] theorem State.updDev_fault (d : Index) (f : Device → Device) : (s.updDev d f).fault = s.fault := rfl
@[simp] theorem State.updDev_fcause (d : Index) (f : Device → Device) : (s.updDev d f).fcause = s.fcause := rfl
@[simp] theorem State.updDev_finfo (d : Index) (f : Device → Device) : (s.updDev d f).finfo = s.finfo := rfl
@[simp] theorem State.updDev_res0 (d : Index) (f : Device → Device) : (s.updDev d f).res0 = s.res0 := rfl
@[simp] theorem State.updDev_res1 (d : Index) (f : Device → Device) : (s.updDev d f).res1 = s.res1 := rfl
@[simp] theorem State.updDev_res2 (d : Index) (f : Device → Device) : (s.updDev d f).res2 = s.res2 := rfl
@[simp] theorem State.updDev_res3 (d : Index) (f : Device → Device) : (s.updDev d f).res3 = s.res3 := rfl
@[simp] theorem State.updDev_ports (d : Index) (f : Device → Device) : (s.updDev d f).ports = s.ports := rfl
@[simp] theorem State.updDev_pkts (d : Index) (f : Device → Device) : (s.updDev d f).pkts = s.pkts := rfl
@[simp] theorem State.updDev_hmem (d : Index) (f : Device → Device) : (s.updDev d f).hmem = s.hmem := rfl
@[simp] theorem State.updDev_trace (d : Index) (f : Device → Device) : (s.updDev d f).trace = s.trace := rfl
@[simp] theorem State.updDev_cmds (d : Index) (f : Device → Device) : (s.updDev d f).cmds = s.cmds := rfl
@[simp] theorem State.updDev_resps (d : Index) (f : Device → Device) : (s.updDev d f).resps = s.resps := rfl
@[simp] theorem State.updDev_respCount (d : Index) (f : Device → Device) : (s.updDev d f).respCount = s.respCount := rfl
@[simp] theorem State.updDev_resetIn (d : Index) (f : Device → Device) : (s.updDev d f).resetIn = s.resetIn := rfl

/-! ### A packet -/

@[simp] theorem State.updPkt_cfg (k : Index) (f : Packet → Packet) : (s.updPkt k f).cfg = s.cfg := rfl
@[simp] theorem State.updPkt_fault (k : Index) (f : Packet → Packet) : (s.updPkt k f).fault = s.fault := rfl
@[simp] theorem State.updPkt_fcause (k : Index) (f : Packet → Packet) : (s.updPkt k f).fcause = s.fcause := rfl
@[simp] theorem State.updPkt_finfo (k : Index) (f : Packet → Packet) : (s.updPkt k f).finfo = s.finfo := rfl
@[simp] theorem State.updPkt_res0 (k : Index) (f : Packet → Packet) : (s.updPkt k f).res0 = s.res0 := rfl
@[simp] theorem State.updPkt_res1 (k : Index) (f : Packet → Packet) : (s.updPkt k f).res1 = s.res1 := rfl
@[simp] theorem State.updPkt_res2 (k : Index) (f : Packet → Packet) : (s.updPkt k f).res2 = s.res2 := rfl
@[simp] theorem State.updPkt_res3 (k : Index) (f : Packet → Packet) : (s.updPkt k f).res3 = s.res3 := rfl
@[simp] theorem State.updPkt_ports (k : Index) (f : Packet → Packet) : (s.updPkt k f).ports = s.ports := rfl
@[simp] theorem State.updPkt_devs (k : Index) (f : Packet → Packet) : (s.updPkt k f).devs = s.devs := rfl
@[simp] theorem State.updPkt_hmem (k : Index) (f : Packet → Packet) : (s.updPkt k f).hmem = s.hmem := rfl
@[simp] theorem State.updPkt_trace (k : Index) (f : Packet → Packet) : (s.updPkt k f).trace = s.trace := rfl
@[simp] theorem State.updPkt_cmds (k : Index) (f : Packet → Packet) : (s.updPkt k f).cmds = s.cmds := rfl
@[simp] theorem State.updPkt_resps (k : Index) (f : Packet → Packet) : (s.updPkt k f).resps = s.resps := rfl
@[simp] theorem State.updPkt_respCount (k : Index) (f : Packet → Packet) : (s.updPkt k f).respCount = s.respCount := rfl
@[simp] theorem State.updPkt_resetIn (k : Index) (f : Packet → Packet) : (s.updPkt k f).resetIn = s.resetIn := rfl

/-! ### An endpoint -/

@[simp] theorem State.updEp_cfg (r : EpRef) (f : Endpoint → Endpoint) : (s.updEp r f).cfg = s.cfg := rfl
@[simp] theorem State.updEp_fault (r : EpRef) (f : Endpoint → Endpoint) : (s.updEp r f).fault = s.fault := rfl
@[simp] theorem State.updEp_fcause (r : EpRef) (f : Endpoint → Endpoint) : (s.updEp r f).fcause = s.fcause := rfl
@[simp] theorem State.updEp_finfo (r : EpRef) (f : Endpoint → Endpoint) : (s.updEp r f).finfo = s.finfo := rfl
@[simp] theorem State.updEp_res0 (r : EpRef) (f : Endpoint → Endpoint) : (s.updEp r f).res0 = s.res0 := rfl
@[simp] theorem State.updEp_res1 (r : EpRef) (f : Endpoint → Endpoint) : (s.updEp r f).res1 = s.res1 := rfl
@[simp] theorem State.updEp_res2 (r : EpRef) (f : Endpoint → Endpoint) : (s.updEp r f).res2 = s.res2 := rfl
@[simp] theorem State.updEp_res3 (r : EpRef) (f : Endpoint → Endpoint) : (s.updEp r f).res3 = s.res3 := rfl
@[simp] theorem State.updEp_ports (r : EpRef) (f : Endpoint → Endpoint) : (s.updEp r f).ports = s.ports := rfl
@[simp] theorem State.updEp_pkts (r : EpRef) (f : Endpoint → Endpoint) : (s.updEp r f).pkts = s.pkts := rfl
@[simp] theorem State.updEp_hmem (r : EpRef) (f : Endpoint → Endpoint) : (s.updEp r f).hmem = s.hmem := rfl
@[simp] theorem State.updEp_trace (r : EpRef) (f : Endpoint → Endpoint) : (s.updEp r f).trace = s.trace := rfl
@[simp] theorem State.updEp_cmds (r : EpRef) (f : Endpoint → Endpoint) : (s.updEp r f).cmds = s.cmds := rfl
@[simp] theorem State.updEp_resps (r : EpRef) (f : Endpoint → Endpoint) : (s.updEp r f).resps = s.resps := rfl
@[simp] theorem State.updEp_respCount (r : EpRef) (f : Endpoint → Endpoint) : (s.updEp r f).respCount = s.respCount := rfl
@[simp] theorem State.updEp_resetIn (r : EpRef) (f : Endpoint → Endpoint) : (s.updEp r f).resetIn = s.resetIn := rfl

/-! ### An event -/

@[simp] theorem State.emit_cfg (e : Event) : (s.emit e).cfg = s.cfg := rfl
@[simp] theorem State.emit_fault (e : Event) : (s.emit e).fault = s.fault := rfl
@[simp] theorem State.emit_fcause (e : Event) : (s.emit e).fcause = s.fcause := rfl
@[simp] theorem State.emit_finfo (e : Event) : (s.emit e).finfo = s.finfo := rfl
@[simp] theorem State.emit_res0 (e : Event) : (s.emit e).res0 = s.res0 := rfl
@[simp] theorem State.emit_res1 (e : Event) : (s.emit e).res1 = s.res1 := rfl
@[simp] theorem State.emit_res2 (e : Event) : (s.emit e).res2 = s.res2 := rfl
@[simp] theorem State.emit_res3 (e : Event) : (s.emit e).res3 = s.res3 := rfl
@[simp] theorem State.emit_ports (e : Event) : (s.emit e).ports = s.ports := rfl
@[simp] theorem State.emit_devs (e : Event) : (s.emit e).devs = s.devs := rfl
@[simp] theorem State.emit_pkts (e : Event) : (s.emit e).pkts = s.pkts := rfl
@[simp] theorem State.emit_hmem (e : Event) : (s.emit e).hmem = s.hmem := rfl
@[simp] theorem State.emit_cmds (e : Event) : (s.emit e).cmds = s.cmds := rfl
@[simp] theorem State.emit_resps (e : Event) : (s.emit e).resps = s.resps := rfl
@[simp] theorem State.emit_respCount (e : Event) : (s.emit e).respCount = s.respCount := rfl
@[simp] theorem State.emit_resetIn (e : Event) : (s.emit e).resetIn = s.resetIn := rfl

/-! ### `setStatus` -/

@[simp] theorem State.setStatus_cfg (k : Index) (st : Status) : (s.setStatus k st).cfg = s.cfg := rfl
@[simp] theorem State.setStatus_fault (k : Index) (st : Status) : (s.setStatus k st).fault = s.fault := rfl
@[simp] theorem State.setStatus_fcause (k : Index) (st : Status) : (s.setStatus k st).fcause = s.fcause := rfl
@[simp] theorem State.setStatus_finfo (k : Index) (st : Status) : (s.setStatus k st).finfo = s.finfo := rfl
@[simp] theorem State.setStatus_res0 (k : Index) (st : Status) : (s.setStatus k st).res0 = s.res0 := rfl
@[simp] theorem State.setStatus_res1 (k : Index) (st : Status) : (s.setStatus k st).res1 = s.res1 := rfl
@[simp] theorem State.setStatus_res2 (k : Index) (st : Status) : (s.setStatus k st).res2 = s.res2 := rfl
@[simp] theorem State.setStatus_res3 (k : Index) (st : Status) : (s.setStatus k st).res3 = s.res3 := rfl
@[simp] theorem State.setStatus_ports (k : Index) (st : Status) : (s.setStatus k st).ports = s.ports := rfl
@[simp] theorem State.setStatus_devs (k : Index) (st : Status) : (s.setStatus k st).devs = s.devs := rfl
@[simp] theorem State.setStatus_hmem (k : Index) (st : Status) : (s.setStatus k st).hmem = s.hmem := rfl
@[simp] theorem State.setStatus_trace (k : Index) (st : Status) : (s.setStatus k st).trace = s.trace := rfl
@[simp] theorem State.setStatus_cmds (k : Index) (st : Status) : (s.setStatus k st).cmds = s.cmds := rfl
@[simp] theorem State.setStatus_resps (k : Index) (st : Status) : (s.setStatus k st).resps = s.resps := rfl
@[simp] theorem State.setStatus_respCount (k : Index) (st : Status) : (s.setStatus k st).respCount = s.respCount := rfl
@[simp] theorem State.setStatus_resetIn (k : Index) (st : Status) : (s.setStatus k st).resetIn = s.resetIn := rfl

/-! ### `setActual` -/

@[simp] theorem State.setActual_cfg (k : Index) (n : Word) : (s.setActual k n).cfg = s.cfg := rfl
@[simp] theorem State.setActual_fault (k : Index) (n : Word) : (s.setActual k n).fault = s.fault := rfl
@[simp] theorem State.setActual_fcause (k : Index) (n : Word) : (s.setActual k n).fcause = s.fcause := rfl
@[simp] theorem State.setActual_finfo (k : Index) (n : Word) : (s.setActual k n).finfo = s.finfo := rfl
@[simp] theorem State.setActual_res0 (k : Index) (n : Word) : (s.setActual k n).res0 = s.res0 := rfl
@[simp] theorem State.setActual_res1 (k : Index) (n : Word) : (s.setActual k n).res1 = s.res1 := rfl
@[simp] theorem State.setActual_res2 (k : Index) (n : Word) : (s.setActual k n).res2 = s.res2 := rfl
@[simp] theorem State.setActual_res3 (k : Index) (n : Word) : (s.setActual k n).res3 = s.res3 := rfl
@[simp] theorem State.setActual_ports (k : Index) (n : Word) : (s.setActual k n).ports = s.ports := rfl
@[simp] theorem State.setActual_devs (k : Index) (n : Word) : (s.setActual k n).devs = s.devs := rfl
@[simp] theorem State.setActual_hmem (k : Index) (n : Word) : (s.setActual k n).hmem = s.hmem := rfl
@[simp] theorem State.setActual_trace (k : Index) (n : Word) : (s.setActual k n).trace = s.trace := rfl
@[simp] theorem State.setActual_cmds (k : Index) (n : Word) : (s.setActual k n).cmds = s.cmds := rfl
@[simp] theorem State.setActual_resps (k : Index) (n : Word) : (s.setActual k n).resps = s.resps := rfl
@[simp] theorem State.setActual_respCount (k : Index) (n : Word) : (s.setActual k n).respCount = s.respCount := rfl
@[simp] theorem State.setActual_resetIn (k : Index) (n : Word) : (s.setActual k n).resetIn = s.resetIn := rfl

/-! ### `setPktState` -/

@[simp] theorem State.setPktState_cfg (k : Index) (st : PktState) : (s.setPktState k st).cfg = s.cfg := rfl
@[simp] theorem State.setPktState_fault (k : Index) (st : PktState) : (s.setPktState k st).fault = s.fault := rfl
@[simp] theorem State.setPktState_fcause (k : Index) (st : PktState) : (s.setPktState k st).fcause = s.fcause := rfl
@[simp] theorem State.setPktState_finfo (k : Index) (st : PktState) : (s.setPktState k st).finfo = s.finfo := rfl
@[simp] theorem State.setPktState_res0 (k : Index) (st : PktState) : (s.setPktState k st).res0 = s.res0 := rfl
@[simp] theorem State.setPktState_res1 (k : Index) (st : PktState) : (s.setPktState k st).res1 = s.res1 := rfl
@[simp] theorem State.setPktState_res2 (k : Index) (st : PktState) : (s.setPktState k st).res2 = s.res2 := rfl
@[simp] theorem State.setPktState_res3 (k : Index) (st : PktState) : (s.setPktState k st).res3 = s.res3 := rfl
@[simp] theorem State.setPktState_ports (k : Index) (st : PktState) : (s.setPktState k st).ports = s.ports := rfl
@[simp] theorem State.setPktState_devs (k : Index) (st : PktState) : (s.setPktState k st).devs = s.devs := rfl
@[simp] theorem State.setPktState_hmem (k : Index) (st : PktState) : (s.setPktState k st).hmem = s.hmem := rfl
@[simp] theorem State.setPktState_trace (k : Index) (st : PktState) : (s.setPktState k st).trace = s.trace := rfl
@[simp] theorem State.setPktState_cmds (k : Index) (st : PktState) : (s.setPktState k st).cmds = s.cmds := rfl
@[simp] theorem State.setPktState_resps (k : Index) (st : PktState) : (s.setPktState k st).resps = s.resps := rfl
@[simp] theorem State.setPktState_respCount (k : Index) (st : PktState) : (s.setPktState k st).respCount = s.respCount := rfl
@[simp] theorem State.setPktState_resetIn (k : Index) (st : PktState) : (s.setPktState k st).resetIn = s.resetIn := rfl

/-! ### `setCtl` -/

@[simp] theorem State.setCtl_cfg (d : Index) (c : CtlState) : (s.setCtl d c).cfg = s.cfg := rfl
@[simp] theorem State.setCtl_fault (d : Index) (c : CtlState) : (s.setCtl d c).fault = s.fault := rfl
@[simp] theorem State.setCtl_fcause (d : Index) (c : CtlState) : (s.setCtl d c).fcause = s.fcause := rfl
@[simp] theorem State.setCtl_finfo (d : Index) (c : CtlState) : (s.setCtl d c).finfo = s.finfo := rfl
@[simp] theorem State.setCtl_res0 (d : Index) (c : CtlState) : (s.setCtl d c).res0 = s.res0 := rfl
@[simp] theorem State.setCtl_res1 (d : Index) (c : CtlState) : (s.setCtl d c).res1 = s.res1 := rfl
@[simp] theorem State.setCtl_res2 (d : Index) (c : CtlState) : (s.setCtl d c).res2 = s.res2 := rfl
@[simp] theorem State.setCtl_res3 (d : Index) (c : CtlState) : (s.setCtl d c).res3 = s.res3 := rfl
@[simp] theorem State.setCtl_ports (d : Index) (c : CtlState) : (s.setCtl d c).ports = s.ports := rfl
@[simp] theorem State.setCtl_pkts (d : Index) (c : CtlState) : (s.setCtl d c).pkts = s.pkts := rfl
@[simp] theorem State.setCtl_hmem (d : Index) (c : CtlState) : (s.setCtl d c).hmem = s.hmem := rfl
@[simp] theorem State.setCtl_trace (d : Index) (c : CtlState) : (s.setCtl d c).trace = s.trace := rfl
@[simp] theorem State.setCtl_cmds (d : Index) (c : CtlState) : (s.setCtl d c).cmds = s.cmds := rfl
@[simp] theorem State.setCtl_resps (d : Index) (c : CtlState) : (s.setCtl d c).resps = s.resps := rfl
@[simp] theorem State.setCtl_respCount (d : Index) (c : CtlState) : (s.setCtl d c).respCount = s.respCount := rfl
@[simp] theorem State.setCtl_resetIn (d : Index) (c : CtlState) : (s.setCtl d c).resetIn = s.resetIn := rfl

/-! ### `appendQueue` -/

@[simp] theorem State.appendQueue_cfg (r : EpRef) (k : Index) : (s.appendQueue r k).cfg = s.cfg := rfl
@[simp] theorem State.appendQueue_fault (r : EpRef) (k : Index) : (s.appendQueue r k).fault = s.fault := rfl
@[simp] theorem State.appendQueue_fcause (r : EpRef) (k : Index) : (s.appendQueue r k).fcause = s.fcause := rfl
@[simp] theorem State.appendQueue_finfo (r : EpRef) (k : Index) : (s.appendQueue r k).finfo = s.finfo := rfl
@[simp] theorem State.appendQueue_res0 (r : EpRef) (k : Index) : (s.appendQueue r k).res0 = s.res0 := rfl
@[simp] theorem State.appendQueue_res1 (r : EpRef) (k : Index) : (s.appendQueue r k).res1 = s.res1 := rfl
@[simp] theorem State.appendQueue_res2 (r : EpRef) (k : Index) : (s.appendQueue r k).res2 = s.res2 := rfl
@[simp] theorem State.appendQueue_res3 (r : EpRef) (k : Index) : (s.appendQueue r k).res3 = s.res3 := rfl
@[simp] theorem State.appendQueue_ports (r : EpRef) (k : Index) : (s.appendQueue r k).ports = s.ports := rfl
@[simp] theorem State.appendQueue_pkts (r : EpRef) (k : Index) : (s.appendQueue r k).pkts = s.pkts := rfl
@[simp] theorem State.appendQueue_hmem (r : EpRef) (k : Index) : (s.appendQueue r k).hmem = s.hmem := rfl
@[simp] theorem State.appendQueue_trace (r : EpRef) (k : Index) : (s.appendQueue r k).trace = s.trace := rfl
@[simp] theorem State.appendQueue_cmds (r : EpRef) (k : Index) : (s.appendQueue r k).cmds = s.cmds := rfl
@[simp] theorem State.appendQueue_resps (r : EpRef) (k : Index) : (s.appendQueue r k).resps = s.resps := rfl
@[simp] theorem State.appendQueue_respCount (r : EpRef) (k : Index) : (s.appendQueue r k).respCount = s.respCount := rfl
@[simp] theorem State.appendQueue_resetIn (r : EpRef) (k : Index) : (s.appendQueue r k).resetIn = s.resetIn := rfl

/-! ### `removeQueue` -/

@[simp] theorem State.removeQueue_cfg (r : EpRef) (k : Index) : (s.removeQueue r k).cfg = s.cfg := rfl
@[simp] theorem State.removeQueue_fault (r : EpRef) (k : Index) : (s.removeQueue r k).fault = s.fault := rfl
@[simp] theorem State.removeQueue_fcause (r : EpRef) (k : Index) : (s.removeQueue r k).fcause = s.fcause := rfl
@[simp] theorem State.removeQueue_finfo (r : EpRef) (k : Index) : (s.removeQueue r k).finfo = s.finfo := rfl
@[simp] theorem State.removeQueue_res0 (r : EpRef) (k : Index) : (s.removeQueue r k).res0 = s.res0 := rfl
@[simp] theorem State.removeQueue_res1 (r : EpRef) (k : Index) : (s.removeQueue r k).res1 = s.res1 := rfl
@[simp] theorem State.removeQueue_res2 (r : EpRef) (k : Index) : (s.removeQueue r k).res2 = s.res2 := rfl
@[simp] theorem State.removeQueue_res3 (r : EpRef) (k : Index) : (s.removeQueue r k).res3 = s.res3 := rfl
@[simp] theorem State.removeQueue_ports (r : EpRef) (k : Index) : (s.removeQueue r k).ports = s.ports := rfl
@[simp] theorem State.removeQueue_pkts (r : EpRef) (k : Index) : (s.removeQueue r k).pkts = s.pkts := rfl
@[simp] theorem State.removeQueue_hmem (r : EpRef) (k : Index) : (s.removeQueue r k).hmem = s.hmem := rfl
@[simp] theorem State.removeQueue_trace (r : EpRef) (k : Index) : (s.removeQueue r k).trace = s.trace := rfl
@[simp] theorem State.removeQueue_cmds (r : EpRef) (k : Index) : (s.removeQueue r k).cmds = s.cmds := rfl
@[simp] theorem State.removeQueue_resps (r : EpRef) (k : Index) : (s.removeQueue r k).resps = s.resps := rfl
@[simp] theorem State.removeQueue_respCount (r : EpRef) (k : Index) : (s.removeQueue r k).respCount = s.respCount := rfl
@[simp] theorem State.removeQueue_resetIn (r : EpRef) (k : Index) : (s.removeQueue r k).resetIn = s.resetIn := rfl

/-! ### Taking a response -/

@[simp] theorem State.dropResp_cfg : s.dropResp.cfg = s.cfg := by
  unfold State.dropResp; split <;> rfl
@[simp] theorem State.dropResp_fault : s.dropResp.fault = s.fault := by
  unfold State.dropResp; split <;> rfl
@[simp] theorem State.dropResp_fcause : s.dropResp.fcause = s.fcause := by
  unfold State.dropResp; split <;> rfl
@[simp] theorem State.dropResp_finfo : s.dropResp.finfo = s.finfo := by
  unfold State.dropResp; split <;> rfl
@[simp] theorem State.dropResp_res0 : s.dropResp.res0 = s.res0 := by
  unfold State.dropResp; split <;> rfl
@[simp] theorem State.dropResp_res1 : s.dropResp.res1 = s.res1 := by
  unfold State.dropResp; split <;> rfl
@[simp] theorem State.dropResp_res2 : s.dropResp.res2 = s.res2 := by
  unfold State.dropResp; split <;> rfl
@[simp] theorem State.dropResp_res3 : s.dropResp.res3 = s.res3 := by
  unfold State.dropResp; split <;> rfl
@[simp] theorem State.dropResp_ports : s.dropResp.ports = s.ports := by
  unfold State.dropResp; split <;> rfl
@[simp] theorem State.dropResp_devs : s.dropResp.devs = s.devs := by
  unfold State.dropResp; split <;> rfl
@[simp] theorem State.dropResp_pkts : s.dropResp.pkts = s.pkts := by
  unfold State.dropResp; split <;> rfl
@[simp] theorem State.dropResp_hmem : s.dropResp.hmem = s.hmem := by
  unfold State.dropResp; split <;> rfl
@[simp] theorem State.dropResp_trace : s.dropResp.trace = s.trace := by
  unfold State.dropResp; split <;> rfl
@[simp] theorem State.dropResp_cmds : s.dropResp.cmds = s.cmds := by
  unfold State.dropResp; split <;> rfl
@[simp] theorem State.dropResp_resetIn : s.dropResp.resetIn = s.resetIn := by
  unfold State.dropResp; split <;> rfl

/-! ### A contract violation -/

@[simp] theorem contractViolation_cfg (c : Cause) (w : Word) : (contractViolation c w s).cfg = s.cfg := by
  unfold contractViolation; split <;> rfl
@[simp] theorem contractViolation_res0 (c : Cause) (w : Word) : (contractViolation c w s).res0 = s.res0 := by
  unfold contractViolation; split <;> rfl
@[simp] theorem contractViolation_res1 (c : Cause) (w : Word) : (contractViolation c w s).res1 = s.res1 := by
  unfold contractViolation; split <;> rfl
@[simp] theorem contractViolation_res2 (c : Cause) (w : Word) : (contractViolation c w s).res2 = s.res2 := by
  unfold contractViolation; split <;> rfl
@[simp] theorem contractViolation_res3 (c : Cause) (w : Word) : (contractViolation c w s).res3 = s.res3 := by
  unfold contractViolation; split <;> rfl
@[simp] theorem contractViolation_ports (c : Cause) (w : Word) : (contractViolation c w s).ports = s.ports := by
  unfold contractViolation; split <;> rfl
@[simp] theorem contractViolation_devs (c : Cause) (w : Word) : (contractViolation c w s).devs = s.devs := by
  unfold contractViolation; split <;> rfl
@[simp] theorem contractViolation_pkts (c : Cause) (w : Word) : (contractViolation c w s).pkts = s.pkts := by
  unfold contractViolation; split <;> rfl
@[simp] theorem contractViolation_hmem (c : Cause) (w : Word) : (contractViolation c w s).hmem = s.hmem := by
  unfold contractViolation; split <;> rfl
@[simp] theorem contractViolation_trace (c : Cause) (w : Word) : (contractViolation c w s).trace = s.trace := by
  unfold contractViolation; split <;> rfl
@[simp] theorem contractViolation_cmds (c : Cause) (w : Word) : (contractViolation c w s).cmds = s.cmds := by
  unfold contractViolation; split <;> rfl
@[simp] theorem contractViolation_resps (c : Cause) (w : Word) : (contractViolation c w s).resps = s.resps := by
  unfold contractViolation; split <;> rfl
@[simp] theorem contractViolation_respCount (c : Cause) (w : Word) : (contractViolation c w s).respCount = s.respCount := by
  unfold contractViolation; split <;> rfl
@[simp] theorem contractViolation_resetIn (c : Cause) (w : Word) : (contractViolation c w s).resetIn = s.resetIn := by
  unfold contractViolation; split <;> rfl

@[simp] theorem contractViolation_fault (c : Cause) (w : Word) :
    (contractViolation c w s).fault = true := by
  unfold contractViolation; split <;> rfl

/-- Raising from a state whose latch is clear records the cause and the word (R171). -/
theorem contractViolation_of_clear (c : Cause) (w : Word) (h : s.fault = false) :
    contractViolation c w s = { s with fault := true, fcause := c.code, finfo := w } := by
  simp [contractViolation, h]

/-! ### The reset state -/

@[simp] theorem State.resetWith_cfg (c : Config) (z : Sizes) (m : Memory) :
    (State.resetWith c z m).cfg = c := rfl
@[simp] theorem State.resetWith_fault (c : Config) (z : Sizes) (m : Memory) :
    (State.resetWith c z m).fault = false := rfl
@[simp] theorem State.resetWith_fcause (c : Config) (z : Sizes) (m : Memory) :
    (State.resetWith c z m).fcause = 0 := rfl
@[simp] theorem State.resetWith_finfo (c : Config) (z : Sizes) (m : Memory) :
    (State.resetWith c z m).finfo = 0 := rfl
@[simp] theorem State.resetWith_res0 (c : Config) (z : Sizes) (m : Memory) :
    (State.resetWith c z m).res0 = 0 := rfl
@[simp] theorem State.resetWith_res1 (c : Config) (z : Sizes) (m : Memory) :
    (State.resetWith c z m).res1 = 0 := rfl
@[simp] theorem State.resetWith_res2 (c : Config) (z : Sizes) (m : Memory) :
    (State.resetWith c z m).res2 = 0 := rfl
@[simp] theorem State.resetWith_res3 (c : Config) (z : Sizes) (m : Memory) :
    (State.resetWith c z m).res3 = 0 := rfl
@[simp] theorem State.resetWith_ports (c : Config) (z : Sizes) (m : Memory) :
    (State.resetWith c z m).ports = List.replicate z.nPort Port.reset := rfl
@[simp] theorem State.resetWith_devs (c : Config) (z : Sizes) (m : Memory) :
    (State.resetWith c z m).devs = List.replicate z.nDev Device.reset := rfl
@[simp] theorem State.resetWith_pkts (c : Config) (z : Sizes) (m : Memory) :
    (State.resetWith c z m).pkts = List.replicate z.nPkt Packet.reset := rfl
@[simp] theorem State.resetWith_hmem (c : Config) (z : Sizes) (m : Memory) :
    (State.resetWith c z m).hmem = m := rfl
@[simp] theorem State.resetWith_trace (c : Config) (z : Sizes) (m : Memory) :
    (State.resetWith c z m).trace = [] := rfl
@[simp] theorem State.resetWith_cmds (c : Config) (z : Sizes) (m : Memory) :
    (State.resetWith c z m).cmds = [] := rfl
@[simp] theorem State.resetWith_resps (c : Config) (z : Sizes) (m : Memory) :
    (State.resetWith c z m).resps = [] := rfl
@[simp] theorem State.resetWith_respCount (c : Config) (z : Sizes) (m : Memory) :
    (State.resetWith c z m).respCount = 0 := rfl
@[simp] theorem State.resetWith_resetIn (c : Config) (z : Sizes) (m : Memory) :
    (State.resetWith c z m).resetIn = false := rfl

/-! ### Sizes -/

@[simp] theorem State.updPort_ports_length (p : Index) (f : Port → Port) :
    (s.updPort p f).ports.length = s.ports.length := by
  simp [State.updPort]

@[simp] theorem State.updDev_devs_length (d : Index) (f : Device → Device) :
    (s.updDev d f).devs.length = s.devs.length := by
  simp [State.updDev]

@[simp] theorem State.updPkt_pkts_length (k : Index) (f : Packet → Packet) :
    (s.updPkt k f).pkts.length = s.pkts.length := by
  simp [State.updPkt]

@[simp] theorem State.updEp_devs_length (r : EpRef) (f : Endpoint → Endpoint) :
    (s.updEp r f).devs.length = s.devs.length := by
  simp [State.updEp]

/-! ### Reading after an update -/

theorem getD_modify {α : Type} (l : List α) (i j : Nat) (f : α → α) (x : α) :
    (l.modify i f).getD j x = if i = j ∧ j < l.length then f (l.getD j x) else l.getD j x := by
  simp only [List.getD_eq_getElem?_getD, List.getElem?_modify]
  by_cases hj : j < l.length
  · by_cases hij : i = j <;> simp [hij, hj]
  · simp [hj]

theorem index_eq_of_toNat {a b : Index} : a.toNat = b.toNat ↔ a = b :=
  ⟨BitVec.eq_of_toNat_eq, fun h => h ▸ rfl⟩

/-- A packet after a write to a packet. -/
theorem State.pkt_updPkt (k j : Index) (f : Packet → Packet) :
    (s.updPkt k f).pkt j = if k = j ∧ j.toNat < s.pkts.length then f (s.pkt j) else s.pkt j := by
  simp only [State.pkt, State.updPkt, getD_modify, index_eq_of_toNat]

/-- A device after a write to a device. -/
theorem State.dev_updDev (d j : Index) (f : Device → Device) :
    (s.updDev d f).dev j = if d = j ∧ j.toNat < s.devs.length then f (s.dev j) else s.dev j := by
  simp only [State.dev, State.updDev, getD_modify, index_eq_of_toNat]

/-- A port after a write to a port. -/
theorem State.port_updPort (p j : Index) (f : Port → Port) :
    (s.updPort p f).port j = if p = j ∧ j.toNat < s.ports.length then f (s.port j) else s.port j := by
  simp only [State.port, State.updPort, getD_modify, index_eq_of_toNat]

@[simp] theorem State.pkt_updPkt_self (k : Index) (f : Packet → Packet)
    (h : k.toNat < s.pkts.length) : (s.updPkt k f).pkt k = f (s.pkt k) := by
  simp [State.pkt_updPkt, h]

theorem State.pkt_updPkt_other {k j : Index} (f : Packet → Packet) (h : j ≠ k) :
    (s.updPkt k f).pkt j = s.pkt j := by
  simp [State.pkt_updPkt, h.symm]

@[simp] theorem State.dev_updDev_self (d : Index) (f : Device → Device)
    (h : d.toNat < s.devs.length) : (s.updDev d f).dev d = f (s.dev d) := by
  simp [State.dev_updDev, h]

theorem State.dev_updDev_other {d j : Index} (f : Device → Device) (h : j ≠ d) :
    (s.updDev d f).dev j = s.dev j := by
  simp [State.dev_updDev, h.symm]

@[simp] theorem State.port_updPort_self (p : Index) (f : Port → Port)
    (h : p.toNat < s.ports.length) : (s.updPort p f).port p = f (s.port p) := by
  simp [State.port_updPort, h]

theorem State.port_updPort_other {p j : Index} (f : Port → Port) (h : j ≠ p) :
    (s.updPort p f).port j = s.port j := by
  simp [State.port_updPort, h.symm]

@[simp] theorem State.dev_updPkt (k j : Index) (f : Packet → Packet) :
    (s.updPkt k f).dev j = s.dev j := rfl
@[simp] theorem State.dev_updPort (p j : Index) (f : Port → Port) :
    (s.updPort p f).dev j = s.dev j := rfl
@[simp] theorem State.dev_emit (e : Event) (j : Index) : (s.emit e).dev j = s.dev j := rfl
@[simp] theorem State.pkt_updDev (d j : Index) (f : Device → Device) :
    (s.updDev d f).pkt j = s.pkt j := rfl
@[simp] theorem State.pkt_updPort (p j : Index) (f : Port → Port) :
    (s.updPort p f).pkt j = s.pkt j := rfl
@[simp] theorem State.pkt_updEp (r : EpRef) (j : Index) (f : Endpoint → Endpoint) :
    (s.updEp r f).pkt j = s.pkt j := rfl
@[simp] theorem State.pkt_emit (e : Event) (j : Index) : (s.emit e).pkt j = s.pkt j := rfl
@[simp] theorem State.port_updDev (d j : Index) (f : Device → Device) :
    (s.updDev d f).port j = s.port j := rfl
@[simp] theorem State.port_updPkt (k j : Index) (f : Packet → Packet) :
    (s.updPkt k f).port j = s.port j := rfl
@[simp] theorem State.port_emit (e : Event) (j : Index) : (s.emit e).port j = s.port j := rfl
@[simp] theorem State.ep_updPkt (k : Index) (r : EpRef) (f : Packet → Packet) :
    (s.updPkt k f).ep r = s.ep r := rfl
@[simp] theorem State.ep_updPort (p : Index) (r : EpRef) (f : Port → Port) :
    (s.updPort p f).ep r = s.ep r := rfl
@[simp] theorem State.ep_emit (e : Event) (r : EpRef) : (s.emit e).ep r = s.ep r := rfl
@[simp] theorem State.pkt_dropResp (j : Index) : s.dropResp.pkt j = s.pkt j := by
  simp [State.pkt]
@[simp] theorem State.dev_dropResp (j : Index) : s.dropResp.dev j = s.dev j := by
  simp [State.dev]
@[simp] theorem State.port_dropResp (j : Index) : s.dropResp.port j = s.port j := by
  simp [State.port]
@[simp] theorem State.ep_dropResp (r : EpRef) : s.dropResp.ep r = s.ep r := by
  simp [State.ep]

/-- An endpoint of a device after a write to one of its endpoints. -/
theorem Device.endpoint_updEndpoint (D : Device) (e e' : EpId) (f : Endpoint → Endpoint) :
    (D.updEndpoint e f).endpoint e' = if e = e' then f (D.endpoint e') else D.endpoint e' := by
  cases e <;> cases e' <;> simp [Device.updEndpoint, Device.endpoint, Vector.get_eq_getElem]
  all_goals
    rename_i i j
    by_cases h : i = j
    · subst h; simp
    · simp [h, Fin.val_ne_of_ne h]

/-- An endpoint after a write to an endpoint. -/
theorem State.ep_updEp (r q : EpRef) (f : Endpoint → Endpoint) :
    (s.updEp r f).ep q = if r = q ∧ q.dev.toNat < s.devs.length then f (s.ep q) else s.ep q := by
  obtain ⟨rd, re⟩ := r
  obtain ⟨qd, qe⟩ := q
  simp only [State.ep, State.updEp, State.dev_updDev, EpRef.mk.injEq]
  by_cases hd : rd = qd
  · by_cases hl : qd.toNat < s.devs.length
    · by_cases he : re = qe <;> simp [hd, hl, he, Device.endpoint_updEndpoint]
    · simp [hl]
  · simp [hd]

@[simp] theorem State.ep_updEp_self (r : EpRef) (f : Endpoint → Endpoint)
    (h : r.dev.toNat < s.devs.length) : (s.updEp r f).ep r = f (s.ep r) := by
  simp [State.ep_updEp, h]

theorem State.ep_updEp_other {r q : EpRef} (f : Endpoint → Endpoint) (h : q ≠ r) :
    (s.updEp r f).ep q = s.ep q := by
  simp [State.ep_updEp, h.symm]

/-! ### Reading a table that was reset -/

theorem getD_replicate_self {α : Type} (n i : Nat) (x : α) :
    (List.replicate n x).getD i x = x := by
  simp only [List.getD_eq_getElem?_getD, List.getElem?_replicate]
  split <;> rfl

@[simp] theorem State.port_resetWith (c : Config) (z : Sizes) (m : Memory) (p : Index) :
    (State.resetWith c z m).port p = Port.reset := getD_replicate_self _ _ _

@[simp] theorem State.dev_resetWith (c : Config) (z : Sizes) (m : Memory) (d : Index) :
    (State.resetWith c z m).dev d = Device.reset := getD_replicate_self _ _ _

@[simp] theorem State.pkt_resetWith (c : Config) (z : Sizes) (m : Memory) (k : Index) :
    (State.resetWith c z m).pkt k = Packet.reset := getD_replicate_self _ _ _

/-- An endpoint that was reset: only the control endpoint has a type and a packet size (R21). -/
@[simp] theorem State.ep_resetWith (c : Config) (z : Sizes) (m : Memory) (r : EpRef) :
    (State.resetWith c z m).ep r =
      if r.ep = .ctl then Endpoint.resetCtl else Endpoint.resetOther := by
  obtain ⟨d, e⟩ := r
  cases e <;> simp [State.ep, Device.endpoint, Device.reset, Vector.get_eq_getElem]

@[simp] theorem State.port_hardwareReset (p : Index) : s.hardwareReset.port p = Port.reset :=
  State.port_resetWith s.cfg ⟨s.devs.length, s.ports.length, s.pkts.length⟩ s.hmem p

@[simp] theorem State.dev_hardwareReset (d : Index) : s.hardwareReset.dev d = Device.reset :=
  State.dev_resetWith s.cfg ⟨s.devs.length, s.ports.length, s.pkts.length⟩ s.hmem d

@[simp] theorem State.pkt_hardwareReset (k : Index) : s.hardwareReset.pkt k = Packet.reset :=
  State.pkt_resetWith s.cfg ⟨s.devs.length, s.ports.length, s.pkts.length⟩ s.hmem k

@[simp] theorem State.ep_hardwareReset (r : EpRef) :
    s.hardwareReset.ep r = if r.ep = .ctl then Endpoint.resetCtl else Endpoint.resetOther :=
  State.ep_resetWith s.cfg ⟨s.devs.length, s.ports.length, s.pkts.length⟩ s.hmem r

end Sys2Proof.Machine
end

