-- ==== Sys2Proof/Laws/Copy.lean ====
section
/-! SUPPORT. The laws of the byte mover (spec 20_memory.md R43, R44): where a position of a vector
lies, what a copy reads and writes, and everything a packet copy can do. -/

namespace Sys2Proof.Machine

/-- A position has a segment exactly when it is below the vector's capacity (R44). -/
theorem iovLocate_eq_none {iov : List Segment} {pos : Nat} :
    iovLocate iov pos = none ↔ iovSize iov ≤ pos := by
  induction iov generalizing pos with
  | nil => simp [iovLocate, iovSize]
  | cons g gs ih =>
    simp only [iovLocate, iovSize]
    split
    · simp; omega
    · have := ih (pos := pos - g.len.toNat)
      split <;> rename_i heq <;> simp [heq] at this ⊢ <;> omega

/-- The segment and the offset of a position (R44). -/
theorem iovLocate_eq_some {iov : List Segment} {pos i o : Nat} (h : iovLocate iov pos = some (i, o)) :
    i < iov.length ∧ o < (iov.getD i ⟨0, 0⟩).len.toNat ∧ pos = iovSize (iov.take i) + o := by
  induction iov generalizing pos i o with
  | nil => simp [iovLocate] at h
  | cons g gs ih =>
    simp only [iovLocate] at h
    split at h
    · obtain ⟨rfl, rfl⟩ : 0 = i ∧ pos = o := by simpa using h
      simp [iovSize, *]
    · split at h
      · rename_i j q hj
        obtain ⟨rfl, rfl⟩ : j + 1 = i ∧ q = o := by simpa using h
        obtain ⟨h1, h2, h3⟩ := ih hj
        refine ⟨by simpa using h1, by simpa using h2, ?_⟩
        simp only [List.take_succ_cons, iovSize]
        omega
      · simp at h

theorem hostAddress_lt {c : Config} {iov : List Segment} {pos a : Nat}
    (h : hostAddress c iov pos = some a) : a < c.hostSize := by
  unfold hostAddress at h
  split at h
  · simp only at h
    split at h
    · simp only [Option.some.injEq] at h; omega
    · simp at h
  · simp at h

/-- Every position of a vector whose segments lie in host memory has a host address (R92, R32 (b)). -/
theorem hostAddress_isSome {c : Config} {iov : List Segment} {pos : Nat}
    (hin : ∀ g ∈ iov, g.inHost c) (hpos : pos < iovSize iov) :
    ∃ a, hostAddress c iov pos = some a := by
  unfold hostAddress
  cases hl : iovLocate iov pos with
  | none => rw [iovLocate_eq_none] at hl; omega
  | some p =>
    obtain ⟨i, o⟩ := p
    obtain ⟨hi, ho, -⟩ := iovLocate_eq_some hl
    have hg := hin (iov.getD i ⟨0, 0⟩) (by
      rw [List.getD_eq_getElem _ _ hi]; exact List.getElem_mem hi)
    simp only [Segment.inHost] at hg
    exact ⟨_, by simp only; rw [if_pos (by omega)]⟩

/-- What a vector read answers: byte `i` comes from the host address of position `pos + i`. -/
theorem vectorRead_eq_some {c : Config} {iov : List Segment} {m : Memory} {pos n : Nat}
    {bs : List Byte} (h : vectorRead c iov m pos n = some bs) :
    bs.length = n ∧ ∀ i < n, ∃ a, hostAddress c iov (pos + i) = some a ∧ bs.getD i 0 = m.read a := by
  induction n generalizing pos bs with
  | zero => simp [vectorRead] at h; simp [← h]
  | succ n ih =>
    simp only [vectorRead] at h
    split at h
    · rename_i a bs' ha hbs
      obtain rfl : m.read a :: bs' = bs := by simpa using h
      obtain ⟨hl, hi⟩ := ih hbs
      refine ⟨by simp [hl], fun i hin => ?_⟩
      cases i with
      | zero => exact ⟨a, ha, by simp⟩
      | succ i =>
        obtain ⟨b, hb, hv⟩ := hi i (by omega)
        exact ⟨b, by rw [← hb]; congr 1; omega, by simpa using hv⟩
    · simp at h

theorem vectorRead_isSome {c : Config} {iov : List Segment} (m : Memory) {pos n : Nat}
    (hin : ∀ g ∈ iov, g.inHost c) (hpos : pos + n ≤ iovSize iov) :
    ∃ bs, vectorRead c iov m pos n = some bs := by
  induction n generalizing pos with
  | zero => exact ⟨[], by simp [vectorRead]⟩
  | succ n ih =>
    obtain ⟨bs, hbs⟩ := ih (pos := pos + 1) (by omega)
    obtain ⟨a, ha⟩ := hostAddress_isSome hin (pos := pos) (by omega)
    exact ⟨m.read a :: bs, by simp [vectorRead, ha, hbs]⟩

theorem vectorWrite_isSome {c : Config} {iov : List Segment} (m : Memory) {pos : Nat}
    {bs : List Byte} (hin : ∀ g ∈ iov, g.inHost c) (hpos : pos + bs.length ≤ iovSize iov) :
    ∃ m', vectorWrite c iov m pos bs = some m' := by
  induction bs generalizing m pos with
  | nil => exact ⟨m, by simp [vectorWrite]⟩
  | cons b bs ih =>
    simp only [List.length_cons] at hpos
    obtain ⟨a, ha⟩ := hostAddress_isSome hin (pos := pos) (by omega)
    obtain ⟨m', hm⟩ := ih (m.write a b) (pos := pos + 1) (by omega)
    exact ⟨m', by simp only [vectorWrite, ha, hm]⟩

/-- A vector write keeps the canonical form and the bound of host memory. -/
theorem vectorWrite_keeps {c : Config} {iov : List Segment} {m m' : Memory} {pos : Nat}
    {bs : List Byte} (h : vectorWrite c iov m pos bs = some m') (hw : m.wf = true)
    (hb : m.below c.hostSize = true) : m'.wf = true ∧ m'.below c.hostSize = true := by
  induction bs generalizing m pos with
  | nil =>
    obtain rfl : m = m' := by simpa [vectorWrite] using h
    exact ⟨hw, hb⟩
  | cons b bs ih =>
    simp only [vectorWrite] at h
    split at h
    · rename_i a ha
      exact ih h (Memory.wf_write a b hw) (Memory.below_write b hb (hostAddress_lt ha))
    · simp at h

/-- A vector write keeps the canonical form. -/
theorem wf_vectorWrite {c : Config} {iov : List Segment} {m m' : Memory} {pos : Nat}
    {bs : List Byte} (h : vectorWrite c iov m pos bs = some m') (hw : m.wf = true) :
    m'.wf = true := by
  induction bs generalizing m pos with
  | nil =>
    obtain rfl : m = m' := by simpa [vectorWrite] using h
    exact hw
  | cons b bs ih =>
    simp only [vectorWrite] at h
    split at h
    · rename_i a _
      exact ih h (Memory.wf_write a b hw)
    · simp at h

/-- A vector write leaves every address no position lies at as it was (R42, R43). -/
theorem vectorWrite_frame {c : Config} {iov : List Segment} {m m' : Memory} {pos : Nat}
    {bs : List Byte} (h : vectorWrite c iov m pos bs = some m') (hw : m.wf = true) (x : Nat)
    (hx : ∀ i < bs.length, hostAddress c iov (pos + i) ≠ some x) : m'.read x = m.read x := by
  induction bs generalizing m pos with
  | nil =>
    obtain rfl : m = m' := by simpa [vectorWrite] using h
    rfl
  | cons b bs ih =>
    simp only [vectorWrite] at h
    split at h
    · rename_i a ha
      have h0 := hx 0 (by simp)
      have hxa : x ≠ a := fun he => h0 (by simpa [he] using ha)
      rw [ih h (Memory.wf_write a b hw) fun i hi => by
        have := hx (i + 1) (by simpa using hi)
        rwa [show pos + (i + 1) = pos + 1 + i by omega] at this, Memory.read_write hw, if_neg hxa]
    · simp at h

/-- A vector write puts byte `i` at the host address of position `pos + i`, unless a later position
lies at the same address (R47). -/
theorem vectorWrite_read {c : Config} {iov : List Segment} {m m' : Memory} {pos : Nat}
    {bs : List Byte} (h : vectorWrite c iov m pos bs = some m') (hw : m.wf = true) {i a : Nat}
    (hi : i < bs.length) (ha : hostAddress c iov (pos + i) = some a)
    (hlast : ∀ j < bs.length, i < j → hostAddress c iov (pos + j) ≠ some a) :
    m'.read a = bs.getD i 0 := by
  induction bs generalizing m pos i with
  | nil => simp at hi
  | cons b bs ih =>
    simp only [vectorWrite] at h
    split at h
    · rename_i a0 ha0
      cases i with
      | zero =>
        obtain rfl : a0 = a := by simpa [ha0] using ha
        rw [vectorWrite_frame h (Memory.wf_write a0 b hw) a0 fun j hj => by
          have := hlast (j + 1) (by simpa using hj) (by omega)
          rwa [show pos + (j + 1) = pos + 1 + j by omega] at this, Memory.read_write hw]
        simp
      | succ i =>
        rw [ih h (Memory.wf_write a0 b hw) (by simpa using hi)
          (by rw [← ha]; congr 1; omega) fun j hj hij => by
            have := hlast (j + 1) (by simpa using hj) (by omega)
            rwa [show pos + (j + 1) = pos + 1 + j by omega] at this]
        simp
    · simp at h

/-- The packet after a copy: `actual_length` has advanced by the length (R43). -/
def moveActual (k : Index) (n : Nat) (s : State) : State :=
  s.updPkt k fun P =>
    { P with actualLength := BitVec.ofNat 32 ((s.pkt k).actualLength.toNat + n) }

/-- Everything a packet copy can do (R43): refuse a copy past the vector, write the vector of an IN
packet, read the vector of any other, or stop at an address that does not exist. -/
theorem packetCopy_cases (k : Index) (buf : List Byte) (n : Nat) (s : State) :
    (iovSize (s.pkt k).iov < (s.pkt k).actualLength.toNat + n ∧
      packetCopy k buf n s = .raised .copyOverrun s) ∨
    ((s.pkt k).actualLength.toNat + n ≤ iovSize (s.pkt k).iov ∧
      (((s.pkt k).token = .inn ∧ ∃ m,
          vectorWrite s.cfg (s.pkt k).iov s.hmem (s.pkt k).actualLength.toNat buf = some m ∧
          packetCopy k buf n s = .ok [] (moveActual k n { s with hmem := m })) ∨
       ((s.pkt k).token ≠ .inn ∧ ∃ bs,
          vectorRead s.cfg (s.pkt k).iov s.hmem (s.pkt k).actualLength.toNat n = some bs ∧
          packetCopy k buf n s = .ok bs (moveActual k n s)) ∨
       packetCopy k buf n s = .stopped .hostAddress)) := by
  unfold packetCopy
  by_cases hover : iovSize (s.pkt k).iov < (s.pkt k).actualLength.toNat + n
  · exact .inl ⟨hover, by simp [hover]⟩
  · refine .inr ⟨by omega, ?_⟩
    simp only [hover, if_false]
    cases ht : (s.pkt k).token <;> simp only [reduceCtorEq, ne_eq, not_true_eq_false,
      not_false_eq_true, true_and, false_and, false_or]
    case inn =>
      cases hv : vectorWrite s.cfg (s.pkt k).iov s.hmem (s.pkt k).actualLength.toNat buf with
      | none => exact .inr rfl
      | some m => exact .inl ⟨m, rfl, rfl⟩
    all_goals
      cases hv : vectorRead s.cfg (s.pkt k).iov s.hmem (s.pkt k).actualLength.toNat n with
      | none => exact .inr rfl
      | some bs => exact .inl ⟨bs, rfl, rfl⟩

/-- A copy within the capacity of a vector that lies in host memory goes on. -/
theorem packetCopy_goes_on {k : Index} {buf : List Byte} {n : Nat} {s : State}
    (hin : ∀ g ∈ (s.pkt k).iov, g.inHost s.cfg)
    (hroom : (s.pkt k).actualLength.toNat + n ≤ iovSize (s.pkt k).iov) (hbuf : buf.length ≤ n) :
    ∃ bs t, packetCopy k buf n s = .ok bs t := by
  rcases packetCopy_cases k buf n s with ⟨h, -⟩ | ⟨-, ⟨-, m, -, h⟩ | ⟨-, bs, -, h⟩ | h⟩
  · omega
  · exact ⟨_, _, h⟩
  · exact ⟨_, _, h⟩
  · exfalso
    unfold packetCopy at h
    simp only [show ¬ iovSize (s.pkt k).iov < (s.pkt k).actualLength.toNat + n by omega,
      if_false] at h
    obtain ⟨m, hm⟩ := vectorWrite_isSome (c := s.cfg) s.hmem (pos := (s.pkt k).actualLength.toNat)
      (bs := buf) hin (by omega)
    obtain ⟨bs, hbs⟩ := vectorRead_isSome (c := s.cfg) s.hmem (pos := (s.pkt k).actualLength.toNat)
      hin hroom
    cases ht : (s.pkt k).token <;> simp [ht, hm, hbs] at h

end Sys2Proof.Machine
end

