-- ==== Sys2Proof/Laws/Transfer.lean ====
section
/-! SUPPORT. What a dispatch to a handler, and the application of a response, can change: two fields
of the packet, the control fields of its device, host memory, the trace and the channels. Said once
here, as a relation that every part of the sequencer keeps. -/

namespace Sys2Proof.Machine

/-- What the transfer of packet `k` on device `d` leaves as it was. -/
structure Transfers (d k : Index) (s t : State) : Prop where
  cfg       : t.cfg = s.cfg
  fault     : t.fault = s.fault
  fcause    : t.fcause = s.fcause
  finfo     : t.finfo = s.finfo
  res0      : t.res0 = s.res0
  res1      : t.res1 = s.res1
  res2      : t.res2 = s.res2
  res3      : t.res3 = s.res3
  ports     : t.ports = s.ports
  cmds      : t.cmds = s.cmds
  resetIn   : t.resetIn = s.resetIn
  trace     : ∃ es, t.trace = s.trace ++ es ∧ ∀ j id f, Event.complete j id f ∉ es
  pktsLen   : t.pkts.length = s.pkts.length
  pktOther  : ∀ j, j ≠ k → t.pkt j = s.pkt j
  pktSelf   : t.pkt k =
    { s.pkt k with status := (t.pkt k).status, actualLength := (t.pkt k).actualLength }
  devsLen   : t.devs.length = s.devs.length
  devOther  : ∀ j, j ≠ d → t.dev j = s.dev j
  devSelf   : t.dev d =
    { s.dev d with
      setupBuf := (t.dev d).setupBuf, ctlState := (t.dev d).ctlState, dataBuf := (t.dev d).dataBuf
      setupLen := (t.dev d).setupLen, setupIndex := (t.dev d).setupIndex }
  hmemOk    : HostMemoryOk s → HostMemoryOk t
  hmem      : s.hmem.wf = true → t.hmem.wf = true ∧ ∀ a, t.hmem.read a ≠ s.hmem.read a →
    (s.pkt k).token = .inn ∧ ∃ pos, hostAddress s.cfg (s.pkt k).iov pos = some a

variable {d k : Index} {s t u : State}

theorem Transfers.refl (d k : Index) (s : State) : Transfers d k s s := by
  constructor <;> first
    | rfl
    | exact ⟨[], by simp⟩
    | exact fun h => h
    | exact fun h => ⟨h, fun a ha => absurd rfl ha⟩
    | (intros; rfl)

theorem Transfers.trans (h : Transfers d k s t) (h' : Transfers d k t u) : Transfers d k s u where
  cfg := h'.cfg.trans h.cfg
  fault := h'.fault.trans h.fault
  fcause := h'.fcause.trans h.fcause
  finfo := h'.finfo.trans h.finfo
  res0 := h'.res0.trans h.res0
  res1 := h'.res1.trans h.res1
  res2 := h'.res2.trans h.res2
  res3 := h'.res3.trans h.res3
  ports := h'.ports.trans h.ports
  cmds := h'.cmds.trans h.cmds
  resetIn := h'.resetIn.trans h.resetIn
  trace := by
    obtain ⟨es, h1, h2⟩ := h.trace
    obtain ⟨es', h1', h2'⟩ := h'.trace
    exact ⟨es ++ es', by rw [h1', h1, List.append_assoc], by simp_all⟩
  pktsLen := h'.pktsLen.trans h.pktsLen
  pktOther j hj := (h'.pktOther j hj).trans (h.pktOther j hj)
  pktSelf := by rw [h'.pktSelf, h.pktSelf]
  devsLen := h'.devsLen.trans h.devsLen
  devOther j hj := (h'.devOther j hj).trans (h.devOther j hj)
  devSelf := by rw [h'.devSelf, h.devSelf]
  hmemOk hs := h'.hmemOk (h.hmemOk hs)
  hmem hs := by
    have h2 := h'.hmem (h.hmem hs).1
    refine ⟨h2.1, fun a ha => ?_⟩
    by_cases hc : t.hmem.read a = s.hmem.read a
    · have := h2.2 a (hc ▸ ha)
      rwa [h.pktSelf, h.cfg] at this
    · exact (h.hmem hs).2 a hc

/-- Every endpoint keeps its attributes and its queue. -/
theorem Transfers.ep (h : Transfers d k s t) (r : EpRef) : t.ep r = s.ep r := by
  unfold State.ep
  by_cases hd : r.dev = d
  · rw [hd, h.devSelf]
    cases r.ep <;> rfl
  · rw [h.devOther _ hd]

/-! ### The updates a transfer is made of -/

theorem transfers_updPkt (s : State) (f : Packet → Packet)
    (hf : ∀ P, f P = { P with status := (f P).status, actualLength := (f P).actualLength }) :
    Transfers d k s (s.updPkt k f) := by
  constructor <;> first
    | rfl
    | exact ⟨[], by simp⟩
    | exact fun h => h
    | exact fun h => ⟨h, fun a ha => absurd rfl ha⟩
    | simp; done
    | (intro j hj; exact State.pkt_updPkt_other s f hj)
    | skip
  simp only [State.pkt_updPkt]
  split
  · exact hf _
  · rfl

theorem transfers_updDev (s : State) (f : Device → Device)
    (hf : ∀ D, f D =
      { D with
        setupBuf := (f D).setupBuf, ctlState := (f D).ctlState, dataBuf := (f D).dataBuf
        setupLen := (f D).setupLen, setupIndex := (f D).setupIndex }) :
    Transfers d k s (s.updDev d f) := by
  constructor <;> first
    | rfl
    | exact ⟨[], by simp⟩
    | exact fun h => h
    | exact fun h => ⟨h, fun a ha => absurd rfl ha⟩
    | simp; done
    | (intro j hj; exact State.dev_updDev_other s f hj)
    | skip
  simp only [State.dev_updDev]
  split
  · exact hf _
  · rfl

/-- A copy that writes the vector of an IN packet changes only bytes the vector names. -/
theorem transfers_vectorWrite {pos : Nat} {bs : List Byte} {m : Memory}
    (ht : (s.pkt k).token = .inn) (h : vectorWrite s.cfg (s.pkt k).iov s.hmem pos bs = some m) :
    Transfers d k s { s with hmem := m } := by
  constructor <;> first
    | rfl
    | exact ⟨[], by simp⟩
    | (intros; rfl)
    | skip
  · exact fun hs => vectorWrite_keeps h hs.1 hs.2
  · refine fun hs => ⟨wf_vectorWrite h hs, fun a ha => ⟨ht, ?_⟩⟩
    by_contra hn
    exact ha (vectorWrite_frame h hs a fun i _ hi => hn ⟨_, hi⟩)

theorem transfers_emit (s : State) (e : Event) (he : ∀ j id f, e ≠ .complete j id f) :
    Transfers d k s (s.emit e) := by
  constructor <;> first
    | rfl
    | exact ⟨[e], rfl, fun j id f hm => he j id f (List.mem_singleton.mp hm).symm⟩
    | exact fun h => h
    | exact fun h => ⟨h, fun a ha => absurd rfl ha⟩
    | (intros; rfl)

theorem transfers_dropResp (s : State) : Transfers d k s s.dropResp := by
  constructor <;> first
    | exact ⟨[], by simp⟩
    | simp [HostMemoryOk]

theorem transfers_setStatus (s : State) (st : Status) : Transfers d k s (s.setStatus k st) :=
  transfers_updPkt s _ fun _ => rfl

theorem transfers_setActual (s : State) (n : Word) : Transfers d k s (s.setActual k n) :=
  transfers_updPkt s _ fun _ => rfl

theorem transfers_setCtl (s : State) (c : CtlState) : Transfers d k s (s.setCtl d c) :=
  transfers_updDev s _ fun _ => rfl

theorem transfers_stallToIdle (s : State) : Transfers d k s (stallToIdle d k s) :=
  (transfers_setStatus s _).trans (transfers_setCtl _ _)

theorem transfers_beginRequest (s : State) (b : SetupBuf) (c : CtlState) :
    Transfers d k s (beginRequest d b c s) :=
  transfers_updDev s _ fun _ => rfl

theorem transfers_shortenSetup (s : State) (n : Nat) : Transfers d k s (shortenSetup d n s) := by
  unfold shortenSetup
  split
  · exact transfers_updDev s _ fun _ => rfl
  · exact .refl d k s

/-! ### The parts of the sequencer -/

/-- Chaining two parts that are each a transfer. -/
theorem Run.All.transfers {α β : Type} {x : Run α} {f : α → State → Run β}
    (hx : x.All (Transfers d k s)) (hf : ∀ a u, (f a u).All (Transfers d k u)) :
    (x.bind f).All (Transfers d k s) :=
  hx.bind (fun _ h => h) fun a u _ hu => (hf a u).mono fun _ h => hu.trans h

/-- Starting from a state a transfer has reached. -/
theorem Run.All.after {α : Type} {x : Run α} (h : Transfers d k s t)
    (hx : x.All (Transfers d k t)) : x.All (Transfers d k s) :=
  hx.mono fun _ h' => h.trans h'

theorem transfers_require (b : Bool) (c : Cause) (s : State) :
    (require b c s).All (Transfers d k s) :=
  require_all b c (.refl d k s)

theorem transfers_packetCopy (buf : List Byte) (n : Nat) (s : State) :
    (packetCopy k buf n s).All (Transfers d k s) := by
  rcases packetCopy_cases k buf n s with ⟨-, h⟩ | ⟨-, ⟨_, m, _, h⟩ | ⟨-, bs, -, h⟩ | h⟩ <;> rw [h]
  · exact .refl d k s
  · exact (transfers_vectorWrite ‹_› ‹_›).trans (transfers_updPkt _ _ fun _ => rfl)
  · exact transfers_updPkt _ _ fun _ => rfl
  · trivial

theorem transfers_applyCtlResp (r : Resp) (s : State) :
    (applyCtlResp d k r s).All (Transfers d k s) := by
  unfold applyCtlResp
  split
  · exact .refl d k s
  split
  · exact (transfers_updDev s _ fun _ => rfl).trans (transfers_setStatus _ _)
  · exact .refl d k s

theorem transfers_controlHandler (s : State) : (controlHandler d k s).All (Transfers d k s) := by
  unfold controlHandler
  split
  · exact .after ((transfers_emit s _ (by simp [controlEvent])).trans (transfers_dropResp _))
      (transfers_applyCtlResp _ _)
  · exact transfers_applyCtlResp _ s

theorem transfers_copyDataBuf (off n : Nat) (s : State) :
    (copyDataBuf d k off n s).All (Transfers d k s) :=
  .transfers (transfers_packetCopy _ n s) fun _ u => transfers_updDev u _ fun _ => rfl

theorem transfers_paramFinish (n : Nat) (s : State) :
    (paramFinish d k n s).All (Transfers d k s) := by
  unfold paramFinish
  dsimp only
  refine .after (transfers_shortenSetup s n) ?_
  split
  · exact .after (transfers_setActual _ _) (transfers_copyDataBuf _ _ _)
  · exact .refl d k _

theorem transfers_paramPayload (s : State) : (paramPayload d k s).All (Transfers d k s) := by
  unfold paramPayload
  split
  · exact .after (transfers_setActual _ _) (transfers_copyDataBuf _ _ _)
  · exact .refl d k _

theorem transfers_paramPath (s : State) : (paramPath d k s).All (Transfers d k s) := by
  unfold paramPath
  dsimp only
  refine .after (transfers_beginRequest s (.ofParameter (s.pkt k).parameter) .param) ?_
  split
  · exact transfers_stallToIdle _
  · refine .transfers (transfers_paramPayload _) fun _ u => ?_
    refine .transfers (transfers_controlHandler u) fun n v => ?_
    split
    · exact transfers_paramFinish n v
    · exact .refl d k v

theorem transfers_setupTokenIn (s : State) : (setupTokenIn d k s).All (Transfers d k s) := by
  unfold setupTokenIn
  refine .transfers (transfers_controlHandler s) fun n u => ?_
  split
  · exact .refl d k u
  · exact (transfers_shortenSetup u n).trans
      ((transfers_setCtl _ _).trans (transfers_setActual _ _))
  all_goals exact transfers_setCtl _ _

theorem transfers_setupTokenOut (s : State) : Transfers d k s (setupTokenOut d k s) :=
  (transfers_setCtl s _).trans (transfers_setActual _ _)

theorem transfers_tokenSetup (s : State) : (tokenSetup d k s).All (Transfers d k s) := by
  unfold tokenSetup
  dsimp only
  split
  · exact transfers_stallToIdle _
  · refine .after (transfers_setActual s 0) (.transfers (transfers_packetCopy _ _ _) fun bs u => ?_)
    refine .after ((transfers_setActual u 0).trans (transfers_beginRequest _ (.ofBytes bs) .setup)) ?_
    split
    · exact transfers_stallToIdle _
    split
    · exact transfers_setupTokenIn _
    · exact transfers_setupTokenOut _

theorem transfers_dataChunk (s : State) : (dataChunk d k s).All (Transfers d k s) :=
  .transfers (transfers_copyDataBuf _ _ s) fun _ u => transfers_updDev u _ fun _ => rfl

theorem transfers_statusPhaseIn (s : State) : (statusPhaseIn d k s).All (Transfers d k s) := by
  unfold statusPhaseIn
  split
  · exact .refl d k s
  · refine .transfers (transfers_controlHandler s) fun n u => ?_
    split
    · exact .refl d k u
    · exact (transfers_setCtl _ _).trans (transfers_setActual _ _)

theorem transfers_tokenIn (s : State) : (tokenIn d k s).All (Transfers d k s) := by
  unfold tokenIn
  split
  · exact transfers_statusPhaseIn s
  · split
    · exact transfers_dataChunk s
    · exact transfers_stallToIdle s
  all_goals exact transfers_stallToIdle s

theorem transfers_tokenOut (s : State) : (tokenOut d k s).All (Transfers d k s) := by
  unfold tokenOut
  split
  · split
    · exact transfers_setCtl _ _
    · exact .refl d k s
  · split
    · exact transfers_stallToIdle s
    · exact transfers_dataChunk s
  all_goals exact transfers_stallToIdle s

theorem transfers_controlDispatch (s : State) :
    (controlDispatch d k s).All (Transfers d k s) := by
  unfold controlDispatch
  split
  · exact transfers_paramPath s
  split
  · exact transfers_tokenSetup s
  · exact transfers_tokenIn s
  all_goals exact transfers_tokenOut s

theorem transfers_ctlAsyncDone (r : Resp) (s : State) :
    (ctlAsyncDone d k r s).All (Transfers d k s) := by
  unfold ctlAsyncDone
  refine .transfers (transfers_applyCtlResp r s) fun n u => ?_
  split
  · exact .refl d k u
  split
  · split
    · exact (transfers_shortenSetup u n).trans
        ((transfers_setCtl _ _).trans (transfers_setActual _ _))
    · exact transfers_setCtl _ _
  · exact (transfers_setCtl _ _).trans (transfers_setActual _ _)
  · split
    · exact transfers_paramFinish n u
    · exact .refl d k u
  all_goals exact .refl d k u

theorem transfers_applyDataResp (r : Resp) (emits : Bool) (s : State) :
    (applyDataResp d k r emits s).All (Transfers d k s) := by
  unfold applyDataResp
  split
  · exact .refl d k s
  split
  · exact .transfers (transfers_require _ _ s) fun _ u =>
      .transfers (transfers_packetCopy _ _ u) fun _ v => transfers_setStatus v _
  · refine .transfers (transfers_require _ _ s) fun _ u =>
      .transfers (transfers_packetCopy _ _ u) fun sink v => ?_
    split
    · exact (transfers_emit _ _ (by simp)).trans (transfers_setStatus _ _)
    · exact transfers_setStatus _ _

theorem transfers_dataHandler (s : State) : (dataHandler d k s).All (Transfers d k s) := by
  unfold dataHandler
  split
  · exact .after ((transfers_emit s _ (by simp)).trans (transfers_dropResp _))
      (transfers_applyDataResp _ _ _)
  · exact transfers_applyDataResp _ _ s

/-- A dispatch is a transfer of the packet on its own device (R101). -/
theorem transfers_dispatch (k : Index) (s : State) :
    (dispatch k s).All (Transfers (s.pkt k).dev k s) := by
  unfold dispatch
  dsimp only
  refine .after (transfers_setStatus s .success) ?_
  split
  · exact transfers_controlDispatch _
  · exact transfers_dataHandler _

/-- Applying the response of a COMPLETE is a transfer of the packet on its own device (R108). -/
theorem transfers_applyCompletion (k : Index) (r : Resp) (s : State) :
    (applyCompletion k r s).All (Transfers (s.pkt k).dev k s) := by
  unfold applyCompletion
  dsimp only
  split
  · exact transfers_ctlAsyncDone r s
  · exact transfers_applyDataResp r true s

end Sys2Proof.Machine
end

