-- ==== Sys2Proof/Laws/Queue.lean ====
section
/-! SUPPORT. What SUBMIT and COMPLETE can change beyond one transfer: the queue and the halt of one
endpoint, and the status, length and state of packets. Said once here, as a relation that every part
of the two commands keeps, with an induction principle for the queue advance. -/

namespace Sys2Proof.Machine

/-- What a SUBMIT or a COMPLETE of a packet on endpoint `r` leaves as it was. -/
structure Moves (r : EpRef) (s t : State) : Prop where
  cfg     : t.cfg = s.cfg
  fault   : t.fault = s.fault
  fcause  : t.fcause = s.fcause
  finfo   : t.finfo = s.finfo
  res0    : t.res0 = s.res0
  res1    : t.res1 = s.res1
  res2    : t.res2 = s.res2
  res3    : t.res3 = s.res3
  ports   : t.ports = s.ports
  cmds    : t.cmds = s.cmds
  resetIn : t.resetIn = s.resetIn
  trace   : s.trace <+: t.trace
  hmemOk  : HostMemoryOk s → HostMemoryOk t
  hmem    : s.hmem.wf = true → t.hmem.wf = true ∧ ∀ a, t.hmem.read a ≠ s.hmem.read a →
    ∃ k, (s.pkt k).token = .inn ∧ ∃ pos, hostAddress s.cfg (s.pkt k).iov pos = some a
  pktsLen : t.pkts.length = s.pkts.length
  devsLen : t.devs.length = s.devs.length
  pkt     : ∀ j, t.pkt j =
    { s.pkt j with
      status := (t.pkt j).status, actualLength := (t.pkt j).actualLength, state := (t.pkt j).state }
  dev     : ∀ j, t.dev j =
    { s.dev j with
      setupBuf := (t.dev j).setupBuf, ctlState := (t.dev j).ctlState, dataBuf := (t.dev j).dataBuf
      setupLen := (t.dev j).setupLen, setupIndex := (t.dev j).setupIndex
      epCtl := (t.dev j).epCtl, epIn := (t.dev j).epIn, epOut := (t.dev j).epOut }
  epOther : ∀ q, q ≠ r → t.ep q = s.ep q
  epSelf  : t.ep r = { s.ep r with halted := (t.ep r).halted, queue := (t.ep r).queue }

variable {r : EpRef} {s t u : State}

theorem Moves.refl (r : EpRef) (s : State) : Moves r s s := by
  constructor <;> first
    | rfl
    | exact List.prefix_refl _
    | exact fun h => h
    | exact fun h => ⟨h, fun a ha => absurd rfl ha⟩
    | (intros; rfl)

theorem Moves.trans (h : Moves r s t) (h' : Moves r t u) : Moves r s u where
  cfg := h'.cfg.trans h.cfg
  fault := h'.fault.trans h.fault
  fcause := h'.fcause.trans h.fcause
  finfo := h'.finfo.trans h.finfo
  res0 := h'.res0.trans h.res0
  res1 := h'.res1.trans h.res1
  res2 := h'.res2.trans h.res2
  res3 := h'.res3.trans h.res3
  ports := h'.ports.trans h.ports
  cmds := h'.cmds.trans h.cmds
  resetIn := h'.resetIn.trans h.resetIn
  trace := h.trace.trans h'.trace
  hmemOk hs := h'.hmemOk (h.hmemOk hs)
  hmem hs := by
    have h2 := h'.hmem (h.hmem hs).1
    refine ⟨h2.1, fun a ha => ?_⟩
    by_cases hc : t.hmem.read a = s.hmem.read a
    · obtain ⟨k, hk⟩ := h2.2 a (hc ▸ ha)
      rw [h.pkt k, h.cfg] at hk
      exact ⟨k, hk⟩
    · exact (h.hmem hs).2 a hc
  pktsLen := h'.pktsLen.trans h.pktsLen
  devsLen := h'.devsLen.trans h.devsLen
  pkt j := by rw [h'.pkt j, h.pkt j]
  dev j := by rw [h'.dev j, h.dev j]
  epOther q hq := (h'.epOther q hq).trans (h.epOther q hq)
  epSelf := by rw [h'.epSelf, h.epSelf]

/-- A transfer moves no queue. -/
theorem Transfers.moves {d k : Index} (h : Transfers d k s t) (r : EpRef) : Moves r s t where
  cfg := h.cfg
  fault := h.fault
  fcause := h.fcause
  finfo := h.finfo
  res0 := h.res0
  res1 := h.res1
  res2 := h.res2
  res3 := h.res3
  ports := h.ports
  cmds := h.cmds
  resetIn := h.resetIn
  trace := by
    obtain ⟨es, he, -⟩ := h.trace
    exact ⟨es, he.symm⟩
  hmemOk := h.hmemOk
  hmem hs := ⟨(h.hmem hs).1, fun a ha => ⟨k, (h.hmem hs).2 a ha⟩⟩
  pktsLen := h.pktsLen
  devsLen := h.devsLen
  pkt j := by
    by_cases hj : j = k
    · rw [hj, h.pktSelf]
    · rw [h.pktOther j hj]
  dev j := by
    by_cases hj : j = d
    · rw [hj, h.devSelf]
    · rw [h.devOther j hj]
  epOther q _ := h.ep q
  epSelf := by rw [h.ep r]

theorem moves_updPkt (s : State) (k : Index) (f : Packet → Packet)
    (hf : ∀ P, f P =
      { P with status := (f P).status, actualLength := (f P).actualLength, state := (f P).state }) :
    Moves r s (s.updPkt k f) := by
  constructor <;> first
    | rfl
    | exact List.prefix_refl _
    | exact fun h => h
    | exact fun h => ⟨h, fun a ha => absurd rfl ha⟩
    | simp; done
    | (intros; simp; done)
    | skip
  intro j
  simp only [State.pkt_updPkt]
  split
  · exact hf _
  · rfl

theorem moves_updEp (s : State) (f : Endpoint → Endpoint)
    (hf : ∀ e, f e = { e with halted := (f e).halted, queue := (f e).queue }) :
    Moves r s (s.updEp r f) := by
  constructor <;> first
    | rfl
    | exact List.prefix_refl _
    | exact fun h => h
    | exact fun h => ⟨h, fun a ha => absurd rfl ha⟩
    | simp; done
    | (intro q hq; exact State.ep_updEp_other s f hq)
    | skip
  · intro j
    simp only [State.updEp, State.dev_updDev]
    split
    · cases r.ep <;> rfl
    · rfl
  · simp only [State.ep_updEp]
    split
    · exact hf _
    · rfl

theorem moves_emit (s : State) (e : Event) : Moves r s (s.emit e) := by
  constructor <;> first
    | rfl
    | exact List.prefix_append _ _
    | exact fun h => h
    | exact fun h => ⟨h, fun a ha => absurd rfl ha⟩
    | (intros; rfl)

theorem moves_dropResp (s : State) : Moves r s s.dropResp :=
  (transfers_dropResp (d := noIndex) (k := noIndex) s).moves r

theorem moves_setStatus (s : State) (k : Index) (st : Status) : Moves r s (s.setStatus k st) :=
  moves_updPkt s k _ fun _ => rfl

theorem moves_setPktState (s : State) (k : Index) (st : PktState) :
    Moves r s (s.setPktState k st) :=
  moves_updPkt s k _ fun _ => rfl

theorem moves_appendQueue (s : State) (k : Index) : Moves r s (s.appendQueue r k) :=
  moves_updEp s _ fun _ => rfl

theorem moves_removeQueue (s : State) (k : Index) : Moves r s (s.removeQueue r k) :=
  moves_updEp s _ fun _ => rfl

theorem moves_queueOne (k : Index) (s : State) : Moves r s (queueOne k r s) :=
  (moves_setPktState s k _).trans ((moves_setStatus _ k _).trans (moves_appendQueue _ k))

theorem moves_completeOne (k : Index) (s : State) : Moves r s (completeOne k r s) :=
  (moves_setPktState s k _).trans ((moves_removeQueue _ k).trans (moves_emit _ _))

theorem moves_cancelHook (d k : Index) (b : Bool) (s : State) : Moves r s (cancelHook d k b s) := by
  unfold cancelHook
  split
  · exact moves_emit s _
  · exact .refl r s

/-! ### The parts of SUBMIT and COMPLETE -/

/-- Chaining two parts that each move only what a SUBMIT or COMPLETE may. -/
theorem Run.All.moves {α β : Type} {x : Run α} {f : α → State → Run β}
    (hx : x.All (Moves r s)) (hf : ∀ a u, (f a u).All (Moves r u)) : (x.bind f).All (Moves r s) :=
  hx.bind (fun _ h => h) fun a u _ hu => (hf a u).mono fun _ h => hu.trans h

theorem moves_require (b : Bool) (c : Cause) (s : State) : (require b c s).All (Moves r s) :=
  require_all b c (.refl r s)

theorem checkAsync_all {I : State → Prop} (h : I s) : (checkAsync r s).All I :=
  (require_all _ _ h).bind (fun _ h => h) fun _ _ _ h => require_all _ _ h

/-- The checks of an Async answer leave the state as it was. -/
theorem checkAsync_eq_ok : checkAsync r s = .ok () t →
    t = s ∧ (s.ep r).type ≠ 3 ∧ ((s.ep r).type = 2 → s.hostRole r.dev = true) := by
  intro h
  obtain ⟨_, u, h1, h2⟩ := Run.bind_eq_ok.mp h
  obtain ⟨h3, rfl⟩ := require_eq_ok.mp h1
  obtain ⟨h4, rfl⟩ := require_eq_ok.mp h2
  refine ⟨rfl, by simpa using h3, fun h5 => by simpa [h5] using h4⟩

theorem moves_dispatch (k : Index) (s : State) : (dispatch k s).All (Moves r s) :=
  (transfers_dispatch k s).mono fun _ h => h.moves r

theorem moves_afterDispatch (k : Index) (s : State) : (afterDispatch k r s).All (Moves r s) := by
  unfold afterDispatch
  split
  · exact .moves (checkAsync_all (.refl r s)) fun _ u =>
      (moves_setPktState u k _).trans (moves_appendQueue _ k)
  · exact moves_queueOne k s
  · exact .refl r s
  all_goals exact moves_setPktState s k _

theorem moves_clearHalt (s : State) : (clearHalt r s).All (Moves r s) := by
  unfold clearHalt
  split
  · exact .moves (moves_require _ _ s) fun _ u => moves_updEp u _ fun _ => rfl
  · exact .refl r s

theorem moves_submitAccepted (k : Index) (s : State) : (submitAccepted k r s).All (Moves r s) := by
  refine .moves (moves_clearHalt s) fun _ u => ?_
  split
  · split
    · exact .refl r u
    · exact moves_queueOne k u
  · exact .moves (moves_dispatch k u) fun _ v => moves_afterDispatch k v

/-- A SUBMIT moves only its packet's own endpoint (R94). -/
theorem moves_submitPacket (k d : Index) (s : State) :
    (submitPacket k d s).All (Moves (s.pkt k).endpoint s) := by
  refine (require_all (I := (· = s)) _ _ rfl).bind (by rintro _ rfl; exact .refl _ _) ?_
  rintro _ _ - rfl
  refine (require_all (I := (· = _)) _ _ rfl).bind (by rintro _ rfl; exact .refl _ _) ?_
  rintro _ _ - rfl
  split
  · exact (moves_setStatus _ k _).trans (moves_setPktState _ k _)
  refine (require_all (I := (· = _)) _ _ rfl).bind (by rintro _ rfl; exact .refl _ _) ?_
  rintro _ _ - rfl
  exact moves_submitAccepted k _

/-- A property that every turn of the queue advance keeps, whether the turn goes on, stops at an
Async packet or raises, is kept by the advance (R110, R111). `J h` is what holds between the dispatch
of the head `h` and its outcome. -/
theorem advance_all {I : State → Prop} {J : Index → State → Prop} (r : EpRef)
    (hdispatch : ∀ h tl u, I u → (u.ep r).queue = h :: tl → (u.pkt h).state ≠ .async →
      (dispatch h u).All (J h))
    (hraise : ∀ h u, J h u → I u)
    (hasync : ∀ h u, J h u → (u.pkt h).status = .async → I (u.setPktState h .async))
    (hdone : ∀ h u, J h u →
      (u.pkt h).status = .success ∨ (u.pkt h).status = .stall ∨ (u.pkt h).status = .noDevice →
      I (completeOne h r u))
    (fuel : Nat) (s : State) (hs : I s) : (advance r fuel s).All I := by
  induction fuel generalizing s with
  | zero => exact hs
  | succ fuel ih =>
    unfold advance
    split
    · exact hs
    · rename_i h tl hq
      split
      · exact hs
      · rename_i hst
        refine (hdispatch h tl s hs hq hst).bind (hraise h) fun _ u _ hu => ?_
        split
        · rename_i hsu
          refine (checkAsync_all (I := fun v => v = u) rfl).bind ?_ ?_
          · rintro v rfl; exact hraise h v hu
          · rintro _ v - rfl; exact hasync h v hu hsu
        · exact hraise h u hu
        · exact hraise h u hu
        · rename_i hsu; exact ih _ (hdone h u hu (.inl hsu))
        · rename_i hsu; exact ih _ (hdone h u hu (.inr (.inl hsu)))
        · rename_i hsu; exact ih _ (hdone h u hu (.inr (.inr hsu)))

theorem moves_advance (fuel : Nat) (s : State) : (advance r fuel s).All (Moves r s) :=
  advance_all (I := Moves r s) (J := fun _ => Moves r s) r
    (fun h _ u hu _ _ => (moves_dispatch h u).mono fun _ h' => hu.trans h')
    (fun _ _ h => h)
    (fun h u hu _ => hu.trans (moves_setPktState u h _))
    (fun h u hu _ => hu.trans (moves_completeOne h u))
    fuel s (.refl r s)

/-- A COMPLETE moves only its packet's own endpoint (R108). -/
theorem moves_completePacket (k : Index) (s : State) :
    (completePacket k s).All (Moves (s.pkt k).endpoint s) := by
  refine (require_all (I := (· = s)) _ _ rfl).bind (by rintro _ rfl; exact .refl _ _) ?_
  rintro _ _ - rfl
  refine (require_all (I := (· = _)) _ _ rfl).bind (by rintro _ rfl; exact .refl _ _) ?_
  rintro _ s - rfl
  dsimp only
  refine Run.All.mono ?_ fun _ h => (moves_dropResp s).trans h
  refine .moves (moves_require _ _ _) fun _ u => .moves (moves_require _ _ u) fun _ v => ?_
  refine .moves ((transfers_applyCompletion k _ v).mono fun _ h => h.moves _) fun _ w => ?_
  exact (moves_advance _ _).mono fun _ h => (moves_completeOne k w).trans h

end Sys2Proof.Machine
end

