-- ==== Sys2Proof/Laws/Commands.lean ====
section
/-! SUPPORT. What each command that runs no transfer can do, guards included: it is refused, or it
makes its one update. Later proofs cite these and do not unfold the meanings. -/

namespace Sys2Proof.Machine

variable {s t : State}

/-- A command that was refused: the latch was set, or a violation was raised before any change. -/
def Refused (i : Instr) (s t : State) : Prop :=
  (s.fault = true ∧ t = s) ∨ (s.fault = false ∧ ∃ c, t = contractViolation c i.firstWord s)

theorem require_bind {β : Type} (b : Bool) (c : Cause) (s : State) (f : Unit → State → Run β) :
    (require b c s).bind f = if b = true then f () s else .raised c s := by
  cases b <;> rfl

theorem selectEp_bind {β : Type} (d : Index) (dir : Dir) (n : Index) (s : State)
    (f : EpRef → State → Run β) :
    (selectEp d dir n s).bind f =
      if WellFormed.device s.limits d = true then
        if WellFormed.endpoint n = true then f ⟨d, epId dir n.toNat⟩ s else .raised .epRange s
      else .raised .devAbsent s := by
  unfold selectEp
  cases WellFormed.device s.limits d <;> cases WellFormed.endpoint n <;> rfl

/-! ### Endpoint commands -/

/-- An endpoint setter writes the endpoint it selects (R75 to R80). -/
theorem setEndpoint_cases {i : Instr} {d n : Index} {dir : Dir} {f : Endpoint → Endpoint}
    (h : command i s (setEndpoint d n dir f) = .next t) :
    Refused i s t ∨ (s.fault = false ∧ d.toNat < s.devs.length ∧
      t = s.updEp ⟨d, epId dir n.toNat⟩ f) := by
  rcases command_eq_next h with ⟨hf, rfl⟩ | ⟨hf, hb⟩ | ⟨hf, c, u, hb, rfl⟩
  · exact .inl (.inl ⟨hf, rfl⟩)
  · refine .inr ⟨hf, ?_⟩
    simp only [setEndpoint, selectEp_bind, device_limits] at hb
    repeat' split at hb
    all_goals simp_all
  · refine .inl (.inr ⟨hf, c, ?_⟩)
    simp only [setEndpoint, selectEp_bind] at hb
    repeat' split at hb
    all_goals simp_all

/-- EP_GET writes the result registers (R81). -/
theorem epGet_cases {d n : Index} {dir : Dir} (h : exec (.epGet d n dir) s = .next t) :
    Refused (.epGet d n dir) s t ∨ (s.fault = false ∧
      t = { s with res0 := t.res0, res1 := t.res1, res2 := t.res2, res3 := t.res3 }) := by
  simp only [exec, execEpGet] at h
  rcases command_eq_next h with ⟨hf, rfl⟩ | ⟨hf, hb⟩ | ⟨hf, c, u, hb, rfl⟩
  · exact .inl (.inl ⟨hf, rfl⟩)
  · refine .inr ⟨hf, ?_⟩
    simp only [selectEp_bind] at hb
    repeat' split at hb
    all_goals first | simp_all; done | (cases hb; rfl)
  · refine .inl (.inr ⟨hf, c, ?_⟩)
    simp only [selectEp_bind] at hb
    repeat' split at hb
    all_goals simp_all

/-! ### Packet commands -/

/-- PKT_SETUP writes a slot that is not in flight (R91). -/
theorem pktSetup_cases {k d n : Index} {tk : Token} {so ir : Bool} {st : BitVec 16} {id : Word}
    (h : exec (.pktSetup k d n tk so ir st id) s = .next t) :
    Refused (.pktSetup k d n tk so ir st id) s t ∨ (s.fault = false ∧
      k.toNat < s.pkts.length ∧ d.toNat < s.devs.length ∧ tk ≠ .reserved ∧
      ((s.pkt k).valid = false ∨ (s.pkt k).state.inFlight = false) ∧
      t = s.updPkt k fun _ =>
        { valid := true, id := id, token := tk, dev := d, epDir := tokenDir tk
          epNr := n.extractLsb' 0 4, stream := st, shortOk := so, intReq := ir
          status := .success, actualLength := 0, parameter := 0, combined := noIndex, iov := []
          state := .setup }) := by
  simp only [exec, execPktSetup] at h
  rcases command_eq_next h with ⟨hf, rfl⟩ | ⟨hf, hb⟩ | ⟨hf, c, u, hb, rfl⟩
  · exact .inl (.inl ⟨hf, rfl⟩)
  · refine .inr ⟨hf, ?_⟩
    simp only [pktSetupChecks, checkPacket, checkDevice, require_bind, selectEp_bind,
      packet_limits, device_limits, WellFormed.token] at hb
    repeat' split at hb
    all_goals simp_all
  · refine .inl (.inr ⟨hf, c, ?_⟩)
    simp only [pktSetupChecks, checkPacket, checkDevice, require_bind, selectEp_bind,
      packet_limits, device_limits, WellFormed.token] at hb
    repeat' split at hb
    all_goals simp_all

/-- PKT_IOV_ADD adds a segment that fits (R92). -/
theorem pktIovAdd_cases {k : Index} {addr len : Word} (h : exec (.pktIovAdd k addr len) s = .next t) :
    Refused (.pktIovAdd k addr len) s t ∨ (s.fault = false ∧
      (s.pkt k).valid = true ∧ (s.pkt k).state = .setup ∧ (s.pkt k).iov.length ≠ s.cfg.iovMax ∧
      addr.toNat + len.toNat ≤ s.cfg.hostSize ∧ iovSize (s.pkt k).iov + len.toNat < 2 ^ 32 ∧
      t = s.updPkt k fun P => { P with iov := P.iov ++ [⟨addr, len⟩] }) := by
  simp only [exec, execPktIovAdd] at h
  rcases command_eq_next h with ⟨hf, rfl⟩ | ⟨hf, hb⟩ | ⟨hf, c, u, hb, rfl⟩
  · exact .inl (.inl ⟨hf, rfl⟩)
  · refine .inr ⟨hf, ?_⟩
    simp only [checkHostAddr, checkPacket, checkPrepared, checkValid, checkSegment,
      Run.bind_assoc] at hb
    simp only [require_bind] at hb
    repeat' split at hb
    all_goals simp_all
  · refine .inl (.inr ⟨hf, c, ?_⟩)
    simp only [checkHostAddr, checkPacket, checkPrepared, checkValid, checkSegment,
      Run.bind_assoc] at hb
    simp only [require_bind] at hb
    repeat' split at hb
    all_goals simp_all

/-- PKT_SET_PARAM writes the parameter (R93). -/
theorem pktSetParam_cases {k : Index} {p : BitVec 64} (h : exec (.pktSetParam k p) s = .next t) :
    Refused (.pktSetParam k p) s t ∨ (s.fault = false ∧
      (s.pkt k).valid = true ∧ (s.pkt k).state = .setup ∧
      t = s.updPkt k fun P => { P with parameter := p }) := by
  simp only [exec, execPktSetParam] at h
  rcases command_eq_next h with ⟨hf, rfl⟩ | ⟨hf, hb⟩ | ⟨hf, c, u, hb, rfl⟩
  · exact .inl (.inl ⟨hf, rfl⟩)
  · refine .inr ⟨hf, ?_⟩
    simp only [checkPacket, checkPrepared, checkValid, Run.bind_assoc] at hb
    simp only [require_bind] at hb
    repeat' split at hb
    all_goals simp_all
  · refine .inl (.inr ⟨hf, c, ?_⟩)
    simp only [checkPacket, checkPrepared, checkValid, Run.bind_assoc] at hb
    simp only [require_bind] at hb
    repeat' split at hb
    all_goals simp_all

/-- PKT_READ writes the result registers (R113). -/
theorem pktRead_cases {k : Index} (h : exec (.pktRead k) s = .next t) :
    Refused (.pktRead k) s t ∨ (s.fault = false ∧
      t = { s with res0 := t.res0, res1 := t.res1, res2 := t.res2, res3 := t.res3 }) := by
  simp only [exec, execPktRead] at h
  rcases command_eq_next h with ⟨hf, rfl⟩ | ⟨hf, hb⟩ | ⟨hf, c, u, hb, rfl⟩
  · exact .inl (.inl ⟨hf, rfl⟩)
  · refine .inr ⟨hf, ?_⟩
    simp only [checkPacket, checkValid, require_bind] at hb
    repeat' split at hb
    all_goals first | simp_all; done | (cases hb; rfl)
  · refine .inl (.inr ⟨hf, c, ?_⟩)
    simp only [checkPacket, checkValid, require_bind] at hb
    repeat' split at hb
    all_goals simp_all

/-- CANCEL takes a packet in flight from its queue (R107). -/
theorem cancel_cases {k : Index} (h : exec (.cancel k) s = .next t) :
    Refused (.cancel k) s t ∨ (s.fault = false ∧ k.toNat < s.pkts.length ∧
      (s.pkt k).valid = true ∧ (s.pkt k).state.inFlight = true ∧
      t = cancelHook (s.pkt k).dev k ((s.pkt k).state == .async)
        ((s.setPktState k .canceled).removeQueue (s.pkt k).endpoint k)) := by
  simp only [exec, execCancel] at h
  rcases command_eq_next h with ⟨hf, rfl⟩ | ⟨hf, hb⟩ | ⟨hf, c, u, hb, rfl⟩
  · exact .inl (.inl ⟨hf, rfl⟩)
  · refine .inr ⟨hf, ?_⟩
    simp only [checkPacket, checkValid, require_bind, packet_limits] at hb
    repeat' split at hb
    all_goals simp_all
  · refine .inl (.inr ⟨hf, c, ?_⟩)
    simp only [checkPacket, checkValid, require_bind, packet_limits] at hb
    repeat' split at hb
    all_goals simp_all

/-! ### Port and device commands -/

/-- Every part of a PORT_BIND that is not refused (R150). -/
def bindPort (p d : Index) (s : State) : State :=
  setDevPort d p
    ((setDevPort (s.port p).dev noIndex (leaveOldPort d s)).updPort p fun P => { P with dev := d })

/-- PORT_BIND moves a binding of devices that are not attached (R150). -/
theorem portBind_cases {p d : Index} (h : exec (.portBind p d) s = .next t) :
    Refused (.portBind p d) s t ∨ (s.fault = false ∧ p.toNat < s.ports.length ∧
      (d = noIndex ∨ d.toNat < s.devs.length) ∧ isAttached (s.port p).dev s = false ∧
      isAttached d s = false ∧ t = bindPort p d s) := by
  simp only [exec, execPortBind] at h
  rcases command_eq_next h with ⟨hf, rfl⟩ | ⟨hf, hb⟩ | ⟨hf, c, u, hb, rfl⟩
  · exact .inl (.inl ⟨hf, rfl⟩)
  · refine .inr ⟨hf, ?_⟩
    simp only [checkPort, checkDeviceOrNone, require_bind, port_limits,
      deviceOrNone_limits] at hb
    repeat' split at hb
    all_goals simp_all [bindPort]
  · refine .inl (.inr ⟨hf, c, ?_⟩)
    simp only [checkPort, checkDeviceOrNone, require_bind, port_limits,
      deviceOrNone_limits] at hb
    repeat' split at hb
    all_goals simp_all

/-- ATTACH of the device `d` on port `p` (R151). -/
def attached (p d : Index) (s : State) : State :=
  emitHook d 4 (.attachHook d)
    ((s.emit (.portAttach p d)).updDev d fun D => { D with attached := true, state := .attached })

@[simp] theorem port_attached (p d q : Index) : (attached p d s).port q = s.port q := by
  unfold attached emitHook
  split <;> rfl

/-- DETACH of the device `d` on port `p` (R152). -/
def detached (p d : Index) (s : State) : State :=
  (s.emit (.portDetach p d)).updDev d fun D => { D with attached := false, state := .notAttached }

@[simp] theorem port_detached (p d q : Index) : (detached p d s).port q = s.port q := rfl

/-- ATTACH (R151). -/
theorem attach_cases {p : Index} (h : exec (.attach p) s = .next t) :
    Refused (.attach p) s t ∨ (s.fault = false ∧ p.toNat < s.ports.length ∧
      (s.port p).dev ≠ noIndex ∧ (s.dev (s.port p).dev).attached = false ∧
      t = attached p (s.port p).dev s) := by
  simp only [exec, execAttach] at h
  rcases command_eq_next h with ⟨hf, rfl⟩ | ⟨hf, hb⟩ | ⟨hf, c, u, hb, rfl⟩
  · exact .inl (.inl ⟨hf, rfl⟩)
  · refine .inr ⟨hf, ?_⟩
    simp only [attachPort, checkPort, require_bind, port_limits] at hb
    repeat' split at hb
    all_goals simp_all [attached]
  · refine .inl (.inr ⟨hf, c, ?_⟩)
    simp only [attachPort, checkPort, require_bind, port_limits] at hb
    repeat' split at hb
    all_goals simp_all

/-- DETACH (R152). -/
theorem detach_cases {p : Index} (h : exec (.detach p) s = .next t) :
    Refused (.detach p) s t ∨ (s.fault = false ∧ p.toNat < s.ports.length ∧
      (s.port p).dev ≠ noIndex ∧ (s.dev (s.port p).dev).attached = true ∧
      t = detached p (s.port p).dev s) := by
  simp only [exec, execDetach] at h
  rcases command_eq_next h with ⟨hf, rfl⟩ | ⟨hf, hb⟩ | ⟨hf, c, u, hb, rfl⟩
  · exact .inl (.inl ⟨hf, rfl⟩)
  · refine .inr ⟨hf, ?_⟩
    simp only [detachPort, checkPort, require_bind, port_limits, isAttached] at hb
    repeat' split at hb
    all_goals simp_all [detached]
  · refine .inl (.inr ⟨hf, c, ?_⟩)
    simp only [detachPort, checkPort, require_bind, port_limits, isAttached] at hb
    repeat' split at hb
    all_goals simp_all

/-- DEV_SET_ADDR (R155). -/
theorem devSetAddr_cases {d : Index} {a : BitVec 8} (h : exec (.devSetAddr d a) s = .next t) :
    Refused (.devSetAddr d a) s t ∨ (s.fault = false ∧ d.toNat < s.devs.length ∧
      t = s.updDev d fun D => { D with addr := a }) := by
  simp only [exec, execDevSetAddr] at h
  rcases command_eq_next h with ⟨hf, rfl⟩ | ⟨hf, hb⟩ | ⟨hf, c, u, hb, rfl⟩
  · exact .inl (.inl ⟨hf, rfl⟩)
  · refine .inr ⟨hf, ?_⟩
    simp only [checkDevice, require_bind, device_limits] at hb
    repeat' split at hb
    all_goals simp_all
  · refine .inl (.inr ⟨hf, c, ?_⟩)
    simp only [checkDevice, require_bind, device_limits] at hb
    repeat' split at hb
    all_goals simp_all

/-- DEV_SET_RWAKE (R156). -/
theorem devSetRwake_cases {d : Index} {f : Bool} (h : exec (.devSetRwake d f) s = .next t) :
    Refused (.devSetRwake d f) s t ∨ (s.fault = false ∧ d.toNat < s.devs.length ∧
      t = s.updDev d fun D => { D with remoteWakeup := f }) := by
  simp only [exec, execDevSetRwake] at h
  rcases command_eq_next h with ⟨hf, rfl⟩ | ⟨hf, hb⟩ | ⟨hf, c, u, hb, rfl⟩
  · exact .inl (.inl ⟨hf, rfl⟩)
  · refine .inr ⟨hf, ?_⟩
    simp only [checkDevice, require_bind, device_limits] at hb
    repeat' split at hb
    all_goals simp_all
  · refine .inl (.inr ⟨hf, c, ?_⟩)
    simp only [checkDevice, require_bind, device_limits] at hb
    repeat' split at hb
    all_goals simp_all

/-- An attached device exists. -/
theorem attached_lt {d : Index} (h : (s.dev d).attached = true) : d.toNat < s.devs.length := by
  by_contra hn
  simp [State.dev, List.getD_eq_getElem?_getD, List.getElem?_eq_none (Nat.le_of_not_lt hn),
    Device.reset] at h

/-- RESET_PORT: detach, attach, device reset (R153). -/
theorem resetPort_cases {p : Index} (h : exec (.resetPort p) s = .next t) :
    Refused (.resetPort p) s t ∨ (s.fault = false ∧ p.toNat < s.ports.length ∧
      (s.port p).dev ≠ noIndex ∧ (s.dev (s.port p).dev).attached = true ∧
      t = deviceReset (s.port p).dev
        (attached p (s.port p).dev (detached p (s.port p).dev s))) := by
  simp only [exec, execResetPort] at h
  have key : ∀ d, (s.port p).dev = d → (s.dev d).attached = true → d ≠ noIndex →
      attachPort p ((s.emit (.portDetach p d)).updDev d fun D =>
        { D with attached := false, state := .notAttached }) =
      .ok () (attached p d (detached p d s)) := by
    intro d hp ha hd
    have hl := attached_lt ha
    have hq : ∀ u : State, (u.emit (.portDetach p d)).port p = u.port p := fun _ => rfl
    have hdev : ((s.emit (.portDetach p d)).updDev d fun D =>
        { D with attached := false, state := .notAttached }).dev d =
        { s.dev d with attached := false, state := .notAttached } :=
      State.dev_updDev_self _ d _ hl
    simp [attachPort, require_bind, hq, hp, hd, hdev, attached, detached]
  rcases command_eq_next h with ⟨hf, rfl⟩ | ⟨hf, hb⟩ | ⟨hf, c, u, hb, rfl⟩
  · exact .inl (.inl ⟨hf, rfl⟩)
  · refine .inr ⟨hf, ?_⟩
    simp only [checkPort, detachPort, require_bind, port_limits, isAttached, Bool.and_eq_true,
      bne_iff_ne] at hb
    split at hb
    · split at hb
      · rename_i hp hd
        simp only [Run.bind_ok, key _ rfl hd.2 hd.1, Run.ok.injEq, true_and] at hb
        exact ⟨hp, hd.1, hd.2, by rw [← hb, port_attached, port_detached]⟩
      · simp at hb
    · simp at hb
  · refine .inl (.inr ⟨hf, c, ?_⟩)
    simp only [checkPort, detachPort, require_bind, port_limits, isAttached, Bool.and_eq_true,
      bne_iff_ne] at hb
    split at hb
    · split at hb
      · rename_i hp hd
        simp [Run.bind_ok, key _ rfl hd.2 hd.1] at hb
      · simp_all
    · simp_all

/-- The state in which the resolver of a device has answered (R157). -/
def asked (d : Index) (a : BitVec 8) (s : State) : State := (s.emit (.findHook d a)).dropResp

/-- FIND_DEVICE writes `RES0`, and may ask the device's resolver before it does or raises (R157). -/
theorem findDevice_cases {p : Index} {a : BitVec 8} (h : exec (.findDevice p a) s = .next t) :
    Refused (.findDevice p a) s t ∨ (s.fault = false ∧
      (t = { s with res0 := t.res0 } ∨
        t = { asked (s.port p).dev a s with res0 := t.res0 } ∨
        ∃ c, t = contractViolation c (Instr.findDevice p a).firstWord (asked (s.port p).dev a s))) := by
  simp only [exec, execFindDevice] at h
  rcases command_eq_next h with ⟨hf, rfl⟩ | ⟨hf, hb⟩ | ⟨hf, c, u, hb, rfl⟩
  · exact .inl (.inl ⟨hf, rfl⟩)
  · refine .inr ⟨hf, ?_⟩
    simp only [checkPort, resolver, require_bind] at hb
    repeat' split at hb
    all_goals first | (simp at hb; done) | (cases hb; simp [asked])
  · simp only [checkPort, resolver, require_bind] at hb
    repeat' split at hb
    all_goals first
      | (simp at hb; done)
      | (cases hb; exact .inl (.inr ⟨hf, _, rfl⟩))
      | (cases hb; exact .inr ⟨hf, .inr (.inr ⟨_, rfl⟩)⟩)

/-! ### The commands that run transfers -/

/-- A SUBMIT moves only its packet's endpoint, and may then raise (R94). -/
theorem submit_cases {k d : Index} (h : exec (.submit k d) s = .next t) :
    Refused (.submit k d) s t ∨ (s.fault = false ∧ k.toNat < s.pkts.length ∧
      ((submitPacket k d s = .ok () t ∧ Moves (s.pkt k).endpoint s t) ∨
        ∃ c u, submitPacket k d s = .raised c u ∧ Moves (s.pkt k).endpoint s u ∧
          t = contractViolation c (Instr.submit k d).firstWord u)) := by
  simp only [exec, execSubmit] at h
  have hm := moves_submitPacket k d s
  rcases command_eq_next h with ⟨hf, rfl⟩ | ⟨hf, hb⟩ | ⟨hf, c, u, hb, rfl⟩
  · exact .inl (.inl ⟨hf, rfl⟩)
  · simp only [checkPacket, checkDeviceOrNone, require_bind, packet_limits] at hb
    repeat' split at hb
    all_goals first | (simp at hb) | skip
    rw [hb] at hm
    exact .inr ⟨hf, ‹_›, .inl ⟨hb, hm⟩⟩
  · simp only [checkPacket, checkDeviceOrNone, require_bind, packet_limits] at hb
    repeat' split at hb
    all_goals first | (cases hb; exact .inl (.inr ⟨hf, _, rfl⟩)) | skip
    rw [hb] at hm
    exact .inr ⟨hf, ‹_›, .inr ⟨c, u, hb, hm, rfl⟩⟩

/-- A COMPLETE moves only its packet's endpoint, and may then raise (R108). -/
theorem complete_cases {k : Index} (h : exec (.complete k) s = .next t) :
    Refused (.complete k) s t ∨ (s.fault = false ∧ k.toNat < s.pkts.length ∧
      ((completePacket k s = .ok () t ∧ Moves (s.pkt k).endpoint s t) ∨
        ∃ c u, completePacket k s = .raised c u ∧ Moves (s.pkt k).endpoint s u ∧
          t = contractViolation c (Instr.complete k).firstWord u)) := by
  simp only [exec, execComplete] at h
  have hm := moves_completePacket k s
  rcases command_eq_next h with ⟨hf, rfl⟩ | ⟨hf, hb⟩ | ⟨hf, c, u, hb, rfl⟩
  · exact .inl (.inl ⟨hf, rfl⟩)
  · simp only [checkPacket, require_bind, packet_limits] at hb
    split at hb
    · rw [hb] at hm
      exact .inr ⟨hf, ‹_›, .inl ⟨hb, hm⟩⟩
    · simp at hb
  · simp only [checkPacket, require_bind, packet_limits] at hb
    split at hb
    · rw [hb] at hm
      exact .inr ⟨hf, ‹_›, .inr ⟨c, u, hb, hm, rfl⟩⟩
    · cases hb; exact .inl (.inr ⟨hf, _, rfl⟩)

/-! ### The commands that run no transfer, together -/

/-- What every command but SUBMIT and COMPLETE leaves as it was. -/
structure Quiet (s t : State) : Prop where
  cfg      : t.cfg = s.cfg
  hmem     : t.hmem = s.hmem
  cmds     : t.cmds = s.cmds
  resetIn  : t.resetIn = s.resetIn
  portsLen : t.ports.length = s.ports.length
  devsLen  : t.devs.length = s.devs.length
  pktsLen  : t.pkts.length = s.pkts.length
  trace    : ∃ es, t.trace = s.trace ++ es ∧ ∀ j id f, Event.complete j id f ∉ es
  control  : ∀ d, (t.dev d).setupBuf = (s.dev d).setupBuf ∧ (t.dev d).ctlState = (s.dev d).ctlState ∧
    (t.dev d).dataBuf = (s.dev d).dataBuf ∧ (t.dev d).setupLen = (s.dev d).setupLen ∧
    (t.dev d).setupIndex = (s.dev d).setupIndex

variable {u : State}

theorem Quiet.refl (s : State) : Quiet s s :=
  ⟨rfl, rfl, rfl, rfl, rfl, rfl, rfl, ⟨[], by simp⟩, fun _ => ⟨rfl, rfl, rfl, rfl, rfl⟩⟩

theorem Quiet.trans (h : Quiet s t) (h' : Quiet t u) : Quiet s u where
  cfg := h'.cfg.trans h.cfg
  hmem := h'.hmem.trans h.hmem
  cmds := h'.cmds.trans h.cmds
  resetIn := h'.resetIn.trans h.resetIn
  portsLen := h'.portsLen.trans h.portsLen
  devsLen := h'.devsLen.trans h.devsLen
  pktsLen := h'.pktsLen.trans h.pktsLen
  trace := by
    obtain ⟨es, h1, h2⟩ := h.trace
    obtain ⟨es', h1', h2'⟩ := h'.trace
    exact ⟨es ++ es', by rw [h1', h1, List.append_assoc], by simp_all⟩
  control d := by
    obtain ⟨a, b, c, e, f⟩ := h.control d
    obtain ⟨a', b', c', e', f'⟩ := h'.control d
    exact ⟨a'.trans a, b'.trans b, c'.trans c, e'.trans e, f'.trans f⟩

theorem quiet_updPkt (s : State) (k : Index) (f : Packet → Packet) : Quiet s (s.updPkt k f) :=
  ⟨rfl, rfl, rfl, rfl, rfl, rfl, by simp, ⟨[], by simp⟩, fun _ => ⟨rfl, rfl, rfl, rfl, rfl⟩⟩

theorem quiet_updPort (s : State) (p : Index) (f : Port → Port) : Quiet s (s.updPort p f) :=
  ⟨rfl, rfl, rfl, rfl, by simp, rfl, rfl, ⟨[], by simp⟩, fun _ => ⟨rfl, rfl, rfl, rfl, rfl⟩⟩

theorem quiet_updDev (s : State) (d : Index) (f : Device → Device)
    (hf : ∀ D, (f D).setupBuf = D.setupBuf ∧ (f D).ctlState = D.ctlState ∧
      (f D).dataBuf = D.dataBuf ∧ (f D).setupLen = D.setupLen ∧ (f D).setupIndex = D.setupIndex) :
    Quiet s (s.updDev d f) := by
  refine ⟨rfl, rfl, rfl, rfl, rfl, by simp, rfl, ⟨[], by simp⟩, fun j => ?_⟩
  simp only [State.dev_updDev]
  split
  · exact hf _
  · exact ⟨rfl, rfl, rfl, rfl, rfl⟩

theorem quiet_updEp (s : State) (r : EpRef) (f : Endpoint → Endpoint) : Quiet s (s.updEp r f) :=
  quiet_updDev s _ _ fun D => by cases r.ep <;> exact ⟨rfl, rfl, rfl, rfl, rfl⟩

theorem quiet_emit (s : State) (e : Event) (he : ∀ j id f, e ≠ .complete j id f) :
    Quiet s (s.emit e) :=
  ⟨rfl, rfl, rfl, rfl, rfl, rfl, rfl,
    ⟨[e], rfl, fun j id f hm => he j id f (List.mem_singleton.mp hm).symm⟩,
    fun _ => ⟨rfl, rfl, rfl, rfl, rfl⟩⟩

theorem quiet_emitHook (s : State) (d : Index) (b : Nat) (e : Event)
    (he : ∀ j id f, e ≠ .complete j id f) : Quiet s (emitHook d b e s) := by
  unfold emitHook
  split
  · exact quiet_emit s e he
  · exact .refl s

theorem quiet_dropResp (s : State) : Quiet s s.dropResp :=
  ⟨by simp, by simp, by simp, by simp, by simp, by simp, by simp, ⟨[], by simp⟩, fun d => by simp⟩

theorem quiet_results (s : State) (a b c d : Word) :
    Quiet s { s with res0 := a, res1 := b, res2 := c, res3 := d } :=
  ⟨rfl, rfl, rfl, rfl, rfl, rfl, rfl, ⟨[], by simp⟩, fun _ => ⟨rfl, rfl, rfl, rfl, rfl⟩⟩

theorem quiet_contractViolation (c : Cause) (w : Word) (s : State) :
    Quiet s (contractViolation c w s) := by
  unfold contractViolation
  split <;>
    exact ⟨rfl, rfl, rfl, rfl, rfl, rfl, rfl, ⟨[], by simp⟩, fun _ => ⟨rfl, rfl, rfl, rfl, rfl⟩⟩

theorem Refused.quiet {i : Instr} (h : Refused i s t) : Quiet s t := by
  rcases h with ⟨-, rfl⟩ | ⟨-, c, rfl⟩
  · exact .refl _
  · exact quiet_contractViolation c _ s

theorem quiet_setDevPort (d p : Index) (s : State) : Quiet s (setDevPort d p s) := by
  unfold setDevPort
  split
  · exact quiet_updDev s d _ fun _ => ⟨rfl, rfl, rfl, rfl, rfl⟩
  · exact .refl s

theorem quiet_leaveOldPort (d : Index) (s : State) : Quiet s (leaveOldPort d s) := by
  unfold leaveOldPort
  split
  · exact quiet_updPort s _ _
  · exact .refl s

theorem quiet_attached (p d : Index) (s : State) : Quiet s (attached p d s) :=
  (quiet_emit s (.portAttach p d) (by simp)).trans
    ((quiet_updDev _ d (fun D => { D with attached := true, state := .attached })
        fun _ => ⟨rfl, rfl, rfl, rfl, rfl⟩).trans
      (quiet_emitHook _ d 4 (.attachHook d) (by simp)))

theorem quiet_deviceReset (d : Index) (s : State) : Quiet s (deviceReset d s) :=
  (quiet_updDev s d (fun D => { D with remoteWakeup := false, addr := 0, state := .default })
      fun _ => ⟨rfl, rfl, rfl, rfl, rfl⟩).trans
    (quiet_emitHook _ d 5 (.resetHook d) (by simp))

theorem quiet_detached (p d : Index) (s : State) : Quiet s (detached p d s) :=
  (quiet_emit s (.portDetach p d) (by simp)).trans
    (quiet_updDev _ d _ fun _ => ⟨rfl, rfl, rfl, rfl, rfl⟩)

theorem quiet_asked (d : Index) (a : BitVec 8) (s : State) : Quiet s (asked d a s) :=
  (quiet_emit s (.findHook d a) (by simp)).trans (quiet_dropResp _)

/-- A command that runs no transfer leaves host memory, the control sequencer and the sizes as they
were, and reports no completion. -/
theorem exec_quiet {i : Instr} (h : exec i s = .next t) (hs : ∀ k d, i ≠ .submit k d)
    (hc : ∀ k, i ≠ .complete k) : Quiet s t := by
  cases i with
  | epSetType | epSetIfnum | epSetMps | epSetPipe | epSetHalt =>
    rcases setEndpoint_cases h with hr | ⟨-, -, rfl⟩
    · exact hr.quiet
    · exact quiet_updEp s _ _
  | epGet =>
    rcases epGet_cases h with hr | ⟨-, hr⟩
    · exact hr.quiet
    · rw [hr]; exact quiet_results s _ _ _ _
  | pktSetup =>
    rcases pktSetup_cases h with hr | ⟨-, -, -, -, -, rfl⟩
    · exact hr.quiet
    · exact quiet_updPkt s _ _
  | pktIovAdd =>
    rcases pktIovAdd_cases h with hr | ⟨-, -, -, -, -, -, rfl⟩
    · exact hr.quiet
    · exact quiet_updPkt s _ _
  | pktSetParam =>
    rcases pktSetParam_cases h with hr | ⟨-, -, -, rfl⟩
    · exact hr.quiet
    · exact quiet_updPkt s _ _
  | submit k d => exact absurd rfl (hs k d)
  | cancel k =>
    rcases cancel_cases h with hr | ⟨-, -, -, -, rfl⟩
    · exact hr.quiet
    · have h1 : Quiet s (s.setPktState k .canceled) := quiet_updPkt s k _
      have h2 := quiet_updEp (s.setPktState k .canceled) (s.pkt k).endpoint
        fun e => { e with queue := e.queue.filter (· != k) }
      refine h1.trans (h2.trans ?_)
      unfold cancelHook
      split
      · exact quiet_emit _ (.cancelHook _ k) (by simp)
      · exact .refl _
  | complete k => exact absurd rfl (hc k)
  | pktRead =>
    rcases pktRead_cases h with hr | ⟨-, hr⟩
    · exact hr.quiet
    · rw [hr]; exact quiet_results s _ _ _ _
  | portBind =>
    rcases portBind_cases h with hr | ⟨-, -, -, -, -, rfl⟩
    · exact hr.quiet
    · exact (quiet_leaveOldPort _ s).trans ((quiet_setDevPort _ _ _).trans
        ((quiet_updPort _ _ _).trans (quiet_setDevPort _ _ _)))
  | attach =>
    rcases attach_cases h with hr | ⟨-, -, -, -, rfl⟩
    · exact hr.quiet
    · exact quiet_attached _ _ s
  | detach =>
    rcases detach_cases h with hr | ⟨-, -, -, -, rfl⟩
    · exact hr.quiet
    · exact quiet_detached _ _ s
  | resetPort =>
    rcases resetPort_cases h with hr | ⟨-, -, -, -, rfl⟩
    · exact hr.quiet
    · exact (quiet_detached _ _ s).trans ((quiet_attached _ _ _).trans (quiet_deviceReset _ _))
  | findDevice p a =>
    rcases findDevice_cases h with hr | ⟨-, hr | hr | ⟨c, rfl⟩⟩
    · exact hr.quiet
    · rw [hr]; exact quiet_results s _ _ _ _
    · rw [hr]; exact (quiet_asked _ a s).trans (quiet_results _ _ _ _ _)
    · exact (quiet_asked _ a s).trans (quiet_contractViolation c _ _)
  | devSetAddr =>
    rcases devSetAddr_cases h with hr | ⟨-, -, rfl⟩
    · exact hr.quiet
    · exact quiet_updDev s _ _ fun _ => ⟨rfl, rfl, rfl, rfl, rfl⟩
  | devSetRwake =>
    rcases devSetRwake_cases h with hr | ⟨-, -, rfl⟩
    · exact hr.quiet
    · exact quiet_updDev s _ _ fun _ => ⟨rfl, rfl, rfl, rfl, rfl⟩

/-! ### A step -/

/-- Everything a step that answers a next state can be. -/
theorem step_cases (h : step s = .next t) :
    (s.resetIn = true ∧ t = s.hardwareReset) ∨
    (s.resetIn = false ∧ decode s.cmds = .waiting ∧ t = s) ∨
    (s.resetIn = false ∧ ∃ r w rest, decode s.cmds = .rejected r w rest ∧
      t = rejectCommand r w { s with cmds := rest }) ∨
    (s.resetIn = false ∧ ∃ i rest, decode s.cmds = .command i rest ∧
      exec i { s with cmds := rest } = .next t) := by
  unfold step at h
  split at h
  · cases h; exact .inl ⟨‹_›, rfl⟩
  · rename_i hr
    simp only [Bool.not_eq_true] at hr
    split at h
    · cases h; exact .inr (.inl ⟨hr, ‹_›, rfl⟩)
    · cases h; exact .inr (.inr (.inl ⟨hr, _, _, _, ‹_›, rfl⟩))
    · exact .inr (.inr (.inr ⟨hr, _, _, ‹_›, h⟩))

/-- A refused command only sets the latch, and only if it was clear (R62, R171). -/
theorem rejectCommand_cases (r : Reject) (w : Word) (s : State) :
    rejectCommand r w s = s ∨
      (s.fault = false ∧ ∃ c, rejectCommand r w s = contractViolation c w s) := by
  unfold rejectCommand
  split
  · exact .inl rfl
  · exact .inr ⟨by simpa using ‹¬ s.fault = true›, _, rfl⟩

end Sys2Proof.Machine
end

