-- ==== Sys2Proof/Laws/Devices.lean ====
section
/-! SUPPORT. The control fields of a device stay as the rules keep them (spec
42_control_transfer.md R140, R141): that every part of the sequencer, SUBMIT and COMPLETE keep it so. -/

namespace Sys2Proof.Machine

variable {d k : Index} {s t u : State}

/-- A device is as the rules keep it. -/
def Dok (d : Index) (s : State) : Prop := DeviceOk s.cfg (s.dev d)

theorem Dok.congr (h : Dok d s) (hc : t.cfg = s.cfg) (hd : t.dev d = s.dev d) : Dok d t := by
  unfold Dok; rw [hc, hd]; exact h

/-- An update of the device. -/
theorem Dok.updDev {f : Device → Device} (h : Dok d s) (hf : DeviceOk s.cfg (s.dev d) →
    DeviceOk s.cfg (f (s.dev d))) : Dok d (s.updDev d f) := by
  unfold Dok
  simp only [State.updDev_cfg, State.dev_updDev]
  split
  · exact hf h
  · exact h

/-- Control state Idle. -/
theorem Dok.idle (h : Dok d s) : Dok d (s.setCtl d .idle) :=
  h.updDev fun h => ⟨h.buffer, h.bound, h.cursor, by simp, by simp, h.attached, h.lifecycle⟩

theorem Dok.ctl (h : Dok d s) {c} (hc : (s.dev d).ctlState ≠ .idle) (hs : c ≠ .setup ∧ c ≠ .param)
    : Dok d (s.setCtl d c) :=
  h.updDev fun h => ⟨h.buffer, h.bound, h.cursor, fun _ => h.length hc, by simp [hs], h.attached,
      h.lifecycle⟩

theorem Dok.buffer' (h : Dok d s) (off) (bs : List Byte) (hb :
    off + bs.length ≤ s.cfg.ctrlBufSize) :
    Dok d (s.updDev d fun D => { D with dataBuf := D.dataBuf.writeList off bs }) :=
  h.updDev fun h => ⟨Memory.wf_writeList _ _ h.buffer, Memory.below_writeList _ h.bound hb,
      h.cursor, h.length, h.start, h.attached, h.lifecycle⟩

/-- The control fields other than the data buffer are as they were. -/
structure Keeps (d : Index) (s t : State) : Prop where
  cfg : t.cfg = s.cfg
  ctl : (t.dev d).ctlState = (s.dev d).ctlState
  len : (t.dev d).setupLen = (s.dev d).setupLen
  idx : (t.dev d).setupIndex = (s.dev d).setupIndex
  buf : (t.dev d).setupBuf = (s.dev d).setupBuf
  devs : t.devs.length = s.devs.length

theorem keeps_updDev {f : Device → Device} (hf : ∀ D, (f D).ctlState = D.ctlState ∧
    (f D).setupLen = D.setupLen ∧ (f D).setupIndex = D.setupIndex ∧ (f D).setupBuf = D.setupBuf) :
    Keeps d s (s.updDev d f) := by
  have e : ∀ {α : Type} (g : Device → α), (∀ D, g (f D) = g D) →
      g ((s.updDev d f).dev d) = g (s.dev d) := fun g hg => by
    simp only [State.dev_updDev]
    split
    · exact hg _
    · rfl
  exact ⟨rfl, e (·.ctlState) fun D => (hf D).1, e (·.setupLen) fun D => (hf D).2.1,
    e (·.setupIndex) fun D => (hf D).2.2.1, e (·.setupBuf) fun D => (hf D).2.2.2, by simp⟩

/-- Applying a control response (R100). -/
theorem dok_applyCtlResp (h : Dok d s) (r : Resp) : (applyCtlResp d k r s).All fun t => Dok d t ∧
    Keeps d s t := by
  unfold applyCtlResp
  split
  · exact ⟨h, rfl, rfl, rfl, rfl, rfl, rfl⟩
  split
  · rename_i hr
    have := h.buffer' 0 r.data (by omega)
    have hk := keeps_updDev (d := d) (s := s) (f := fun D => { D with dataBuf := D.dataBuf.writeList 0 r.data }) fun _ => ⟨rfl, rfl, rfl, rfl⟩
    exact ⟨this.congr rfl rfl, hk.cfg, hk.ctl, hk.len, hk.idx, hk.buf, hk.devs⟩
  · exact ⟨h, rfl, rfl, rfl, rfl, rfl, rfl⟩

/-- The control handler (R140). -/
theorem dok_controlHandler (h : Dok d s) : (controlHandler d k s).All fun t => Dok d t ∧
    Keeps d s t := by
  unfold controlHandler
  split
  · refine (dok_applyCtlResp (s := (s.emit (controlEvent d k s)).dropResp) (h.congr (by simp)
      (by simp)) _).mono fun t ht => ⟨ht.1, ?_⟩
    obtain ⟨a, b, c, e, f, g⟩ := ht.2
    exact ⟨by simpa using a, by simpa using b, by simpa using c, by simpa using e,
        by simpa using f, by simpa using g⟩
  · exact dok_applyCtlResp h _

/-- A copy that stays within the buffer (R131, R136). -/
theorem dok_copyDataBuf (h : Dok d s) (off n : Nat) (hb :
    (s.pkt k).token = .inn ∨ off + n ≤ s.cfg.ctrlBufSize) :
    (copyDataBuf d k off n s).All fun t => Dok d t ∧ Keeps d s t := by
  unfold copyDataBuf
  rcases packetCopy_cases k ((s.dev d).dataBuf.readList off n) n s with ⟨-, e⟩ | ⟨-, ⟨-, m, -,
      e⟩ | ⟨ht, bs, hr, e⟩ | e⟩ <;> rw [e]
  · exact ⟨h, rfl, rfl, rfl, rfl, rfl, rfl⟩
  · have h1 : Dok d (moveActual k n { s with hmem := m }) := h.congr rfl rfl
    have hk := keeps_updDev (d := d) (s := moveActual k n { s with hmem := m }) (f :=
        fun D => { D with dataBuf := D.dataBuf.writeList off [] }) fun _ => ⟨rfl, rfl, rfl, rfl⟩
    refine ⟨h1.updDev fun h => h, hk.cfg, hk.ctl, hk.len, hk.idx, hk.buf, hk.devs⟩
  · have h1 : Dok d (moveActual k n s) := h.congr rfl rfl
    have hk := keeps_updDev (d := d) (s := moveActual k n s) (f := fun D => { D with dataBuf := D.dataBuf.writeList off bs }) fun _ => ⟨rfl, rfl, rfl, rfl⟩
    have hl := (vectorRead_eq_some hr).1
    refine ⟨h1.buffer' off bs ?_, hk.cfg, hk.ctl, hk.len, hk.idx, hk.buf, hk.devs⟩
    rw [hl]; exact hb.resolve_left ht
  · trivial

/-- A shortened length (R128). -/
theorem Dok.shorten (h : Dok d s) (n : Nat) (hi : (s.dev d).setupIndex = 0) :
    Dok d (shortenSetup d n s) := by
  unfold shortenSetup
  split
  · rename_i hn
    have hlt := (s.dev d).setupLen.isLt
    refine h.updDev fun h => ⟨h.buffer, h.bound, by simp [hi], fun hc => ?_, h.start, h.attached,
        h.lifecycle⟩
    have := h.length hc
    show (BitVec.ofNat 16 n).toNat ≤ _
    rw [BitVec.toNat_ofNat, Nat.mod_eq_of_lt (by omega)]; omega
  · exact h

theorem shorten_ctl (n) : ((shortenSetup d n s).dev d).ctlState = (s.dev d).ctlState := by
  unfold shortenSetup; split
  · simp only [State.dev_updDev]; split <;> rfl
  · rfl

theorem dok_paramFinish (h : Dok d s) (n : Nat) (hi : (s.dev d).setupIndex = 0) :
    (paramFinish d k n s).All (Dok d) := by
  unfold paramFinish
  dsimp only
  have h1 := h.shorten n hi
  split
  · rename_i ht
    refine (dok_copyDataBuf (s := (shortenSetup d n s).setActual k 0)
        (h1.congr rfl rfl) _ _ (.inl ?_)).mono fun _ h => h.1
    simp only [State.setActual, State.pkt_updPkt]; split <;> exact ht
  · exact h1

theorem Dok.stall (h : Dok d s) : Dok d (stallToIdle d k s) := Dok.idle (s :=
    s.setStatus k .stall) (h.congr rfl rfl)

/-- A request that is begun and stalled at once, whatever its length (R123). -/
theorem dok_begin_idle (h : Dok d s) (b c) : Dok d (stallToIdle d k (beginRequest d b c s)) := by
  have h : DeviceOk s.cfg (s.dev d) := h
  have e : (stallToIdle d k (beginRequest d b c s)).dev d = if d.toNat < s.devs.length then {
      s.dev d with setupBuf := b, ctlState := .idle, setupLen := b.length, setupIndex :=
      0 } else s.dev d := by
    by_cases hd : d.toNat < s.devs.length <;> simp [stallToIdle, beginRequest, State.setCtl,
        State.setStatus, State.dev_updDev, hd]
  unfold Dok
  rw [e]
  split
  · exact ⟨h.buffer, h.bound, by simp, by simp, by simp, h.attached, h.lifecycle⟩
  · exact h

/-- A request of a length that fits is begun (R122, R125). -/
theorem dok_begin (h : Dok d s) (b : SetupBuf) (c) (hb : b.length.toNat ≤ s.cfg.ctrlBufSize) :
    Dok d (beginRequest d b c s) ∧ ((beginRequest d b c s).dev d).setupIndex = 0 ∧
     ((beginRequest d b c s).dev d).setupLen.toNat ≤ s.cfg.ctrlBufSize ∧
         (d.toNat < s.devs.length → ((beginRequest d b c s).dev d).ctlState = c) := by
  refine ⟨h.updDev fun h => ⟨h.buffer, h.bound, by simp, fun _ => hb, by simp, h.attached,
      h.lifecycle⟩, ?_, ?_, ?_⟩
  · unfold beginRequest; simp only [State.dev_updDev]; split
    · rfl
    · rename_i hn; simp at hn; simp [State.dev, List.getD_eq_getElem?_getD,
        List.getElem?_eq_none hn, Device.reset]
  · unfold beginRequest; simp only [State.dev_updDev]; split
    · exact hb
    · rename_i hn; simp at hn; simp [State.dev, List.getD_eq_getElem?_getD,
        List.getElem?_eq_none hn, Device.reset]
  · intro hl; unfold beginRequest; simp only [State.dev_updDev, hl]; simp

/-- The Param path (R122, R123). -/
theorem dok_paramPath (h : Dok d s) : (paramPath d k s).All (Dok d) := by
  unfold paramPath
  dsimp only
  split
  · exact dok_begin_idle h _ _
  · rename_i hb
    obtain ⟨h1, h2, h3, -⟩ :=
        dok_begin h (.ofParameter (s.pkt k).parameter) .param (by simpa [beginRequest] using hb)
    generalize hu : beginRequest d (.ofParameter (s.pkt k).parameter) .param s = u at *
    have hc : u.cfg = s.cfg := by rw [← hu]; rfl
    have hp : (paramPayload d k u).All fun t => Dok d t ∧ Keeps d u t := by
      unfold paramPayload
      split
      · refine (dok_copyDataBuf (s := u.setActual k 0)
          (h1.congr rfl rfl) _ _ (.inr ?_)).mono fun t ht => ⟨ht.1, ht.2.cfg, ht.2.ctl, ht.2.len,
          ht.2.idx, ht.2.buf, ht.2.devs⟩
        unfold paramLength
        rw [show (u.setActual k 0).cfg = s.cfg from hc]
        omega
      · exact ⟨h1, rfl, rfl, rfl, rfl, rfl, rfl⟩
    refine hp.bind (fun _ h => h.1) fun _ v _ hv => ?_
    refine (dok_controlHandler hv.1).bind (fun _ h => h.1) fun n w _ hw => ?_
    split
    · exact dok_paramFinish hw.1 n (by rw [hw.2.idx, hv.2.idx, h2])
    · exact hw.1

theorem reset_dev (hn : ¬ d.toNat < s.devs.length) : s.dev d = Device.reset := by
  simp at hn
  simp [State.dev, List.getD_eq_getElem?_getD, List.getElem?_eq_none hn]

/-- The reset value of a device. -/
theorem dok_reset (c) : DeviceOk c Device.reset := by
  constructor <;> simp [Device.reset, Memory.wf, Memory.wfFrom, Memory.below]

/-- An index that names no device. -/
theorem dok_out (hn : ¬ d.toNat < t.devs.length) : Dok d t := by
  unfold Dok; rw [reset_dev hn]; exact dok_reset _

/-- A SETUP token (R123 to R127). -/
theorem dok_tokenSetup (h : Dok d s) : (tokenSetup d k s).All (Dok d) := by
  unfold tokenSetup
  dsimp only
  split
  · exact h.stall
  · rcases packetCopy_cases k [] 8 (s.setActual k 0) with ⟨-, e⟩ | ⟨-, ⟨-, m, -, e⟩ | ⟨ht, bs, hr,
      e⟩ | e⟩ <;> rw [e]
    · exact h.congr (by simp [State.setActual]) (by simp [State.setActual])
    rotate_right
    · exact Run.all_stopped _ _
    all_goals
      simp only [Run.bind_ok]
      generalize hv : State.setActual (moveActual k 8 _) k 0 = v
      have hv' : Dok d v := by
        rw [← hv]
        exact h.congr (by simp [State.setActual, moveActual])
          (by simp [State.setActual, moveActual]; try rfl)
      clear hv
      split
      · exact dok_begin_idle hv' _ _
      rename_i hb
      obtain ⟨h1, h2, h3, h4⟩ := dok_begin hv' _ .setup (by simpa [beginRequest] using hb)
      have hlen : ∀ b c, (beginRequest d b c v).devs.length = v.devs.length :=
          by intros; simp [beginRequest]
      split
      · unfold setupTokenIn
        refine (dok_controlHandler h1).bind (fun _ h => h.1) fun n w _ hw => ?_
        split
        · exact hw.1
        · by_cases hd : d.toNat < v.devs.length
          · refine (Dok.ctl (hw.1.shorten n (by rw [hw.2.idx, h2])) ?_ (by simp)).congr rfl rfl
            rw [shorten_ctl, hw.2.ctl, h4 hd]; simp
          · refine dok_out ?_
            simp [State.setActual, State.setCtl, shortenSetup]
            have h5 := hw.2.devs
            rw [hlen] at h5
            split <;> simp <;> omega
        all_goals exact hw.1.idle
      · unfold setupTokenOut
        by_cases hd : d.toNat < v.devs.length
        · refine (Dok.ctl h1 (by rw [h4 hd]; simp) ?_).congr rfl rfl
          split <;> simp
        · refine dok_out ?_
          simp [State.setActual, State.setCtl, hlen]; omega

/-- A Data-phase token (R131, R136). -/
theorem dok_dataChunk (h : Dok d s) (hc : (s.dev d).ctlState = .data) :
    (dataChunk d k s).All (Dok d) := by
  unfold dataChunk
  dsimp only
  have h' : DeviceOk s.cfg (s.dev d) := h
  have hlen : chunkLength d k s ≤ (s.dev d).setupLen.toNat - (s.dev d).setupIndex.toNat :=
      by unfold chunkLength; dsimp only; omega
  have hl := h'.length (by rw [hc]; simp)
  have hcur := h'.cursor
  have hlt := (s.dev d).setupLen.isLt
  refine (dok_copyDataBuf h _ _ (.inr (by omega))).bind (fun _ h => h.1) fun _ u _ hu => ?_
  refine hu.1.updDev fun h => ?_
  refine ⟨h.buffer, h.bound, ?_, fun _ => h.length (by rw [hu.2.ctl, hc]; simp), ?_, h.attached,
      h.lifecycle⟩
  · show (BitVec.ofNat 16 _).toNat ≤ (u.dev d).setupLen.toNat
    rw [hu.2.len, BitVec.toNat_ofNat, Nat.mod_eq_of_lt (by omega)]; omega
  · dsimp only
    rw [hu.2.ctl, hc]
    split <;> simp

/-- Every control dispatch (R120). -/
theorem dok_controlDispatch (h : Dok d s) : (controlDispatch d k s).All (Dok d) := by
  have hst : (statusPhaseIn d k s).All (Dok d) := by
    unfold statusPhaseIn
    split
    · exact h
    · refine (dok_controlHandler h).bind (fun _ h => h.1) fun n u _ hu => ?_
      split
      · exact hu.1
      · exact hu.1.idle.congr rfl rfl
  have hin : (tokenIn d k s).All (Dok d) := by
    unfold tokenIn
    split
    · exact hst
    · split
      · exact dok_dataChunk h ‹_›
      · exact h.stall
    all_goals exact h.stall
  have hout : (tokenOut d k s).All (Dok d) := by
    unfold tokenOut
    split
    · split
      · exact h.idle
      · exact h
    · split
      · exact h.stall
      · exact dok_dataChunk h ‹_›
    all_goals exact h.stall
  unfold controlDispatch
  split
  · exact dok_paramPath h
  split
  · exact dok_tokenSetup h
  · exact hin
  all_goals exact hout

theorem dok_applyDataResp (h : Dok d s) (r b) : (applyDataResp d k r b s).All (Dok d) := by
  have hp : ∀ (buf n), (packetCopy k buf n s).All (Dok d) := fun buf n => by
    rcases packetCopy_cases k buf n s with ⟨-, e⟩ | ⟨-, ⟨-, m, -, e⟩ | ⟨ht, bs, hr,
        e⟩ | e⟩ <;> rw [e]
    · exact h
    · exact h.congr rfl rfl
    · exact h.congr rfl rfl
    · exact Run.all_stopped _ _
  unfold applyDataResp
  split
  · exact h
  split
  · rw [require_bind]; split
    · exact (hp _ _).bind (fun _ h => h) fun _ _ _ h => h.congr rfl rfl
    · exact h
  · rw [require_bind]; split
    · refine (hp _ _).bind (fun _ h => h) fun _ _ _ h => ?_
      split <;> exact h.congr rfl rfl
    · exact h

/-- The control tail of a COMPLETE (R138). -/
theorem dok_ctlAsyncDone (h : Dok d s) (r) : (ctlAsyncDone d k r s).All (Dok d) := by
  unfold ctlAsyncDone
  refine (dok_applyCtlResp h r).bind (fun _ h => h.1) fun n u _ hu => ?_
  have hi : (u.dev d).ctlState = .setup ∨ (u.dev d).ctlState = .param →
      (u.dev d).setupIndex = 0 :=
      fun e => DeviceOk.start (show DeviceOk u.cfg (u.dev d) from hu.1) e
  split
  · exact hu.1
  split
  · rename_i hc
    split
    · refine (Dok.ctl (hu.1.shorten n (hi (.inl hc))) ?_ (by simp)).congr rfl rfl
      rw [shorten_ctl, hc]; simp
    · exact hu.1.idle
  · exact hu.1.idle.congr rfl rfl
  · rename_i hc
    split
    · exact dok_paramFinish hu.1 n (hi (.inr hc))
    · exact hu.1
  all_goals exact hu.1

/-- A dispatch (R101). -/
theorem dok_dispatch (h : Dok (s.pkt k).dev s) : (dispatch k s).All (Dok (s.pkt k).dev) := by
  unfold dispatch
  dsimp only
  have h1 : Dok (s.pkt k).dev (s.setStatus k .success) := h.congr rfl rfl
  split
  · exact dok_controlDispatch h1
  · unfold dataHandler
    split
    · exact dok_applyDataResp (h1.congr (by simp) (by simp)) _ _
    · exact dok_applyDataResp h1 _ _

theorem dok_applyCompletion (h : Dok (s.pkt k).dev s) (r) :
    (applyCompletion k r s).All (Dok (s.pkt k).dev) := by
  unfold applyCompletion
  dsimp only
  split
  · exact dok_ctlAsyncDone h r
  · exact dok_applyDataResp h r true

theorem devicesOk_transfers (h : DevicesOk s) (hT : Transfers d k s t) (hd : Dok d t) :
    DevicesOk t := by
  intro j
  by_cases e : j = d
  · rw [e]; exact hd
  · rw [hT.cfg, hT.devOther j e]; exact h j

/-- The invariant of the devices does not look at the endpoints. -/
theorem devicesOk_congr (h : DevicesOk s) (hc : t.cfg = s.cfg)
   (hd : ∀ j, t.dev j = { s.dev j with epCtl := (t.dev j).epCtl, epIn := (t.dev j).epIn, epOut :=
       (t.dev j).epOut }) : DevicesOk t := by
  intro j
  rw [hc, hd]
  exact ⟨(h j).buffer, (h j).bound, (h j).cursor, (h j).length, (h j).start, (h j).attached,
      (h j).lifecycle⟩

theorem devicesOk_updEp (h : DevicesOk s) (r f) : DevicesOk (s.updEp r f) := by
  refine devicesOk_congr h rfl fun j => ?_
  simp only [State.updEp, State.dev_updDev]
  split
  · cases r.ep <;> rfl
  · rfl

theorem devicesOk_pkts (h : DevicesOk s) (hc : t.cfg = s.cfg) (hd : t.devs = s.devs) :
    DevicesOk t :=
  fun j => by rw [hc, show t.dev j = s.dev j by simp only [State.dev, hd]]; exact h j

theorem devices_dispatch (h : DevicesOk s) (k) : (dispatch k s).All DevicesOk := by
  have h1 := dok_dispatch (k := k) (h (s.pkt k).dev)
  have h2 := transfers_dispatch k s
  cases hx : dispatch k s with
  | ok a t => rw [hx] at h1 h2; exact devicesOk_transfers h h2 h1
  | raised a t => rw [hx] at h1 h2; exact devicesOk_transfers h h2 h1
  | stopped => trivial

theorem devices_completion (h : DevicesOk s) (k r) : (applyCompletion k r s).All DevicesOk := by
  have h1 := dok_applyCompletion (k := k) (h (s.pkt k).dev) r
  have h2 := transfers_applyCompletion k r s
  cases hx : applyCompletion k r s with
  | ok a t => rw [hx] at h1 h2; exact devicesOk_transfers h h2 h1
  | raised a t => rw [hx] at h1 h2; exact devicesOk_transfers h h2 h1
  | stopped => trivial

/-- COMPLETE (R108). -/
theorem devices_completeOne (h : DevicesOk s) (k r) : DevicesOk (completeOne k r s) :=
  devicesOk_pkts (devicesOk_updEp (devicesOk_pkts (t :=
      s.setPktState k .complete) h rfl rfl) r _) rfl rfl

/-- The queue advance (R110). -/
theorem devices_advance (h : DevicesOk s) (r fuel) : (advance r fuel s).All DevicesOk :=
  advance_all (I := DevicesOk) (J :=
      fun _ => DevicesOk) r (fun h _ _ hu _ _ => devices_dispatch hu h) (fun _ _ h => h)
    (fun _ _ h _ => devicesOk_pkts h rfl rfl) (fun _ _ h _ => devices_completeOne h _ _) fuel s h

/-- SUBMIT (R94). -/
theorem devices_submit (h : DevicesOk s) (k d) : (submitPacket k d s).All DevicesOk := by
  have hqo : ∀ u, DevicesOk u → ∀ r, DevicesOk (queueOne k r u) := fun u hu r =>
    devicesOk_updEp (devicesOk_pkts (t :=
        (u.setPktState k .queued).setStatus k .async) hu rfl rfl) r _
  simp only [submitPacket, checkValid]
  simp only [require_bind]
  repeat' split
  all_goals try exact h
  · unfold submitAccepted
    have hc : (clearHalt (s.pkt k).endpoint s).All DevicesOk := by
      unfold clearHalt
      split
      · rw [require_bind]; split
        · exact devicesOk_updEp h _ _
        · exact h
      · exact h
    refine hc.bind (fun _ h => h) fun _ u _ hu => ?_
    split
    · split
      · exact hu
      · exact hqo u hu _
    · refine (devices_dispatch hu k).bind (fun _ h => h) fun _ v _ hv => ?_
      unfold afterDispatch
      split
      · refine (checkAsync_all hv).bind (fun _ h => h) fun _ w _ hw => ?_
        exact devicesOk_updEp (devicesOk_pkts (t := w.setPktState k .async) hw rfl rfl) _ _
      · exact hqo v hv _
      · exact hv
      all_goals exact devicesOk_pkts hv rfl rfl

theorem devices_complete (h : DevicesOk s) (k) : (completePacket k s).All DevicesOk := by
  simp only [completePacket, checkValid]
  simp only [require_bind]
  have h0 : DevicesOk s.dropResp := devicesOk_pkts h (by simp) (by simp)
  repeat' split
  all_goals try first | exact h | exact h0
  refine (devices_completion h0 k _).bind (fun _ h => h) fun _ u _ hu => ?_
  exact devices_advance (devices_completeOne hu _ _) _ _

end Sys2Proof.Machine
end

