-- ==== Sys2Proof/Laws/Encoding.lean ====
section
/-! SUPPORT. The bit fields of the command words: what a field of an appended word is, for the
first word and for the operand words of each format. -/

namespace Sys2Proof.Laws

/-- A field that lies in the low part of an append. -/
theorem extract_append_low {n m : Nat} (lo w : Nat) (x : BitVec n) (y : BitVec m)
    (h : lo + w ≤ m) : (x ++ y).extractLsb' lo w = y.extractLsb' lo w := by
  ext i hi
  simp only [BitVec.getElem_extractLsb', BitVec.getLsbD_append]
  simp [show lo + i < m by omega]

/-- A field that lies in the high part of an append. -/
theorem extract_append_high {n m : Nat} (lo w : Nat) (x : BitVec n) (y : BitVec m) (h : m ≤ lo) :
    (x ++ y).extractLsb' lo w = x.extractLsb' (lo - m) w := by
  ext i hi
  simp only [BitVec.getElem_extractLsb', BitVec.getLsbD_append]
  simp [show ¬ lo + i < m by omega, show lo - m + i = lo + i - m by omega]

/-- The field that is the whole vector. -/
theorem extract_full {n : Nat} (x : BitVec n) : x.extractLsb' 0 n = x := by
  ext i hi
  simp

/-- A field of zeros. -/
theorem extract_zero (n lo w : Nat) : (0#n).extractLsb' lo w = 0#w := by
  ext i hi
  simp

theorem field_word0_opcode (o : Opcode) (a b c : BitVec 8) :
    field 24 8 (word0 o a b c) = o.code := by
  unfold field word0
  rw [extract_append_high _ _ _ _ (by omega), extract_append_high _ _ _ _ (by omega),
    extract_append_high _ _ _ _ (by omega)]
  exact extract_full _

theorem field_word0_a (o : Opcode) (a b c : BitVec 8) : field 16 8 (word0 o a b c) = a := by
  unfold field word0
  rw [extract_append_high _ _ _ _ (by omega), extract_append_high _ _ _ _ (by omega),
    extract_append_low _ _ _ _ (by omega)]
  exact extract_full _

theorem field_word0_b (o : Opcode) (a b c : BitVec 8) : field 8 8 (word0 o a b c) = b := by
  unfold field word0
  rw [extract_append_high _ _ _ _ (by omega), extract_append_low _ _ _ _ (by omega)]
  exact extract_full _

theorem field_word0_c (o : Opcode) (a b c : BitVec 8) : field 0 8 (word0 o a b c) = c := by
  unfold field word0
  rw [extract_append_low _ _ _ _ (by omega)]
  exact extract_full _

/-- A field inside the third byte. -/
theorem field_word0_in_c (o : Opcode) (a b c : BitVec 8) (lo w : Nat) (h : lo + w ≤ 8) :
    field lo w (word0 o a b c) = c.extractLsb' lo w := by
  unfold field word0
  rw [extract_append_low _ _ _ _ h]

/-- A field inside the second byte. -/
theorem field_word0_in_b (o : Opcode) (a b c : BitVec 8) (lo w : Nat) (h : 8 ≤ lo)
    (h' : lo - 8 + w ≤ 8) : field lo w (word0 o a b c) = b.extractLsb' (lo - 8) w := by
  unfold field word0
  rw [extract_append_high _ _ _ _ h, extract_append_low _ _ _ _ h']

/-- The low half of a first word with no second and third operand. -/
theorem field_word0_zero (o : Opcode) (a : BitVec 8) : field 0 16 (word0 o a 0#8 0#8) = 0#16 := by
  unfold field word0
  ext i hi
  simp only [BitVec.getElem_extractLsb', BitVec.getLsbD_append]
  simp only [Nat.zero_add]
  split
  · simp
  · rw [if_pos (by omega)]; simp

@[simp] theorem dirByte_low (d : Dir) : (dirByte d).extractLsb' 0 7 = 0#7 := by
  cases d <;> decide

@[simp] theorem dirByte_bit (d : Dir) : (dirByte d).extractLsb' 7 1 = d.bit := by
  cases d <;> decide

@[simp] theorem ofBit_bit (d : Dir) : Dir.ofBit d.bit = d := by
  cases d <;> decide

@[simp] theorem flagOf_flagBit (b : Bool) : flagOf (flagBit b) = b := by
  cases b <;> decide

@[simp] theorem ofCode_code (t : Token) : Token.ofCode t.code = t := by
  cases t <;> decide

@[simp] theorem opcode_ofCode_code (o : Opcode) : Opcode.ofCode o.code = some o := by
  cases o <;> decide

@[simp] theorem code_ofCode (c : BitVec 2) : (Token.ofCode c).code = c := by
  revert c; decide

@[simp] theorem bit_ofBit (b : BitVec 1) : (Dir.ofBit b).bit = b := by
  revert b; decide

@[simp] theorem flagBit_flagOf (b : BitVec 1) : flagBit (flagOf b) = b := by
  revert b; decide

/-- Two words that agree on every bit field of the first word are equal. -/
theorem word0_of_fields (o : Opcode) (w : Word) (h : field 24 8 w = o.code) :
    w = word0 o (field 16 8 w) (field 8 8 w) (field 0 8 w) := by
  unfold word0 field at *
  rw [← h]
  apply BitVec.eq_of_getLsbD_eq
  intro i hi
  simp only [BitVec.getLsbD_append, BitVec.getLsbD_extractLsb']
  split
  · simp [*]
  split
  · simp [*, show 8 + (i - 8) = i by omega]
  split
  · simp [*, show 16 + (i - 8 - 8) = i by omega]
  · simp [show 24 + (i - 8 - 8 - 8) = i by omega, show i - 8 - 8 - 8 < 8 by omega]

/-- What the code of an opcode tells of the opcode. -/
theorem ofCode_some {c : BitVec 8} {o : Opcode} (h : Opcode.ofCode c = some o) : c = o.code := by
  have := List.find?_some h
  exact (by simpa using this : o.code = c).symm

end Sys2Proof.Laws
end

