-- ==== Sys2Proof/Laws/Fits.lean ====
section
/-! SUPPORT. The length of a packet never passes the capacity of its vector (spec 10_state.md
R28 (a)), and where the vector lies in host memory no part of a transfer stops. -/

namespace Sys2Proof.Machine

variable {α β : Type} {d k : Index} {s t u : State}

/-- A part of a command that does not stop, and a property of the state it leaves. -/
def Run.Sure (I : State → Prop) : Run α → Prop
  | .ok _ s => I s
  | .raised _ s => I s
  | .stopped _ => False

theorem Run.Sure.all {I : State → Prop} {x : Run α} (h : x.Sure I) : x.All I := by
  cases x <;> first | exact h | trivial

/-- Two parts in turn, neither of which stops. -/
theorem Run.Sure.bind {I J : State → Prop} {x : Run α} {f : α → State → Run β}
    (hx : x.Sure I) (hraise : ∀ s, I s → J s) (hf : ∀ a s, x = .ok a s → I s → (f a s).Sure J) :
    (x.bind f).Sure J := by
  cases x with
  | ok a s => exact hf a s rfl hx
  | raised c s => exact hraise s hx
  | stopped e => exact hx

theorem Run.Sure.mono {I J : State → Prop} {x : Run α} (hx : x.Sure I) (h : ∀ s, I s → J s) :
    x.Sure J := by
  cases x with
  | ok a s => exact h s hx
  | raised c s => exact h s hx
  | stopped e => exact hx

theorem Run.Sure.and_all {I J : State → Prop} {x : Run α} (hx : x.Sure I) (h : x.All J) :
    x.Sure fun s => I s ∧ J s := by
  cases x with
  | ok a s => exact ⟨hx, h⟩
  | raised c s => exact ⟨hx, h⟩
  | stopped e => exact hx

/-- A check does not stop. -/
theorem require_sure {I : State → Prop} (b : Bool) (c : Cause) {s : State} (h : I s) :
    (require b c s).Sure I := by
  cases b <;> exact h

/-- The checks of an Async answer do not stop. -/
theorem checkAsync_sure {I : State → Prop} {r : EpRef} (h : I s) : (checkAsync r s).Sure I :=
  (require_sure _ _ h).bind (fun _ h => h) fun _ _ _ h => require_sure _ _ h

/-- The vector lies in host memory and holds what was moved. -/
structure Fits (k : Index) (s : State) : Prop where
  inHost   : ∀ g ∈ (s.pkt k).iov, g.inHost s.cfg
  capacity : iovSize (s.pkt k).iov < 2 ^ 32
  moved    : (s.pkt k).actualLength.toNat ≤ iovSize (s.pkt k).iov

/-- The property looks only at the vector, the length and the size of host memory. -/
theorem Fits.of_eq (h : Fits k s) (hc : t.cfg = s.cfg) (hi : (t.pkt k).iov = (s.pkt k).iov)
    (ha : (t.pkt k).actualLength.toNat ≤ iovSize (s.pkt k).iov) : Fits k t :=
  ⟨by rw [hi, hc]; exact h.inHost, by rw [hi]; exact h.capacity, by rw [hi]; exact ha⟩

theorem Fits.congr (h : Fits k s) (hc : t.cfg = s.cfg) (hi : t.pkt k = s.pkt k) : Fits k t :=
  h.of_eq hc (by rw [hi]) (by rw [hi]; exact h.moved)

theorem Fits.updPkt (h : Fits k s) (f : Packet → Packet)
    (hf : ∀ P, (f P).iov = P.iov ∧ ((f P).actualLength = P.actualLength ∨ (f P).actualLength = 0))
        : Fits k (s.updPkt k f) := by
  refine h.of_eq rfl ?_ ?_
  · simp only [State.pkt_updPkt]; split
    · exact (hf _).1
    · rfl
  · simp only [State.pkt_updPkt]; split
    · rcases (hf (s.pkt k)).2 with e | e <;> rw [e]
      · exact h.moved
      · simp
    · exact h.moved

theorem Fits.setActual (h : Fits k s) {n : Word} (hn : n.toNat ≤ iovSize (s.pkt k).iov) :
    Fits k (s.setActual k n) := by
  refine h.of_eq rfl ?_ ?_
  · simp only [State.setActual, State.pkt_updPkt]; split <;> rfl
  · simp only [State.setActual, State.pkt_updPkt]; split
    · exact hn
    · exact h.moved

/-- A copy of a buffer that is long enough does not stop,
    and the length stays within the vector (R43). -/
theorem fits_packetCopy (h : Fits k s) {buf : List Byte} {n : Nat} (hbuf : buf.length ≤ n) :
    (packetCopy k buf n s).Sure fun t => Fits k t ∧ (t.pkt k).iov = (s.pkt k).iov := by
  have hm : (s.pkt k).actualLength.toNat + n ≤ iovSize (s.pkt k).iov → ∀ u, u.cfg = s.cfg →
      u.pkt k = s.pkt k →
      u.pkts = s.pkts → Fits k (moveActual k n u) ∧
          ((moveActual k n u).pkt k).iov = (s.pkt k).iov := by
    intro hn u hc hp hps
    have hi : ((moveActual k n u).pkt k).iov = (s.pkt k).iov := by
      simp only [moveActual, State.pkt_updPkt]; split <;> simp [hp]
    refine ⟨h.of_eq hc hi ?_, hi⟩
    have := h.capacity
    simp only [moveActual, State.pkt_updPkt]; split
    · rw [hp, BitVec.toNat_ofNat, Nat.mod_eq_of_lt (by omega)]; exact hn
    · rw [hp]; exact h.moved
  rcases packetCopy_cases k buf n s with ⟨-, e⟩ | ⟨hn, ⟨-, m, -, e⟩ | ⟨-, bs, -, e⟩ | e⟩
  · rw [e]; exact ⟨h, rfl⟩
  · rw [e]; exact hm hn _ rfl rfl rfl
  · rw [e]; exact hm hn s rfl rfl rfl
  · obtain ⟨bs, t, e'⟩ := packetCopy_goes_on h.inHost hn hbuf
    rw [e] at e'; cases e'

/-- Applying a control response (R100). -/
theorem fits_applyCtlResp (h : Fits k s) (r : Resp) :
    (applyCtlResp d k r s).Sure fun t => Fits k t ∧ (t.pkt k).iov = (s.pkt k).iov := by
  unfold applyCtlResp
  split
  · exact ⟨h, rfl⟩
  split
  · have hd : Fits k (s.updDev d fun D => { D with dataBuf := D.dataBuf.writeList 0 r.data }) :=
      h.congr rfl rfl
    refine ⟨hd.updPkt _ fun P => ⟨rfl, .inl rfl⟩, ?_⟩
    simp only [State.setStatus, State.pkt_updPkt]; split <;> rfl
  · exact ⟨h, rfl⟩

/-- The control handler (R100, R140). -/
theorem fits_controlHandler (h : Fits k s) : (controlHandler d k s).Sure fun t => Fits k t ∧
    (t.pkt k).iov = (s.pkt k).iov := by
  unfold controlHandler
  split
  · refine (fits_applyCtlResp (s := (s.emit (controlEvent d k s)).dropResp) (h.congr (by simp)
      (by simp)) _).mono fun t ht => ⟨ht.1, by rw [ht.2]; simp⟩
  · exact fits_applyCtlResp h _

/-- A copy between the data buffer and the vector (R131, R136). -/
theorem fits_copyDataBuf (h : Fits k s) (off n : Nat) : (copyDataBuf d k off n s).Sure (Fits k) :=
  (fits_packetCopy h (by simp)).bind (fun _ h => h.1) fun _ _ _ h => h.1.congr rfl rfl

theorem fits_shortenSetup (h : Fits k s) (n : Nat) : Fits k (shortenSetup d n s) := by
  unfold shortenSetup; split
  · exact h.congr rfl rfl
  · exact h

theorem fits_paramFinish (h : Fits k s) (n : Nat) : (paramFinish d k n s).Sure (Fits k) := by
  unfold paramFinish
  dsimp only
  split
  · exact fits_copyDataBuf ((fits_shortenSetup h n).setActual (by simp)) _ _
  · exact fits_shortenSetup h n

theorem fits_stall (h : Fits k s) : Fits k (stallToIdle d k s) :=
  (Fits.updPkt h _ fun _ => ⟨rfl, .inl rfl⟩ : Fits k (s.setStatus k .stall)).congr rfl rfl

/-- The Param path (R122). -/
theorem fits_paramPath (h : Fits k s) : (paramPath d k s).Sure (Fits k) := by
  unfold paramPath
  dsimp only
  have h1 : ∀ b, Fits k (beginRequest d b .param s) := fun b => h.congr rfl rfl
  split
  · exact fits_stall (h1 _)
  · have hp : ∀ {u}, Fits k u → (paramPayload d k u).Sure (Fits k) := by
      intro u hu; unfold paramPayload; split
      · exact fits_copyDataBuf (hu.setActual (by simp)) _ _
      · exact hu
    refine (hp (h1 _)).bind (fun _ h => h) fun _ u _ hu => ?_
    refine (fits_controlHandler hu).bind (fun _ h => h.1) fun n v _ hv => ?_
    split
    · exact fits_paramFinish hv.1 n
    · exact hv.1

theorem fits_setActual8 (h : Fits k s) (he : iovSize (s.pkt k).iov = 8) : Fits k (s.setActual k 8)
    :=
  h.setActual (by rw [he]; decide)

/-- A SETUP token (R125). -/
theorem fits_tokenSetup (h : Fits k s) : (tokenSetup d k s).Sure (Fits k) := by
  unfold tokenSetup
  dsimp only
  split
  · exact fits_stall h
  · rename_i h8
    have h8 : iovSize (s.pkt k).iov = 8 := by simpa using h8
    have e0 : ∀ (n : Word) (u : State), ((u.setActual k n).pkt k).iov = (u.pkt k).iov :=
        fun n u => by
      simp only [State.setActual, State.pkt_updPkt]; split <;> rfl
    refine (fits_packetCopy (h.setActual (n := 0) (by simp))
        (by simp)).bind (fun _ h => h.1) fun bs u _ hu => ?_
    obtain ⟨hu, he⟩ := hu
    rw [e0] at he
    have hu0 := hu.setActual (n := 0) (by simp)
    have hb : ∀ b, Fits k (beginRequest d b .setup (u.setActual k 0)) := fun b => hu0.congr rfl rfl
    have eb : ∀ b, ((beginRequest d b .setup (u.setActual k 0)).pkt k).iov = (s.pkt k).iov :=
        fun b => by
      rw [← he, ← e0 0 u]; rfl
    split
    · exact fits_stall (hb _)
    split
    · unfold setupTokenIn
      refine (fits_controlHandler (hb _)).bind (fun _ h => h.1) fun n v _ hv => ?_
      split
      · exact hv.1
      · refine fits_setActual8 ((fits_shortenSetup hv.1 n).congr (t :=
          (shortenSetup d n v).setCtl d .data) rfl rfl) ?_
        have : (((shortenSetup d n v).setCtl d .data).pkt k) = v.pkt k := by
          unfold shortenSetup; split <;> rfl
        rw [this, hv.2, eb, h8]
      all_goals exact hv.1.congr rfl rfl
    · unfold setupTokenOut
      have e8 : iovSize ((beginRequest d (.ofBytes bs) .setup (u.setActual k 0)).pkt k).iov = 8 := by
        rw [eb, h8]
      exact fits_setActual8 ((hb (.ofBytes bs)).congr
        (t := (beginRequest d (.ofBytes bs) .setup (u.setActual k 0)).setCtl d _) rfl rfl) e8

/-- A Data-phase token (R131, R136). -/
theorem fits_dataChunk (h : Fits k s) : (dataChunk d k s).Sure (Fits k) :=
  (fits_copyDataBuf h _ _).bind (fun _ h => h) fun _ _ _ h => h.congr rfl rfl

theorem fits_statusPhaseIn (h : Fits k s) : (statusPhaseIn d k s).Sure (Fits k) := by
  unfold statusPhaseIn
  split
  · exact h
  · refine (fits_controlHandler h).bind (fun _ h => h.1) fun n u _ hu => ?_
    split
    · exact hu.1
    · exact (hu.1.congr (t := u.setCtl d .idle) rfl rfl).setActual (by simp)

/-- Every control dispatch (R120). -/
theorem fits_controlDispatch (h : Fits k s) : (controlDispatch d k s).Sure (Fits k) := by
  unfold controlDispatch
  have hin : (tokenIn d k s).Sure (Fits k) := by
    unfold tokenIn
    repeat' split
    all_goals first | exact fits_statusPhaseIn h | exact fits_dataChunk h | exact fits_stall h
  have hout : (tokenOut d k s).Sure (Fits k) := by
    unfold tokenOut
    repeat' split
    all_goals first
      | exact fits_dataChunk h
      | exact fits_stall h
      | exact h.congr (t := s.setCtl d .idle) rfl rfl
      | exact h
  repeat' split
  · exact fits_paramPath h
  · exact fits_tokenSetup h
  · exact hin
  all_goals exact hout

/-- Applying a data response (R100). -/
theorem fits_applyDataResp (h : Fits k s) (r : Resp) (emits : Bool) :
    (applyDataResp d k r emits s).Sure (Fits k) := by
  have hset : ∀ {u}, Fits k u → ∀ st, Fits k (u.setStatus k st) :=
      fun hu st => Fits.updPkt hu _ fun _ => ⟨rfl, .inl rfl⟩
  unfold applyDataResp
  split
  · exact h
  split
  · rw [require_bind]
    split
    · rename_i hn
      have hn : r.data.length = r.n.toNat := by simpa using hn
      exact (fits_packetCopy h (by omega)).bind (fun _ h => h.1) fun _ _ _ h => hset h.1 _
    · exact h
  · rw [require_bind]
    split
    · refine (fits_packetCopy h (by simp)).bind (fun _ h => h.1) fun _ u _ h => hset ?_ _
      split
      · exact h.1.congr rfl rfl
      · exact h.1
    · exact h

/-- A dispatch does not stop (R101). -/
theorem fits_dispatch (h : Fits k s) : (dispatch k s).Sure (Fits k) := by
  unfold dispatch
  dsimp only
  have h1 : Fits k (s.setStatus k .success) := Fits.updPkt h _ fun _ => ⟨rfl, .inl rfl⟩
  split
  · exact fits_controlDispatch h1
  · unfold dataHandler
    split
    · exact fits_applyDataResp (h1.congr (by simp) (by simp)) _ _
    · exact fits_applyDataResp h1 _ _

/-- Applying the response of a COMPLETE does not stop (R108). -/
theorem fits_applyCompletion (h : Fits k s) (h8 : (s.pkt k).epNr = 0 → (s.pkt k).token = .setup →
    (s.pkt k).parameter = 0 → iovSize (s.pkt k).iov = 8)
    (r : Resp) : (applyCompletion k r s).Sure (Fits k) := by
  unfold applyCompletion
  dsimp only
  split
  · rename_i he
    unfold ctlAsyncDone
    refine ((fits_applyCtlResp h r).and_all (transfers_applyCtlResp r s)).bind (fun _ h => h.1.1)
        fun n u _ hu => ?_
    obtain ⟨⟨hu, hi⟩, hT⟩ := hu
    split
    · exact hu
    · rename_i hk
      have hk : pendingKind (u.pkt k) = some (u.dev (s.pkt k).dev).ctlState := by simpa using hk
      split
      · rename_i hc
        split
        · refine fits_setActual8 ((fits_shortenSetup hu n).congr (t :=
            (shortenSetup (s.pkt k).dev n u).setCtl (s.pkt k).dev .data) rfl rfl) ?_
          have : (((shortenSetup (s.pkt k).dev n u).setCtl (s.pkt k).dev .data).pkt k) = u.pkt k
              := by
            unfold shortenSetup; split <;> rfl
          rw [this, hi]
          rw [hc, hT.pktSelf] at hk
          unfold pendingKind at hk
          split at hk
          · cases hk
          · rename_i hp
            split at hk
            · rename_i ht; exact h8 he ht (by simpa using hp)
            all_goals cases hk
        · exact hu.congr rfl rfl
      · exact (hu.congr (t := u.setCtl _ .idle) rfl rfl).setActual (by simp)
      · split
        · exact fits_paramFinish hu n
        · exact hu
      all_goals exact hu
  · exact fits_applyDataResp h r true

/-- A queue advance of dispatches that do not stop does not stop. -/
theorem advance_sure {I : State → Prop} {J : Index → State → Prop} (r : EpRef)
    (hdispatch : ∀ h tl u, I u → (u.ep r).queue = h :: tl → (u.pkt h).state ≠ .async →
      (dispatch h u).Sure (J h))
    (hraise : ∀ h u, J h u → I u)
    (hasync : ∀ h u, J h u → (u.pkt h).status = .async → I (u.setPktState h .async))
    (hdone : ∀ h u, J h u →
      (u.pkt h).status = .success ∨ (u.pkt h).status = .stall ∨ (u.pkt h).status = .noDevice →
      I (completeOne h r u))
    (fuel : Nat) (s : State) (hs : I s) : (advance r fuel s).Sure I := by
  induction fuel generalizing s with
  | zero => exact hs
  | succ fuel ih =>
    unfold advance
    split
    · exact hs
    · rename_i h tl hq
      split
      · exact hs
      · rename_i hst
        refine (hdispatch h tl s hs hq hst).bind (hraise h) fun _ u _ hu => ?_
        split
        · rename_i hsu
          refine (checkAsync_sure (I := fun v => v = u) rfl).bind ?_ ?_
          · rintro v rfl; exact hraise h v hu
          · rintro _ v - rfl; exact hasync h v hu hsu
        · exact hraise h u hu
        · exact hraise h u hu
        · rename_i hsu; exact ih _ (hdone h u hu (.inl hsu))
        · rename_i hsu; exact ih _ (hdone h u hu (.inr (.inl hsu)))
        · rename_i hsu; exact ih _ (hdone h u hu (.inr (.inr hsu)))

theorem Fits.other {d k j : Index} {s t : State} (h : Transfers d k s t) (hk : Fits k t) (hj :
    Fits j s) : Fits j t := by
  by_cases e : j = k
  · rw [e]; exact hk
  · exact hj.congr h.cfg (h.pktOther j e)

theorem fits_setPktState (h : Fits k s) (j) (st) : Fits k (s.setPktState j st) := by
  refine h.of_eq rfl ?_ ?_
  · simp only [State.setPktState, State.pkt_updPkt]; split
    · rfl
    · rfl
  · simp only [State.setPktState, State.pkt_updPkt]; split
    · exact h.moved
    · exact h.moved

/-- A completion (R109). -/
theorem fits_completeOne (h : Fits k s) (j) (r) : Fits k (completeOne j r s) :=
  (fits_setPktState h j .complete).congr rfl rfl

/-- The queue advance does not stop (R110). -/
theorem fits_advance (r) (fuel) (s : State) (hs : ∀ k, Fits k s) :
    (advance r fuel s).Sure fun t => ∀ k, Fits k t := by
  refine advance_sure (I := fun t => ∀ k, Fits k t) (J := fun _ t => ∀ k,
      Fits k t) r ?_ ?_ ?_ ?_ fuel s hs
  · intro h tl u hu _ _
    exact ((fits_dispatch (hu h)).and_all (transfers_dispatch h u)).mono fun v hv j => Fits.other
        hv.2 hv.1 (hu j)
  · exact fun _ _ h => h
  · exact fun h u hu _ j => fits_setPktState (hu j) _ _
  · exact fun h u hu _ j => fits_completeOne (hu j) _ _

/-- What the invariant of a packet gives. -/
theorem PacketOk.fits (h : PacketOk s.cfg s.devs.length (s.pkt k)) : Fits k s := ⟨h.inHost,
    h.capacity, h.moved⟩

/-- SUBMIT does not stop. -/
theorem submit_sure (d) (hs : Fits k s) : (submitPacket k d s).Sure fun _ => True := by
  simp only [submitPacket, checkValid, require_bind]
  repeat' split
  all_goals try trivial
  unfold submitAccepted
  have hc : (clearHalt (s.pkt k).endpoint s).Sure (Fits k) := by
    unfold clearHalt
    split
    · rw [require_bind]; split
      · exact hs.congr rfl rfl
      · exact hs
    · exact hs
  refine hc.bind (fun _ _ => trivial) fun _ u _ hu => ?_
  split
  · split <;> trivial
  · refine (fits_dispatch hu).bind (fun _ _ => trivial) fun _ v _ _ => ?_
    unfold afterDispatch
    split
    · exact (checkAsync_sure (I :=
        fun _ => True) trivial).bind (fun _ _ => trivial) fun _ _ _ _ => trivial
    all_goals trivial

/-- COMPLETE does not stop. -/
theorem complete_sure (k) (hs : PacketsOk s) : (completePacket k s).Sure fun _ => True := by
  simp only [completePacket, checkValid, require_bind]
  repeat' split
  all_goals try trivial
  rename_i hv hst _ _
  have hst : (s.pkt k).state = .async := by simpa using hst
  have h0 : ∀ j, Fits j s.dropResp := fun j => (hs j).fits.congr (by simp) (by simp)
  refine ((fits_applyCompletion (h0 k) ?_ s.nextResp).and_all (transfers_applyCompletion k _
      _)).bind (fun _ _ => trivial) fun _ v _ hv => ?_
  · simp only [State.pkt_dropResp]; exact fun a b c => (hs k).pending hst a b c
  · exact (fits_advance _ _ _ fun j => fits_completeOne (Fits.other hv.2 hv.1 (h0 j)) _ _).mono
      fun _ _ => trivial

end Sys2Proof.Machine
end

