-- ==== Sys2Proof/Laws/PerInstr.lean ====
section
/-! SUPPORT. What holds of every instruction as syntax, one lemma per constructor. -/

namespace Sys2Proof.Laws.EncodedLength

/-- An instruction is encoded in as many words as its opcode says (spec 30_encoding.md R57). -/
def Statement (i : Instr) : Prop := (encode i).length = i.opcode.words

theorem epSetType (d n : Index) (dir : Dir) (ty : BitVec 3) : Statement (.epSetType d n dir ty) := rfl

theorem epSetIfnum (d n : Index) (dir : Dir) (ifnum : BitVec 8) : Statement (.epSetIfnum d n dir ifnum) := rfl

theorem epSetMps (d n : Index) (dir : Dir) (raw : BitVec 16) : Statement (.epSetMps d n dir raw) := rfl

theorem epSetPipe (d n : Index) (dir : Dir) (flag : Bool) : Statement (.epSetPipe d n dir flag) := rfl

theorem epSetHalt (d n : Index) (dir : Dir) (flag : Bool) : Statement (.epSetHalt d n dir flag) := rfl

theorem epGet (d n : Index) (dir : Dir) : Statement (.epGet d n dir) := rfl

theorem pktSetup (k d n : Index) (token : Token) (shortOk intReq : Bool) (stream : BitVec 16) (id : Word) : Statement (.pktSetup k d n token shortOk intReq stream id) := rfl

theorem pktIovAdd (k : Index) (addr len : Word) : Statement (.pktIovAdd k addr len) := rfl

theorem pktSetParam (k : Index) (param : BitVec 64) : Statement (.pktSetParam k param) := rfl

theorem submit (k d : Index) : Statement (.submit k d) := rfl

theorem cancel (k : Index) : Statement (.cancel k) := rfl

theorem complete (k : Index) : Statement (.complete k) := rfl

theorem pktRead (k : Index) : Statement (.pktRead k) := rfl

theorem portBind (p d : Index) : Statement (.portBind p d) := rfl

theorem attach (p : Index) : Statement (.attach p) := rfl

theorem detach (p : Index) : Statement (.detach p) := rfl

theorem resetPort (p : Index) : Statement (.resetPort p) := rfl

theorem findDevice (p : Index) (addr : BitVec 8) : Statement (.findDevice p addr) := rfl

theorem devSetAddr (d : Index) (addr : BitVec 8) : Statement (.devSetAddr d addr) := rfl

theorem devSetRwake (d : Index) (flag : Bool) : Statement (.devSetRwake d flag) := rfl

end Sys2Proof.Laws.EncodedLength
end

