-- ==== Sys2Proof/Laws/QueueState.lean ====
section
/-! SUPPORT. The endpoint queues and the packet states agree (spec 41_packet_lifecycle.md
R114): how a packet enters and leaves its queue, and that the parts of SUBMIT and COMPLETE keep it
so. -/

namespace Sys2Proof.Machine

/-- The invariant of the queues looks only at the queues and, of a packet in flight,
    at its endpoint. -/
theorem queuesOk_congr {s t : State} (h : QueuesOk s) (hd : t.devs.length = s.devs.length)
    (hl : t.pkts.length = s.pkts.length)
    (hq : ∀ r, (t.ep r).queue = (s.ep r).queue)
    (hp : ∀ k, (t.pkt k).state.inFlight = (s.pkt k).state.inFlight ∧
      ((s.pkt k).state.inFlight = true → (t.pkt k).valid = (s.pkt k).valid ∧
          (t.pkt k).endpoint = (s.pkt k).endpoint)) :
    QueuesOk t := by
  refine ⟨fun r => by rw [hq]; exact h.nodup r, fun r k hk => ?_, fun k hk => ?_⟩
  · rw [hq] at hk
    obtain ⟨a, b, c, e⟩ := h.member r k hk
    obtain ⟨p2, p⟩ := hp k
    obtain ⟨p1, p3⟩ := p c
    exact ⟨by rw [hl]; exact a, by rw [p1]; exact b, by rw [p2]; exact c, by rw [p3]; exact e⟩
  · obtain ⟨p2, p⟩ := hp k
    rw [p2] at hk
    obtain ⟨p1, p3⟩ := p hk
    have := h.queued k hk
    have e : (t.pkt k).dev = (s.pkt k).dev := congrArg EpRef.dev p3
    rw [p3, hq, e, hd]; exact this

/-- A transfer keeps the invariant of the queues. -/
theorem Transfers.queuesOk {d k : Index} {s t : State} (h : Transfers d k s t) (hs : QueuesOk s) :
    QueuesOk t := by
  refine queuesOk_congr hs h.devsLen h.pktsLen (fun r => by rw [h.ep]) fun j => ?_
  by_cases hj : j = k
  · rw [hj, h.pktSelf]; exact ⟨rfl, fun _ => ⟨rfl, rfl⟩⟩
  · rw [h.pktOther j hj]; exact ⟨rfl, fun _ => ⟨rfl, rfl⟩⟩

/-- A packet in flight is a slot that exists. -/
theorem inFlight_lt {s : State} {k : Index} (h : (s.pkt k).state.inFlight = true) :
    k.toNat < s.pkts.length := by
  by_contra hn
  simp [State.pkt, List.getD_eq_getElem?_getD, List.getElem?_eq_none (Nat.le_of_not_lt hn),
    Packet.reset, PktState.inFlight] at h

/-- The packet leaves its queue and is no longer in flight. -/
theorem queuesOk_leave {s : State} {k : Index} {st : PktState} (h : QueuesOk s) (hf :
    (s.pkt k).state.inFlight = true)
    (hst : st.inFlight = false) : QueuesOk ((s.setPktState k st).removeQueue (s.pkt k).endpoint k)
        := by
  obtain ⟨hd, hm⟩ := h.queued k hf
  have hlt := (h.member _ _ hm).1
  have hq : ∀ r, (((s.setPktState k st).removeQueue (s.pkt k).endpoint k).ep r).queue = (s.ep
      r).queue.filter (· != k) := by
    intro r
    simp only [State.removeQueue, State.ep_updEp]
    split
    · rfl
    · rename_i h2
      show (s.ep r).queue = _
      symm
      rw [List.filter_eq_self]
      intro j hj
      simp only [bne_iff_ne, ne_eq]
      rintro rfl
      exact h2 ⟨(h.member r _ hj).2.2.2, by rw [← (h.member r _ hj).2.2.2]; exact hd⟩
  have hp : ∀ j, (((s.setPktState k st).removeQueue (s.pkt k).endpoint k).pkt j) = if j = k then {
      s.pkt k with state := st } else s.pkt j := by
    intro j
    simp only [State.removeQueue, State.pkt_updEp, State.setPktState, State.pkt_updPkt]
    by_cases hj : j = k
    · subst hj; simp [hlt]
    · simp [hj, Ne.symm hj]
  refine ⟨fun r => by rw [hq]; exact (h.nodup r).filter _, fun r j hj => ?_, fun j hj => ?_⟩
  · rw [hq, List.mem_filter] at hj
    have hne : j ≠ k := by simpa using hj.2
    rw [hp, if_neg hne]
    simpa [State.removeQueue, State.setPktState] using h.member r j hj.1
  · rw [hp] at hj ⊢
    by_cases hne : j = k
    · rw [if_pos hne] at hj; simp [hst] at hj
    · rw [if_neg hne] at hj ⊢
      rw [hq, List.mem_filter]
      obtain ⟨a, b⟩ := h.queued j hj
      exact ⟨by simpa [State.removeQueue, State.setPktState] using a, b, by simpa using hne⟩

/-- A packet enters its queue. -/
theorem queuesOk_enter {s : State} {k : Index} (f : Packet → Packet) (h : QueuesOk s) (hf :
    (s.pkt k).state.inFlight = false)
    (hv : (s.pkt k).valid = true) (hl : k.toNat < s.pkts.length) (hd :
        (s.pkt k).dev.toNat < s.devs.length)
    (hst : ∀ P, (f P).state.inFlight = true ∧ (f P).valid = P.valid ∧ (f P).endpoint = P.endpoint)
        : QueuesOk ((s.updPkt k f).appendQueue (s.pkt k).endpoint k) := by
  have hnot : ∀ r, k ∉ (s.ep r).queue := fun r hm => by
    have := (h.member r k hm).2.2.1; simp [hf] at this
  have hq : ∀ r, (((s.updPkt k f).appendQueue (s.pkt k).endpoint k).ep r).queue = (s.ep r).queue
      ++ if r = (s.pkt k).endpoint then [k] else [] := by
    intro r
    simp only [State.appendQueue, State.ep_updEp]
    by_cases hr : r = (s.pkt k).endpoint
    · subst hr; 
      have : (s.pkt k).endpoint.dev.toNat < s.devs.length := hd
      simp [this]
    · rw [if_neg (fun e => hr e.1.symm)]; simp [hr]
  have hp : ∀ j, (((s.updPkt k f).appendQueue (s.pkt k).endpoint k).pkt j) = if j = k then f
      (s.pkt k) else s.pkt j := by
    intro j
    simp only [State.appendQueue, State.pkt_updEp, State.pkt_updPkt]
    by_cases hj : j = k
    · subst hj; simp [hl]
    · simp [hj, Ne.symm hj]
  refine ⟨fun r => ?_, fun r j hj => ?_, fun j hj => ?_⟩
  · rw [hq]
    split
    · exact (h.nodup r).append (by simp) (by simp [hnot])
    · simpa using h.nodup r
  · rw [hq, List.mem_append] at hj
    rw [hp]
    obtain ⟨h1, h2, h3⟩ := hst (s.pkt k)
    rcases hj with hj | hj
    · have hne : j ≠ k := fun e => hnot r (e ▸ hj)
      rw [if_neg hne]
      simpa [State.appendQueue] using h.member r j hj
    · split at hj
      · rename_i hr
        have : j = k := by simpa using hj
        rw [if_pos this]
        exact ⟨by rw [this]; simpa [State.appendQueue] using hl, by rw [h2, hv], h1, by rw [h3, hr]⟩
      · simp at hj
  · rw [hp] at hj ⊢
    obtain ⟨h1, h2, h3⟩ := hst (s.pkt k)
    have hlen : ((s.updPkt k f).appendQueue (s.pkt k).endpoint k).devs.length = s.devs.length :=
        by simp [State.appendQueue]
    by_cases hne : j = k
    · rw [if_pos hne, hq, h3, hlen, if_pos rfl]
      have : (f (s.pkt k)).dev = (s.pkt k).dev := congrArg EpRef.dev h3
      rw [this]
      exact ⟨hd, by simp [hne]⟩
    · rw [if_neg hne] at hj ⊢
      obtain ⟨a, b⟩ := h.queued j hj
      rw [hq, hlen]
      exact ⟨a, List.mem_append_left _ b⟩

/-- An event is not part of the invariant. -/
theorem queuesOk_emit {s : State} (e) (h : QueuesOk s) : QueuesOk (s.emit e) :=
  queuesOk_congr h rfl rfl (fun _ => rfl) fun _ => ⟨rfl, fun _ => ⟨rfl, rfl⟩⟩

/-- A completion keeps the invariant (R109). -/
theorem queuesOk_completeOne {s : State} {h : Index} {r : EpRef} (hs : QueuesOk s) (hm :
    h ∈ (s.ep r).queue) : QueuesOk (completeOne h r s) := by
  obtain ⟨a, b, c, e⟩ := hs.member r h hm
  unfold completeOne
  dsimp only
  rw [← e]
  exact queuesOk_emit _ (queuesOk_leave hs c rfl)

/-- A packet that stays in flight, or stays out of it. -/
theorem queuesOk_setState {s : State} {h : Index} {st : PktState} (hs : QueuesOk s) (hf :
    (s.pkt h).state.inFlight = st.inFlight) : QueuesOk (s.setPktState h st) := by
  refine queuesOk_congr hs rfl (by simp [State.setPktState]) (fun _ => rfl) fun k => ?_
  simp only [State.setPktState, State.pkt_updPkt]
  split
  · rename_i h2; rw [← h2.1]; exact ⟨hf.symm, fun _ => ⟨rfl, rfl⟩⟩
  · exact ⟨rfl, fun _ => ⟨rfl, rfl⟩⟩

/-- The queue advance keeps the invariant (R110, R111). -/
theorem advance_queues (r : EpRef) (fuel : Nat) (s : State) (hs : QueuesOk s) :
    (advance r fuel s).All QueuesOk := by
  refine advance_all (I := QueuesOk) (J := fun h u => QueuesOk u ∧
      h ∈ (u.ep r).queue) r ?_ ?_ ?_ ?_ fuel s hs
  · intro h tl u hu hq hst
    refine (transfers_dispatch h u).mono fun v hv => ⟨hv.queuesOk hu, ?_⟩
    rw [hv.ep, hq]; simp
  · exact fun h u hu => hu.1
  · exact fun h u hu _ => queuesOk_setState hu.1 ((hu.1.member r h hu.2).2.2.1)
  · exact fun h u hu _ => queuesOk_completeOne hu.1 hu.2

/-- An endpoint's attributes are not part of the invariant. -/
theorem queuesOk_updEp {s : State} (r) (f : Endpoint → Endpoint) (hf : ∀ e, (f e).queue = e.queue)
    (h : QueuesOk s) : QueuesOk (s.updEp r f) := by
  refine queuesOk_congr h (by simp) rfl (fun q => ?_) fun _ => ⟨rfl, fun _ => ⟨rfl, rfl⟩⟩
  simp only [State.ep_updEp]
  split
  · exact hf _
  · rfl

/-- A contract violation keeps the invariant. -/
theorem queuesOk_contract {s : State} (c w) (h : QueuesOk s) : QueuesOk (contractViolation c w s)
    := by
  unfold contractViolation
  split <;> exact queuesOk_congr h rfl rfl (fun _ => rfl) fun _ => ⟨rfl, fun _ => ⟨rfl, rfl⟩⟩

/-- A queued packet, as one packet update and one queue update (R99). -/
theorem queueOne_eq (k : Index) (r : EpRef) (s : State) :
    queueOne k r s =
      (s.updPkt k fun P => { P with state := .queued, status := .async }).appendQueue r k := by
  simp [queueOne, State.setStatus, State.setPktState, State.updPkt, List.modify_modify_eq,
    Function.comp_def]

/-- What a status decides keeps the invariant (R102 to R105). -/
theorem queuesOk_afterDispatch {s : State} {k : Index} (h : QueuesOk s) (hf :
    (s.pkt k).state.inFlight = false)
    (hv : (s.pkt k).valid = true) (hl : k.toNat < s.pkts.length) (hd :
        (s.pkt k).dev.toNat < s.devs.length) :
    (afterDispatch k (s.pkt k).endpoint s).All QueuesOk := by
  unfold afterDispatch
  split
  · refine (checkAsync_all (I := (· = s)) rfl).bind ?_ ?_
    · rintro _ rfl; exact h
    · rintro _ _ - rfl
      exact queuesOk_enter _ h hf hv hl hd fun P => ⟨rfl, rfl, rfl⟩
  · rw [queueOne_eq]
    exact queuesOk_enter _ h hf hv hl hd fun P => ⟨rfl, rfl, rfl⟩
  · exact h
  all_goals exact queuesOk_setState h (by rw [hf]; rfl)

/-- SUBMIT keeps the invariant (R94). -/
theorem queuesOk_submitPacket {k d : Index} {s : State} (hs : QueuesOk s) (hl :
    k.toNat < s.pkts.length) : (submitPacket k d s).All QueuesOk := by
  simp only [submitPacket, checkValid]
  simp only [require_bind]
  split
  · rename_i hv
    split
    · rename_i hst
      have hst' : (s.pkt k).state = .setup := by simpa using hst
      split
      · refine queuesOk_setState (s := s.setStatus k .noDevice) ?_ ?_
        · exact (transfers_setStatus (d := 0) s _).queuesOk hs
        · rw [State.setStatus, State.pkt_updPkt_self _ _ _ hl]; simp [hst', PktState.inFlight]
      · rename_i hn
        split
        · rename_i hd
          have hd' : d = (s.pkt k).dev := by simpa using hd
          have hdl : (s.pkt k).dev.toNat < s.devs.length := by
            simp [noTarget] at hn
            rw [← hd']; exact attached_lt hn.2
          unfold submitAccepted
          have hc : (clearHalt (s.pkt k).endpoint s).All (fun u => QueuesOk u ∧
              u.pkt k = s.pkt k ∧ u.pkts.length = s.pkts.length ∧ u.devs.length = s.devs.length)
              := by
            unfold clearHalt
            split
            · rw [require_bind]
              split
              · exact ⟨queuesOk_updEp _ _ (fun _ => rfl) hs, rfl, rfl, by simp⟩
              · exact ⟨hs, rfl, rfl, rfl⟩
            · exact ⟨hs, rfl, rfl, rfl⟩
          refine hc.bind (fun _ h => h.1) ?_
          rintro _ u - ⟨hu, hp, hl', hd''⟩
          rw [← hp] at hv hst' hdl ⊢
          rw [← hl'] at hl
          rw [← hd''] at hdl
          split
          · split
            · exact hu
            · rw [queueOne_eq]
              exact queuesOk_enter _ hu (by rw [hst']; rfl) hv hl hdl fun P => ⟨rfl, rfl, rfl⟩
          · refine (transfers_dispatch k u).bind (fun _ h => h.queuesOk hu) fun _ v _ hv' => ?_
            have he : (v.pkt k).endpoint = (u.pkt k).endpoint := by rw [hv'.pktSelf]; rfl
            rw [← he]
            refine queuesOk_afterDispatch (hv'.queuesOk hu) ?_ ?_ ?_ ?_
            · rw [hv'.pktSelf, hst']; rfl
            · rw [hv'.pktSelf]; exact hv
            · rw [hv'.pktsLen]; exact hl
            · rw [hv'.pktSelf, hv'.devsLen]; exact hdl
        · exact hs
    · exact hs
  · exact hs

/-- COMPLETE keeps the invariant (R108). -/
theorem queuesOk_completePacket {k : Index} {s : State} (hs : QueuesOk s) :
    (completePacket k s).All QueuesOk := by
  simp only [completePacket, checkValid]
  simp only [require_bind]
  have h0 : QueuesOk s.dropResp := (transfers_dropResp (d := 0) (k := 0) s).queuesOk hs
  split
  · split
    · rename_i hst
      have hst' : (s.pkt k).state = .async := by simpa using hst
      split
      · split
        · refine (transfers_applyCompletion k s.nextResp s.dropResp).bind (fun _ h => h.queuesOk
            h0) fun _ v _ hv => ?_
          have hm := (hs.queued k (by rw [hst']; rfl)).2
          refine advance_queues _ _ _ (queuesOk_completeOne (hv.queuesOk h0) ?_)
          rw [hv.ep]; simpa using hm
        · exact h0
      · exact h0
    · exact hs
  · exact hs

end Sys2Proof.Machine
end

