-- ==== Sys2Proof/Tests/Slice0.lean ====
section
/-! SUPPORT. Tests: ill-formed terms, words written out from the spec's encodings, one step per
command with the expected result of spec 95_test_vectors.md (its vector in each comment), and for
each statement with hypotheses a state that meets them. -/

namespace Sys2Proof.Tests

open Sys2Proof.Machine Sys2Proof.Claim

/-! ### Helpers -/

/-- Whether a command answers a next state with a property. -/
def gives (i : Instr) (s : State) (p : State → Bool) : Bool :=
  match exec i s with
  | .next t => p t
  | .fault _ | .refused _ => false

/-- The state a command answers; the old one if it stops. -/
def after (i : Instr) (s : State) : State :=
  match exec i s with
  | .next t => t
  | .fault _ | .refused _ => s

theorem next_of_gives {i : Instr} {s : State} {p : State → Bool} (h : gives i s p = true) :
    ∃ t, exec i s = .next t ∧ p t = true := by
  unfold gives at h
  split at h
  · exact ⟨_, by assumption, h⟩
  · cases h
  · cases h

theorem next_after {i : Instr} {s : State} (h : gives i s (fun _ => true) = true) :
    exec i s = .next (after i s) := by
  obtain ⟨t, ht, _⟩ := next_of_gives h
  rw [after, ht]

/-- Device 0 bound to port 0 and attached, as `PLUG p0, d0` leaves it, with nothing in the trace. -/
def plugged (s : State) : State :=
  (s.updPort 0 fun _ => ⟨0⟩).updDev 0 fun D =>
    { D with port := 0, attached := true, state := .attached }

/-- A slot that holds a packet. -/
def slot (k : Index) (P : Packet) (s : State) : State := s.updPkt k fun _ => P

/-- The responses on the channel. -/
def answers (rs : List Resp) (s : State) : State := { s with resps := rs }

/-- An IN packet of device 0 with a vector of one segment, in state Setup. -/
def inPkt (nr : BitVec 4) (iov : List Segment) : Packet :=
  ⟨true, 7, .inn, 0, .inn, nr, 0, .success, 0, 0, false, false, iov, .setup, 0xFF⟩

/-- An OUT packet of device 0. -/
def outPkt (nr : BitVec 4) (iov : List Segment) : Packet :=
  ⟨true, 7, .out, 0, .out, nr, 0, .success, 0, 0, false, false, iov, .setup, 0xFF⟩

/-- A SETUP packet of device 0. -/
def setupPkt (iov : List Segment) : Packet :=
  ⟨true, 7, .setup, 0, .out, 0, 0, .success, 0, 0, false, false, iov, .setup, 0xFF⟩

/-- A device in the middle of a control transfer. -/
def midway (b : SetupBuf) (c : CtlState) (len idx : BitVec 16) (s : State) : State :=
  s.updDev 0 fun D => { D with setupBuf := b, ctlState := c, setupLen := len, setupIndex := idx }

/-- Reset with `DE AD BE EF` at `0x4000`. -/
def withBytes : State :=
  State.resetWith {} {} [(0x4000, 0xDE), (0x4001, 0xAD), (0x4002, 0xBE), (0x4003, 0xEF)]

/-- Reset with the eight setup bytes `80 06 00 01 00 00 08 00` of Scenario A at `0x1000`. -/
def withSetupIn : State :=
  State.resetWith {} {} [(0x1000, 0x80), (0x1001, 0x06), (0x1003, 0x01), (0x1006, 0x08)]

/-- Reset with the eight setup bytes `21 09 00 02 00 00 10 00` of program P3 at `0x1000`. -/
def withSetupOut : State :=
  State.resetWith {} {} [(0x1000, 0x21), (0x1001, 0x09), (0x1003, 0x02), (0x1006, 0x10)]

def bufIn : SetupBuf := ⟨0x80, 0x06, 0, 1, 0, 0, 8, 0⟩

def bufOut : SetupBuf := ⟨0x21, 0x09, 0, 2, 0, 0, 0x10, 0⟩

/-- The descriptor bytes of program P1. -/
def bytesB : List Byte := [0x12, 0x01, 0x00, 0x02, 0x00, 0x00, 0x00, 0x40]

/-! ### Ill-formed terms (R62 (b) (c) (d), R75) -/

theorem test_wf_device :
    Instr.wellFormed State.reset.limits (.devSetAddr 4 0) = false ∧
    Instr.wellFormed State.reset.limits (.devSetAddr 0xFF 0) = false ∧
    Instr.wellFormed State.reset.limits (.devSetAddr 3 0) = true := by decide

theorem test_wf_deviceOrNone :
    Instr.wellFormed State.reset.limits (.submit 0 4) = false ∧
    Instr.wellFormed State.reset.limits (.submit 0 0xFF) = true := by decide

theorem test_wf_port :
    Instr.wellFormed State.reset.limits (.attach 4) = false ∧
    Instr.wellFormed State.reset.limits (.attach 3) = true := by decide

theorem test_wf_packet :
    Instr.wellFormed State.reset.limits (.cancel 16) = false ∧
    Instr.wellFormed State.reset.limits (.cancel 15) = true := by decide

theorem test_wf_endpoint :
    Instr.wellFormed State.reset.limits (.epGet 0 16 .out) = false ∧
    Instr.wellFormed State.reset.limits (.epGet 0 15 .out) = true := by decide

theorem test_wf_token :
    Instr.wellFormed State.reset.limits (.pktSetup 0 0 0 .reserved false false 0 0) = false ∧
    Instr.wellFormed State.reset.limits (.pktSetup 0 0 0 .setup false false 0 0) = true := by decide

theorem test_wf_hostAddr :
    Instr.wellFormed { State.reset.limits with haddrBits := 16 } (.pktIovAdd 0 0x10000 0) = false ∧
    Instr.wellFormed { State.reset.limits with haddrBits := 16 } (.pktIovAdd 0 0xFFFF 0) = true := by
  decide

/-! ### Words written out from the encodings of R56 to R61 -/

theorem test_decode_epSetType :
    decode [0x01000F00, 0x00000001] = .command (.epSetType 0 15 .out 1) [] := by decide

theorem test_decode_epSetIfnum :
    decode [0x02000200, 0x00000001] = .command (.epSetIfnum 0 2 .out 1) [] := by decide

theorem test_decode_epSetMps :
    decode [0x03010280, 0x00000C00] = .command (.epSetMps 1 2 .inn 0x0C00) [] := by decide

theorem test_decode_epSetPipe :
    decode [0x04020380, 0x00000001] = .command (.epSetPipe 2 3 .inn true) [] := by decide

theorem test_decode_epSetHalt :
    decode [0x05030400, 0x00000000] = .command (.epSetHalt 3 4 .out false) [] := by decide

theorem test_decode_epGet : decode [0x06000180] = .command (.epGet 0 1 .inn) [] := by decide

theorem test_decode_pktSetup :
    decode [0x10030201, 0xABCD0202, 0x00000007] =
      .command (.pktSetup 3 2 1 .inn false true 0xABCD 7) [] := by decide

theorem test_decode_pktIovAdd :
    decode [0x11010000, 0x00002000, 0x00000008] = .command (.pktIovAdd 1 0x2000 8) [] := by decide

theorem test_decode_pktSetParam :
    decode [0x12010000, 0x01000680, 0x00080000] =
      .command (.pktSetParam 1 0x0008000001000680) [] := by decide

theorem test_decode_submit :
    decode [0x1303FF00, 0x14000000] = .command (.submit 3 0xFF) [0x14000000] := by decide

theorem test_decode_cancel : decode [0x14010000] = .command (.cancel 1) [] := by decide

theorem test_decode_complete : decode [0x15020000] = .command (.complete 2) [] := by decide

theorem test_decode_pktRead : decode [0x16010000] = .command (.pktRead 1) [] := by decide

theorem test_decode_portBind : decode [0x2001FF00] = .command (.portBind 1 0xFF) [] := by decide

theorem test_decode_attach : decode [0x21020000] = .command (.attach 2) [] := by decide

theorem test_decode_detach : decode [0x22030000] = .command (.detach 3) [] := by decide

theorem test_decode_resetPort : decode [0x23010000] = .command (.resetPort 1) [] := by decide

theorem test_decode_findDevice : decode [0x24010500] = .command (.findDevice 1 5) [] := by decide

theorem test_decode_devSetAddr : decode [0x25000500] = .command (.devSetAddr 0 5) [] := by decide

theorem test_decode_devSetRwake : decode [0x26000100] = .command (.devSetRwake 0 true) [] := by
  decide

/-- V30-3 to V30-6, V30-11, V30-12: a set bit in a field that must be 0. -/
theorem test_decode_reserved_bits :
    decode [0x21000100] = .rejected .reservedBits 0x21000100 [] ∧
    decode [0x06000001] = .rejected .reservedBits 0x06000001 [] ∧
    decode [0x01000000, 0x00000008] = .rejected .reservedBits 0x01000000 [] ∧
    decode [0x03000000, 0x00010000] = .rejected .reservedBits 0x03000000 [] ∧
    decode [0x10000000, 0x00000005, 0] = .rejected .reservedBits 0x10000000 [] ∧
    decode [0x26000200] = .rejected .reservedBits 0x26000200 [] := by decide

/-- V30-1, V30-2, V30-13: a code outside the opcode map. -/
theorem test_decode_bad_opcode :
    decode [0x00000000] = .rejected .badOpcode 0 [] ∧
    decode [0x17000000] = .rejected .badOpcode 0x17000000 [] ∧
    decode [0x27000000] = .rejected .badOpcode 0x27000000 [] ∧
    decode [0x07000100] = .rejected .badOpcode 0x07000100 [] := by decide

/-- A command whose words are not all there waits (R55). -/
theorem test_decode_waiting :
    decode [] = .waiting ∧ decode [0x10000000, 0x00000001] = .waiting := by decide

/-- A row of the opcode table in its own bit numbering (R57, R59). -/
theorem test_decodeTableWord :
    decodeTableWord 32 0x13030000 = some (.submit 3 0) ∧
    decodeTableWord 96 (0x11000000 + 0x1000 * 2 ^ 32 + 8 * 2 ^ 64) = some (.pktIovAdd 0 0x1000 8) ∧
    decodeTableWord 32 0x17000000 = none := by decide

/-- `step` runs the word placed by `withFetchWord` as the first command after reset (V43-1). -/
theorem test_withFetchWord :
    (match step (State.reset.withFetchWord 32 0x21000000) with
      | .next t => t.fault && t.fcause == 11 && t.finfo == 0x21000000
      | .fault _ | .refused _ => false) = true := by decide

/-! ### One step per command -/

/-- V40-7. -/
theorem test_epSetType :
    gives (.epSetType 0 1 .inn 5) State.reset (fun t =>
      (t.ep ⟨0, .inn 0⟩).type == 5 && (t.ep ⟨0, .out 0⟩).type == 7) = true := by decide

/-- V40-8. -/
theorem test_epSetIfnum :
    gives (.epSetIfnum 0 2 .out 1) State.reset (fun t =>
      (t.ep ⟨0, .out 1⟩).ifnum == 1 && t.res0 == 0) = true := by decide

/-- V40-1: only the low 11 bits are kept. -/
theorem test_epSetMps :
    gives (.epSetMps 0 1 .inn 0xFFFF) State.reset (fun t =>
      (t.ep ⟨0, .inn 0⟩).maxPacketSize == 2047) = true := by decide

/-- V40-4: endpoint 0 ignores the direction. -/
theorem test_epSetMps_control :
    gives (.epSetMps 0 0 .inn 8) State.reset (fun t =>
      (t.ep ⟨0, .ctl⟩).maxPacketSize == 8) = true := by decide

/-- R79 on the last IN endpoint of the last device. -/
theorem test_epSetPipe :
    gives (.epSetPipe 3 15 .inn true) State.reset (fun t =>
      (t.ep ⟨3, .inn 14⟩).pipeline && !(t.ep ⟨3, .out 14⟩).pipeline) = true := by decide

/-- R80. -/
theorem test_epSetHalt :
    gives (.epSetHalt 0 1 .out true) State.reset (fun t => (t.ep ⟨0, .out 0⟩).halted) = true := by
  decide

/-- V40-6. -/
theorem test_epGet :
    gives (.epGet 0 1 .inn)
      (State.reset.updEp ⟨0, .inn 0⟩ fun _ => ⟨2, 2, 8, true, true, []⟩) (fun t =>
      t.res0 == 0x00020302 && t.res1 == 8 && t.res2 == 0 && t.res3 == 0xFFFFFFFF) = true := by decide

/-- P2 step 14: the queue length and its head. -/
theorem test_epGet_queue :
    gives (.epGet 0 1 .out)
      (State.reset.updEp ⟨0, .out 0⟩ fun _ => ⟨1, 0, 64, false, false, [0, 1, 2]⟩) (fun t =>
      t.res0 == 1 && t.res1 == 64 && t.res2 == 3 && t.res3 == 0) = true := by decide

/-- P2 step 5. -/
theorem test_pktSetup :
    gives (.pktSetup 0 0 1 .out false true 0 10) State.reset (fun t =>
      t.pkt 0 == { outPkt 1 [] with id := 10, intReq := true }) = true := by decide

/-- V41-23: a packet in flight. -/
theorem test_pktSetup_inflight :
    gives (.pktSetup 0 0 1 .out false false 0 1)
      (slot 0 { outPkt 1 [] with state := .async } State.reset) (fun t =>
      t.fault && t.fcause == 1 && (t.pkt 0).state == .async) = true := by decide

/-- V41-29: up to the top of host memory. -/
theorem test_pktIovAdd :
    gives (.pktIovAdd 0 0xFFFFFFFF 1) (slot 0 (outPkt 1 []) State.reset) (fun t =>
      (t.pkt 0).iov == [⟨0xFFFFFFFF, 1⟩] && !t.fault) = true := by decide

/-- V41-29: past the top of host memory. -/
theorem test_pktIovAdd_top :
    gives (.pktIovAdd 0 0xFFFFFFFF 2) (slot 0 (outPkt 1 []) State.reset) (fun t =>
      t.fault && t.fcause == 16 && (t.pkt 0).iov == []) = true := by decide

/-- V42-16. -/
theorem test_pktSetParam :
    gives (.pktSetParam 1 0x0008000001000680) (slot 1 (inPkt 0 []) State.reset) (fun t =>
      (t.pkt 1).parameter == 0x0008000001000680) = true := by decide

/-- V41-1. -/
theorem test_submit_out :
    gives (.submit 0 0) (answers [⟨0, 4, []⟩] (slot 0 (outPkt 1 [⟨0x4000, 4⟩]) (plugged withBytes)))
      (fun t =>
        t.trace == [.handleData 0 0, .outBytes 0 0 [0xDE, 0xAD, 0xBE, 0xEF]] &&
        packetWord (t.pkt 0) == 0x300 && (t.pkt 0).actualLength == 4 && t.resps == []) = true := by
  decide

/-- P1 step 5. -/
theorem test_submit_setup :
    gives (.submit 0 0)
      (answers [⟨0, 8, bytesB⟩] (slot 0 (setupPkt [⟨0x1000, 8⟩]) (plugged withSetupIn))) (fun t =>
        t.trace == [.handleControl 0 0 0x8006 0x0100 0 8 [0, 0, 0, 0, 0, 0, 0, 0]] &&
        (t.dev 0).setupBuf == bufIn && (t.dev 0).dataBuf.readList 0 8 == bytesB &&
        (t.dev 0).setupLen == 8 && (t.dev 0).setupIndex == 0 && (t.dev 0).ctlState == .data &&
        packetWord (t.pkt 0) == 0x300 && (t.pkt 0).actualLength == 8) = true := by decide

/-- P4 step 7: one cancel hook. -/
theorem test_cancel :
    gives (.cancel 0)
      (((slot 0 { inPkt 1 [] with state := .async, status := .async } State.reset).appendQueue
        ⟨0, .inn 0⟩ 0).appendQueue ⟨0, .inn 0⟩ 1) (fun t =>
        packetWord (t.pkt 0) == 0x404 && (t.ep ⟨0, .inn 0⟩).queue == [1] &&
        t.trace == [.cancelHook 0 0]) = true := by decide

/-- The queue of program P2 before step 15. -/
def p2Queue : State :=
  ((((((slot 0 { outPkt 1 [⟨0x4000, 4⟩] with
      id := 10, intReq := true, state := .async, status := .async } (plugged withBytes)).updPkt 1
    fun _ => { outPkt 1 [⟨0x4100, 4⟩] with id := 11, state := .queued, status := .async }).updPkt 2
    fun _ => { outPkt 1 [⟨0x4200, 2⟩] with id := 12, state := .queued, status := .async }).appendQueue
    ⟨0, .out 0⟩ 0).appendQueue ⟨0, .out 0⟩ 1).appendQueue ⟨0, .out 0⟩ 2)

/-- P2 step 15: the COMPLETE and the queue advance it starts. -/
theorem test_complete :
    gives (.complete 0) (answers [⟨0, 4, []⟩, ⟨0, 4, []⟩, ⟨4, 0, []⟩] p2Queue) (fun t =>
      t.trace == [.outBytes 0 0 [0xDE, 0xAD, 0xBE, 0xEF], .complete 0 10 true,
        .handleData 0 1, .outBytes 0 1 [0, 0, 0, 0], .complete 1 11 false,
        .handleData 0 2, .outBytes 0 2 []] &&
      packetWord (t.pkt 1) == 0x300 && packetWord (t.pkt 2) == 0x204 &&
      (t.ep ⟨0, .out 0⟩).queue == [2] && !t.fault) = true := by decide

/-- V41-27: NAK inside the advance. -/
theorem test_complete_advance_nak :
    gives (.complete 0) (answers [⟨0, 4, []⟩, ⟨2, 0, []⟩] p2Queue) (fun t =>
      t.fault && t.fcause == 15 && t.finfo == 0x15000000 && packetWord (t.pkt 0) == 0x300 &&
      packetWord (t.pkt 1) == 0x102 && (t.ep ⟨0, .out 0⟩).queue == [1, 2]) = true := by decide

/-- P1 step 6. -/
theorem test_pktRead :
    gives (.pktRead 0)
      (slot 0 { setupPkt [⟨0x1000, 8⟩] with id := 1, state := .complete, actualLength := 8 }
        State.reset) (fun t =>
      t.res0 == 0x300 && t.res1 == 8 && t.res2 == 1 && t.res3 == 8) = true := by decide

/-- V43-6: a device moves from port 0 to port 1. -/
theorem test_portBind :
    gives (.portBind 1 0) (after (.portBind 0 0) State.reset) (fun t =>
      (t.port 0).dev == 0xFF && (t.port 1).dev == 0 && (t.dev 0).port == 1) = true := by decide

/-- P1 step 2. -/
theorem test_attach :
    gives (.attach 0) (after (.portBind 0 0) State.reset) (fun t =>
      t.trace == [.portAttach 0 0, .attachHook 0] && (t.dev 0).attached &&
      (t.dev 0).state == .attached) = true := by decide

/-- V43-14: packets and queues stay. -/
theorem test_detach :
    gives (.detach 0)
      ((slot 0 { outPkt 1 [] with state := .async, status := .async }
        (plugged State.reset)).appendQueue ⟨0, .out 0⟩ 0) (fun t =>
      t.trace == [.portDetach 0 0] && !(t.dev 0).attached && packetWord (t.pkt 0) == 0x204 &&
      (t.ep ⟨0, .out 0⟩).queue == [0]) = true := by decide

/-- T4. -/
theorem test_resetPort :
    gives (.resetPort 0)
      ((plugged State.reset).updDev 0 fun D => { D with addr := 5, remoteWakeup := true }) (fun t =>
      t.trace == [.portDetach 0 0, .portAttach 0 0, .attachHook 0, .resetHook 0] &&
      (t.dev 0).state == .default && (t.dev 0).addr == 0 && !(t.dev 0).remoteWakeup) = true := by
  decide

/-- V43-9: the resolver is asked. -/
theorem test_findDevice :
    gives (.findDevice 0 0)
      (answers [⟨0, 2, []⟩] ((plugged State.reset).updDev 0 fun D =>
        { D with state := .default, addr := 5 })) (fun t =>
      t.trace == [.findHook 0 0] && t.res0 == 2) = true := by decide

/-- V43-8: a device in state Default at that address. -/
theorem test_findDevice_direct :
    gives (.findDevice 0 0) ((plugged State.reset).updDev 0 fun D => { D with state := .default })
      (fun t => t.trace == [] && t.res0 == 0) = true := by decide

/-- V43-9. -/
theorem test_devSetAddr :
    gives (.devSetAddr 0 0xFF) State.reset (fun t => (t.dev 0).addr == 0xFF) = true := by decide

/-- V43-13. -/
theorem test_devSetRwake :
    gives (.devSetRwake 0 true) State.reset (fun t => (t.dev 0).remoteWakeup) = true := by decide

/-! ### Hypotheses that a concrete state meets -/

theorem isDevice_of {s : State} {d : Index} (h : WellFormed.device s.limits d = true) :
    IsDevice s d :=
  have h := Bool.and_eq_true_iff.1 h
  ⟨fun hd => by simp [hd] at h, of_decide_eq_true h.2⟩

theorem isPort_of {s : State} {p : Index} (h : WellFormed.port s.limits p = true) : IsPort s p :=
  of_decide_eq_true (p := p.toNat < s.ports.length) h

theorem isPacket_of {s : State} {k : Index} (h : WellFormed.packet s.limits k = true) :
    IsPacket s k := of_decide_eq_true (p := k.toNat < s.pkts.length) h

theorem not_isDevice_of {s : State} {d : Index} (h : WellFormed.device s.limits d = false) :
    ¬ IsDevice s d := fun hd =>
  have h' : WellFormed.device s.limits d = true :=
    Bool.and_eq_true_iff.2 ⟨by simpa using hd.1, decide_eq_true hd.2⟩
  Bool.false_ne_true (h.symm.trans h')

theorem not_isPort_of {s : State} {p : Index} (h : WellFormed.port s.limits p = false) :
    ¬ IsPort s p := of_decide_eq_false (p := p.toNat < s.ports.length) h

theorem not_isPacket_of {s : State} {k : Index} (h : WellFormed.packet s.limits k = false) :
    ¬ IsPacket s k := of_decide_eq_false (p := k.toNat < s.pkts.length) h

theorem submittable_of {k d : Index} {s : State}
    (h : s.fault = false ∧ WellFormed.packet s.limits k = true ∧ (s.pkt k).valid = true ∧
      (s.pkt k).state = .setup ∧ WellFormed.device s.limits d = true ∧
      (s.dev d).attached = true ∧ (s.pkt k).dev = d) : Submittable k d s :=
  ⟨h.1, isPacket_of h.2.1, h.2.2.1, h.2.2.2.1, isDevice_of h.2.2.2.2.1, h.2.2.2.2.2.1,
    h.2.2.2.2.2.2⟩

theorem dispatchable_of {k d : Index} {s : State}
    (h : (s.fault = false ∧ WellFormed.packet s.limits k = true ∧ (s.pkt k).valid = true ∧
      (s.pkt k).state = .setup ∧ WellFormed.device s.limits d = true ∧
      (s.dev d).attached = true ∧ (s.pkt k).dev = d) ∧
      (s.ep (s.pkt k).endpoint).halted = false ∧ ((s.ep (s.pkt k).endpoint).queue = [] ∨
        (s.ep (s.pkt k).endpoint).pipeline = true ∨ (s.pkt k).stream ≠ 0)) :
    Dispatchable k d s := ⟨submittable_of h.1, h.2.1, h.2.2⟩

theorem completable_of {k : Index} {s : State}
    (h : s.fault = false ∧ WellFormed.packet s.limits k = true ∧ (s.pkt k).valid = true ∧
      (s.pkt k).state = .async ∧ (s.pkt k).dev.toNat < s.devs.length ∧
      ((s.pkt k).stream ≠ 0 ∨ (s.ep (s.pkt k).endpoint).pipeline = true ∨
        (s.ep (s.pkt k).endpoint).queue.head? = some k) ∧
      (((s.ep (s.pkt k).endpoint).queue.filter (· != k)).head?.all fun h =>
        (s.pkt h).state == .async) = true) : Completable k s :=
  ⟨h.1, isPacket_of h.2.1, h.2.2.1, h.2.2.2.1, h.2.2.2.2.1, h.2.2.2.2.2.1, fun j hj => by
    have := h.2.2.2.2.2.2; rw [hj] at this; simpa using this⟩

theorem packetOk_of {c : Config} {n : Nat} {P : Packet}
    (h : P.combined = noIndex ∧ (P.valid = false → P.state = .setup) ∧
      (P.valid = true → P.dev.toNat < n) ∧ (P.valid = true → P.token ≠ .reserved) ∧
      P.epDir = tokenDir P.token ∧ P.iov.length ≤ c.iovMax ∧
      (∀ g ∈ P.iov, g.addr.toNat + g.len.toNat ≤ c.hostSize) ∧ iovSize P.iov < 2 ^ 32 ∧
      P.actualLength.toNat ≤ iovSize P.iov ∧
      (P.state = .async → P.epNr = 0 → P.token = .setup → P.parameter = 0 → iovSize P.iov = 8)) :
    PacketOk c n P := by
  obtain ⟨a, b, c, d, e, f, g, i, j, k⟩ := h
  exact ⟨a, b, c, d, e, f, g, i, j, k⟩

theorem deviceOk_of {c : Config} {D : Device}
    (h : D.dataBuf.wf = true ∧ D.dataBuf.below c.ctrlBufSize = true ∧
      D.setupIndex.toNat ≤ D.setupLen.toNat ∧
      (D.ctlState ≠ .idle → D.setupLen.toNat ≤ c.ctrlBufSize) ∧
      (D.ctlState = .setup ∨ D.ctlState = .param → D.setupIndex = 0) ∧
      (D.attached = true ↔ D.state ≠ .notAttached) ∧
      D.state ≠ .addressed ∧ D.state ≠ .configured) : DeviceOk c D :=
  ⟨h.1, h.2.1, h.2.2.1, h.2.2.2.1, h.2.2.2.2.1, h.2.2.2.2.2.1, h.2.2.2.2.2.2⟩

theorem reads_of {s : State} {iov : List Segment} {pos n : Nat} {bs : List Byte}
    (h : vectorRead s.cfg iov s.hmem pos n = some bs) : Reads s iov pos bs := by
  obtain ⟨hl, hr⟩ := vectorRead_eq_some h
  intro j hj
  obtain ⟨a, ha, hb⟩ := hr j (hl ▸ hj)
  exact ⟨a, ha, hb.symm⟩

theorem packetsOk_slot {s : State} {k : Index} {P : Packet} (h : PacketsOk s)
    (hP : PacketOk s.cfg s.devs.length P) : PacketsOk (slot k P s) := fun j => by
  simp only [slot, State.pkt_updPkt, State.updPkt_cfg, State.updPkt_devs]
  split
  · exact hP
  · exact h j

theorem packetsOk_reset : PacketsOk State.reset := fun k => by
  rw [State.reset, State.pkt_resetWith]
  exact packetOk_of (by decide)

theorem devicesOk_reset : DevicesOk State.reset := fun d => by
  rw [State.reset, State.dev_resetWith]
  exact deviceOk_of (by decide)

theorem queuesOk_reset : QueuesOk State.reset where
  nodup r := by
    rw [State.reset, State.ep_resetWith]
    split <;> exact List.nodup_nil
  member r k h := by
    rw [State.reset, State.ep_resetWith] at h
    split at h <;> cases h
  queued k h := by
    rw [State.reset, State.pkt_resetWith] at h
    cases h

theorem bindingOk_reset : BindingOk State.reset where
  portDev p _ h := absurd (by rw [State.reset, State.port_resetWith]; rfl) h
  devPort d _ h := absurd (by rw [State.reset, State.dev_resetWith]; rfl) h
  attached d _ h := by
    rw [State.reset, State.dev_resetWith] at h
    cases h

/-- Reset with one OUT packet in each of the slots 0 and 1 of device 0. -/
def twoPackets : State :=
  slot 1 (outPkt 1 []) (slot 0 (outPkt 1 []) State.reset)

theorem queuesOk_slot {s : State} {k : Index} {P : Packet} (h : QueuesOk s)
    (hk : (s.pkt k).state.inFlight = false) (hP : P.state.inFlight = false) :
    QueuesOk (slot k P s) := by
  refine queuesOk_congr h rfl (by simp [slot]) (fun _ => rfl) fun j => ?_
  simp only [slot, State.pkt_updPkt]
  split
  · rename_i hj
    rw [← hj.1, hk, hP]
    exact ⟨rfl, fun h => by cases h⟩
  · exact ⟨rfl, fun _ => ⟨rfl, rfl⟩⟩

theorem queuesOk_twoPackets : QueuesOk twoPackets :=
  queuesOk_slot (queuesOk_slot queuesOk_reset (by decide) (by decide)) (by decide) (by decide)

/-- Packet 0 Async and packet 1 Queued behind it on OUT endpoint 1 of device 0. -/
def twoInFlight : State :=
  (((twoPackets.updPkt 0 fun P => { P with state := .async, status := .async }).appendQueue
    ⟨0, .out 0⟩ 0).updPkt 1 fun P => { P with state := .queued, status := .async }).appendQueue
    ⟨0, .out 0⟩ 1

theorem queuesOk_twoInFlight : QueuesOk twoInFlight :=
  queuesOk_enter (fun P => { P with state := .queued, status := .async })
    (queuesOk_enter (fun P => { P with state := .async, status := .async }) queuesOk_twoPackets
      (by decide) (by decide) (by decide) (by decide) fun P => ⟨rfl, rfl, rfl⟩)
    (by decide) (by decide) (by decide) (by decide) fun P => ⟨rfl, rfl, rfl⟩

theorem queuesOk_answers {s : State} {rs : List Resp} (h : QueuesOk s) : QueuesOk (answers rs s) :=
  queuesOk_congr h rfl rfl (fun _ => rfl) fun _ => ⟨rfl, fun _ => ⟨rfl, rfl⟩⟩

theorem queuesOk_updDev {s : State} {d : Index} {f : Device → Device} (h : QueuesOk s)
    (hf : ∀ D e, (f D).endpoint e = D.endpoint e) : QueuesOk (s.updDev d f) := by
  refine queuesOk_congr h (by simp) rfl (fun r => ?_) fun _ => ⟨rfl, fun _ => ⟨rfl, rfl⟩⟩
  simp only [State.ep, State.dev_updDev]
  split
  · rw [hf]
  · rfl

theorem queuesOk_plugged {s : State} (h : QueuesOk s) : QueuesOk (plugged s) :=
  queuesOk_updDev (s := s.updPort 0 fun _ => ⟨0⟩)
    (queuesOk_congr h rfl rfl (fun _ => rfl) fun _ => ⟨rfl, fun _ => ⟨rfl, rfl⟩⟩)
    fun _ e => by cases e <;> rfl

theorem queuesOk_memory {s : State} {m : Memory} (h : QueuesOk s) : QueuesOk { s with hmem := m } :=
  queuesOk_congr h rfl rfl (fun _ => rfl) fun _ => ⟨rfl, fun _ => ⟨rfl, rfl⟩⟩

/-! ### Witnesses: the step and the rules about every command -/

/-- Reset with words on the command port. -/
def withWords (ws : List Word) (s : State) : State := { s with cmds := ws }

theorem witness_WholeCommandRunsOrRaises :
    ∃ (s : State) (w0 : Word) (ws : List Word) (o : Opcode),
      s.fault = false ∧ s.resetIn = false ∧ s.cmds = w0 :: ws ∧
      Opcode.ofCode (field 24 8 w0) = some o ∧ o.words ≤ s.cmds.length :=
  ⟨withWords [0x10000000, 1, 0, 5] State.reset, 0x10000000, [1, 0, 5], .pktSetup, by decide⟩

theorem witness_WholeCommandRunsOrRaises_raises :
    ∃ (s : State) (w0 : Word) (ws : List Word) (o : Opcode),
      s.fault = false ∧ s.resetIn = false ∧ s.cmds = w0 :: ws ∧
      Opcode.ofCode (field 24 8 w0) = some o ∧ o.words ≤ s.cmds.length ∧
      step s = .next { s with cmds := [], fault := true, fcause := 16, finfo := w0 } :=
  ⟨withWords [0x21000100] State.reset, 0x21000100, [], .attach, rfl, rfl, rfl, by decide, by decide,
    rfl⟩

theorem witness_ReservedOpcodes :
    ∃ (s : State) (w0 : Word) (ws : List Word), s.fault = false ∧ s.resetIn = false ∧
      s.cmds = w0 :: ws ∧ field 24 8 w0 = 0x07 :=
  ⟨withWords [0x07000100, 0x06000000] State.reset, 0x07000100, [0x06000000], by decide⟩

/-- Words at the ends of the four ranges of reserved opcodes, and between them. -/
theorem witness_ReservedOpcodes_ranges :
    (field 24 8 0x00000000 = 0x00#8 ∧ field 24 8 0x0F000000 = 0x0F#8 ∧
      field 24 8 0x17000000 = 0x17#8 ∧ field 24 8 0x1F000000 = 0x1F#8 ∧
      field 24 8 0x27000000 = 0x27#8 ∧ field 24 8 0xFF000000 = 0xFF#8) ∧
    field 24 8 0x01000000 = 0x01#8 ∧ field 24 8 0x06000000 = 0x06#8 ∧
    field 24 8 0x10000000 = 0x10#8 ∧ field 24 8 0x16000000 = 0x16#8 ∧
    field 24 8 0x20000000 = 0x20#8 ∧ field 24 8 0x26000000 = 0x26#8 := by decide

theorem witness_StepRunsTheDecodedCommand :
    ∃ (s : State) (i : Instr) (rest : List Word), s.resetIn = false ∧ decode s.cmds = .command i rest ∧ s.cmds = encode i ++ rest :=
  ⟨withWords [0x11000000, 0x1000, 8, 0x21000000] State.reset, .pktIovAdd 0 0x1000 8, [0x21000000],
    by decide⟩

theorem witness_StepRunsTheDecodedCommand_waits :
    (∃ s : State, s.resetIn = false ∧ s.cmds = []) ∧
    ∃ (s : State) (w0 : Word) (ws : List Word) (o : Opcode), s.resetIn = false ∧
      s.cmds = w0 :: ws ∧ Opcode.ofCode (field 24 8 w0) = some o ∧ s.cmds.length < o.words :=
  ⟨⟨State.reset, by decide⟩,
    withWords [0x11000000, 0x1000] State.reset, 0x11000000, [0x1000], .pktIovAdd, by decide⟩

theorem witness_HardwareReset : ∃ s : State, s.resetIn = true ∧ s.fault = true :=
  ⟨{ State.reset with resetIn := true, fault := true, fcause := 14 }, by decide⟩

theorem witness_FaultedUntilReset : ∃ s : State, s.fault = true ∧ s.resetIn = false ∧ s.cmds ≠ [] :=
  ⟨{ State.reset with fault := true, fcause := 14, cmds := [0x06000000] }, by decide⟩

theorem witness_FaultRecordsCauseAndWord :
    ∃ s t : State, s.fault = false ∧ s.resetIn = false ∧ step s = .next t ∧ t.fault = true :=
  ⟨withWords [0x21000000] State.reset,
    { State.reset with fault := true, fcause := 11, finfo := 0x21000000 }, rfl, rfl, rfl, rfl⟩

theorem witness_ResultRegisterWriters :
    (∃ t, exec (.findDevice 0 0) State.reset = .next t ∧ (t.res0 != 0) = true) ∧
    ∃ t, exec (.epSetType 0 1 .inn 2) State.reset = .next t ∧ (!t.fault) = true :=
  ⟨next_of_gives (p := fun t => t.res0 != 0) (by decide),
    next_of_gives (p := fun t => !t.fault) (by decide)⟩

/-- V41-2. -/
theorem witness_HostMemoryChangesInsideVectors :
    ∃ s t : State, s.hmem.wf = true ∧ exec (.submit 1 0) s = .next t ∧
      t.hmem.read 0x5002 ≠ s.hmem.read 0x5002 := by
  obtain ⟨t, h, ht⟩ := next_of_gives (i := .submit 1 0)
    (s := answers [⟨0, 3, [1, 2, 3]⟩] (slot 1 (inPkt 1 [⟨0x5000, 8⟩]) (plugged State.reset)))
    (p := fun t => t.hmem.read 0x5002 == 3) (by decide)
  exact ⟨_, t, by decide, h, by rw [beq_iff_eq.1 ht]; decide⟩

theorem witness_ConfigurationConstant :
    ∃ s t : State, step s = .next t ∧ s ≠ t :=
  ⟨{ State.reset with resetIn := true }, State.reset, rfl, by decide⟩

/-- P2 step 15 without the events: a COMPLETE that reports, and a command that is none. -/
theorem witness_EventsOnlyAdded :
    (∃ t, exec (.complete 0) (answers [⟨0, 4, []⟩, ⟨0, 4, []⟩, ⟨4, 0, []⟩] p2Queue) = .next t ∧
      (completions t.trace == [0, 1]) = true) ∧
    ∃ t, exec (.attach 0) (after (.portBind 0 0) State.reset) = .next t ∧
      (t.trace != [] && completions t.trace == []) = true :=
  ⟨next_of_gives (p := fun t => completions t.trace == [0, 1]) (by decide),
    next_of_gives (p := fun t => t.trace != [] && completions t.trace == []) (by decide)⟩

theorem witness_DeviceFieldWriters_lifecycle :
    ∃ s t : State, QueuesOk s ∧ exec (.resetPort 0) s = .next t ∧
      ((t.dev 0).state != (s.dev 0).state && (t.dev 0).addr != (s.dev 0).addr &&
        (t.dev 0).remoteWakeup != (s.dev 0).remoteWakeup) = true :=
  let s := (plugged State.reset).updDev 0 fun D => { D with addr := 5, remoteWakeup := true }
  have ⟨t, h, ht⟩ := next_of_gives (i := .resetPort 0) (s := s)
    (p := fun t => (t.dev 0).state != (s.dev 0).state && (t.dev 0).addr != (s.dev 0).addr &&
      (t.dev 0).remoteWakeup != (s.dev 0).remoteWakeup) (by decide)
  ⟨s, t, queuesOk_updDev (queuesOk_plugged queuesOk_reset) fun _ e => by cases e <;> rfl, h, ht⟩

theorem witness_DeviceFieldWriters_port :
    ∃ s t : State, QueuesOk s ∧ exec (.portBind 3 3) s = .next t ∧
      ((t.dev 3).port != (s.dev 3).port) = true :=
  have ⟨t, h, ht⟩ := next_of_gives (i := .portBind 3 3) (s := State.reset)
    (p := fun t => (t.dev 3).port != (State.reset.dev 3).port) (by decide)
  ⟨_, t, queuesOk_reset, h, ht⟩

theorem witness_DeviceFieldWriters_control :
    ∃ s t : State, QueuesOk s ∧ exec (.submit 0 0) s = .next t ∧
      ((t.dev 0).setupBuf != (s.dev 0).setupBuf && (t.dev 0).ctlState != (s.dev 0).ctlState &&
        (t.dev 0).setupLen != (s.dev 0).setupLen) = true :=
  let s := { slot 0 (setupPkt [⟨0x1000, 8⟩]) (plugged State.reset) with hmem := withSetupOut.hmem }
  have ⟨t, h, ht⟩ := next_of_gives (i := .submit 0 0) (s := s)
    (p := fun t => (t.dev 0).setupBuf != (s.dev 0).setupBuf &&
      (t.dev 0).ctlState != (s.dev 0).ctlState && (t.dev 0).setupLen != (s.dev 0).setupLen)
    (by decide)
  ⟨s, t, queuesOk_memory (queuesOk_slot (queuesOk_plugged queuesOk_reset) (by decide) (by decide)),
    h, ht⟩

theorem witness_EndpointFieldWriters :
    (∃ t, exec (.epSetType 0 15 .inn 1) State.reset = .next t ∧
      ((t.ep ⟨0, .inn 14⟩).type != (State.reset.ep ⟨0, .inn 14⟩).type) = true) ∧
    (∃ t, exec (.epSetIfnum 0 1 .out 1) State.reset = .next t ∧
      ((t.ep ⟨0, .out 0⟩).ifnum != 0) = true) ∧
    (∃ t, exec (.epSetMps 3 0 .inn 8) State.reset = .next t ∧
      ((t.ep ⟨3, .ctl⟩).maxPacketSize != 64) = true) ∧
    ∃ t, exec (.epSetPipe 0 1 .out true) State.reset = .next t ∧
      (t.ep ⟨0, .out 0⟩).pipeline = true :=
  ⟨next_of_gives (p := fun t => (t.ep ⟨0, .inn 14⟩).type != (State.reset.ep ⟨0, .inn 14⟩).type)
      (by decide),
    next_of_gives (p := fun t => (t.ep ⟨0, .out 0⟩).ifnum != 0) (by decide),
    next_of_gives (p := fun t => (t.ep ⟨3, .ctl⟩).maxPacketSize != 64) (by decide),
    next_of_gives (p := fun t => (t.ep ⟨0, .out 0⟩).pipeline) (by decide)⟩

/-- V41-17 with an answer Async: the halt is cleared and the queue grows. -/
theorem witness_EndpointFieldWriters_submit :
    ∃ s t : State, (s.ep ⟨0, .out 0⟩).halted = true ∧ exec (.submit 0 0) s = .next t ∧
      (!(t.ep ⟨0, .out 0⟩).halted && (t.ep ⟨0, .out 0⟩).queue != (s.ep ⟨0, .out 0⟩).queue) = true :=
  let s := answers [⟨4, 0, []⟩]
    ((slot 0 (outPkt 1 []) (plugged State.reset)).updEp ⟨0, .out 0⟩ fun _ => ⟨1, 0, 64, true, false, []⟩)
  have ⟨t, h, ht⟩ := next_of_gives (i := .submit 0 0) (s := s)
    (p := fun t => !(t.ep ⟨0, .out 0⟩).halted &&
      (t.ep ⟨0, .out 0⟩).queue != (s.ep ⟨0, .out 0⟩).queue) (by decide)
  ⟨s, t, by decide, h, ht⟩

theorem witness_PacketFieldWriters :
    (∃ t, exec (.pktSetParam 15 1) (slot 15 (outPkt 0 []) State.reset) = .next t ∧
      ((t.pkt 15).parameter != 0) = true) ∧
    (∃ t, exec (.pktIovAdd 15 0 1) (slot 15 (outPkt 0 []) State.reset) = .next t ∧
      ((t.pkt 15).iov != []) = true) ∧
    (∃ t, exec (.submit 15 0xFF) (slot 15 (outPkt 0 []) State.reset) = .next t ∧
      ((t.pkt 15).status != .success && (t.pkt 15).state != .setup) = true) ∧
    ∃ t, exec (.complete 0) (answers [⟨0, 0, []⟩, ⟨0, 0, []⟩] twoInFlight) = .next t ∧
      ((t.pkt 1).state != (twoInFlight.pkt 1).state) = true :=
  ⟨next_of_gives (p := fun t => (t.pkt 15).parameter != 0) (by decide),
    next_of_gives (p := fun t => (t.pkt 15).iov != []) (by decide),
    next_of_gives (p := fun t => (t.pkt 15).status != .success && (t.pkt 15).state != .setup)
      (by decide),
    next_of_gives (p := fun t => (t.pkt 1).state != (twoInFlight.pkt 1).state) (by decide)⟩

/-- One transition of each command that makes one: PKT_SETUP of a Complete packet, SUBMIT, CANCEL,
and a COMPLETE whose queue advance completes the packet behind it. -/
theorem witness_PacketTransitions :
    (∃ s t : State, QueuesOk s ∧ exec (.pktSetup 0 0 1 .out false false 0 0) s = .next t ∧
      ((t.pkt 0).state != (s.pkt 0).state) = true) ∧
    (∃ s t : State, QueuesOk s ∧ exec (.submit 0 0xFF) s = .next t ∧
      ((t.pkt 0).state != (s.pkt 0).state) = true) ∧
    (∃ s t : State, QueuesOk s ∧ exec (.cancel 1) s = .next t ∧
      ((t.pkt 1).state != (s.pkt 1).state) = true) ∧
    ∃ s t : State, QueuesOk s ∧ exec (.complete 0) s = .next t ∧
      ((t.pkt 1).state != (s.pkt 1).state) = true :=
  have ⟨_, h, ht⟩ := next_of_gives (i := .pktSetup 0 0 1 .out false false 0 0)
    (s := slot 0 { outPkt 1 [] with state := .complete } State.reset)
    (p := fun t => (t.pkt 0).state != .complete) (by decide)
  have ⟨_, i, it⟩ := next_of_gives (i := .submit 0 0xFF) (s := twoPackets)
    (p := fun t => (t.pkt 0).state != .setup) (by decide)
  have ⟨_, j, jt⟩ := next_of_gives (i := .cancel 1) (s := twoInFlight)
    (p := fun t => (t.pkt 1).state != .queued) (by decide)
  have ⟨_, k, kt⟩ := next_of_gives (i := .complete 0)
    (s := answers [⟨0, 0, []⟩, ⟨0, 0, []⟩] twoInFlight)
    (p := fun t => (t.pkt 1).state != .queued) (by decide)
  ⟨⟨_, _, queuesOk_slot queuesOk_reset (by decide) (by decide), h, ht⟩,
    ⟨_, _, queuesOk_twoPackets, i, it⟩, ⟨_, _, queuesOk_twoInFlight, j, jt⟩,
    _, _, queuesOk_answers queuesOk_twoInFlight, k, kt⟩

theorem witness_CompletionsInQueueOrder :
    ∃ s t : State, QueuesOk s ∧ exec (.complete 0) s = .next t ∧
      (!t.fault && completions t.trace == [0] && (t.ep ⟨0, .out 0⟩).queue == [1]) = true :=
  have ⟨_, h, ht⟩ := next_of_gives (i := .complete 0)
    (s := answers [⟨0, 0, []⟩, ⟨4, 0, []⟩] twoInFlight)
    (p := fun t => !t.fault && completions t.trace == [0] && (t.ep ⟨0, .out 0⟩).queue == [1])
    (by decide)
  ⟨_, _, queuesOk_answers queuesOk_twoInFlight, h, ht⟩

/-! ### Witnesses: the invariants -/

theorem next_of_step {s : State} {p : State → Bool}
    (h : (match step s with | .next t => p t | .fault _ | .refused _ => false) = true) :
    ∃ t, step s = .next t ∧ p t = true := by
  split at h
  · exact ⟨_, by assumption, h⟩
  · cases h
  · cases h

theorem witness_HostMemoryInvariant :
    ∃ s t : State, HostMemoryOk s ∧ step s = .next t ∧ (t.hmem == [(0x5000, 1)]) = true :=
  let s := withWords [0x13000000]
      (answers [⟨0, 3, [1, 0, 0]⟩] (slot 0 (inPkt 1 [⟨0x5000, 8⟩]) (plugged State.reset)))
  have ⟨_, h, ht⟩ := next_of_step (p := fun t => t.hmem == [(0x5000, 1)])
    (s := s) (by decide)
  ⟨s, _, ⟨by decide, by decide⟩, h, ht⟩

theorem witness_PacketsInvariant :
    ∃ s t : State, PacketsOk s ∧ QueuesOk s ∧ step s = .next t ∧
      ((t.pkt 0).iov == [⟨0x1000, 8⟩]) = true :=
  let s := withWords [0x11000000, 0x1000, 8] (slot 0 (outPkt 1 []) State.reset)
  have ⟨_, h, ht⟩ := next_of_step (p := fun t => (t.pkt 0).iov == [⟨0x1000, 8⟩])
    (s := s) (by decide)
  ⟨s, _, packetsOk_slot packetsOk_reset (packetOk_of (by decide)),
    queuesOk_congr (s := slot 0 (outPkt 1 []) State.reset)
      (queuesOk_slot queuesOk_reset (by decide) (by decide)) rfl rfl (fun _ => rfl)
      fun _ => ⟨rfl, fun _ => ⟨rfl, rfl⟩⟩, h, ht⟩

theorem witness_DevicesInvariant :
    ∃ s t : State, DevicesOk s ∧ step s = .next t ∧ ((t.dev 0).addr == 5) = true :=
  let s := withWords [0x25000500] State.reset
  have ⟨_, h, ht⟩ := next_of_step (p := fun t => (t.dev 0).addr == 5)
    (s := s) (by decide)
  ⟨s, _, devicesOk_reset, h, ht⟩

theorem witness_QueuesInvariant :
    ∃ s t : State, QueuesOk s ∧ step s = .next t ∧ ((t.ep ⟨0, .out 0⟩).queue == [0]) = true :=
  let s := withWords [0x14010000] twoInFlight
  have ⟨_, h, ht⟩ := next_of_step (p := fun t => (t.ep ⟨0, .out 0⟩).queue == [0])
    (s := s) (by decide)
  ⟨s, _, queuesOk_congr queuesOk_twoInFlight rfl rfl (fun _ => rfl)
    fun _ => ⟨rfl, fun _ => ⟨rfl, rfl⟩⟩, h, ht⟩

theorem witness_BindingInvariant :
    ∃ s t : State, s.ports.length ≤ 255 ∧ s.devs.length ≤ 255 ∧ BindingOk s ∧ step s = .next t ∧
      ((t.port 0).dev == 0) = true :=
  let s := withWords [0x20000000] State.reset
  have ⟨_, h, ht⟩ := next_of_step (p := fun t => (t.port 0).dev == 0)
    (s := s) (by decide)
  ⟨s, _, by decide, by decide, ⟨bindingOk_reset.1, bindingOk_reset.2, bindingOk_reset.3⟩, h, ht⟩

theorem witness_StepNeverStops : ∃ s : State, PacketsOk s ∧ s.cmds ≠ [] :=
  ⟨withWords [0x15000000] (slot 0 { outPkt 1 [⟨0xFFFFFFFC, 4⟩] with state := .async } State.reset),
    packetsOk_slot packetsOk_reset (packetOk_of (by decide)), by decide⟩

theorem witness_ResetMeetsInvariants :
    ∃ (c : Config) (m : Memory), m.wf = true ∧ m.below c.hostSize = true :=
  ⟨Config.default, [(0xFFFFFFFF, 1)], by decide⟩

/-! ### Witnesses: endpoint commands, operands, preparing and reading a packet -/

theorem witness_EndpointSetters :
    ∃ s : State, s.fault = false ∧ (IsDevice s 0 ∧ (0 : Index).toNat ≤ 15) ∧
      IsDevice s 3 ∧ (15 : Index).toNat ≤ 15 :=
  ⟨State.reset, rfl, ⟨isDevice_of (by decide), by decide⟩, isDevice_of (by decide), by decide⟩

theorem witness_EndpointRead :
    ∃ s : State, s.fault = false ∧ IsDevice s 3 ∧ (15 : Index).toNat ≤ 15 ∧
      (s.ep ⟨3, epId .inn 15⟩).queue = [] ∧ (s.ep ⟨3, epId .out 15⟩).queue = [1, 0] ∧
      (s.ep ⟨3, epId .out 15⟩).queue.length < 2 ^ 32 :=
  ⟨State.reset.updEp ⟨3, .out 14⟩ fun e => { e with queue := [1, 0] }, rfl,
    isDevice_of (by decide), by decide⟩

theorem witness_EndpointLookup :
    ∃ s : State, s.fault = false ∧ ¬ IsDevice s 4 ∧ ¬ IsDevice s 0xFF ∧ IsDevice s 3 ∧
      15 < (16 : Index).toNat ∧ 15 < (0xFF : Index).toNat :=
  ⟨State.reset, rfl, not_isDevice_of (by decide), not_isDevice_of (by decide),
    isDevice_of (by decide), by decide⟩

theorem witness_IndexOperandFaults :
    ∃ s : State, s.fault = false ∧ ¬ IsPort s 4 ∧ ¬ IsPacket s 16 ∧ ¬ IsDevice s 4 ∧
      (4 : Index) ≠ noIndex ∧ ¬ IsDevice s noIndex ∧ IsPort s 3 ∧ IsPacket s 15 ∧
      (s.pkt 15).valid = false ∧ IsDevice s 3 ∧ (0xFFFFFFFF : Word).toNat < s.cfg.hostSize :=
  ⟨State.reset, rfl, not_isPort_of (by decide), not_isPacket_of (by decide),
    not_isDevice_of (by decide), by decide, not_isDevice_of (by decide), isPort_of (by decide),
    isPacket_of (by decide), by decide, isDevice_of (by decide), by decide⟩

theorem witness_PacketSetup :
    ∃ s : State, s.fault = false ∧ IsPacket s 0 ∧ IsPacket s 15 ∧ IsDevice s 3 ∧
      ((s.pkt 0).valid = true ∧ (s.pkt 0).state.inFlight = true) ∧
      ¬ ((s.pkt 15).valid = true ∧ (s.pkt 15).state.inFlight = true) ∧
      15 < (16 : Index).toNat ∧ (15 : Index).toNat ≤ 15 :=
  ⟨slot 0 { outPkt 1 [] with state := .queued } State.reset, rfl, isPacket_of (by decide),
    isPacket_of (by decide), isDevice_of (by decide), by decide⟩

theorem witness_PacketPrepared :
    ∃ s : State, s.fault = false ∧ (IsPacket s 0 ∧ (s.pkt 0).valid = true ∧ (s.pkt 0).state = .setup) ∧
      (IsPacket s 1 ∧ (s.pkt 1).valid = true ∧ (s.pkt 1).state ≠ .setup) ∧
      IsPacket s 15 ∧ (s.pkt 15).valid = false :=
  ⟨slot 1 { outPkt 1 [] with state := .complete } (slot 0 (outPkt 1 []) State.reset), rfl,
    ⟨isPacket_of (by decide), by decide⟩, ⟨isPacket_of (by decide), by decide⟩,
    isPacket_of (by decide), by decide⟩

/-- V41-28 and V41-29: the ninth segment, and the top of host memory. -/
theorem witness_PacketPrepared_segments :
    ∃ s : State, s.fault = false ∧ IsPacket s 0 ∧ IsPacket s 1 ∧
      (0xFFFFFFFF : Word).toNat < s.cfg.hostSize ∧
      (s.pkt 0).iov.length = s.cfg.iovMax ∧
      s.cfg.hostSize < (0xFFFFFFFF : Word).toNat + (2 : Word).toNat ∧
      2 ^ 32 ≤ iovSize (s.pkt 1).iov + (0xFFFFFFFF : Word).toNat ∧
      ¬ ((s.pkt 1).iov.length = s.cfg.iovMax ∨
        s.cfg.hostSize < (0xFFFFFFFF : Word).toNat + (1 : Word).toNat ∨
        2 ^ 32 ≤ iovSize (s.pkt 1).iov + (1 : Word).toNat) :=
  ⟨slot 1 (outPkt 1 [⟨0, 1⟩])
      (slot 0 (outPkt 1 [⟨0, 0⟩, ⟨0, 0⟩, ⟨0, 0⟩, ⟨0, 0⟩, ⟨0, 0⟩, ⟨0, 0⟩, ⟨0, 0⟩, ⟨0, 0⟩]) State.reset),
    rfl, isPacket_of (by decide), isPacket_of (by decide), by decide⟩

/-- The first address above a 16-bit space, and the last one in it. -/
theorem witness_PacketPrepared_address :
    ∃ s : State, s.fault = false ∧ IsPacket s 0 ∧ ¬ (0x10000 : Word).toNat < s.cfg.hostSize ∧
      (0xFFFF : Word).toNat < s.cfg.hostSize :=
  ⟨State.resetWith { haddrBits := 16 } {} [], rfl, isPacket_of (by decide), by decide⟩

theorem witness_PacketRead :
    ∃ s : State, s.fault = false ∧ IsPacket s 0 ∧ IsPacket s 15 ∧ (s.pkt 0).valid = true ∧
      iovSize (s.pkt 0).iov < 2 ^ 32 ∧ (s.pkt 15).valid = false :=
  ⟨slot 0 (outPkt 1 [⟨0, 0xFFFFFFFF⟩]) State.reset, rfl, isPacket_of (by decide),
    isPacket_of (by decide), by decide⟩

/-! ### Witnesses: SUBMIT -/

theorem witness_SubmitNoDevice :
    ∃ s : State, s.fault = false ∧ IsPacket s 0 ∧ (s.pkt 0).valid = true ∧
      (s.pkt 0).state = .setup ∧ (0xFF : Index) = noIndex ∧ IsDevice s 3 ∧
      (s.dev 3).attached = false :=
  ⟨slot 0 (outPkt 1 []) (plugged State.reset), by decide, isPacket_of (by decide), by decide,
    by decide, by decide, isDevice_of (by decide), by decide⟩

/-- V41-22 and V41-10. -/
theorem witness_SubmitRefusals :
    ∃ s : State, s.fault = false ∧ (IsPacket s 0 ∧ (s.pkt 0).valid = true ∧ (s.pkt 0).state ≠ .setup) ∧
      IsDevice s 0 ∧ (IsPacket s 1 ∧ (s.pkt 1).valid = true ∧ (s.pkt 1).state = .setup) ∧
      (0 : Index) ≠ noIndex ∧ (s.dev 0).attached = true ∧ (0 : Index) ≠ (s.pkt 1).dev :=
  ⟨slot 1 { outPkt 1 [] with dev := 1 }
      (slot 0 { outPkt 1 [] with state := .complete } (plugged State.reset)),
    by decide, ⟨isPacket_of (by decide), by decide⟩, isDevice_of (by decide),
    ⟨isPacket_of (by decide), by decide⟩, by decide⟩

/-- V41-17 and V41-18. -/
theorem witness_SubmitClearsHalt :
    (∃ s t : State, Submittable 0 0 s ∧ (s.ep (s.pkt 0).endpoint).halted = true ∧
      (s.ep (s.pkt 0).endpoint).queue = [] ∧ exec (.submit 0 0) s = .next t) ∧
    ∃ s : State, Submittable 0 0 s ∧ (s.ep (s.pkt 0).endpoint).halted = true ∧
      (s.ep (s.pkt 0).endpoint).queue ≠ [] :=
  let s := fun q => answers [⟨0, 0, []⟩]
    ((slot 0 (outPkt 1 []) (plugged State.reset)).updEp ⟨0, .out 0⟩ fun _ => ⟨1, 0, 64, true, false, q⟩)
  have ⟨t, h, _⟩ := next_of_gives (i := .submit 0 0) (s := s []) (p := fun _ => true) (by decide)
  ⟨⟨s [], t, submittable_of (by decide), by decide, by decide, h⟩,
    s [1], submittable_of (by decide), by decide⟩

/-- V41-13 and Scenario C. -/
theorem witness_SubmitBusy :
    (∃ s : State, Submittable 1 0 s ∧ (s.ep (s.pkt 1).endpoint).halted = false ∧
      (s.ep (s.pkt 1).endpoint).queue ≠ [] ∧ (s.ep (s.pkt 1).endpoint).pipeline = false ∧
      (s.pkt 1).stream = 0 ∧ s.cfg.strictInflight = false) ∧
    ∃ s : State, Submittable 1 0 s ∧ (s.ep (s.pkt 1).endpoint).halted = false ∧
      (s.ep (s.pkt 1).endpoint).queue ≠ [] ∧ (s.ep (s.pkt 1).endpoint).pipeline = false ∧
      (s.pkt 1).stream = 0 ∧ s.cfg.strictInflight = true :=
  let s := fun c => (slot 1 (outPkt 1 []) (plugged (State.resetWith c {} []))).appendQueue ⟨0, .out 0⟩ 0
  ⟨⟨s {}, submittable_of (by decide), by decide⟩,
    s { strictInflight := true }, submittable_of (by decide), by decide⟩

/-- V41-2, and V41-32's answer Async with bytes. -/
theorem witness_SubmitDataIn :
    (∃ s : State, Dispatchable 1 0 s ∧ Sound 1 0 s ∧ (s.pkt 1).epNr ≠ 0 ∧ (s.pkt 1).token = .inn ∧
      Status.success.code = (reply 0 7 s).status ∧
      (reply 0 7 s).data.length = (reply 0 7 s).n.toNat ∧
      (s.pkt 1).actualLength.toNat + (reply 0 7 s).n.toNat ≤ iovSize (s.pkt 1).iov) ∧
    ∃ s : State, Dispatchable 1 0 s ∧ Sound 1 0 s ∧ (s.pkt 1).epNr ≠ 0 ∧ (s.pkt 1).token = .inn ∧
      Status.async.code = (reply 0 7 s).status ∧
      (reply 0 7 s).data.length = (reply 0 7 s).n.toNat ∧
      (s.pkt 1).actualLength.toNat + (reply 0 7 s).n.toNat ≤ iovSize (s.pkt 1).iov ∧
      MayDefer (s.pkt 1).endpoint s :=
  let s := fun r => answers [r] (slot 1 (inPkt 1 [⟨0x5000, 3⟩]) (plugged State.reset))
  ⟨⟨s ⟨0, 3, [1, 2, 3]⟩, dispatchable_of (by decide),
      ⟨by decide, packetOk_of (by decide), deviceOk_of (by decide)⟩, by decide⟩,
    s ⟨4, 2, [0xAA, 0xBB]⟩, dispatchable_of (by decide),
    ⟨by decide, packetOk_of (by decide), deviceOk_of (by decide)⟩, by decide, by decide, by decide,
    by decide, by decide, by decide, by decide⟩

/-- V41-33: the absent hook. -/
theorem witness_SubmitDataIn_absent :
    ∃ s : State, Dispatchable 1 0 s ∧ Sound 1 0 s ∧ (s.pkt 1).epNr ≠ 0 ∧ (s.pkt 1).token = .inn ∧
      s.hasHook 0 7 = false ∧ Status.success.code = (reply 0 7 s).status ∧
      (reply 0 7 s).data.length = (reply 0 7 s).n.toNat ∧
      (s.pkt 1).actualLength.toNat + (reply 0 7 s).n.toNat ≤ iovSize (s.pkt 1).iov :=
  ⟨slot 1 (inPkt 1 []) (plugged (State.resetWith { caps := [0x77F] } {} [])),
    dispatchable_of (by decide),
    ⟨by decide, packetOk_of (by decide), deviceOk_of (by decide)⟩, by decide⟩

/-- V41-1, and V41-31: a SETUP token on endpoint 1. -/
theorem witness_SubmitDataOut :
    ∀ tk, tk = .out ∨ tk = .setup →
    ∃ s : State, Dispatchable 0 0 s ∧ Sound 0 0 s ∧ (s.pkt 0).epNr ≠ 0 ∧ (s.pkt 0).token = tk ∧
      Status.success.code = (reply 0 7 s).status ∧ (reply 0 7 s).data = [] ∧
      (s.pkt 0).actualLength.toNat + (reply 0 7 s).n.toNat ≤ iovSize (s.pkt 0).iov := by
  rintro tk (rfl | rfl)
  · exact ⟨answers [⟨0, 4, []⟩] (slot 0 (outPkt 1 [⟨0x4000, 4⟩]) (plugged withBytes)),
      dispatchable_of (by decide),
      ⟨by decide, packetOk_of (by decide), deviceOk_of (by decide)⟩, by decide⟩
  · exact ⟨answers [⟨0, 0, []⟩]
        (slot 0 { setupPkt [⟨0x4000, 4⟩] with epNr := 1 } (plugged withBytes)),
      dispatchable_of (by decide),
      ⟨by decide, packetOk_of (by decide), deviceOk_of (by decide)⟩, by decide⟩

/-- V41-3 and a reserved status. -/
theorem witness_ResponseFaults :
    (∃ s : State, Dispatchable 1 0 s ∧ Sound 1 0 s ∧ (s.pkt 1).epNr ≠ 0 ∧ s.hasHook 0 7 = true ∧
      6 ≤ s.nextResp.status.toNat) ∧
    (∃ s : State, Dispatchable 1 0 s ∧ Sound 1 0 s ∧ (s.pkt 1).epNr ≠ 0 ∧ s.hasHook 0 7 = true ∧
      (s.pkt 1).token = .inn ∧ s.nextResp.data.length ≠ s.nextResp.n.toNat) ∧
    ∃ s : State, Dispatchable 1 0 s ∧ Sound 1 0 s ∧ (s.pkt 1).epNr ≠ 0 ∧ s.hasHook 0 7 = true ∧
      s.nextResp.status.toNat < 6 ∧ (s.pkt 1).token = .inn ∧
      s.nextResp.data.length = s.nextResp.n.toNat ∧
      iovSize (s.pkt 1).iov < (s.pkt 1).actualLength.toNat + s.nextResp.n.toNat :=
  let s := fun r => answers [r] (slot 1 (inPkt 1 [⟨0x5000, 3⟩]) (plugged State.reset))
  ⟨⟨s ⟨6, 0, []⟩, dispatchable_of (by decide),
      ⟨by decide, packetOk_of (by decide), deviceOk_of (by decide)⟩, by decide⟩,
    ⟨s ⟨5, 1, []⟩, dispatchable_of (by decide),
      ⟨by decide, packetOk_of (by decide), deviceOk_of (by decide)⟩, by decide⟩,
    s ⟨5, 4, [1, 2, 3, 4]⟩, dispatchable_of (by decide),
    ⟨by decide, packetOk_of (by decide), deviceOk_of (by decide)⟩, by decide⟩

/-- V41-15 and V41-16, with a byte that moves. -/
theorem witness_ResponseFaults_async :
    ∀ ty : BitVec 3, ty = 3 ∨ ty = 2 →
    ∃ s : State, Dispatchable 0 0 s ∧ Sound 0 0 s ∧ (s.pkt 0).epNr ≠ 0 ∧ s.hasHook 0 7 = true ∧
      s.nextResp.status = 4 ∧ (s.pkt 0).token = .inn ∧
      s.nextResp.data.length = s.nextResp.n.toNat ∧
      (s.pkt 0).actualLength.toNat + s.nextResp.n.toNat ≤ iovSize (s.pkt 0).iov ∧
      (s.ep (s.pkt 0).endpoint).type = ty ∧ ¬ MayDefer (s.pkt 0).endpoint s := by
  have key : ∀ s : State, (s.ep (s.pkt 0).endpoint).type = 3 ∨
      ((s.ep (s.pkt 0).endpoint).type = 2 ∧ s.hostRole (s.pkt 0).endpoint.dev = false) →
      ¬ MayDefer (s.pkt 0).endpoint s := fun s h m => by
    rcases h with h | h
    · exact m.1 h
    · exact Bool.false_ne_true (h.2.symm.trans (m.2 h.1))
  rintro ty (rfl | rfl)
  · exact ⟨answers [⟨4, 1, [9]⟩] ((slot 0 (inPkt 1 [⟨0, 1⟩]) (plugged State.reset)).updEp
        ⟨0, .inn 0⟩ fun e => { e with type := 3 }), dispatchable_of (by decide),
      ⟨by decide, packetOk_of (by decide), deviceOk_of (by decide)⟩, by decide, by decide,
      by decide, by decide, by decide, by decide, by decide, key _ (by decide)⟩
  · exact ⟨answers [⟨4, 1, [9]⟩] ((slot 0 (inPkt 1 [⟨0, 1⟩]) (plugged State.reset)).updEp
        ⟨0, .inn 0⟩ fun e => { e with type := 2 }), dispatchable_of (by decide),
      ⟨by decide, packetOk_of (by decide), deviceOk_of (by decide)⟩, by decide, by decide,
      by decide, by decide, by decide, by decide, by decide, key _ (by decide)⟩

/-- The status phase of program P3 with the three malformed answers of R67 and R100: a reserved
status, a wrong data list, and one byte more than a buffer of 16 bytes holds (V42-24). -/
theorem witness_ResponseFaults_control :
    ∀ r : Resp, r = ⟨6, 0, []⟩ ∨ r = ⟨0, 1, []⟩ ∨ r = ⟨0, 17, List.replicate 17 1⟩ →
    ∃ (s : State) (bs : List Byte) (P : Packet) (D : Device), Dispatchable 3 0 s ∧ Sound 3 0 s ∧
      (s.pkt 3).epNr = 0 ∧ s.hasHook 0 6 = true ∧ ControlCall s 3 0 bs P D ∧ s.nextResp = r ∧
      (6 ≤ r.status.toNat ∨ ¬ AcceptedByControl s r) := by
  rintro r (rfl | rfl | rfl)
  · exact ⟨answers [⟨6, 0, []⟩] (slot 3 (inPkt 0 [])
        (midway bufOut .ack 16 16 (plugged (State.resetWith { ctrlBufSize := 16 } {} [])))), _, _, _,
      dispatchable_of (by decide),
      ⟨by decide, packetOk_of (by decide), deviceOk_of (by decide)⟩, by decide, by decide,
      .statusPhase (by decide) (by decide) (by decide) (by decide), rfl, .inl (by decide)⟩
  · exact ⟨answers [⟨0, 1, []⟩] (slot 3 (inPkt 0 [])
        (midway bufOut .ack 16 16 (plugged (State.resetWith { ctrlBufSize := 16 } {} [])))), _, _, _,
      dispatchable_of (by decide),
      ⟨by decide, packetOk_of (by decide), deviceOk_of (by decide)⟩, by decide, by decide,
      .statusPhase (by decide) (by decide) (by decide) (by decide), rfl,
      .inr fun h => absurd h.1 (by decide)⟩
  · exact ⟨answers [⟨0, 17, List.replicate 17 1⟩] (slot 3 (inPkt 0 [])
        (midway bufOut .ack 16 16 (plugged (State.resetWith { ctrlBufSize := 16 } {} [])))), _, _, _,
      dispatchable_of (by decide),
      ⟨by decide, packetOk_of (by decide), deviceOk_of (by decide)⟩, by decide, by decide,
      .statusPhase (by decide) (by decide) (by decide) (by decide), rfl,
      .inr fun h => absurd h.2 (by decide)⟩

/-- An answer Async on an endpoint 0 typed Isochronous, to the SETUP token of P1, and on one typed
Interrupt, to the Param packet of V42-16. -/
theorem witness_ResponseFaults_control_async :
    (∃ (s : State) (bs : List Byte) (P : Packet) (D : Device), Dispatchable 0 0 s ∧ Sound 0 0 s ∧
      (s.pkt 0).epNr = 0 ∧ s.hasHook 0 6 = true ∧ ControlCall s 0 0 bs P D ∧
      s.nextResp.status = 4 ∧ AcceptedByControl s s.nextResp ∧
      (s.ep (s.pkt 0).endpoint).type = 3 ∧ ¬ MayDefer (s.pkt 0).endpoint s) ∧
    ∃ (s : State) (bs : List Byte) (P : Packet) (D : Device), Dispatchable 1 0 s ∧ Sound 1 0 s ∧
      (s.pkt 1).epNr = 0 ∧ s.hasHook 0 6 = true ∧ ControlCall s 1 0 bs P D ∧
      s.nextResp.status = 4 ∧ AcceptedByControl s s.nextResp ∧
      (s.ep (s.pkt 1).endpoint).type = 2 ∧ ¬ MayDefer (s.pkt 1).endpoint s :=
  ⟨⟨answers [⟨4, 0, []⟩] ((slot 0 (setupPkt [⟨0x1000, 8⟩]) (plugged withSetupIn)).updEp ⟨0, .ctl⟩
        fun e => { e with type := 3 }), bytesOfBuffer bufIn, _, _, dispatchable_of (by decide),
      ⟨by decide, packetOk_of (by decide), deviceOk_of (by decide)⟩, by decide, by decide,
      .setupToken _ (by decide) (by decide) (by decide) (by decide) (reads_of (n := 8) (by decide))
        (by decide) (by decide),
      by decide, ⟨by decide, by decide⟩, by decide, fun m => m.1 (by decide)⟩,
    answers [⟨4, 0, []⟩] ((slot 1 { inPkt 0 [⟨0x2000, 8⟩] with parameter := 0x0008000001000680 }
        (plugged State.reset)).updEp ⟨0, .ctl⟩ fun e => { e with type := 2 }), _, _, _,
    dispatchable_of (by decide),
    ⟨by decide, packetOk_of (by decide), deviceOk_of (by decide)⟩, by decide, by decide,
    .param [] (by decide) (by decide) (by rw [if_neg (by decide)]),
    by decide, ⟨by decide, by decide⟩, by decide, fun m => absurd (m.2 (by decide)) (by decide)⟩

/-! ### Witnesses: control transfers -/

theorem witness_SetupWrongSizeStalls :
    ∃ s : State, Dispatchable 0 0 s ∧ (s.pkt 0).epNr = 0 ∧ (s.pkt 0).parameter = 0 ∧
      (s.pkt 0).token = .setup ∧ iovSize (s.pkt 0).iov ≠ 8 :=
  ⟨slot 0 (setupPkt [⟨0x1000, 7⟩]) (plugged withSetupIn), dispatchable_of (by decide), by decide⟩

/-- The requests of V42-2: one byte more than the buffer holds. -/
def bytesOversized : List Byte := [0x80, 0x06, 0x00, 0x01, 0x00, 0x00, 0x01, 0x10]

theorem witness_OversizedRequestStalls :
    (∃ s : State, Dispatchable 0 0 s ∧ Sound 0 0 s ∧ (s.pkt 0).epNr = 0 ∧
      s.cfg.ctrlBufSize < (lengthOf bytesOversized).toNat ∧ (s.pkt 0).parameter = 0 ∧
      (s.pkt 0).token = .setup ∧ iovSize (s.pkt 0).iov = 8 ∧
      Reads s (s.pkt 0).iov 0 bytesOversized) ∧
    ∃ s : State, Dispatchable 0 0 s ∧ Sound 0 0 s ∧ (s.pkt 0).epNr = 0 ∧
      s.cfg.ctrlBufSize < (lengthOf bytesOversized).toNat ∧ (s.pkt 0).parameter ≠ 0 ∧
      bytesOversized = parameterBytes (s.pkt 0).parameter :=
  ⟨⟨slot 0 (setupPkt [⟨0x1000, 8⟩]) (plugged (State.resetWith {} {}
        [(0x1000, 0x80), (0x1001, 0x06), (0x1003, 0x01), (0x1006, 0x01), (0x1007, 0x10)])),
      dispatchable_of (by decide),
      ⟨by decide, packetOk_of (by decide), deviceOk_of (by decide)⟩, by decide, by decide,
      by decide, by decide, by decide, reads_of (n := 8) (by decide)⟩,
    slot 0 { inPkt 0 [] with parameter := 0x1001000001000680 } (plugged State.reset),
    dispatchable_of (by decide),
    ⟨by decide, packetOk_of (by decide), deviceOk_of (by decide)⟩, by decide⟩

/-- P3 step 4, and V42-23: no data stage. -/
theorem witness_SetupOutRequest :
    (∃ (s : State) (bs : List Byte), Dispatchable 0 0 s ∧ Sound 0 0 s ∧ (s.pkt 0).epNr = 0 ∧
      (s.pkt 0).parameter = 0 ∧ (s.pkt 0).token = .setup ∧ iovSize (s.pkt 0).iov = 8 ∧
      bs.length = 8 ∧ Reads s (s.pkt 0).iov 0 bs ∧ (lengthOf bs).toNat ≤ s.cfg.ctrlBufSize ∧
      dirInOf bs = false ∧ lengthOf bs = 16) ∧
    ∃ (s : State) (bs : List Byte), Dispatchable 0 0 s ∧ Sound 0 0 s ∧ (s.pkt 0).epNr = 0 ∧
      (s.pkt 0).parameter = 0 ∧ (s.pkt 0).token = .setup ∧ iovSize (s.pkt 0).iov = 8 ∧
      bs.length = 8 ∧ Reads s (s.pkt 0).iov 0 bs ∧ (lengthOf bs).toNat ≤ s.cfg.ctrlBufSize ∧
      dirInOf bs = false ∧ lengthOf bs = 0 :=
  ⟨⟨slot 0 (setupPkt [⟨0x1000, 8⟩]) (plugged withSetupOut), bytesOfBuffer bufOut,
      dispatchable_of (by decide),
      ⟨by decide, packetOk_of (by decide), deviceOk_of (by decide)⟩, by decide, by decide,
      by decide, by decide, by decide, reads_of (n := 8) (by decide), by decide⟩,
    slot 0 (setupPkt [⟨0x1000, 8⟩]) (plugged (State.resetWith {} {} [(0x1001, 5), (0x1002, 7)])),
    [0, 5, 7, 0, 0, 0, 0, 0], dispatchable_of (by decide),
    ⟨by decide, packetOk_of (by decide), deviceOk_of (by decide)⟩, by decide, by decide, by decide,
    by decide, by decide, reads_of (n := 8) (by decide), by decide⟩

/-- P1 step 5, V42-14 (Async) and V42-12 (Stall). -/
theorem witness_SetupInRequest :
    ∀ st, st = .success ∨ st = .async ∨ st = .stall →
    ∃ (s : State) (bs : List Byte), Dispatchable 0 0 s ∧ Sound 0 0 s ∧ (s.pkt 0).epNr = 0 ∧
      (s.pkt 0).parameter = 0 ∧ (s.pkt 0).token = .setup ∧ iovSize (s.pkt 0).iov = 8 ∧
      bs.length = 8 ∧ Reads s (s.pkt 0).iov 0 bs ∧ (lengthOf bs).toNat ≤ s.cfg.ctrlBufSize ∧
      dirInOf bs = true ∧ Status.code st = (reply 0 6 s).status ∧ AcceptedByControl s (reply 0 6 s) ∧
      MayDefer (s.pkt 0).endpoint s := by
  rintro st (rfl | rfl | rfl)
  · exact ⟨answers [⟨0, 8, bytesB⟩] (slot 0 (setupPkt [⟨0x1000, 8⟩]) (plugged withSetupIn)),
      bytesOfBuffer bufIn, dispatchable_of (by decide),
      ⟨by decide, packetOk_of (by decide), deviceOk_of (by decide)⟩, by decide, by decide,
      by decide, by decide, by decide, reads_of (n := 8) (by decide), by decide, by decide,
      by decide, ⟨by decide, by decide⟩, by decide, by decide⟩
  · exact ⟨answers [⟨4, 0, []⟩] (slot 0 (setupPkt [⟨0x1000, 8⟩]) (plugged withSetupIn)),
      bytesOfBuffer bufIn, dispatchable_of (by decide),
      ⟨by decide, packetOk_of (by decide), deviceOk_of (by decide)⟩, by decide, by decide,
      by decide, by decide, by decide, reads_of (n := 8) (by decide), by decide, by decide,
      by decide, ⟨by decide, by decide⟩, by decide, by decide⟩
  · exact ⟨answers [⟨3, 0, []⟩] (slot 0 (setupPkt [⟨0x1000, 8⟩]) (plugged withSetupIn)),
      bytesOfBuffer bufIn, dispatchable_of (by decide),
      ⟨by decide, packetOk_of (by decide), deviceOk_of (by decide)⟩, by decide, by decide,
      by decide, by decide, by decide, reads_of (n := 8) (by decide), by decide, by decide,
      by decide, ⟨by decide, by decide⟩, by decide, by decide⟩

/-- P1 step 9: the least of 8, 64 and 8 ends the Data phase; V42-19: the vector is shorter. -/
theorem witness_DataPhaseIn :
    ∀ n : Word, n = 8 ∨ n = 4 →
    ∃ s : State, Dispatchable 1 0 s ∧ Sound 1 0 s ∧ (s.pkt 1).epNr = 0 ∧ (s.pkt 1).parameter = 0 ∧
      (s.pkt 1).token = .inn ∧ (s.dev 0).ctlState = .data ∧
      dirInOf (bytesOfBuffer (s.dev 0).setupBuf) = true ∧ (s.pkt 1).iov = [⟨0x2000, n⟩] := by
  rintro n (rfl | rfl)
  · exact ⟨slot 1 (inPkt 0 [⟨0x2000, 8⟩]) (midway bufIn .data 8 0 (plugged State.reset)),
      dispatchable_of (by decide),
      ⟨by decide, packetOk_of (by decide), deviceOk_of (by decide)⟩, by decide⟩
  · exact ⟨slot 1 (inPkt 0 [⟨0x2000, 4⟩]) (midway bufIn .data 8 0 (plugged State.reset)),
      dispatchable_of (by decide),
      ⟨by decide, packetOk_of (by decide), deviceOk_of (by decide)⟩, by decide⟩

/-- P3 step 8. -/
theorem witness_DataPhaseOut :
    ∃ s : State, Dispatchable 2 0 s ∧ Sound 2 0 s ∧ (s.pkt 2).epNr = 0 ∧ (s.pkt 2).parameter = 0 ∧
      (s.pkt 2).token = .out ∧ (s.dev 0).ctlState = .data ∧
      dirInOf (bytesOfBuffer (s.dev 0).setupBuf) = false :=
  ⟨slot 2 (outPkt 0 [⟨0x2008, 8⟩]) (midway bufOut .data 16 8 (plugged State.reset)),
    dispatchable_of (by decide),
    ⟨by decide, packetOk_of (by decide), deviceOk_of (by decide)⟩, by decide⟩

/-- P3 step 10. -/
theorem witness_StatusPhaseOfOutRequest :
    ∃ s : State, Dispatchable 3 0 s ∧ Sound 3 0 s ∧ (s.pkt 3).epNr = 0 ∧ (s.pkt 3).parameter = 0 ∧
      (s.pkt 3).token = .inn ∧ (s.dev 0).ctlState = .ack ∧
      dirInOf (bytesOfBuffer (s.dev 0).setupBuf) = false ∧
      Status.async.code = (reply 0 6 s).status ∧ AcceptedByControl s (reply 0 6 s) ∧
      MayDefer (s.pkt 3).endpoint s :=
  ⟨answers [⟨4, 0, []⟩] (slot 3 (inPkt 0 []) (midway bufOut .ack 16 16 (plugged State.reset))),
    dispatchable_of (by decide),
    ⟨by decide, packetOk_of (by decide), deviceOk_of (by decide)⟩, by decide, by decide, by decide,
    by decide, by decide, by decide, ⟨by decide, by decide⟩, by decide, by decide⟩

/-- P1 step 12, V42-21 and V42-22. -/
theorem witness_AckTokens :
    ∀ c : Packet × SetupBuf,
      c = (outPkt 0 [], bufIn) ∨ c = (outPkt 0 [⟨0x2000, 8⟩], bufOut) ∨
        c = (inPkt 0 [⟨0x2000, 8⟩], bufIn) →
    ∃ s : State, Dispatchable 2 0 s ∧ (s.pkt 2).epNr = 0 ∧ (s.pkt 2).parameter = 0 ∧
      (s.dev 0).ctlState = .ack ∧ s.pkt 2 = c.1 ∧ (s.dev 0).setupBuf = c.2 ∧
      (c.1.token = .out ∨ (c.1.token = .inn ∧ dirInOf (bytesOfBuffer c.2) = true)) := by
  rintro c (rfl | rfl | rfl)
  · exact ⟨slot 2 (outPkt 0 []) (midway bufIn .ack 8 8 (plugged State.reset)),
      dispatchable_of (by decide), by decide⟩
  · exact ⟨slot 2 (outPkt 0 [⟨0x2000, 8⟩]) (midway bufOut .ack 16 16 (plugged State.reset)),
      dispatchable_of (by decide), by decide⟩
  · exact ⟨slot 2 (inPkt 0 [⟨0x2000, 8⟩]) (midway bufIn .ack 8 8 (plugged State.reset)),
      dispatchable_of (by decide), by decide⟩

/-- An IN token in each state, and an OUT token in the Data phase of an IN request. -/
theorem witness_UnexpectedTokenStalls :
    (∀ c, c = .idle ∨ c = .setup ∨ c = .param ∨ c = .data →
      ∃ s : State, Dispatchable 2 0 s ∧ (s.pkt 2).epNr = 0 ∧ (s.pkt 2).parameter = 0 ∧
        (s.pkt 2).token = .inn ∧ (s.dev 0).ctlState = c ∧
        dirInOf (bytesOfBuffer (s.dev 0).setupBuf) = false) ∧
    ∃ s : State, Dispatchable 2 0 s ∧ (s.pkt 2).epNr = 0 ∧ (s.pkt 2).parameter = 0 ∧
      (s.pkt 2).token = .out ∧ (s.dev 0).ctlState = .data ∧
      dirInOf (bytesOfBuffer (s.dev 0).setupBuf) = true := by
  refine ⟨?_, slot 2 (outPkt 0 []) (midway bufIn .data 8 0 (plugged State.reset)),
    dispatchable_of (by decide), by decide⟩
  rintro c (rfl | rfl | rfl | rfl)
  · exact ⟨slot 2 (inPkt 0 []) (midway bufOut .idle 8 0 (plugged State.reset)),
      dispatchable_of (by decide), by decide⟩
  · exact ⟨slot 2 (inPkt 0 []) (midway bufOut .setup 8 0 (plugged State.reset)),
      dispatchable_of (by decide), by decide⟩
  · exact ⟨slot 2 (inPkt 0 []) (midway bufOut .param 8 0 (plugged State.reset)),
      dispatchable_of (by decide), by decide⟩
  · exact ⟨slot 2 (inPkt 0 []) (midway bufOut .data 8 0 (plugged State.reset)),
      dispatchable_of (by decide), by decide⟩

/-- V42-16. -/
theorem witness_ParameterRequest_in :
    ∃ s : State, Dispatchable 1 0 s ∧ Sound 1 0 s ∧ (s.pkt 1).epNr = 0 ∧ (s.pkt 1).parameter ≠ 0 ∧
      (lengthOf (parameterBytes (s.pkt 1).parameter)).toNat ≤ s.cfg.ctrlBufSize ∧
      (s.pkt 1).token = .inn ∧ Status.success.code = (reply 0 6 s).status ∧
      AcceptedByControl s (reply 0 6 s) :=
  ⟨answers [⟨0, 8, bytesB⟩] (slot 1
      { inPkt 0 [⟨0x2000, 8⟩] with parameter := 0x0008000001000680 } (plugged State.reset)),
    dispatchable_of (by decide),
    ⟨by decide, packetOk_of (by decide), deviceOk_of (by decide)⟩, by decide, by decide, by decide,
    by decide, by decide, by decide, by decide⟩

/-- V42-17, with the bytes at `0x4000`. -/
theorem witness_ParameterRequest_out :
    ∃ (s : State) (ps : List Byte), Dispatchable 1 0 s ∧ Sound 1 0 s ∧ (s.pkt 1).epNr = 0 ∧
      (s.pkt 1).parameter ≠ 0 ∧
      (lengthOf (parameterBytes (s.pkt 1).parameter)).toNat ≤ s.cfg.ctrlBufSize ∧
      (s.pkt 1).token = .out ∧
      ps.length = min (lengthOf (parameterBytes (s.pkt 1).parameter)).toNat (iovSize (s.pkt 1).iov) ∧
      Reads s (s.pkt 1).iov 0 ps ∧ Status.async.code = (reply 0 6 s).status ∧
      AcceptedByControl s (reply 0 6 s) ∧ MayDefer (s.pkt 1).endpoint s :=
  ⟨answers [⟨4, 0, []⟩] (slot 1
      { outPkt 0 [⟨0x4000, 4⟩] with parameter := 0x0004000002000921 } (plugged withBytes)),
    [0xDE, 0xAD, 0xBE, 0xEF], dispatchable_of (by decide),
    ⟨by decide, packetOk_of (by decide), deviceOk_of (by decide)⟩, by decide, by decide, by decide,
    by decide, by decide, reads_of (n := 4) (by decide), by decide, ⟨by decide, by decide⟩,
    by decide, by decide⟩

/-! ### Witnesses: CANCEL and COMPLETE -/

theorem witness_Cancel :
    ∃ s : State, s.fault = false ∧
      (IsPacket s 0 ∧ (s.pkt 0).valid = true ∧ (s.pkt 0).state.inFlight = true ∧
        (s.pkt 0).state = .async ∧ s.hasHook (s.pkt 0).dev 2 = true) ∧
      (IsPacket s 1 ∧ (s.pkt 1).valid = true ∧ (s.pkt 1).state.inFlight = false) ∧
      IsPacket s 15 ∧ (s.pkt 15).valid = false :=
  ⟨slot 1 { outPkt 1 [] with state := .canceled }
      ((slot 0 { outPkt 1 [] with state := .async } State.reset).appendQueue ⟨0, .out 0⟩ 0),
    rfl, ⟨isPacket_of (by decide), by decide⟩, ⟨isPacket_of (by decide), by decide⟩,
    isPacket_of (by decide), by decide⟩

/-- V41-26, V41-25 and V41-21. -/
theorem witness_CompleteRefusals :
    (∃ s : State, s.fault = false ∧ IsPacket s 1 ∧ (s.pkt 1).valid = true ∧
      (s.pkt 1).state ≠ .async) ∧
    (∃ s : State, s.fault = false ∧ IsPacket s 0 ∧ (s.pkt 0).valid = true ∧
      (s.pkt 0).state = .async ∧ s.nextResp.status = 2) ∧
    ∃ s : State, s.fault = false ∧ IsPacket s 1 ∧ (s.pkt 1).valid = true ∧
      (s.pkt 1).state = .async ∧
      ¬ (s.nextResp.status = 2 ∨ s.nextResp.status = 4 ∨ s.nextResp.status = 5) ∧
      (s.pkt 1).stream = 0 ∧ (s.ep (s.pkt 1).endpoint).pipeline = false ∧
      (s.ep (s.pkt 1).endpoint).queue.head? ≠ some 1 :=
  ⟨⟨twoInFlight, by decide, isPacket_of (by decide), by decide⟩,
    ⟨answers [⟨2, 0, []⟩] twoInFlight, by decide, isPacket_of (by decide), by decide⟩,
    answers [⟨0, 0, []⟩] (twoInFlight.updPkt 1 fun P => { P with state := .async }), by decide,
    isPacket_of (by decide), by decide⟩

/-- V41-25 with a reserved status, a data list where none may be, and one byte too many. -/
theorem witness_CompleteRefusals_response :
    ∃ s : Resp → State, ∀ r : Resp, r = ⟨6, 0, []⟩ ∨ r = ⟨0, 1, [1]⟩ ∨ r = ⟨0, 1, []⟩ →
      (s r).fault = false ∧ IsPacket (s r) 0 ∧ ((s r).pkt 0).valid = true ∧
      ((s r).pkt 0).state = .async ∧ (s r).nextResp = r ∧ ((s r).pkt 0).token = .out ∧
      ((s r).ep ((s r).pkt 0).endpoint).queue.head? = some 0 ∧ ((s r).pkt 0).epNr ≠ 0 ∧
      iovSize ((s r).pkt 0).iov < ((s r).pkt 0).actualLength.toNat + (1 : Word).toNat :=
  ⟨fun r => answers [r] twoInFlight, by
    rintro r (rfl | rfl | rfl) <;> exact ⟨by decide, isPacket_of (by decide), by decide⟩⟩

/-- V41-12, and V41-32 with the last bytes the vector holds. -/
theorem witness_CompleteData :
    (∃ s : State, Completable 0 s ∧ Sound 0 (s.pkt 0).dev s ∧ (s.pkt 0).epNr ≠ 0 ∧
      Final .success ∧ Status.success.code = s.nextResp.status ∧ (s.pkt 0).token = .out ∧
      s.nextResp.data = [] ∧
      (s.pkt 0).actualLength.toNat + s.nextResp.n.toNat ≤ iovSize (s.pkt 0).iov) ∧
    ∃ s : State, Completable 1 s ∧ Sound 1 (s.pkt 1).dev s ∧ (s.pkt 1).epNr ≠ 0 ∧
      Final .success ∧ Status.success.code = s.nextResp.status ∧ (s.pkt 1).token = .inn ∧
      s.nextResp.data.length = s.nextResp.n.toNat ∧
      (s.pkt 1).actualLength.toNat + s.nextResp.n.toNat ≤ iovSize (s.pkt 1).iov :=
  ⟨⟨answers [⟨0, 4, []⟩] ((slot 0 { outPkt 1 [⟨0x4000, 4⟩] with state := .async, status := .async }
        (plugged withBytes)).appendQueue ⟨0, .out 0⟩ 0), completable_of (by decide),
      ⟨by decide, packetOk_of (by decide), deviceOk_of (by decide)⟩, by decide, .inl rfl, by decide⟩,
    answers [⟨0, 2, [0xCC, 0xDD]⟩] ((slot 1
      { inPkt 1 [⟨0x5000, 4⟩] with state := .async, status := .async, actualLength := 2 }
        (plugged withBytes)).appendQueue ⟨0, .inn 0⟩ 1), completable_of (by decide),
    ⟨by decide, packetOk_of (by decide), deviceOk_of (by decide)⟩, by decide, .inl rfl, by decide⟩

/-- V42-14, and the status phase of program P3 answered Async. -/
theorem witness_CompleteControl :
    (∃ s : State, Completable 0 s ∧ Sound 0 (s.pkt 0).dev s ∧ (s.pkt 0).epNr = 0 ∧
      (s.pkt 0).parameter = 0 ∧ Final .success ∧ Status.success.code = s.nextResp.status ∧
      AcceptedByControl s s.nextResp ∧ (s.pkt 0).token = .setup ∧
      (s.dev (s.pkt 0).dev).ctlState = .setup) ∧
    ∃ s : State, Completable 3 s ∧ Sound 3 (s.pkt 3).dev s ∧ (s.pkt 3).epNr = 0 ∧
      (s.pkt 3).parameter = 0 ∧ Final .stall ∧ Status.stall.code = s.nextResp.status ∧
      AcceptedByControl s s.nextResp ∧ (s.pkt 3).token = .inn ∧
      (s.dev (s.pkt 3).dev).ctlState = .ack :=
  ⟨⟨answers [⟨0, 8, bytesB⟩] ((slot 0
        { setupPkt [⟨0x1000, 8⟩] with state := .async, status := .async }
        (midway bufIn .setup 8 0 (plugged withSetupIn))).appendQueue ⟨0, .ctl⟩ 0),
      completable_of (by decide),
      ⟨by decide, packetOk_of (by decide), deviceOk_of (by decide)⟩, by decide, by decide,
      .inl rfl, by decide, ⟨by decide, by decide⟩, by decide⟩,
    answers [⟨3, 0, []⟩] ((slot 3 { inPkt 0 [] with state := .async, status := .async }
      (midway bufOut .ack 16 16 (plugged State.reset))).appendQueue ⟨0, .ctl⟩ 3),
    completable_of (by decide),
    ⟨by decide, packetOk_of (by decide), deviceOk_of (by decide)⟩, by decide, by decide,
    .inr (.inl rfl), by decide, ⟨by decide, by decide⟩, by decide⟩

/-- A Param packet with its device in Param and in Idle, and a SETUP packet whose device has left
control state Setup. -/
theorem witness_CompleteParamOrAbandoned :
    (∀ c, c = .param ∨ c = .idle →
      ∃ s : State, Completable 1 s ∧ Sound 1 (s.pkt 1).dev s ∧ (s.pkt 1).epNr = 0 ∧
        Final .success ∧ Status.success.code = s.nextResp.status ∧ AcceptedByControl s s.nextResp ∧
        (s.pkt 1).parameter ≠ 0 ∧ (s.pkt 1).token = .inn ∧ (s.dev 0).ctlState = c) ∧
    ∃ s : State, Completable 0 s ∧ Sound 0 (s.pkt 0).dev s ∧ (s.pkt 0).epNr = 0 ∧
      Final .success ∧ Status.success.code = s.nextResp.status ∧ AcceptedByControl s s.nextResp ∧
      (s.pkt 0).parameter = 0 ∧ (s.pkt 0).token = .setup ∧ (s.dev 0).ctlState = .idle := by
  refine ⟨?_, answers [⟨0, 8, bytesB⟩] ((slot 0
      { setupPkt [⟨0x1000, 8⟩] with state := .async, status := .async }
      (midway bufIn .idle 8 0 (plugged withSetupIn))).appendQueue ⟨0, .ctl⟩ 0),
    completable_of (by decide),
    ⟨by decide, packetOk_of (by decide), deviceOk_of (by decide)⟩, by decide, .inl rfl, by decide,
    ⟨by decide, by decide⟩, by decide⟩
  rintro c (rfl | rfl)
  · exact ⟨answers [⟨0, 8, bytesB⟩] ((slot 1 { inPkt 0 [⟨0x2000, 8⟩] with
        parameter := 0x0008000001000680, state := .async, status := .async }
        (midway bufIn .param 8 0 (plugged State.reset))).appendQueue ⟨0, .ctl⟩ 1),
      completable_of (by decide),
      ⟨by decide, packetOk_of (by decide), deviceOk_of (by decide)⟩, by decide, .inl rfl,
      by decide, ⟨by decide, by decide⟩, by decide⟩
  · exact ⟨answers [⟨0, 8, bytesB⟩] ((slot 1 { inPkt 0 [⟨0x2000, 8⟩] with
        parameter := 0x0008000001000680, state := .async, status := .async }
        (midway bufIn .idle 8 0 (plugged State.reset))).appendQueue ⟨0, .ctl⟩ 1),
      completable_of (by decide),
      ⟨by decide, packetOk_of (by decide), deviceOk_of (by decide)⟩, by decide, .inl rfl,
      by decide, ⟨by decide, by decide⟩, by decide⟩

/-- P2 step 15 with each answer to the dispatch of packet 1: Success, Async (V41-11), NAK (V41-27),
AddToQueue, and a reserved status. -/
theorem witness_QueueAdvanceDispatches :
    ∀ c : Resp × Bool × PktState,
      c ∈ [(⟨0, 0, []⟩, false, .complete), (⟨4, 0, []⟩, false, .async), (⟨2, 0, []⟩, false, .setup),
        (⟨5, 0, []⟩, false, .queued), (⟨6, 0, []⟩, true, .setup)] →
    ∃ s u w : State, s.fault = false ∧ s.devs.length ≤ 255 ∧ QueuesOk s ∧
      (s.pkt 1).state = .queued ∧ exec (.complete 0) (held 1 s) = .next u ∧ u.fault = false ∧
      (u.ep ⟨0, .out 0⟩).queue.head? = some 1 ∧
      exec (.submit 1 0) (ready ⟨0, .out 0⟩ 1 u) = .next w ∧ w.fault = c.2.1 ∧
      (w.pkt 1).state = c.2.2 ∧ (u.ep ⟨0, .out 0⟩).queue.tail.head? = none := by
  intro c hc
  let s := answers [⟨0, 0, []⟩, c.1] twoInFlight
  let u := after (.complete 0) (held 1 s)
  have hs : QueuesOk s := queuesOk_answers queuesOk_twoInFlight
  simp only [List.mem_cons, List.not_mem_nil, or_false] at hc
  rcases hc with rfl | rfl | rfl | rfl | rfl <;>
    exact ⟨s, u, after (.submit 1 0) (ready ⟨0, .out 0⟩ 1 u), by decide, by decide, hs, by decide,
      next_after (by decide), by decide, by decide, next_after (by decide), by decide, by decide,
      by decide⟩

/-! ### Witnesses: ports and devices -/

theorem bindingOk_plugged : BindingOk (plugged State.reset) := by
  have hp : ∀ p : Index, ((plugged State.reset).port p).dev = if p = 0 then 0 else noIndex := by
    intro p
    by_cases h : p = 0
    · subst h; decide
    · rw [if_neg h]
      change ((State.reset.updPort 0 fun _ => ⟨0⟩).port p).dev = noIndex
      rw [State.port_updPort_other _ _ h, State.reset, State.port_resetWith]
      rfl
  have hd : ∀ d : Index, d ≠ 0 → (plugged State.reset).dev d = Device.reset := by
    intro d h
    rw [plugged, State.dev_updDev_other _ _ h]
    exact State.dev_resetWith Config.default {} [] d
  refine ⟨fun p _ h => ?_, fun d _ h => ?_, fun d _ h => ?_⟩
  · by_cases h0 : p = 0
    · subst h0; decide
    · exact absurd (by rw [hp, if_neg h0]) h
  · by_cases h0 : d = 0
    · subst h0; decide
    · exact absurd (by rw [hd d h0]; rfl) h
  · by_cases h0 : d = 0
    · subst h0; decide
    · rw [hd d h0] at h; cases h

/-- V43-5, and the first step of every program. -/
theorem witness_PortBind :
    (∃ s : State, s.fault = false ∧ s.ports.length ≤ 255 ∧ BindingOk s ∧ IsPort s 0 ∧
      (s.port 0).dev ≠ noIndex ∧ (s.dev (s.port 0).dev).attached = true) ∧
    ∃ s : State, s.fault = false ∧ s.ports.length ≤ 255 ∧ BindingOk s ∧ IsPort s 3 ∧ IsDevice s 3 ∧
      ¬ (((s.port 3).dev ≠ noIndex ∧ (s.dev (s.port 3).dev).attached = true) ∨
        ((3 : Index) ≠ noIndex ∧ (s.dev 3).attached = true)) :=
  ⟨⟨plugged State.reset, by decide, by decide, bindingOk_plugged, isPort_of (by decide), by decide⟩,
    State.reset, by decide, by decide, bindingOk_reset, isPort_of (by decide),
    isDevice_of (by decide), by decide⟩

/-- V43-1 to V43-3. -/
theorem witness_AttachDetach :
    ∃ s : State, s.fault = false ∧
      (IsPort s 0 ∧ IsDevice s (s.port 0).dev ∧ (s.dev (s.port 0).dev).attached = true) ∧
      (IsPort s 1 ∧ IsDevice s (s.port 1).dev ∧ (s.dev (s.port 1).dev).attached = false) ∧
      IsPort s 3 ∧ (s.port 3).dev = noIndex :=
  ⟨(plugged State.reset).updPort 1 fun _ => ⟨3⟩, by decide,
    ⟨isPort_of (by decide), isDevice_of (by decide), by decide⟩,
    ⟨isPort_of (by decide), isDevice_of (by decide), by decide⟩, isPort_of (by decide), by decide⟩

theorem witness_ResetPort :
    ∃ s : State, s.fault = false ∧
      (IsPort s 0 ∧ IsDevice s (s.port 0).dev ∧ (s.dev (s.port 0).dev).attached = true) ∧
      (IsPort s 1 ∧ (s.dev (s.port 1).dev).attached = false) ∧
      IsPort s 3 ∧ (s.port 3).dev = noIndex :=
  ⟨(plugged State.reset).updPort 1 fun _ => ⟨3⟩, by decide,
    ⟨isPort_of (by decide), isDevice_of (by decide), by decide⟩,
    ⟨isPort_of (by decide), by decide⟩, isPort_of (by decide), by decide⟩

theorem witness_DeviceSetters :
    ∃ s : State, s.fault = false ∧ IsDevice s 3 ∧ ¬ IsDevice s 4 ∧ ¬ IsDevice s 0xFF :=
  ⟨State.reset, rfl, isDevice_of (by decide), not_isDevice_of (by decide),
    not_isDevice_of (by decide)⟩

/-- V43-7 to V43-12. -/
theorem witness_FindDevice :
    (∃ s : State, s.fault = false ∧ IsPort s 3 ∧ (s.port 3).dev = noIndex) ∧
    (∃ s : State, s.fault = false ∧ IsPort s 0 ∧
      ¬ ((s.port 0).dev = noIndex ∨ (s.dev (s.port 0).dev).attached = false) ∧
      (s.dev (s.port 0).dev).state = .default ∧ (s.dev (s.port 0).dev).addr = 0) ∧
    (∃ s : State, s.fault = false ∧ IsPort s 0 ∧
      ¬ ((s.port 0).dev = noIndex ∨ (s.dev (s.port 0).dev).attached = false) ∧
      ¬ ((s.dev (s.port 0).dev).state = .default ∧ (s.dev (s.port 0).dev).addr = 0) ∧
      s.hasHook (s.port 0).dev 1 = false) ∧
    ∀ n : Word, n = 3 ∨ n = 0xFFFFFFFF ∨ n = 4 →
      ∃ s : State, s.fault = false ∧ IsPort s 0 ∧
        ¬ ((s.port 0).dev = noIndex ∨ (s.dev (s.port 0).dev).attached = false) ∧
        ¬ ((s.dev (s.port 0).dev).state = .default ∧ (s.dev (s.port 0).dev).addr = 0) ∧
        s.hasHook (s.port 0).dev 1 = true ∧ s.nextResp.n = n ∧
        (n ≠ 4 ↔ s.nextResp.data = [] ∧
          (s.nextResp.n.toNat < s.devs.length ∨ s.nextResp.n = 0xFFFFFFFF)) := by
  refine ⟨⟨State.reset, rfl, isPort_of (by decide), by decide⟩,
    ⟨(plugged State.reset).updDev 0 fun D => { D with state := .default }, by decide,
      isPort_of (by decide), by decide⟩,
    ⟨plugged (State.resetWith { caps := [0x7FD] } {} []), by decide, isPort_of (by decide),
      by decide⟩, ?_⟩
  rintro n (rfl | rfl | rfl)
  · exact ⟨answers [⟨0, 3, []⟩] (plugged State.reset), by decide, isPort_of (by decide), by decide⟩
  · exact ⟨answers [⟨0, 0xFFFFFFFF, []⟩] (plugged State.reset), by decide, isPort_of (by decide),
      by decide⟩
  · exact ⟨answers [⟨0, 4, []⟩] (plugged State.reset), by decide, isPort_of (by decide), by decide⟩

end Sys2Proof.Tests
end

section
/-! PROOF. The decoder gives back the encoded command, and waits for a command's missing words
(spec 30_encoding.md R55 to R60). -/

namespace Sys2Proof.Laws

section
variable (o : Opcode) (a b c : BitVec 8) (w1 w2 : Word) (ws : List Word)

/-- The decoder takes an opcode's words together, whatever stands behind them (R57). -/
theorem decode_one_word (h : o.words = 1) :
    decode (word0 o a b c :: ws) = decodeWords o (word0 o a b c) 0 0 ws := by
  simp [decode, field_word0_opcode, h]

theorem decode_two_words (h : o.words = 2) :
    decode (word0 o a b c :: w1 :: ws) = decodeWords o (word0 o a b c) w1 0 ws := by
  simp [decode, field_word0_opcode, h]

theorem decode_three_words (h : o.words = 3) :
    decode (word0 o a b c :: w1 :: w2 :: ws) = decodeWords o (word0 o a b c) w1 w2 ws := by
  simp [decode, field_word0_opcode, h]

end

/-- Words whose reserved fields are 0 are the command that the opcode builds of them (R62 (b)). -/
theorem decodeWords_eq {o : Opcode} {w0 w1 w2 : Word} {i : Instr} (rest : List Word)
    (h0 : fieldsZero o.zero0 w0 = true) (h1 : fieldsZero o.zero1 w1 = true)
    (hi : o.build w0 w1 w2 = i) : decodeWords o w0 w1 w2 rest = .command i rest := by
  simp [decodeWords, h0, h1, hi]

/-- A parameter word is its two halves (R59). -/
theorem extract_halves (p : BitVec 64) : p.extractLsb' 32 32 ++ p.extractLsb' 0 32 = p :=
  (BitVec.extractLsb'_append_extractLsb'_eq_extractLsb' rfl).trans (extract_full p)

/-- The operand fields of the second word of PKT_SETUP, and the zeros between them (R59). -/
theorem field_pktSetup_word (st : BitVec 16) (ir so : BitVec 1) (t : BitVec 2) :
    let w : Word := st ++ 0#6 ++ ir ++ so ++ 0#6 ++ t
    (field 0 2 w = t ∧ field 8 1 w = so ∧ field 9 1 w = ir ∧ field 16 16 w = st) ∧
      field 2 6 w = 0 ∧ field 10 6 w = 0 := by
  unfold field
  refine ⟨⟨?_, ?_, ?_, ?_⟩, ?_, ?_⟩
  · rw [extract_append_low _ _ _ _ (by omega)]
    exact extract_full _
  · rw [extract_append_high _ _ _ _ (by omega), extract_append_high _ _ _ _ (by omega),
      extract_append_low _ _ _ _ (by omega)]
    exact extract_full _
  · rw [extract_append_high _ _ _ _ (by omega), extract_append_high _ _ _ _ (by omega),
      extract_append_high _ _ _ _ (by omega), extract_append_low _ _ _ _ (by omega)]
    exact extract_full _
  · rw [extract_append_high _ _ _ _ (by omega), extract_append_high _ _ _ _ (by omega),
      extract_append_high _ _ _ _ (by omega), extract_append_high _ _ _ _ (by omega),
      extract_append_high _ _ _ _ (by omega)]
    exact extract_full _
  · rw [extract_append_high _ _ _ _ (by omega), extract_append_low _ _ _ _ (by omega)]
    exact extract_full _
  · rw [extract_append_high _ _ _ _ (by omega), extract_append_high _ _ _ _ (by omega),
      extract_append_high _ _ _ _ (by omega), extract_append_high _ _ _ _ (by omega),
      extract_append_low _ _ _ _ (by omega)]
    exact extract_full _

/-- The two fields of the second byte of DEV_SET_RWAKE (R60). -/
theorem extract_flagByte (f : BitVec 1) :
    (0#7 ++ f : BitVec 8).extractLsb' 0 1 = f ∧ (0#7 ++ f : BitVec 8).extractLsb' 1 7 = 0 := by
  revert f; decide

/-- The decoder undoes the encoder and leaves the words behind the command (R56 to R61). -/
theorem decode_encode (i : Instr) (rest : List Word) :
    decode (encode i ++ rest) = .command i rest := by
  cases i with
  | epSetType | epSetIfnum | epSetMps | epSetPipe | epSetHalt =>
    refine (decode_two_words _ _ _ _ _ _ rfl).trans (decodeWords_eq rest ?_ ?_ ?_)
    · simp [fieldsZero, Opcode.zero0, field_word0_in_c]
    · simp only [fieldsZero, Opcode.zero1, field, List.all_cons, List.all_nil, Bool.and_true,
        beq_iff_eq]
      rw [extract_append_high _ _ _ _ (by omega)]
      exact extract_full _
    · rw [Opcode.build, field_word0_a, field_word0_b, field_word0_in_c _ _ _ _ _ _ (by omega),
        dirByte_bit, ofBit_bit, field, extract_append_low _ _ _ _ (by omega)]
      simp
  | pktSetup k d n t so ir st id =>
    obtain ⟨⟨ht, hso, hir, hst⟩, hz2, hz10⟩ :=
      field_pktSetup_word st (flagBit ir) (flagBit so) t.code
    refine (decode_three_words _ _ _ _ _ _ _ rfl).trans (decodeWords_eq rest rfl ?_ ?_)
    · simp [fieldsZero, Opcode.zero1, hz2, hz10]
    · simp [Opcode.build, field_word0_a, field_word0_b, field_word0_c, ht, hso, hir, hst]
  | pktIovAdd | pktSetParam =>
    refine (decode_three_words _ _ _ _ _ _ _ rfl).trans (decodeWords_eq rest ?_ rfl ?_)
    · simp [fieldsZero, Opcode.zero0, field_word0_zero]
    · simp [Opcode.build, field_word0_a, extract_halves]
  | epGet =>
    refine (decode_one_word _ _ _ _ _ rfl).trans (decodeWords_eq rest ?_ rfl ?_)
    · simp [fieldsZero, Opcode.zero0, field_word0_in_c]
    · simp [Opcode.build, field_word0_a, field_word0_b, field_word0_in_c]
  | cancel | complete | pktRead | attach | detach | resetPort =>
    refine (decode_one_word _ _ _ _ _ rfl).trans (decodeWords_eq rest ?_ rfl ?_)
    · simp [fieldsZero, Opcode.zero0, field_word0_zero]
    · simp [Opcode.build, field_word0_a]
  | submit | portBind | findDevice | devSetAddr =>
    refine (decode_one_word _ _ _ _ _ rfl).trans (decodeWords_eq rest ?_ rfl ?_)
    · simp [fieldsZero, Opcode.zero0, field_word0_c]
    · simp [Opcode.build, field_word0_a, field_word0_b]
  | devSetRwake =>
    refine (decode_one_word _ _ _ _ _ rfl).trans (decodeWords_eq rest ?_ rfl ?_)
    · simp [fieldsZero, Opcode.zero0, field_word0_c, field_word0_in_b, extract_flagByte]
    · simp [Opcode.build, field_word0_a, field_word0_in_b, extract_flagByte]

/-- With fewer words on the port than the opcode asks for, the decoder waits (R55, R57). -/
theorem decode_short {o : Opcode} {w0 : Word} {ws : List Word}
    (ho : Opcode.ofCode (field 24 8 w0) = some o) (hlen : (w0 :: ws).length < o.words) :
    decode (w0 :: ws) = .waiting := by
  have hw : o.words = 1 ∨ o.words = 2 ∨ o.words = 3 := by cases o <;> decide
  rw [List.length_cons] at hlen
  rcases hw with hw | hw | hw
  · omega
  · match ws with
    | [] => simp [decode, ho, hw]
    | _ :: _ => rw [List.length_cons] at hlen; omega
  · match ws with
    | [] | [_] => simp [decode, ho, hw]
    | _ :: _ :: _ => rw [List.length_cons, List.length_cons] at hlen; omega

end Sys2Proof.Laws
end

section
/-! PROOF. What one step does with the command port, and that it keeps the configuration and the
sizes (spec 00_scope.md R5, R6, 70_reset_and_hazards.md R196, R197). -/

namespace Sys2Proof.Machine

variable {s t u : State}

theorem step_of_command {i : Instr} {rest : List Word} (hr : s.resetIn = false)
    (hd : decode s.cmds = .command i rest) : step s = exec i { s with cmds := rest } := by
  simp [step, hr, hd]

theorem step_of_waiting (hr : s.resetIn = false) (hd : decode s.cmds = .waiting) :
    step s = .next s := by
  simp [step, hr, hd]

/-- Settles O5: the decoder gives the command of an encoding, and waits for missing words. -/
theorem stepRunsTheDecodedCommand : Obligations.StepRunsTheDecodedCommand := by
  intro s hr
  refine ⟨fun i rest hd => step_of_command hr hd, fun i rest hc => step_of_command hr ?_,
    fun h => step_of_waiting hr ?_⟩
  · rw [hc]; exact Laws.decode_encode i rest
  · rcases h with hc | ⟨w0, ws, o, hc, ho, hlen⟩
    · rw [hc]; rfl
    · rw [hc] at hlen ⊢; exact Laws.decode_short ho hlen

/-- The same parameters of R5: the configuration and the three sizes. -/
structure SameSetup (s t : State) : Prop where
  cfg      : t.cfg = s.cfg
  portsLen : t.ports.length = s.ports.length
  devsLen  : t.devs.length = s.devs.length
  pktsLen  : t.pkts.length = s.pkts.length

theorem SameSetup.trans (h : SameSetup s t) (h' : SameSetup t u) : SameSetup s u :=
  ⟨h'.cfg.trans h.cfg, h'.portsLen.trans h.portsLen, h'.devsLen.trans h.devsLen,
    h'.pktsLen.trans h.pktsLen⟩

theorem Quiet.sameSetup (h : Quiet s t) : SameSetup s t := ⟨h.cfg, h.portsLen, h.devsLen, h.pktsLen⟩

theorem Moves.sameSetup {r : EpRef} (h : Moves r s t) : SameSetup s t :=
  ⟨h.cfg, by rw [h.ports], h.devsLen, h.pktsLen⟩

theorem sameSetup_cmds (s : State) (ws : List Word) : SameSetup s { s with cmds := ws } :=
  ⟨rfl, rfl, rfl, rfl⟩

theorem sameSetup_contractViolation (c : Cause) (w : Word) (s : State) :
    SameSetup s (contractViolation c w s) :=
  (quiet_contractViolation c w s).sameSetup

theorem sameSetup_rejectCommand (r : Reject) (w : Word) (s : State) :
    SameSetup s (rejectCommand r w s) := by
  rcases rejectCommand_cases r w s with h | ⟨-, c, h⟩
  · rw [h]; exact ⟨rfl, rfl, rfl, rfl⟩
  · rw [h]; exact sameSetup_contractViolation c w s

/-- The hardware reset builds its tables at the sizes it finds (R196). -/
theorem sameSetup_hardwareReset (s : State) : SameSetup s s.hardwareReset := by
  constructor <;> simp [State.hardwareReset]

/-- SUBMIT and COMPLETE change the setup neither while they run nor by what they raise. -/
theorem sameSetup_exec {i : Instr} (h : exec i s = .next t) : SameSetup s t := by
  by_cases hs : ∃ k d, i = .submit k d
  · obtain ⟨k, d, rfl⟩ := hs
    rcases submit_cases h with hr | ⟨-, -, ⟨-, hm⟩ | ⟨c, u, -, hm, rfl⟩⟩
    · exact hr.quiet.sameSetup
    · exact hm.sameSetup
    · exact hm.sameSetup.trans (sameSetup_contractViolation c _ u)
  by_cases hc : ∃ k, i = .complete k
  · obtain ⟨k, rfl⟩ := hc
    rcases complete_cases h with hr | ⟨-, -, ⟨-, hm⟩ | ⟨c, u, -, hm, rfl⟩⟩
    · exact hr.quiet.sameSetup
    · exact hm.sameSetup
    · exact hm.sameSetup.trans (sameSetup_contractViolation c _ u)
  · exact (exec_quiet h (fun k d e => hs ⟨k, d, e⟩) fun k e => hc ⟨k, e⟩).sameSetup

theorem sameSetup_step (h : step s = .next t) : SameSetup s t := by
  rcases step_cases h with ⟨-, rfl⟩ | ⟨-, -, rfl⟩ | ⟨-, r, w, rest, -, rfl⟩ | ⟨-, i, rest, -, he⟩
  · exact sameSetup_hardwareReset s
  · exact ⟨rfl, rfl, rfl, rfl⟩
  · exact (sameSetup_cmds s rest).trans (sameSetup_rejectCommand r w _)
  · exact (sameSetup_cmds s rest).trans (sameSetup_exec he)

/-- Settles O12: the reset keeps the setup, and so does every command, accepted or refused. -/
theorem configurationConstant : Obligations.ConfigurationConstant := by
  intro s t h
  obtain ⟨hcfg, hports, hdevs, hpkts⟩ := sameSetup_step h
  exact ⟨hcfg, hports, hdevs, hpkts⟩

end Sys2Proof.Machine
end

section
/-! PROOF. What the commands that run no transfer leave as it was: the packets, the endpoints and
the result registers (spec 10_state.md R10, R20, R25). What a step keeps, from what its commands
keep. -/

namespace Sys2Proof.Machine

variable {i : Instr} {s t u : State}

/-! ### A state and what a contract violation leaves of it -/

/-- The same state, or the state with a contract violation taken (R171). -/
def Latched (u t : State) : Prop := t = u ∨ ∃ c w, t = contractViolation c w u

theorem Latched.devs (h : Latched u t) : t.devs = u.devs := by
  rcases h with rfl | ⟨c, w, rfl⟩ <;> simp

theorem Latched.pkts (h : Latched u t) : t.pkts = u.pkts := by
  rcases h with rfl | ⟨c, w, rfl⟩ <;> simp

theorem Latched.dev (h : Latched u t) (d : Index) : t.dev d = u.dev d := by
  simp only [State.dev, h.devs]

theorem Latched.pkt (h : Latched u t) (k : Index) : t.pkt k = u.pkt k := by
  simp only [State.pkt, h.pkts]

theorem Latched.ep (h : Latched u t) (r : EpRef) : t.ep r = u.ep r := by
  simp only [State.ep, h.dev]

/-- A property that does not look at the latch. -/
theorem Latched.keeps {I : State → Prop} (h : Latched u t) (hu : I u)
    (hv : ∀ c w u, I u → I (contractViolation c w u)) : I t := by
  rcases h with rfl | ⟨c, w, rfl⟩
  · exact hu
  · exact hv c w u hu

theorem Refused.latched (h : Refused i s t) : Latched s t := by
  rcases h with ⟨-, rfl⟩ | ⟨-, c, rfl⟩
  · exact .inl rfl
  · exact .inr ⟨c, _, rfl⟩

/-- The result registers are as they were (R10). -/
structure SameResults (s t : State) : Prop where
  res0 : t.res0 = s.res0
  res1 : t.res1 = s.res1
  res2 : t.res2 = s.res2
  res3 : t.res3 = s.res3

theorem SameResults.trans (h : SameResults s t) (h' : SameResults t u) : SameResults s u :=
  ⟨h'.res0.trans h.res0, h'.res1.trans h.res1, h'.res2.trans h.res2, h'.res3.trans h.res3⟩

theorem Latched.sameResults (h : Latched u t) : SameResults u t := by
  rcases h with rfl | ⟨c, w, rfl⟩ <;> constructor <;> simp

theorem Moves.sameResults {r : EpRef} (h : Moves r s t) : SameResults s t :=
  ⟨h.res0, h.res1, h.res2, h.res3⟩

/-- SUBMIT, CANCEL and COMPLETE move only their packet's own endpoint, and may then raise. -/
theorem exec_moves {k : Index} (h : exec i s = .next t)
    (hi : i = .cancel k ∨ i = .complete k ∨ ∃ d, i = .submit k d) :
    ∃ u, Moves (s.pkt k).endpoint s u ∧ Latched u t := by
  rcases hi with rfl | rfl | ⟨d, rfl⟩
  · rcases cancel_cases h with hr | ⟨-, -, -, -, rfl⟩
    · exact ⟨s, .refl _ s, hr.latched⟩
    · exact ⟨_, (moves_setPktState s k _).trans
        ((moves_removeQueue _ k).trans (moves_cancelHook _ k _ _)), .inl rfl⟩
  · rcases complete_cases h with hr | ⟨-, -, ⟨-, hm⟩ | ⟨c, u, -, hm, rfl⟩⟩
    · exact ⟨s, .refl _ s, hr.latched⟩
    · exact ⟨t, hm, .inl rfl⟩
    · exact ⟨u, hm, .inr ⟨c, _, rfl⟩⟩
  · rcases submit_cases h with hr | ⟨-, -, ⟨-, hm⟩ | ⟨c, u, -, hm, rfl⟩⟩
    · exact ⟨s, .refl _ s, hr.latched⟩
    · exact ⟨t, hm, .inl rfl⟩
    · exact ⟨u, hm, .inr ⟨c, _, rfl⟩⟩

/-! ### The port and device commands -/

/-- What the port and device commands leave as it was. -/
structure Rewires (s t : State) : Prop where
  results : SameResults s t
  pkts    : t.pkts = s.pkts
  ep      : ∀ r, t.ep r = s.ep r

theorem Rewires.refl (s : State) : Rewires s s := ⟨⟨rfl, rfl, rfl, rfl⟩, rfl, fun _ => rfl⟩

theorem Rewires.trans (h : Rewires s t) (h' : Rewires t u) : Rewires s u :=
  ⟨h.results.trans h'.results, h'.pkts.trans h.pkts, fun r => (h'.ep r).trans (h.ep r)⟩

theorem Latched.rewires (h : Latched s t) : Rewires s t := ⟨h.sameResults, h.pkts, h.ep⟩

theorem rewires_emit (s : State) (e : Event) : Rewires s (s.emit e) :=
  ⟨⟨rfl, rfl, rfl, rfl⟩, rfl, fun _ => rfl⟩

theorem rewires_emitHook (d : Index) (b : Nat) (e : Event) (s : State) :
    Rewires s (emitHook d b e s) := by
  unfold emitHook
  split
  · exact rewires_emit s e
  · exact .refl s

theorem rewires_dropResp (s : State) : Rewires s s.dropResp :=
  ⟨⟨by simp, by simp, by simp, by simp⟩, by simp, by simp⟩

theorem rewires_updPort (s : State) (p : Index) (f : Port → Port) : Rewires s (s.updPort p f) :=
  ⟨⟨rfl, rfl, rfl, rfl⟩, rfl, fun _ => rfl⟩

/-- A write to a device that leaves its endpoints alone. -/
theorem rewires_updDev (s : State) (d : Index) (f : Device → Device)
    (hf : ∀ D e, (f D).endpoint e = D.endpoint e) : Rewires s (s.updDev d f) := by
  refine ⟨⟨rfl, rfl, rfl, rfl⟩, rfl, fun r => ?_⟩
  simp only [State.ep, State.dev_updDev]
  split
  · exact hf _ _
  · rfl

theorem rewires_setDevPort (d p : Index) (s : State) : Rewires s (setDevPort d p s) := by
  unfold setDevPort
  split
  · exact rewires_updDev s d _ fun _ e => by cases e <;> rfl
  · exact .refl s

theorem rewires_leaveOldPort (d : Index) (s : State) : Rewires s (leaveOldPort d s) := by
  unfold leaveOldPort
  split
  · exact rewires_updPort s _ _
  · exact .refl s

theorem rewires_bindPort (p d : Index) (s : State) : Rewires s (bindPort p d s) :=
  (rewires_leaveOldPort d s).trans ((rewires_setDevPort _ _ _).trans
    ((rewires_updPort _ p _).trans (rewires_setDevPort d p _)))

theorem rewires_attached (p d : Index) (s : State) : Rewires s (attached p d s) :=
  (rewires_emit s (.portAttach p d)).trans
    ((rewires_updDev _ d (fun D => { D with attached := true, state := .attached })
      fun _ e => by cases e <;> rfl).trans (rewires_emitHook d 4 (.attachHook d) _))

theorem rewires_detached (p d : Index) (s : State) : Rewires s (detached p d s) :=
  (rewires_emit s (.portDetach p d)).trans
    (rewires_updDev _ d _ fun _ e => by cases e <;> rfl)

theorem rewires_deviceReset (d : Index) (s : State) : Rewires s (deviceReset d s) :=
  (rewires_updDev s d (fun D => { D with remoteWakeup := false, addr := 0, state := .default })
    fun _ e => by cases e <;> rfl).trans (rewires_emitHook d 5 (.resetHook d) _)

theorem rewires_asked (d : Index) (a : BitVec 8) (s : State) : Rewires s (asked d a s) :=
  (rewires_emit s (.findHook d a)).trans (rewires_dropResp _)

theorem portBind_rewires {p d : Index} (h : exec (.portBind p d) s = .next t) : Rewires s t := by
  rcases portBind_cases h with hr | ⟨-, -, -, -, -, rfl⟩
  · exact hr.latched.rewires
  · exact rewires_bindPort p d s

theorem attach_rewires {p : Index} (h : exec (.attach p) s = .next t) : Rewires s t := by
  rcases attach_cases h with hr | ⟨-, -, -, -, rfl⟩
  · exact hr.latched.rewires
  · exact rewires_attached p _ s

theorem detach_rewires {p : Index} (h : exec (.detach p) s = .next t) : Rewires s t := by
  rcases detach_cases h with hr | ⟨-, -, -, -, rfl⟩
  · exact hr.latched.rewires
  · exact rewires_detached p _ s

theorem resetPort_rewires {p : Index} (h : exec (.resetPort p) s = .next t) : Rewires s t := by
  rcases resetPort_cases h with hr | ⟨-, -, -, -, rfl⟩
  · exact hr.latched.rewires
  · exact (rewires_detached p _ s).trans
      ((rewires_attached p _ _).trans (rewires_deviceReset _ _))

theorem devSetAddr_rewires {d : Index} {a : BitVec 8} (h : exec (.devSetAddr d a) s = .next t) :
    Rewires s t := by
  rcases devSetAddr_cases h with hr | ⟨-, -, rfl⟩
  · exact hr.latched.rewires
  · exact rewires_updDev s d _ fun _ e => by cases e <;> rfl

theorem devSetRwake_rewires {d : Index} {f : Bool} (h : exec (.devSetRwake d f) s = .next t) :
    Rewires s t := by
  rcases devSetRwake_cases h with hr | ⟨-, -, rfl⟩
  · exact hr.latched.rewires
  · exact rewires_updDev s d _ fun _ e => by cases e <;> rfl

/-- FIND_DEVICE is such a command but for `RES0` (R157). -/
theorem findDevice_rewires {p : Index} {a : BitVec 8} (h : exec (.findDevice p a) s = .next t) :
    Rewires s { t with res0 := s.res0 } := by
  have hasked := rewires_asked (s.port p).dev a s
  have hclear : ∀ {u : State}, Rewires s u → Rewires s { u with res0 := s.res0 } :=
    fun hu => ⟨⟨rfl, hu.results.res1, hu.results.res2, hu.results.res3⟩, hu.pkts, hu.ep⟩
  rcases findDevice_cases h with hr | ⟨-, hr | hr | ⟨c, rfl⟩⟩
  · exact hclear hr.latched.rewires
  · rw [hr]; exact .refl s
  · rw [hr]; exact (hclear hasked : Rewires s { asked _ a s with res0 := s.res0 })
  · exact hclear (hasked.trans (Latched.rewires (.inr ⟨c, _, rfl⟩)))

/-! ### The commands that write no endpoint and no packet -/

/-- The queries, and the port and device commands. -/
def keepsTables : Instr → Bool
  | .epGet .. | .pktRead .. | .portBind .. | .attach .. | .detach .. | .resetPort ..
  | .findDevice .. | .devSetAddr .. | .devSetRwake .. => true
  | .epSetType .. | .epSetIfnum .. | .epSetMps .. | .epSetPipe .. | .epSetHalt .. | .pktSetup ..
  | .pktIovAdd .. | .pktSetParam .. | .submit .. | .cancel .. | .complete .. => false

/-- The packets and the endpoints are as they were, and as many devices. -/
structure SameTables (s t : State) : Prop where
  setup : SameSetup s t
  pkt   : ∀ k, t.pkt k = s.pkt k
  ep    : ∀ r, t.ep r = s.ep r

theorem exec_sameTables (h : exec i s = .next t) (hi : keepsTables i = true) : SameTables s t := by
  have hrw : Rewires s t → SameTables s t := fun hr =>
    ⟨sameSetup_exec h, fun k => by simp only [State.pkt, hr.pkts], hr.ep⟩
  cases i with
  | epGet =>
    rcases epGet_cases h with hr | ⟨-, hr⟩
    · exact hrw hr.latched.rewires
    · rw [hr]; exact ⟨⟨rfl, rfl, rfl, rfl⟩, fun _ => rfl, fun _ => rfl⟩
  | pktRead =>
    rcases pktRead_cases h with hr | ⟨-, hr⟩
    · exact hrw hr.latched.rewires
    · rw [hr]; exact ⟨⟨rfl, rfl, rfl, rfl⟩, fun _ => rfl, fun _ => rfl⟩
  | portBind => exact hrw (portBind_rewires h)
  | attach => exact hrw (attach_rewires h)
  | detach => exact hrw (detach_rewires h)
  | resetPort => exact hrw (resetPort_rewires h)
  | devSetAddr => exact hrw (devSetAddr_rewires h)
  | devSetRwake => exact hrw (devSetRwake_rewires h)
  | findDevice =>
    obtain ⟨-, hpkts, hep⟩ := findDevice_rewires h
    refine ⟨sameSetup_exec h, fun k => ?_, hep⟩
    exact congrArg (fun l => List.getD l k.toNat Packet.reset) hpkts
  | epSetType | epSetIfnum | epSetMps | epSetPipe | epSetHalt | pktSetup | pktIovAdd | pktSetParam
  | submit | cancel | complete => cases hi

/-! ### Invariants of the commands and of a step -/

/-- A property that SUBMIT's body keeps, and that does not look at the latch. -/
theorem submit_keeps {I : State → Prop} {k d : Index} (h : exec (.submit k d) s = .next t)
    (hs : I s) (hb : k.toNat < s.pkts.length → (submitPacket k d s).All I)
    (hv : ∀ c w u, I u → I (contractViolation c w u)) : I t := by
  rcases submit_cases h with hr | ⟨-, hk, ⟨he, -⟩ | ⟨c, u, he, -, rfl⟩⟩
  · exact hr.latched.keeps hs hv
  · have := hb hk; rwa [he] at this
  · have := hb hk; rw [he] at this; exact hv _ _ _ this

/-- A property that COMPLETE's body keeps, and that does not look at the latch. -/
theorem complete_keeps {I : State → Prop} {k : Index} (h : exec (.complete k) s = .next t)
    (hs : I s) (hb : (completePacket k s).All I)
    (hv : ∀ c w u, I u → I (contractViolation c w u)) : I t := by
  rcases complete_cases h with hr | ⟨-, -, ⟨he, -⟩ | ⟨c, u, he, -, rfl⟩⟩
  · exact hr.latched.keeps hs hv
  · rwa [he] at hb
  · rw [he] at hb; exact hv _ _ _ hb

/-- A property that the reset meets, that looks neither at the command port nor at the latch, and
that every command keeps, is kept by every step. -/
theorem step_keeps {I : State → Prop} (h : step s = .next t) (hs : I s)
    (hreset : I s.hardwareReset) (hcmds : ∀ ws, I { s with cmds := ws })
    (hv : ∀ c w u, I u → I (contractViolation c w u))
    (hexec : ∀ i u, I u → exec i u = .next t → I t) : I t := by
  rcases step_cases h with ⟨-, rfl⟩ | ⟨-, -, rfl⟩ | ⟨-, r, w, rest, -, rfl⟩ | ⟨-, i, rest, -, he⟩
  · exact hreset
  · exact hs
  · rcases rejectCommand_cases r w { s with cmds := rest } with hr | ⟨-, c, hr⟩ <;> rw [hr]
    · exact hcmds rest
    · exact hv _ _ _ (hcmds rest)
  · exact hexec i _ (hcmds rest) he

end Sys2Proof.Machine
end

section
/-! PROOF. The endpoint queues and the packet states agree after every step (spec 10_state.md R20,
41_packet_lifecycle.md R114). -/

namespace Sys2Proof.Machine

variable {i : Instr} {s t : State}

theorem SameTables.queuesOk (h : SameTables s t) (hs : QueuesOk s) : QueuesOk t :=
  queuesOk_congr hs h.setup.devsLen h.setup.pktsLen (fun r => by rw [h.ep]) fun k => by
    rw [h.pkt]; exact ⟨rfl, fun _ => ⟨rfl, rfl⟩⟩

/-- A write to a slot that is not in flight and stays so. -/
theorem queuesOk_updPkt_idle {k : Index} {f : Packet → Packet} (hs : QueuesOk s)
    (hidle : (s.pkt k).state.inFlight = false)
    (hf : (f (s.pkt k)).state.inFlight = false) : QueuesOk (s.updPkt k f) := by
  refine queuesOk_congr hs rfl (by simp) (fun _ => rfl) fun j => ?_
  rw [State.pkt_updPkt]
  split
  · rename_i hj
    obtain ⟨rfl, -⟩ := hj
    rw [hf, hidle]
    exact ⟨rfl, nofun⟩
  · exact ⟨rfl, fun _ => ⟨rfl, rfl⟩⟩

/-- A packet in flight stands in a queue, so its slot has been set up (R114). -/
theorem QueuesOk.valid_of_inFlight (hs : QueuesOk s) {k : Index}
    (h : (s.pkt k).state.inFlight = true) : (s.pkt k).valid = true :=
  (hs.member _ k (hs.queued k h).2).2.1

theorem queuesOk_exec (h : exec i s = .next t) (hs : QueuesOk s) : QueuesOk t := by
  cases i with
  | epSetType | epSetIfnum | epSetMps | epSetPipe | epSetHalt =>
    rcases setEndpoint_cases h with hr | ⟨-, -, rfl⟩
    · exact hr.latched.keeps hs fun c w _ => queuesOk_contract c w
    · exact queuesOk_updEp _ _ (fun _ => rfl) hs
  | pktSetup k =>
    rcases pktSetup_cases h with hr | ⟨-, -, -, -, hfree, rfl⟩
    · exact hr.latched.keeps hs fun c w _ => queuesOk_contract c w
    · have hidle : (s.pkt k).state.inFlight = false := by
        refine hfree.elim (fun hv => ?_) id
        by_contra hn
        simp [hs.valid_of_inFlight (by simpa using hn)] at hv
      exact queuesOk_updPkt_idle hs hidle rfl
  | pktIovAdd =>
    rcases pktIovAdd_cases h with hr | ⟨-, -, hst, -, -, -, rfl⟩
    · exact hr.latched.keeps hs fun c w _ => queuesOk_contract c w
    · exact queuesOk_updPkt_idle hs (by rw [hst]; rfl) (by simp [hst, PktState.inFlight])
  | pktSetParam =>
    rcases pktSetParam_cases h with hr | ⟨-, -, hst, rfl⟩
    · exact hr.latched.keeps hs fun c w _ => queuesOk_contract c w
    · exact queuesOk_updPkt_idle hs (by rw [hst]; rfl) (by simp [hst, PktState.inFlight])
  | submit =>
    exact submit_keeps h hs (queuesOk_submitPacket hs) fun c w _ => queuesOk_contract c w
  | cancel =>
    rcases cancel_cases h with hr | ⟨-, -, -, hf, rfl⟩
    · exact hr.latched.keeps hs fun c w _ => queuesOk_contract c w
    · have hleft := queuesOk_leave (st := .canceled) hs hf rfl
      unfold cancelHook
      split
      · exact queuesOk_emit _ hleft
      · exact hleft
  | complete =>
    exact complete_keeps h hs (queuesOk_completePacket hs) fun c w _ => queuesOk_contract c w
  | epGet | pktRead | portBind | attach | detach | resetPort | findDevice | devSetAddr
  | devSetRwake => exact (exec_sameTables h rfl).queuesOk hs

/-- After a reset every queue is empty and no packet is in flight (R196). -/
theorem queuesOk_hardwareReset (s : State) : QueuesOk s.hardwareReset := by
  have hq : ∀ r, (s.hardwareReset.ep r).queue = [] := fun r => by
    rw [State.ep_hardwareReset]
    split <;> rfl
  refine ⟨fun r => ?_, fun r k hk => ?_, ?_⟩
  · rw [hq]; exact List.nodup_nil
  · rw [hq] at hk; cases hk
  · simp [Packet.reset, PktState.inFlight]

/-- Settles O22: the reset empties the queues, and each command that lets a packet enter or leave a
queue writes its state with it. -/
theorem queuesInvariant : Obligations.QueuesInvariant := by
  intro s t hs h
  refine step_keeps h hs (queuesOk_hardwareReset s) (fun _ => ?_)
    (fun c w _ => queuesOk_contract c w) fun i u hu he => queuesOk_exec he hu
  exact queuesOk_congr hs rfl rfl (fun _ => rfl) fun _ => ⟨rfl, fun _ => ⟨rfl, rfl⟩⟩

end Sys2Proof.Machine
end

section
/-! PROOF. Which commands write the fields of a device that no transfer writes, and that every
device stays as the rules keep it (spec 10_state.md R15, R16, 43_port_device.md R150 to R156). -/

namespace Sys2Proof.Machine

variable {i : Instr} {s t u : State}

/-! ### A device after each port command -/

@[simp] theorem dev_emitHook (d : Index) (b : Nat) (e : Event) (s : State) (j : Index) :
    (emitHook d b e s).dev j = s.dev j := by
  unfold emitHook
  split <;> rfl

theorem dev_attached (p d j : Index) (s : State) : (attached p d s).dev j =
    if d = j ∧ j.toNat < s.devs.length then
      { s.dev j with attached := true, state := .attached } else s.dev j := by
  rw [attached, dev_emitHook, State.dev_updDev]; rfl

theorem dev_detached (p d j : Index) (s : State) : (detached p d s).dev j =
    if d = j ∧ j.toNat < s.devs.length then
      { s.dev j with attached := false, state := .notAttached } else s.dev j := by
  rw [detached, State.dev_updDev]; rfl

theorem dev_deviceReset (d j : Index) (s : State) : (deviceReset d s).dev j =
    if d = j ∧ j.toNat < s.devs.length then
      { s.dev j with remoteWakeup := false, addr := 0, state := .default } else s.dev j := by
  rw [deviceReset, dev_emitHook, State.dev_updDev]

@[simp] theorem dev_leaveOldPort (d j : Index) (s : State) :
    (leaveOldPort d s).dev j = s.dev j := by
  unfold leaveOldPort
  split <;> rfl

theorem dev_setDevPort_other {d j : Index} (p : Index) (s : State) (h : d ≠ j) :
    (setDevPort d p s).dev j = s.dev j := by
  unfold setDevPort
  split
  · exact State.dev_updDev_other s _ h.symm
  · rfl

theorem dev_setDevPort (d p j : Index) (s : State) : (setDevPort d p s).dev j =
    { s.dev j with port := ((setDevPort d p s).dev j).port } := by
  unfold setDevPort
  split
  · rw [State.dev_updDev]
    split <;> rfl
  · rfl

/-- PORT_BIND writes no field of a device but its port (R150). -/
theorem dev_bindPort (p d j : Index) (s : State) : (bindPort p d s).dev j =
    { s.dev j with port := ((bindPort p d s).dev j).port } := by
  unfold bindPort
  rw [dev_setDevPort, State.dev_updPort, dev_setDevPort, dev_leaveOldPort]

theorem dev_bindPort_other {p d j : Index} (s : State) (hd : d ≠ j) (hold : (s.port p).dev ≠ j) :
    (bindPort p d s).dev j = s.dev j := by
  unfold bindPort
  rw [dev_setDevPort_other _ _ hd, State.dev_updPort, dev_setDevPort_other _ _ hold,
    dev_leaveOldPort]

/-! ### The fields that no transfer writes -/

/-- The fields of a device that the port commands and the device setters write. -/
structure SamePlace (D D' : Device) : Prop where
  attached     : D'.attached = D.attached
  state        : D'.state = D.state
  addr         : D'.addr = D.addr
  remoteWakeup : D'.remoteWakeup = D.remoteWakeup
  port         : D'.port = D.port

theorem SamePlace.of_eq {D D' : Device} (h : D' = D) : SamePlace D D' := by
  subst h; exact ⟨rfl, rfl, rfl, rfl, rfl⟩

theorem samePlace_updEp (s : State) (r : EpRef) (f : Endpoint → Endpoint) (d : Index) :
    SamePlace (s.dev d) ((s.updEp r f).dev d) := by
  simp only [State.updEp, State.dev_updDev]
  split
  · cases r.ep <;> exact ⟨rfl, rfl, rfl, rfl, rfl⟩
  · exact .of_eq rfl

theorem Moves.samePlace {r : EpRef} (h : Moves r s t) (d : Index) :
    SamePlace (s.dev d) (t.dev d) := by
  rw [h.dev d]; exact ⟨rfl, rfl, rfl, rfl, rfl⟩

/-- Everything a command can do to the fields of device `d` that no transfer writes:
`Placed s d i D'` says that `D'` is what the command `i` in the state `s` may leave there (R150 to
R156). -/
inductive Placed (s : State) (d : Index) : Instr → Device → Prop where
  | same {i D'} (h : SamePlace (s.dev d) D') : Placed s d i D'
  | attach {p} (h : (s.port p).dev = d) :
      Placed s d (.attach p) { s.dev d with attached := true, state := .attached }
  | detach {p} (h : (s.port p).dev = d) :
      Placed s d (.detach p) { s.dev d with attached := false, state := .notAttached }
  | reset {p} (h : (s.port p).dev = d) :
      Placed s d (.resetPort p)
        { s.dev d with attached := true, state := .default, addr := 0, remoteWakeup := false }
  | addr {a} : Placed s d (.devSetAddr d a) { s.dev d with addr := a }
  | rwake {f} : Placed s d (.devSetRwake d f) { s.dev d with remoteWakeup := f }
  | bind {p e q} (h : e = d ∨ (s.port p).dev = d) :
      Placed s d (.portBind p e) { s.dev d with port := q }

theorem Latched.placed (h : Latched s t) (d : Index) : Placed s d i (t.dev d) :=
  .same (.of_eq (h.dev d))

theorem portBind_placed {p e : Index} (h : exec (.portBind p e) s = .next t) (d : Index) :
    Placed s d (.portBind p e) (t.dev d) := by
  rcases portBind_cases h with hr | ⟨-, -, -, -, -, rfl⟩
  · exact hr.latched.placed d
  by_cases hd : e = d ∨ (s.port p).dev = d
  · rw [dev_bindPort]; exact .bind hd
  · simp only [not_or] at hd
    exact .same (.of_eq (dev_bindPort_other s hd.1 hd.2))

theorem attach_placed {p : Index} (h : exec (.attach p) s = .next t) (d : Index) :
    Placed s d (.attach p) (t.dev d) := by
  rcases attach_cases h with hr | ⟨-, -, -, -, rfl⟩
  · exact hr.latched.placed d
  rw [dev_attached]
  split
  · rename_i hd; exact .attach hd.1
  · exact .same (.of_eq rfl)

theorem detach_placed {p : Index} (h : exec (.detach p) s = .next t) (d : Index) :
    Placed s d (.detach p) (t.dev d) := by
  rcases detach_cases h with hr | ⟨-, -, -, -, rfl⟩
  · exact hr.latched.placed d
  rw [dev_detached]
  split
  · rename_i hd; exact .detach hd.1
  · exact .same (.of_eq rfl)

theorem resetPort_placed {p : Index} (h : exec (.resetPort p) s = .next t) (d : Index) :
    Placed s d (.resetPort p) (t.dev d) := by
  rcases resetPort_cases h with hr | ⟨-, -, -, -, rfl⟩
  · exact hr.latched.placed d
  rw [dev_deviceReset, dev_attached, dev_detached, (quiet_attached _ _ _).devsLen,
    (quiet_detached _ _ _).devsLen]
  by_cases hd : (s.port p).dev = d ∧ d.toNat < s.devs.length
  · rw [if_pos hd, if_pos hd, if_pos hd]; exact .reset hd.1
  · rw [if_neg hd, if_neg hd, if_neg hd]; exact .same (.of_eq rfl)

theorem devSetAddr_placed {e : Index} {a : BitVec 8} (h : exec (.devSetAddr e a) s = .next t)
    (d : Index) : Placed s d (.devSetAddr e a) (t.dev d) := by
  rcases devSetAddr_cases h with hr | ⟨-, -, rfl⟩
  · exact hr.latched.placed d
  rw [State.dev_updDev]
  split
  · rename_i hd; obtain ⟨rfl, -⟩ := hd; exact .addr
  · exact .same (.of_eq rfl)

theorem devSetRwake_placed {e : Index} {f : Bool} (h : exec (.devSetRwake e f) s = .next t)
    (d : Index) : Placed s d (.devSetRwake e f) (t.dev d) := by
  rcases devSetRwake_cases h with hr | ⟨-, -, rfl⟩
  · exact hr.latched.placed d
  rw [State.dev_updDev]
  split
  · rename_i hd; obtain ⟨rfl, -⟩ := hd; exact .rwake
  · exact .same (.of_eq rfl)

theorem exec_placed (h : exec i s = .next t) (d : Index) : Placed s d i (t.dev d) := by
  cases i with
  | epSetType | epSetIfnum | epSetMps | epSetPipe | epSetHalt =>
    rcases setEndpoint_cases h with hr | ⟨-, -, rfl⟩
    · exact hr.latched.placed d
    · exact .same (samePlace_updEp s _ _ d)
  | epGet =>
    rcases epGet_cases h with hr | ⟨-, hr⟩
    · exact hr.latched.placed d
    · exact .same (.of_eq (by rw [hr]; rfl))
  | pktSetup =>
    rcases pktSetup_cases h with hr | ⟨-, -, -, -, -, rfl⟩
    · exact hr.latched.placed d
    · exact .same (.of_eq rfl)
  | pktIovAdd =>
    rcases pktIovAdd_cases h with hr | ⟨-, -, -, -, -, -, rfl⟩
    · exact hr.latched.placed d
    · exact .same (.of_eq rfl)
  | pktSetParam =>
    rcases pktSetParam_cases h with hr | ⟨-, -, -, rfl⟩
    · exact hr.latched.placed d
    · exact .same (.of_eq rfl)
  | submit k e =>
    obtain ⟨u, hm, hl⟩ := exec_moves h (.inr (.inr ⟨e, rfl⟩))
    rw [hl.dev]; exact .same (hm.samePlace d)
  | cancel k =>
    obtain ⟨u, hm, hl⟩ := exec_moves h (.inl rfl)
    rw [hl.dev]; exact .same (hm.samePlace d)
  | complete k =>
    obtain ⟨u, hm, hl⟩ := exec_moves h (.inr (.inl rfl))
    rw [hl.dev]; exact .same (hm.samePlace d)
  | pktRead =>
    rcases pktRead_cases h with hr | ⟨-, hr⟩
    · exact hr.latched.placed d
    · exact .same (.of_eq (by rw [hr]; rfl))
  | findDevice p a =>
    have hasked : (asked (s.port p).dev a s).dev d = s.dev d := by simp [asked]
    rcases findDevice_cases h with hr | ⟨-, hr | hr | ⟨c, rfl⟩⟩
    · exact hr.latched.placed d
    · exact .same (.of_eq (by rw [hr]; rfl))
    · exact .same (.of_eq (by rw [hr]; exact hasked))
    · exact .same (.of_eq ((Latched.dev (.inr ⟨c, _, rfl⟩) d).trans hasked))
  | portBind => exact portBind_placed h d
  | attach => exact attach_placed h d
  | detach => exact detach_placed h d
  | resetPort => exact resetPort_placed h d
  | devSetAddr => exact devSetAddr_placed h d
  | devSetRwake => exact devSetRwake_placed h d

/-! ### The invariant of the devices -/

/-- The attached flag agrees with the lifecycle state, which is one the block writes (R16). -/
structure LifecycleOk (D : Device) : Prop where
  attached  : D.attached = true ↔ D.state ≠ .notAttached
  lifecycle : D.state ≠ .addressed ∧ D.state ≠ .configured

theorem Placed.lifecycleOk {d : Index} {D' : Device} (h : Placed s d i D')
    (hs : LifecycleOk (s.dev d)) : LifecycleOk D' := by
  cases h with
  | same h =>
    refine ⟨?_, ?_⟩
    · rw [h.attached, h.state]; exact hs.attached
    · rw [h.state]; exact hs.lifecycle
  | attach | detach | reset => constructor <;> simp
  | addr | rwake | bind => exact ⟨hs.attached, hs.lifecycle⟩

/-- A command that runs no transfer keeps the control fields, and the lifecycle as the rules do. -/
theorem devicesOk_quiet (hq : Quiet s t) (hp : ∀ d, Placed s d i (t.dev d)) (hs : DevicesOk s) :
    DevicesOk t := by
  intro d
  obtain ⟨-, hctl, hbuf, hlen, hidx⟩ := hq.control d
  have hd := hs d
  have hl := (hp d).lifecycleOk ⟨hd.attached, hd.lifecycle⟩
  rw [hq.cfg]
  exact {
    buffer := by rw [hbuf]; exact hd.buffer
    bound := by rw [hbuf]; exact hd.bound
    cursor := by rw [hlen, hidx]; exact hd.cursor
    length := by rw [hctl, hlen]; exact hd.length
    start := by rw [hctl, hidx]; exact hd.start
    attached := hl.attached
    lifecycle := hl.lifecycle }

theorem devicesOk_contractViolation (c : Cause) (w : Word) (h : DevicesOk s) :
    DevicesOk (contractViolation c w s) :=
  devicesOk_pkts h (by simp) (by simp)

theorem devicesOk_exec (h : exec i s = .next t) (hs : DevicesOk s) : DevicesOk t := by
  by_cases hsub : ∃ k d, i = .submit k d
  · obtain ⟨k, d, rfl⟩ := hsub
    exact submit_keeps h hs (fun _ => devices_submit hs k d)
      fun c w _ => devicesOk_contractViolation c w
  by_cases hcompl : ∃ k, i = .complete k
  · obtain ⟨k, rfl⟩ := hcompl
    exact complete_keeps h hs (devices_complete hs k)
      fun c w _ => devicesOk_contractViolation c w
  · exact devicesOk_quiet
      (exec_quiet h (fun k d e => hsub ⟨k, d, e⟩) fun k e => hcompl ⟨k, e⟩) (exec_placed h) hs

/-- Settles O21: the transfers keep the control fields as the rules do, and the port commands write
the attached flag together with the lifecycle state. -/
theorem devicesInvariant : Obligations.DevicesInvariant := by
  intro s t hs h
  refine step_keeps h hs (fun d => ?_) (fun _ => devicesOk_pkts hs rfl rfl)
    (fun c w _ => devicesOk_contractViolation c w) fun i u hu he => devicesOk_exec he hu
  rw [State.dev_hardwareReset]
  exact dok_reset _

end Sys2Proof.Machine
end

section
/-! PROOF. What a SUBMIT and a COMPLETE keep, from what their parts keep (spec
41_packet_lifecycle.md R94 to R112). -/

namespace Sys2Proof.Machine

variable {α : Type} {k : Index} {r : EpRef} {s : State}

theorem Run.All.and {I J : State → Prop} {x : Run α} (hI : x.All I) (hJ : x.All J) :
    x.All fun s => I s ∧ J s := by
  cases x with
  | ok a s => exact ⟨hI, hJ⟩
  | raised c s => exact ⟨hI, hJ⟩
  | stopped e => trivial

/-- What a halted endpoint's SUBMIT keeps if clearing the halt keeps it (R97). -/
theorem clearHalt_all {I : State → Prop} (hs : I s)
    (hclear : I (s.updEp r fun e => { e with halted := false })) : (clearHalt r s).All I := by
  unfold clearHalt
  split
  · rw [require_bind]
    split
    · exact hclear
    · exact hs
  · exact hs

/-- What the outcome of a dispatch keeps if each of its updates keeps it (R102 to R105). -/
theorem afterDispatch_all {I : State → Prop} (hs : I s)
    (hasync : (s.pkt k).status = .async → I ((s.setPktState k .async).appendQueue r k))
    (hqueue : I (queueOne k r s)) (hdone : I (s.setPktState k .complete)) :
    (afterDispatch k r s).All I := by
  unfold afterDispatch
  split
  · rename_i hst
    refine (checkAsync_all (I := (· = s)) rfl).bind (by rintro _ rfl; exact hs) ?_
    rintro _ _ - rfl
    exact hasync hst
  · exact hqueue
  · exact hs
  all_goals exact hdone

/-- What an accepted SUBMIT keeps. `J` is what holds between the dispatch and its outcome (R99). -/
theorem submitAccepted_all {I J : State → Prop} (hs : I s)
    (hclear : I (s.updEp r fun e => { e with halted := false }))
    (hqueue : ∀ u, I u → I (queueOne k r u)) (hdispatch : ∀ u, I u → (dispatch k u).All J)
    (hraise : ∀ u, J u → I u) (hafter : ∀ u, J u → (afterDispatch k r u).All I) :
    (submitAccepted k r s).All I := by
  refine (clearHalt_all hs hclear).bind (fun _ h => h) fun _ u _ hu => ?_
  split
  · split
    · exact hu
    · exact hqueue u hu
  · exact (hdispatch u hu).bind hraise fun _ v _ hv => hafter v hv

/-- What a SUBMIT keeps: it is refused, or it finds no device, or it is accepted (R94 to R98). -/
theorem submitPacket_all {I : State → Prop} {d : Index} (hs : I s)
    (hnone : (s.pkt k).valid = true → I ((s.setStatus k .noDevice).setPktState k .complete))
    (haccept : (s.pkt k).valid = true → (submitAccepted k (s.pkt k).endpoint s).All I) :
    (submitPacket k d s).All I := by
  simp only [submitPacket, checkValid, require_bind]
  split
  · rename_i hv
    split
    · split
      · exact hnone hv
      split
      · exact haccept hv
      · exact hs
    · exact hs
  · exact hs

/-- What a COMPLETE keeps. `J` is what holds between the response and the completion (R108). -/
theorem completePacket_all {I J : State → Prop} (hs : I s) (hdrop : I s.dropResp)
    (happly : (s.pkt k).valid = true → (s.pkt k).state = .async →
      (applyCompletion k s.nextResp s.dropResp).All J)
    (hraise : ∀ u, J u → I u) (hdone : ∀ u, J u → I (completeOne k (s.pkt k).endpoint u))
    (hadvance : ∀ fuel u, I u → (advance (s.pkt k).endpoint fuel u).All I) :
    (completePacket k s).All I := by
  simp only [completePacket, checkValid, require_bind]
  split
  · rename_i hv
    split
    · rename_i hst
      split
      · split
        · refine (happly hv (by simpa using hst)).bind hraise fun _ u _ hu => ?_
          exact hadvance _ _ (hdone u hu)
        · exact hdrop
      · exact hdrop
    · exact hs
  · exact hs

end Sys2Proof.Machine
end

section
/-! PROOF. Every packet slot stays as the rules keep it (spec 10_state.md R28, R32,
41_packet_lifecycle.md R91, R92, R114 (e)). -/

namespace Sys2Proof.Machine

variable {i : Instr} {d k : Index} {r : EpRef} {s t : State}

/-! ### Updates that keep the packets -/

theorem packetsOk_of_pkt (hs : PacketsOk s) (hc : t.cfg = s.cfg)
    (hd : t.devs.length = s.devs.length) (hp : ∀ k, t.pkt k = s.pkt k) : PacketsOk t :=
  fun k => by rw [hc, hd, hp]; exact hs k

theorem SameTables.packetsOk (h : SameTables s t) (hs : PacketsOk s) : PacketsOk t :=
  packetsOk_of_pkt hs h.setup.cfg h.setup.devsLen h.pkt

theorem packetsOk_contractViolation (c : Cause) (w : Word) (hs : PacketsOk s) :
    PacketsOk (contractViolation c w s) :=
  packetsOk_of_pkt hs (by simp) (by simp) (Latched.pkt (.inr ⟨c, w, rfl⟩))

theorem packetsOk_dropResp (hs : PacketsOk s) : PacketsOk s.dropResp :=
  packetsOk_of_pkt hs (by simp) (by simp) (by simp)

theorem packetsOk_updEp (hs : PacketsOk s) (r : EpRef) (f : Endpoint → Endpoint) :
    PacketsOk (s.updEp r f) :=
  packetsOk_of_pkt hs rfl (by simp) fun _ => rfl

/-- A write to one slot. -/
theorem packetsOk_updPkt {f : Packet → Packet} (hs : PacketsOk s)
    (hf : PacketOk s.cfg s.devs.length (f (s.pkt k))) : PacketsOk (s.updPkt k f) := by
  intro j
  rw [State.pkt_updPkt]
  split
  · rename_i hj
    obtain ⟨rfl, -⟩ := hj
    exact hf
  · exact hs j

/-- A transfer writes only the status and the length of its packet, so the length is all that is
left to bound (R28 (a)). -/
theorem packetsOk_transfers (hs : PacketsOk s) (hT : Transfers d k s t) (hf : Fits k t) :
    PacketsOk t := by
  intro j
  rw [hT.cfg, hT.devsLen]
  by_cases hj : j = k
  · subst hj
    have hmoved := hf.moved
    rw [hT.pktSelf] at hmoved ⊢
    exact { hs j with moved := hmoved }
  · rw [hT.pktOther j hj]; exact hs j

/-- A slot whose handler call may be left pending: a SETUP packet of endpoint 0 has an 8-byte vector
(R124). -/
def MayPend (P : Packet) : Prop :=
  P.epNr = 0 → P.token = .setup → P.parameter = 0 → iovSize P.iov = 8

theorem packetsOk_setPktState {st : PktState} (hs : PacketsOk s)
    (hv : (s.pkt k).valid = true) (hp : st = .async → MayPend (s.pkt k)) :
    PacketsOk (s.setPktState k st) :=
  packetsOk_updPkt hs
    { hs k with unused := fun h => absurd (h.symm.trans hv) Bool.false_ne_true, pending := hp }

theorem packetsOk_setStatus (st : Status) (hs : PacketsOk s) : PacketsOk (s.setStatus k st) :=
  packetsOk_updPkt hs { hs k with }

theorem packetsOk_queueOne (hs : PacketsOk s) (hv : (s.pkt k).valid = true) :
    PacketsOk (queueOne k r s) :=
  packetsOk_updEp (packetsOk_setStatus .async
    (packetsOk_setPktState (st := .queued) hs hv nofun)) r _

theorem packetsOk_completeOne (hs : PacketsOk s) (hv : (s.pkt k).valid = true) :
    PacketsOk (completeOne k r s) :=
  packetsOk_updEp (packetsOk_setPktState (st := .complete) hs hv nofun) r _

/-! ### A dispatch and a completion -/

/-- A SETUP packet of endpoint 0 whose vector is not 8 bytes is stalled, so its handler is never
left pending (R124). -/
theorem dispatch_mayPend (k : Index) (s : State) :
    (dispatch k s).All fun t => (t.pkt k).status = .async → MayPend (t.pkt k) := by
  by_cases hp : MayPend (s.pkt k)
  · refine (transfers_dispatch k s).mono fun t hT _ => ?_
    rw [hT.pktSelf]; exact hp
  · simp only [MayPend, Classical.not_imp] at hp
    obtain ⟨hep, htok, hpar, hlen⟩ := hp
    have hk : k.toNat < s.pkts.length := by
      by_contra hn
      simp [State.pkt, List.getD_eq_getElem?_getD, List.getElem?_eq_none (Nat.le_of_not_lt hn),
        Packet.reset] at htok
    have hstall : dispatch k s =
        .ok () (stallToIdle (s.pkt k).dev k (s.setStatus k .success)) := by
      simp [dispatch, controlDispatch, tokenSetup, State.setStatus, hk, hep, htok, hpar, hlen]
    rw [hstall]
    intro hasync
    simp [stallToIdle, State.setStatus, State.setCtl, hk] at hasync

theorem packets_dispatch (hs : PacketsOk s) (k : Index) :
    (dispatch k s).All fun t => PacketsOk t ∧ ((t.pkt k).status = .async → MayPend (t.pkt k)) :=
  ((((fits_dispatch (hs k).fits).all.and (transfers_dispatch k s)).mono fun _ h =>
    packetsOk_transfers hs h.2 h.1)).and (dispatch_mayPend k s)

/-- A packet that stands in a queue while the packets and the queues are as the rules keep them. -/
structure QueuedOk (r : EpRef) (k : Index) (s : State) : Prop where
  packets : PacketsOk s
  queues  : QueuesOk s
  member  : k ∈ (s.ep r).queue

theorem QueuedOk.valid (h : QueuedOk r k s) : (s.pkt k).valid = true :=
  (h.queues.member r k h.member).2.1

theorem QueuedOk.completeOne (h : QueuedOk r k s) :
    PacketsOk (completeOne k r s) ∧ QueuesOk (completeOne k r s) :=
  ⟨packetsOk_completeOne h.packets h.valid, queuesOk_completeOne h.queues h.member⟩

/-- The queue advance takes only packets that stand in the queue, which are slots in use (R110). -/
theorem packets_advance (r : EpRef) (fuel : Nat) (s : State) (hs : PacketsOk s ∧ QueuesOk s) :
    (advance r fuel s).All fun t => PacketsOk t ∧ QueuesOk t := by
  refine advance_all
    (J := fun h u => QueuedOk r h u ∧ ((u.pkt h).status = .async → MayPend (u.pkt h)))
    r ?_ ?_ ?_ ?_ fuel s hs
  · rintro h tl u ⟨hu, hq⟩ hcons -
    refine ((packets_dispatch hu h).and (transfers_dispatch h u)).mono ?_
    rintro v ⟨⟨hv, hpend⟩, hT⟩
    exact ⟨⟨hv, hT.queuesOk hq, by rw [hT.ep, hcons]; exact List.mem_cons_self⟩, hpend⟩
  · exact fun h u hu => ⟨hu.1.packets, hu.1.queues⟩
  · rintro h u ⟨hu, hpend⟩ hasync
    exact ⟨packetsOk_setPktState hu.packets hu.valid fun _ => hpend hasync,
      queuesOk_setState hu.queues (hu.queues.member r h hu.member).2.2.1⟩
  · exact fun h u hu _ => hu.1.completeOne

/-- SUBMIT and COMPLETE leave a slot in use as one in use (R91). -/
theorem Moves.valid (h : Moves r s t) (hv : (s.pkt k).valid = true) : (t.pkt k).valid = true := by
  rw [h.pkt]; exact hv

theorem packets_submit (hs : PacketsOk s) (k d : Index) : (submitPacket k d s).All PacketsOk := by
  refine submitPacket_all hs (fun hv => packetsOk_setPktState (packetsOk_setStatus _ hs)
    ((moves_setStatus (r := (s.pkt k).endpoint) s k _).valid hv) nofun) fun hv => ?_
  refine (submitAccepted_all (I := fun u => PacketsOk u ∧ (u.pkt k).valid = true)
    (J := fun u => (PacketsOk u ∧ ((u.pkt k).status = .async → MayPend (u.pkt k))) ∧
      (u.pkt k).valid = true) ⟨hs, hv⟩ ⟨packetsOk_updEp hs _ _, hv⟩ ?_ ?_ ?_ ?_).mono fun _ h => h.1
  · exact fun u hu => ⟨packetsOk_queueOne hu.1 hu.2, (moves_queueOne k u).valid hu.2⟩
  · exact fun u hu => (packets_dispatch hu.1 k).and
      ((moves_dispatch (r := (s.pkt k).endpoint) k u).mono fun v hm => hm.valid hu.2)
  · exact fun u hu => ⟨hu.1.1, hu.2⟩
  · rintro u ⟨⟨hu, hpend⟩, hv⟩
    refine Run.All.and ?_ ((moves_afterDispatch k u).mono fun v hm => hm.valid hv)
    exact afterDispatch_all hu
      (fun hasync => packetsOk_updEp (packetsOk_setPktState hu hv fun _ => hpend hasync) _ _)
      (packetsOk_queueOne hu hv) (packetsOk_setPktState hu hv nofun)

theorem packets_complete (hs : PacketsOk s) (hq : QueuesOk s) (k : Index) :
    (completePacket k s).All PacketsOk := by
  have hdrop := packetsOk_dropResp hs
  have hqdrop : QueuesOk s.dropResp := (transfers_dropResp (d := 0) (k := 0) s).queuesOk hq
  refine (completePacket_all (I := fun u => PacketsOk u ∧ QueuesOk u)
    (J := QueuedOk (s.pkt k).endpoint k) ⟨hs, hq⟩ ⟨hdrop, hqdrop⟩ ?_
    (fun u hu => ⟨hu.packets, hu.queues⟩) (fun u hu => hu.completeOne)
    (packets_advance _)).mono fun _ h => h.1
  intro _ hasync
  have hpend : MayPend (s.dropResp.pkt k) := by
    rw [State.pkt_dropResp]; exact (hs k).pending hasync
  have hmem := (hq.queued k (by rw [hasync]; rfl)).2
  refine ((fits_applyCompletion (hdrop k).fits hpend s.nextResp).all.and
    (transfers_applyCompletion k s.nextResp s.dropResp)).mono ?_
  rintro u ⟨hf, hT⟩
  exact ⟨packetsOk_transfers hdrop hT hf, hT.queuesOk hqdrop, by rw [hT.ep]; simpa using hmem⟩

/-! ### The commands and a step -/

/-- One more segment adds its length to the capacity (R25). -/
theorem iovSize_append_segment (iov : List Segment) (g : Segment) :
    iovSize (iov ++ [g]) = iovSize iov + g.len.toNat := by
  induction iov with
  | nil => simp [iovSize]
  | cons g' iov ih => simp [iovSize, ih, Nat.add_assoc]

/-- PKT_IOV_ADD keeps a packet in state Setup as the rules do, by its three checks (R92). -/
theorem PacketOk.addSegment {c : Config} {n : Nat} {P : Packet} (h : PacketOk c n P) {g : Segment}
    (hst : P.state = .setup) (hcount : P.iov.length ≠ c.iovMax) (hhost : g.inHost c)
    (hcap : iovSize P.iov + g.len.toNat < 2 ^ 32) :
    PacketOk c n { P with iov := P.iov ++ [g] } :=
  { h with
    segments := by
      have := h.segments
      simp only [List.length_append, List.length_singleton]
      omega
    inHost := fun g' hg' => by
      rcases List.mem_append.mp hg' with hg' | hg'
      · exact h.inHost g' hg'
      · rw [List.mem_singleton.mp hg']; exact hhost
    capacity := by
      dsimp only
      rw [iovSize_append_segment]; exact hcap
    moved := by
      dsimp only
      rw [iovSize_append_segment]; exact Nat.le_add_right_of_le h.moved
    pending := fun hasync => nomatch hst.symm.trans hasync }

theorem packetsOk_exec (h : exec i s = .next t) (hs : PacketsOk s) (hq : QueuesOk s) :
    PacketsOk t := by
  have hlatch : Latched s t → PacketsOk t := fun hl =>
    hl.keeps hs fun c w _ => packetsOk_contractViolation c w
  cases i with
  | epSetType | epSetIfnum | epSetMps | epSetPipe | epSetHalt =>
    rcases setEndpoint_cases h with hr | ⟨-, -, rfl⟩
    · exact hlatch hr.latched
    · exact packetsOk_updEp hs _ _
  | pktSetup k d n tk =>
    rcases pktSetup_cases h with hr | ⟨-, -, hd, htk, -, rfl⟩
    · exact hlatch hr.latched
    · exact packetsOk_updPkt hs
        { combined := rfl, unused := nofun, device := fun _ => hd, token := fun _ => htk, dir := rfl
          segments := Nat.zero_le _, inHost := nofun, capacity := by simp [iovSize]
          moved := Nat.le_refl 0, pending := nofun }
  | pktIovAdd =>
    rcases pktIovAdd_cases h with hr | ⟨-, -, hst, hcount, hhost, hcap, rfl⟩
    · exact hlatch hr.latched
    · exact packetsOk_updPkt hs ((hs _).addSegment hst hcount hhost hcap)
  | pktSetParam k =>
    rcases pktSetParam_cases h with hr | ⟨-, -, hst, rfl⟩
    · exact hlatch hr.latched
    · exact packetsOk_updPkt hs { hs k with pending := fun hasync => nomatch hst.symm.trans hasync }
  | submit k d =>
    exact submit_keeps h hs (fun _ => packets_submit hs k d)
      fun c w _ => packetsOk_contractViolation c w
  | cancel k =>
    rcases cancel_cases h with hr | ⟨-, -, hv, -, rfl⟩
    · exact hlatch hr.latched
    · have hleft : PacketsOk ((s.setPktState k .canceled).removeQueue (s.pkt k).endpoint k) :=
        packetsOk_updEp (packetsOk_setPktState (st := .canceled) hs hv nofun) _ _
      unfold cancelHook
      split <;> exact hleft
  | complete k =>
    exact complete_keeps h hs (packets_complete hs hq k)
      fun c w _ => packetsOk_contractViolation c w
  | epGet | pktRead | portBind | attach | detach | resetPort | findDevice | devSetAddr
  | devSetRwake => exact (exec_sameTables h rfl).packetsOk hs

/-- The reset value of a slot. -/
theorem packetOk_reset (c : Config) (n : Nat) : PacketOk c n Packet.reset := by
  constructor <;> simp [Packet.reset, tokenDir, iovSize]

/-- Settles O20: the byte mover keeps the length within the vector, PKT_IOV_ADD keeps the vector
within host memory, and the queues tell that only slots in use change their state. -/
theorem packetsInvariant : Obligations.PacketsInvariant := by
  intro s t hs hq h
  refine (step_keeps (I := fun u => PacketsOk u ∧ QueuesOk u) h ⟨hs, hq⟩
    ⟨fun k => ?_, queuesOk_hardwareReset s⟩ (fun _ => ⟨hs, ?_⟩)
    (fun c w _ hu => ⟨packetsOk_contractViolation c w hu.1, queuesOk_contract c w hu.2⟩)
    fun i u hu he => ⟨packetsOk_exec he hu.1 hu.2, queuesOk_exec he hu.2⟩).1
  · rw [State.pkt_hardwareReset]; exact packetOk_reset _ _
  · exact queuesOk_congr hq rfl rfl (fun _ => rfl) fun _ => ⟨rfl, fun _ => ⟨rfl, rfl⟩⟩

end Sys2Proof.Machine
end

section
/-! PROOF. Which commands write the result registers (spec 10_state.md R10). -/

namespace Sys2Proof.Machine

variable {i : Instr} {s t : State}

/-- The query commands (R10). -/
def writesResults : Instr → Bool
  | .epGet .. | .pktRead .. | .findDevice .. => true
  | .epSetType .. | .epSetIfnum .. | .epSetMps .. | .epSetPipe .. | .epSetHalt .. | .pktSetup ..
  | .pktIovAdd .. | .pktSetParam .. | .submit .. | .cancel .. | .complete .. | .portBind ..
  | .attach .. | .detach .. | .resetPort .. | .devSetAddr .. | .devSetRwake .. => false

theorem exec_sameResults (h : exec i s = .next t) (hi : writesResults i = false) :
    SameResults s t := by
  have hmoves : ∀ {k}, (i = .cancel k ∨ i = .complete k ∨ ∃ d, i = .submit k d) →
      SameResults s t := fun hi => by
    obtain ⟨u, hm, hl⟩ := exec_moves h hi
    exact hm.sameResults.trans hl.sameResults
  cases i with
  | epSetType | epSetIfnum | epSetMps | epSetPipe | epSetHalt =>
    rcases setEndpoint_cases h with hr | ⟨-, -, rfl⟩
    · exact hr.latched.sameResults
    · exact ⟨rfl, rfl, rfl, rfl⟩
  | pktSetup =>
    rcases pktSetup_cases h with hr | ⟨-, -, -, -, -, rfl⟩
    · exact hr.latched.sameResults
    · exact ⟨rfl, rfl, rfl, rfl⟩
  | pktIovAdd =>
    rcases pktIovAdd_cases h with hr | ⟨-, -, -, -, -, -, rfl⟩
    · exact hr.latched.sameResults
    · exact ⟨rfl, rfl, rfl, rfl⟩
  | pktSetParam =>
    rcases pktSetParam_cases h with hr | ⟨-, -, -, rfl⟩
    · exact hr.latched.sameResults
    · exact ⟨rfl, rfl, rfl, rfl⟩
  | submit k d => exact hmoves (.inr (.inr ⟨d, rfl⟩))
  | cancel => exact hmoves (.inl rfl)
  | complete => exact hmoves (.inr (.inl rfl))
  | portBind => exact (portBind_rewires h).results
  | attach => exact (attach_rewires h).results
  | detach => exact (detach_rewires h).results
  | resetPort => exact (resetPort_rewires h).results
  | devSetAddr => exact (devSetAddr_rewires h).results
  | devSetRwake => exact (devSetRwake_rewires h).results
  | epGet | pktRead | findDevice => cases hi

/-- Settles O10: every command but the three queries keeps the result registers, and FIND_DEVICE
keeps all but `RES0`. -/
theorem resultRegisterWriters : Obligations.ResultRegisterWriters := by
  intro i s t h
  have hsame : writesResults i = false →
      t.res0 = s.res0 ∧ t.res1 = s.res1 ∧ t.res2 = s.res2 ∧ t.res3 = s.res3 := fun hi => by
    obtain ⟨h0, h1, h2, h3⟩ := exec_sameResults h hi
    exact ⟨h0, h1, h2, h3⟩
  cases i with
  | epGet | pktRead => trivial
  | findDevice =>
    obtain ⟨-, h1, h2, h3⟩ := (findDevice_rewires h).results
    exact ⟨h1, h2, h3⟩
  | epSetType | epSetIfnum | epSetMps | epSetPipe | epSetHalt | pktSetup | pktIovAdd | pktSetParam
  | submit | cancel | complete | portBind | attach | detach | resetPort | devSetAddr
  | devSetRwake => exact hsame rfl

end Sys2Proof.Machine
end

section
/-! PROOF. Which commands write the fields of a device (spec 10_state.md R15): those of the control
sequencer, by a frame that SUBMIT and COMPLETE keep, and those of the port commands. -/

namespace Sys2Proof.Machine

variable {i : Instr} {d k : Index} {r : EpRef} {s t u : State}

/-! ### The fields of the control sequencer -/

/-- The fields of the control sequencer are as they were (R15). -/
def SameControl (D D' : Device) : Prop :=
  D'.setupBuf = D.setupBuf ∧ D'.ctlState = D.ctlState ∧ D'.dataBuf = D.dataBuf ∧
    D'.setupLen = D.setupLen ∧ D'.setupIndex = D.setupIndex

theorem SameControl.refl (D : Device) : SameControl D D := ⟨rfl, rfl, rfl, rfl, rfl⟩

theorem SameControl.trans {D D' D'' : Device} (h : SameControl D D') (h' : SameControl D' D'') :
    SameControl D D'' := by
  obtain ⟨h1, h2, h3, h4, h5⟩ := h
  obtain ⟨h1', h2', h3', h4', h5'⟩ := h'
  exact ⟨h1'.trans h1, h2'.trans h2, h3'.trans h3, h4'.trans h4, h5'.trans h5⟩

/-- The control fields of a device can differ only if `r` is its control endpoint. -/
def ControlFrame (r : EpRef) (s t : State) : Prop :=
  ∀ d, r ≠ ⟨d, .ctl⟩ → SameControl (s.dev d) (t.dev d)

theorem ControlFrame.refl (r : EpRef) (s : State) : ControlFrame r s s := fun _ _ => .refl _

theorem ControlFrame.trans (h : ControlFrame r s t) (h' : ControlFrame r t u) :
    ControlFrame r s u :=
  fun d hd => (h d hd).trans (h' d hd)

theorem ControlFrame.of_devs (h : t.devs = s.devs) : ControlFrame r s t := fun d _ => by
  rw [show t.dev d = s.dev d by simp only [State.dev, h]]; exact .refl _

theorem controlFrame_updEp (s : State) (q : EpRef) (f : Endpoint → Endpoint) :
    ControlFrame r s (s.updEp q f) := fun d _ => (quiet_updEp s q f).control d

theorem controlFrame_queueOne (k : Index) (s : State) : ControlFrame r s (queueOne k r s) :=
  controlFrame_updEp ((s.setPktState k .queued).setStatus k .async) r _

theorem controlFrame_completeOne (k : Index) (s : State) : ControlFrame r s (completeOne k r s) :=
  controlFrame_updEp (s.setPktState k .complete) r _

/-- The data path writes no device (R100). -/
theorem devs_applyDataResp (r : Resp) (emits : Bool) (s : State) :
    (applyDataResp d k r emits s).All fun t => t.devs = s.devs := by
  have hcopy : ∀ buf n, (packetCopy k buf n s).All fun t => t.devs = s.devs := fun buf n => by
    rcases packetCopy_cases k buf n s with ⟨-, e⟩ | ⟨-, ⟨-, m, -, e⟩ | ⟨-, bs, -, e⟩ | e⟩ <;> rw [e]
    · exact rfl
    · exact rfl
    · exact rfl
    · trivial
  unfold applyDataResp
  split
  · exact rfl
  split
  · rw [require_bind]
    split
    · exact (hcopy _ _).bind (fun _ h => h) fun _ _ _ h => h
    · exact rfl
  · rw [require_bind]
    split
    · refine (hcopy _ _).bind (fun _ h => h) fun _ _ _ h => ?_
      split <;> exact h
    · exact rfl

theorem devs_dataHandler (s : State) : (dataHandler d k s).All fun t => t.devs = s.devs := by
  unfold dataHandler
  split
  · refine (devs_applyDataResp _ _ _).mono fun t h => ?_
    rw [h, State.dropResp_devs, State.emit_devs]
  · exact devs_applyDataResp _ _ s

theorem Packet.endpoint_of_epNr_zero {P : Packet} (h : P.epNr = 0) :
    P.endpoint = ⟨P.dev, .ctl⟩ := by
  simp [Packet.endpoint, epId, h]

theorem Packet.epNr_eq_zero {P : Packet} (h : P.endpoint = ⟨d, .ctl⟩) : P.dev = d ∧ P.epNr = 0 := by
  obtain ⟨hd, he⟩ := EpRef.mk.inj h
  refine ⟨hd, BitVec.eq_of_toNat_eq ?_⟩
  by_contra hn
  have hn : P.epNr.toNat ≠ 0 := hn
  cases hdir : P.epDir <;> simp [epId, hn, hdir] at he

/-- A transfer on endpoint 0 changes the control fields of its own device only. -/
theorem Transfers.controlFrame (h : Transfers (s.pkt k).dev k u t) (hep : (s.pkt k).epNr = 0) :
    ControlFrame (s.pkt k).endpoint u t := fun d hd => by
  rw [Packet.endpoint_of_epNr_zero hep] at hd
  rw [h.devOther d fun e => hd (e ▸ rfl)]
  exact .refl _

/-- A dispatch changes control fields only on its packet's own control endpoint (R101). -/
theorem controlFrame_dispatch (k : Index) (s : State) :
    (dispatch k s).All (ControlFrame (s.pkt k).endpoint s) := by
  by_cases hep : (s.pkt k).epNr = 0
  · exact (transfers_dispatch k s).mono fun t h => h.controlFrame hep
  · simp only [dispatch, if_neg hep]
    exact (devs_dataHandler _).mono fun t h => .of_devs h

/-- So does the response of a COMPLETE (R108). -/
theorem controlFrame_applyCompletion (k : Index) (a : Resp) (s : State) :
    (applyCompletion k a s).All (ControlFrame (s.pkt k).endpoint s) := by
  by_cases hep : (s.pkt k).epNr = 0
  · exact (transfers_applyCompletion k a s).mono fun t h => h.controlFrame hep
  · simp only [applyCompletion, if_neg hep]
    exact (devs_applyDataResp _ _ _).mono fun t h => .of_devs h

theorem Moves.endpoint (h : Moves r s t) (k : Index) : (t.pkt k).endpoint = (s.pkt k).endpoint := by
  rw [h.pkt]; rfl

theorem controlFrame_submit (k d : Index) (s : State) :
    (submitPacket k d s).All (ControlFrame (s.pkt k).endpoint s) := by
  refine submitPacket_all (.refl _ s) (fun _ => .of_devs rfl) fun _ => ?_
  refine (submitAccepted_all
    (I := fun u => ControlFrame (s.pkt k).endpoint s u ∧ (u.pkt k).endpoint = (s.pkt k).endpoint)
    (J := fun u => ControlFrame (s.pkt k).endpoint s u ∧ (u.pkt k).endpoint = (s.pkt k).endpoint)
    ⟨.refl _ s, rfl⟩ ⟨controlFrame_updEp s _ _, rfl⟩ ?_ ?_ (fun _ h => h) ?_).mono fun _ h => h.1
  · exact fun u hu => ⟨hu.1.trans (controlFrame_queueOne k u),
      ((moves_queueOne k u).endpoint k).trans hu.2⟩
  · rintro u ⟨hu, he⟩
    refine ((controlFrame_dispatch k u).and (moves_dispatch (r := (s.pkt k).endpoint) k u)).mono ?_
    rintro v ⟨hv, hm⟩
    exact ⟨hu.trans (he ▸ hv), (hm.endpoint k).trans he⟩
  · rintro u ⟨hu, he⟩
    refine Run.All.and ?_ ((moves_afterDispatch k u).mono fun v hm => (hm.endpoint k).trans he)
    exact afterDispatch_all hu (fun _ => hu.trans (controlFrame_updEp (u.setPktState k .async) _ _))
      (hu.trans (controlFrame_queueOne k u)) (hu.trans (.of_devs rfl))

/-- The queue advance takes packets of its own endpoint only (R110, R114 (c)). -/
theorem controlFrame_advance (fuel : Nat) (s : State) (hs : QueuesOk s) :
    (advance r fuel s).All (ControlFrame r s) := by
  refine (advance_all (I := fun u => ControlFrame r s u ∧ QueuesOk u)
    (J := fun h u => (ControlFrame r s u ∧ QueuesOk u) ∧ h ∈ (u.ep r).queue)
    r ?_ ?_ ?_ ?_ fuel s ⟨.refl r s, hs⟩).mono fun _ h => h.1
  · rintro h tl u ⟨hu, hq⟩ hcons -
    have hmem : h ∈ (u.ep r).queue := hcons ▸ List.mem_cons_self
    have he : (u.pkt h).endpoint = r := (hq.member r h hmem).2.2.2
    refine ((controlFrame_dispatch h u).and (transfers_dispatch h u)).mono ?_
    rintro v ⟨hv, hT⟩
    exact ⟨⟨hu.trans (he ▸ hv), hT.queuesOk hq⟩, by rw [hT.ep]; exact hmem⟩
  · exact fun h u hu => hu.1
  · rintro h u ⟨⟨hu, hq⟩, hmem⟩ -
    exact ⟨hu.trans (.of_devs rfl), queuesOk_setState hq (hq.member r h hmem).2.2.1⟩
  · rintro h u ⟨⟨hu, hq⟩, hmem⟩ -
    exact ⟨hu.trans (controlFrame_completeOne h u), queuesOk_completeOne hq hmem⟩

theorem controlFrame_complete (hs : QueuesOk s) (k : Index) :
    (completePacket k s).All (ControlFrame (s.pkt k).endpoint s) := by
  have hdrop : QueuesOk s.dropResp := (transfers_dropResp (d := 0) (k := 0) s).queuesOk hs
  have hframe : ControlFrame (s.pkt k).endpoint s s.dropResp := .of_devs (by simp)
  refine (completePacket_all
    (I := fun u => ControlFrame (s.pkt k).endpoint s u ∧ QueuesOk u)
    (J := fun u => (ControlFrame (s.pkt k).endpoint s u ∧ QueuesOk u) ∧
      k ∈ (u.ep (s.pkt k).endpoint).queue)
    ⟨.refl _ s, hs⟩ ⟨hframe, hdrop⟩ ?_ (fun _ h => h.1) ?_ ?_).mono fun _ h => h.1
  · intro _ hasync
    have hmem := (hs.queued k (by rw [hasync]; rfl)).2
    refine ((controlFrame_applyCompletion k s.nextResp s.dropResp).and
      (transfers_applyCompletion k s.nextResp s.dropResp)).mono ?_
    rintro u ⟨hu, hT⟩
    rw [State.pkt_dropResp] at hu
    exact ⟨⟨hframe.trans hu, hT.queuesOk hdrop⟩, by rw [hT.ep]; simpa using hmem⟩
  · rintro u ⟨⟨hu, hq⟩, hmem⟩
    exact ⟨hu.trans (controlFrame_completeOne k u), queuesOk_completeOne hq hmem⟩
  · rintro fuel u ⟨hu, hq⟩
    exact ((controlFrame_advance fuel u hq).mono fun _ h => hu.trans h).and
      (advance_queues _ _ _ hq)

/-- The control fields of a device change only in a SUBMIT or a COMPLETE of one of its endpoint-0
packets (R15). -/
theorem exec_control (hs : QueuesOk s) (h : exec i s = .next t) (d : Index) :
    SameControl (s.dev d) (t.dev d) ∨
      ∃ k, (i = .complete k ∨ ∃ e, i = .submit k e) ∧ (s.pkt k).dev = d ∧ (s.pkt k).epNr = 0 := by
  have hcase : ∀ k, (i = .complete k ∨ ∃ e, i = .submit k e) →
      ControlFrame (s.pkt k).endpoint s t → SameControl (s.dev d) (t.dev d) ∨
        ∃ k, (i = .complete k ∨ ∃ e, i = .submit k e) ∧ (s.pkt k).dev = d ∧
          (s.pkt k).epNr = 0 := fun k hi hf => by
    by_cases he : (s.pkt k).endpoint = ⟨d, .ctl⟩
    · exact .inr ⟨k, hi, Packet.epNr_eq_zero he⟩
    · exact .inl (hf d he)
  have hlatch : ∀ {r} c w u, ControlFrame r s u → ControlFrame r s (contractViolation c w u) :=
    fun c w u hu => hu.trans (.of_devs (by simp))
  by_cases hsub : ∃ k e, i = .submit k e
  · obtain ⟨k, e, rfl⟩ := hsub
    exact hcase k (.inr ⟨e, rfl⟩)
      (submit_keeps h (.refl _ s) (fun _ => controlFrame_submit k e s) hlatch)
  by_cases hcompl : ∃ k, i = .complete k
  · obtain ⟨k, rfl⟩ := hcompl
    exact hcase k (.inl rfl) (complete_keeps h (.refl _ s) (controlFrame_complete hs k) hlatch)
  · exact .inl ((exec_quiet h (fun k e he => hsub ⟨k, e, he⟩) fun k he => hcompl ⟨k, he⟩).control d)

/-! ### All the fields -/

/-- The fields that no transfer writes, read off what a command may leave there (R15). -/
theorem Placed.writers {D' : Device} (h : Placed s d i D') :
    ((D'.attached ≠ (s.dev d).attached ∨ D'.state ≠ (s.dev d).state) →
      (∃ p, i = .resetPort p ∧ (s.port p).dev = d) ∨
        ∃ p, (i = .attach p ∨ i = .detach p) ∧ (s.port p).dev = d) ∧
    (D'.addr ≠ (s.dev d).addr →
      (∃ p, i = .resetPort p ∧ (s.port p).dev = d) ∨ ∃ a, i = .devSetAddr d a) ∧
    (D'.remoteWakeup ≠ (s.dev d).remoteWakeup →
      (∃ p, i = .resetPort p ∧ (s.port p).dev = d) ∨ ∃ f, i = .devSetRwake d f) ∧
    (D'.port ≠ (s.dev d).port →
      ∃ p e, i = .portBind p e ∧ (e = d ∨ (s.port p).dev = d)) := by
  cases h with
  | same h =>
    exact ⟨fun hc => (hc.elim (· h.attached) (· h.state)).elim, (absurd h.addr ·),
      (absurd h.remoteWakeup ·), (absurd h.port ·)⟩
  | attach h =>
    exact ⟨fun _ => .inr ⟨_, .inl rfl, h⟩, (absurd rfl ·), (absurd rfl ·), (absurd rfl ·)⟩
  | detach h =>
    exact ⟨fun _ => .inr ⟨_, .inr rfl, h⟩, (absurd rfl ·), (absurd rfl ·), (absurd rfl ·)⟩
  | reset h =>
    exact ⟨fun _ => .inl ⟨_, rfl, h⟩, fun _ => .inl ⟨_, rfl, h⟩, fun _ => .inl ⟨_, rfl, h⟩,
      (absurd rfl ·)⟩
  | addr =>
    exact ⟨fun hc => (hc.elim (· rfl) (· rfl)).elim, fun _ => .inr ⟨_, rfl⟩, (absurd rfl ·),
      (absurd rfl ·)⟩
  | rwake =>
    exact ⟨fun hc => (hc.elim (· rfl) (· rfl)).elim, (absurd rfl ·), fun _ => .inr ⟨_, rfl⟩,
      (absurd rfl ·)⟩
  | bind h =>
    exact ⟨fun hc => (hc.elim (· rfl) (· rfl)).elim, (absurd rfl ·), (absurd rfl ·),
      fun _ => ⟨_, _, rfl, h⟩⟩

/-- Settles O14: what a command may leave in the fields of the port commands, and the frame of the
control sequencer. -/
theorem deviceFieldWriters : Obligations.DeviceFieldWriters := by
  intro i s t d hs h
  obtain ⟨hlife, haddr, hwake, hport⟩ := (exec_placed h d).writers
  refine ⟨hlife, haddr, hwake, hport, fun hchanged => ?_⟩
  refine (exec_control hs h d).resolve_left fun hsame => ?_
  obtain ⟨hbuf, hctl, hdata, hlen, hidx⟩ := hsame
  rcases hchanged with hc | hc | hc | hc | hc
  exacts [hc hbuf, hc hctl, hc hdata, hc hlen, hc hidx]

end Sys2Proof.Machine
end

section
/-! PROOF. Which commands write the fields of an endpoint (spec 10_state.md R20, R22), read off an
inversion that lists what a command can leave there. -/

namespace Sys2Proof.Machine

variable {i : Instr} {d k : Index} {r : EpRef} {s t u : State}

/-- Every endpoint keeps its halt. -/
def HaltKept (s t : State) : Prop := ∀ q, (t.ep q).halted = (s.ep q).halted

theorem HaltKept.trans (h : HaltKept s t) (h' : HaltKept t u) : HaltKept s u :=
  fun q => (h' q).trans (h q)

theorem haltKept_updEp (s : State) (r : EpRef) {f : Endpoint → Endpoint}
    (hf : ∀ e, (f e).halted = e.halted) : HaltKept s (s.updEp r f) := fun q => by
  rw [State.ep_updEp]
  split
  · exact hf _
  · rfl

theorem Transfers.haltKept (h : Transfers d k s t) : HaltKept s t := fun q => by rw [h.ep]

theorem haltKept_dispatch (k : Index) (s : State) : (dispatch k s).All (HaltKept s) :=
  (transfers_dispatch k s).mono fun _ h => h.haltKept

theorem haltKept_queueOne (k : Index) (s : State) : HaltKept s (queueOne k r s) :=
  haltKept_updEp ((s.setPktState k .queued).setStatus k .async) r fun _ => rfl

theorem haltKept_completeOne (k : Index) (s : State) : HaltKept s (completeOne k r s) :=
  haltKept_updEp (s.setPktState k .complete) r fun _ => rfl

theorem haltKept_afterDispatch (k : Index) (s : State) :
    (afterDispatch k r s).All (HaltKept s) :=
  afterDispatch_all (fun _ => rfl) (fun _ => haltKept_updEp (s.setPktState k .async) r fun _ => rfl)
    (haltKept_queueOne k s) fun _ => rfl

/-- COMPLETE looks at no halt (R108). -/
theorem haltKept_complete (k : Index) (s : State) : (completePacket k s).All (HaltKept s) := by
  have hdrop : HaltKept s s.dropResp := fun q => by simp
  refine completePacket_all (J := HaltKept s) (fun _ => rfl) hdrop (fun _ _ => ?_) (fun _ h => h)
    (fun u hu => hu.trans (haltKept_completeOne k u)) fun fuel u hu => ?_
  · exact (transfers_applyCompletion k s.nextResp s.dropResp).mono fun _ h => hdrop.trans h.haltKept
  · exact advance_all (J := fun _ => HaltKept s) _
      (fun h _ v hv _ _ => (haltKept_dispatch h v).mono fun _ h' => hv.trans h')
      (fun _ _ h => h) (fun _ _ hv _ => hv.trans fun _ => rfl)
      (fun h v hv _ => hv.trans (haltKept_completeOne h v)) fuel u hu

/-- An endpoint that is halted was halted before: a halt may only be cleared. -/
def HaltCleared (s t : State) : Prop :=
  ∀ q, (t.ep q).halted = (s.ep q).halted ∨ (t.ep q).halted = false

theorem HaltCleared.trans_kept (h : HaltCleared s t) (h' : HaltKept t u) : HaltCleared s u :=
  fun q => by rw [h' q]; exact h q

/-- SUBMIT only clears a halt (R22, R97). -/
theorem haltCleared_submit (k d : Index) (s : State) :
    (submitPacket k d s).All (HaltCleared s) := by
  have hrefl : HaltCleared s s := fun _ => .inl rfl
  refine submitPacket_all hrefl (fun _ _ => .inl rfl) fun _ => ?_
  refine submitAccepted_all (J := HaltCleared s) hrefl (fun q => ?_)
    (fun u hu => hu.trans_kept (haltKept_queueOne k u))
    (fun u hu => (haltKept_dispatch k u).mono fun _ h => hu.trans_kept h) (fun _ h => h)
    fun u hu => (haltKept_afterDispatch k u).mono fun _ h => hu.trans_kept h
  rw [State.ep_updEp]
  split
  · exact .inr rfl
  · exact .inl rfl

/-- Everything a command can do to an endpoint: `EndpointWritten s r i E'` says that `E'` is what
the command `i` in the state `s` may leave in `r` (R20). -/
inductive EndpointWritten (s : State) (r : EpRef) : Instr → Endpoint → Prop where
  | same {i : Instr} : EndpointWritten s r i (s.ep r)
  | type {d n : Index} {dir v} (h : r = ⟨d, epId dir n.toNat⟩) :
      EndpointWritten s r (.epSetType d n dir v) { s.ep r with type := v }
  | ifnum {d n : Index} {dir v} (h : r = ⟨d, epId dir n.toNat⟩) :
      EndpointWritten s r (.epSetIfnum d n dir v) { s.ep r with ifnum := v }
  | packetSize {d n : Index} {dir v} (h : r = ⟨d, epId dir n.toNat⟩) :
      EndpointWritten s r (.epSetMps d n dir v) { s.ep r with maxPacketSize := maskPacketSize v }
  | pipeline {d n : Index} {dir f} (h : r = ⟨d, epId dir n.toNat⟩) :
      EndpointWritten s r (.epSetPipe d n dir f) { s.ep r with pipeline := f }
  | halt {d n : Index} {dir f} (h : r = ⟨d, epId dir n.toNat⟩) :
      EndpointWritten s r (.epSetHalt d n dir f) { s.ep r with halted := f }
  | queue {i : Instr} {k : Index} {q}
      (hi : i = .cancel k ∨ i = .complete k ∨ ∃ d, i = .submit k d) (h : r = (s.pkt k).endpoint) :
      EndpointWritten s r i { s.ep r with queue := q }
  | cleared {k d : Index} {q} (h : r = (s.pkt k).endpoint) :
      EndpointWritten s r (.submit k d) { s.ep r with halted := false, queue := q }

theorem Latched.endpointWritten (h : Latched s t) (r : EpRef) :
    EndpointWritten s r i (t.ep r) := by
  rw [h.ep]; exact .same

/-- An endpoint setter writes the endpoint it selects and no other. -/
theorem endpointWritten_updEp {q : EpRef} {f : Endpoint → Endpoint}
    (h : r = q → EndpointWritten s r i (f (s.ep r))) :
    EndpointWritten s r i ((s.updEp q f).ep r) := by
  rw [State.ep_updEp]
  split
  · rename_i hq; exact h hq.1.symm
  · exact .same

/-- A command that moves a packet of endpoint `r` and keeps the halts. -/
theorem endpointWritten_moves {k : Index} (hm : Moves (s.pkt k).endpoint s u) (hl : Latched u t)
    (hi : i = .cancel k ∨ i = .complete k ∨ ∃ d, i = .submit k d) (r : EpRef)
    (hh : (t.ep r).halted = (s.ep r).halted) : EndpointWritten s r i (t.ep r) := by
  by_cases hr : r = (s.pkt k).endpoint
  · have hself := hm.epSelf
    rw [← hl.ep, ← hr, hh] at hself
    rw [hself]; exact .queue hi hr
  · rw [hl.ep, hm.epOther r hr]; exact .same

theorem haltKept_contractViolation (c : Cause) (w : Word) (u : State) (h : HaltKept s u) :
    HaltKept s (contractViolation c w u) :=
  h.trans fun q => by rw [Latched.ep (.inr ⟨c, w, rfl⟩)]

theorem haltCleared_contractViolation (c : Cause) (w : Word) (u : State) (h : HaltCleared s u) :
    HaltCleared s (contractViolation c w u) :=
  h.trans_kept fun q => by rw [Latched.ep (.inr ⟨c, w, rfl⟩)]

theorem submit_endpointWritten {e : Index} (h : exec (.submit k e) s = .next t) (r : EpRef) :
    EndpointWritten s r (.submit k e) (t.ep r) := by
  have hi : Instr.submit k e = .cancel k ∨ Instr.submit k e = .complete k ∨
      ∃ d, Instr.submit k e = .submit k d := .inr (.inr ⟨e, rfl⟩)
  obtain ⟨u, hm, hl⟩ := exec_moves h hi
  rcases submit_keeps (I := HaltCleared s) h (fun _ => .inl rfl)
    (fun _ => haltCleared_submit k e s) haltCleared_contractViolation r with hh | hh
  · exact endpointWritten_moves hm hl hi r hh
  · by_cases hr : r = (s.pkt k).endpoint
    · have hself := hm.epSelf
      rw [← hl.ep, ← hr, hh] at hself
      rw [hself]; exact .cleared hr
    · rw [hl.ep, hm.epOther r hr]; exact .same

theorem complete_endpointWritten (h : exec (.complete k) s = .next t) (r : EpRef) :
    EndpointWritten s r (.complete k) (t.ep r) := by
  obtain ⟨u, hm, hl⟩ := exec_moves h (.inr (.inl rfl))
  exact endpointWritten_moves hm hl (.inr (.inl rfl)) r
    (complete_keeps (I := HaltKept s) h (fun _ => rfl) (haltKept_complete k s)
      haltKept_contractViolation r)

theorem cancel_endpointWritten (h : exec (.cancel k) s = .next t) (r : EpRef) :
    EndpointWritten s r (.cancel k) (t.ep r) := by
  rcases cancel_cases h with hr | ⟨-, -, -, -, rfl⟩
  · exact hr.latched.endpointWritten r
  have hhook : ∀ d b (u : State), (cancelHook d k b u).ep r = u.ep r := fun d b u => by
    unfold cancelHook
    split <;> rfl
  rw [hhook, State.removeQueue, State.ep_updEp]
  split
  · rename_i hr; exact .queue (.inl rfl) hr.1.symm
  · exact .same

theorem exec_endpointWritten (h : exec i s = .next t) (r : EpRef) :
    EndpointWritten s r i (t.ep r) := by
  cases i with
  | epSetType =>
    rcases setEndpoint_cases h with hr | ⟨-, -, rfl⟩
    exacts [hr.latched.endpointWritten r, endpointWritten_updEp .type]
  | epSetIfnum =>
    rcases setEndpoint_cases h with hr | ⟨-, -, rfl⟩
    exacts [hr.latched.endpointWritten r, endpointWritten_updEp .ifnum]
  | epSetMps =>
    rcases setEndpoint_cases h with hr | ⟨-, -, rfl⟩
    exacts [hr.latched.endpointWritten r, endpointWritten_updEp .packetSize]
  | epSetPipe =>
    rcases setEndpoint_cases h with hr | ⟨-, -, rfl⟩
    exacts [hr.latched.endpointWritten r, endpointWritten_updEp .pipeline]
  | epSetHalt =>
    rcases setEndpoint_cases h with hr | ⟨-, -, rfl⟩
    exacts [hr.latched.endpointWritten r, endpointWritten_updEp .halt]
  | pktSetup =>
    rcases pktSetup_cases h with hr | ⟨-, -, -, -, -, rfl⟩
    exacts [hr.latched.endpointWritten r, .same]
  | pktIovAdd =>
    rcases pktIovAdd_cases h with hr | ⟨-, -, -, -, -, -, rfl⟩
    exacts [hr.latched.endpointWritten r, .same]
  | pktSetParam =>
    rcases pktSetParam_cases h with hr | ⟨-, -, -, rfl⟩
    exacts [hr.latched.endpointWritten r, .same]
  | submit => exact submit_endpointWritten h r
  | cancel => exact cancel_endpointWritten h r
  | complete => exact complete_endpointWritten h r
  | epGet | pktRead | portBind | attach | detach | resetPort | findDevice | devSetAddr
  | devSetRwake => rw [(exec_sameTables h rfl).ep]; exact .same

/-- Settles O15: read off what a command may leave in an endpoint. -/
theorem endpointFieldWriters : Obligations.EndpointFieldWriters := by
  intro i s t r h
  have hw := exec_endpointWritten h r
  dsimp only
  generalize t.ep r = E' at hw
  clear h
  cases hw with
  | same =>
    exact ⟨(absurd rfl ·), (absurd rfl ·), (absurd rfl ·), (absurd rfl ·), (absurd rfl ·),
      (absurd rfl ·)⟩
  | type h =>
    exact ⟨fun _ => ⟨_, _, _, _, rfl, h⟩, (absurd rfl ·), (absurd rfl ·), (absurd rfl ·),
      (absurd rfl ·), (absurd rfl ·)⟩
  | ifnum h =>
    exact ⟨(absurd rfl ·), fun _ => ⟨_, _, _, _, rfl, h⟩, (absurd rfl ·), (absurd rfl ·),
      (absurd rfl ·), (absurd rfl ·)⟩
  | packetSize h =>
    exact ⟨(absurd rfl ·), (absurd rfl ·), fun _ => ⟨_, _, _, _, rfl, h⟩, (absurd rfl ·),
      (absurd rfl ·), (absurd rfl ·)⟩
  | pipeline h =>
    exact ⟨(absurd rfl ·), (absurd rfl ·), (absurd rfl ·), fun _ => ⟨_, _, _, _, rfl, h⟩,
      (absurd rfl ·), (absurd rfl ·)⟩
  | halt h =>
    exact ⟨(absurd rfl ·), (absurd rfl ·), (absurd rfl ·), (absurd rfl ·),
      fun _ => .inl ⟨_, _, _, _, rfl, h⟩, (absurd rfl ·)⟩
  | queue hi h =>
    exact ⟨(absurd rfl ·), (absurd rfl ·), (absurd rfl ·), (absurd rfl ·), (absurd rfl ·),
      fun _ => ⟨_, hi, h⟩⟩
  | cleared h =>
    exact ⟨(absurd rfl ·), (absurd rfl ·), (absurd rfl ·), (absurd rfl ·),
      fun _ => .inr ⟨rfl, _, _, rfl, h⟩, fun _ => ⟨_, .inr (.inr ⟨_, rfl⟩), h⟩⟩

end Sys2Proof.Machine
end

section
/-! PROOF. Which commands write the fields of a packet (spec 10_state.md R25), read off an inversion
that lists what a command can leave there. -/

namespace Sys2Proof.Machine

variable {i : Instr} {k : Index} {r : EpRef} {s t u : State}

/-- Of the packet slots only `k` may differ. -/
def OnlyPacket (k : Index) (s t : State) : Prop := ∀ j, j ≠ k → t.pkt j = s.pkt j

theorem OnlyPacket.trans (h : OnlyPacket k s t) (h' : OnlyPacket k t u) : OnlyPacket k s u :=
  fun j hj => (h' j hj).trans (h j hj)

theorem onlyPacket_updPkt (s : State) (k : Index) (f : Packet → Packet) :
    OnlyPacket k s (s.updPkt k f) := fun _ hj => State.pkt_updPkt_other s f hj

theorem onlyPacket_queueOne (k : Index) (s : State) : OnlyPacket k s (queueOne k r s) := by
  rw [queueOne_eq]; exact onlyPacket_updPkt s k _

/-- SUBMIT writes no packet but its own (R94). -/
theorem onlyPacket_submit (k d : Index) (s : State) :
    (submitPacket k d s).All (OnlyPacket k s) := by
  have hrefl : OnlyPacket k s s := fun _ _ => rfl
  refine submitPacket_all hrefl
    (fun _ => (onlyPacket_updPkt s k _).trans (onlyPacket_updPkt _ k _)) fun _ => ?_
  refine submitAccepted_all (J := OnlyPacket k s) hrefl (fun _ _ => rfl)
    (fun u hu => hu.trans (onlyPacket_queueOne k u))
    (fun u hu => (transfers_dispatch k u).mono fun _ hT => hu.trans hT.pktOther) (fun _ h => h)
    fun u hu => ?_
  exact afterDispatch_all hu (fun _ => hu.trans (onlyPacket_updPkt u k _))
    (hu.trans (onlyPacket_queueOne k u)) (hu.trans (onlyPacket_updPkt u k _))

/-- Everything a command can do to a packet: `PacketWritten s k i P'` says that `P'` is what the
command `i` in the state `s` may leave in slot `k` (R25). -/
inductive PacketWritten (s : State) (k : Index) : Instr → Packet → Prop where
  | same {i : Instr} : PacketWritten s k i (s.pkt k)
  | setup {d n : Index} {tk so ir st id P'} :
      PacketWritten s k (.pktSetup k d n tk so ir st id) P'
  | segment {a l v} : PacketWritten s k (.pktIovAdd k a l) { s.pkt k with iov := v }
  | param {p} : PacketWritten s k (.pktSetParam k p) { s.pkt k with parameter := p }
  | submit {d : Index} {q n st} : PacketWritten s k (.submit k d)
      { s.pkt k with status := q, actualLength := n, state := st }
  | cancel : PacketWritten s k (.cancel k) { s.pkt k with state := .canceled }
  | complete {j q n st} : PacketWritten s k (.complete j)
      { s.pkt k with status := q, actualLength := n, state := st }

theorem Latched.packetWritten (h : Latched s t) (k : Index) : PacketWritten s k i (t.pkt k) := by
  rw [h.pkt]; exact .same

/-- A command that writes one slot. -/
theorem packetWritten_updPkt {j : Index} {f : Packet → Packet}
    (h : j = k → PacketWritten s k i (f (s.pkt k))) :
    PacketWritten s k i ((s.updPkt j f).pkt k) := by
  rw [State.pkt_updPkt]
  split
  · rename_i hj; exact h hj.1
  · exact .same

theorem exec_packetWritten (h : exec i s = .next t) (k : Index) :
    PacketWritten s k i (t.pkt k) := by
  cases i with
  | pktSetup =>
    rcases pktSetup_cases h with hr | ⟨-, -, -, -, -, rfl⟩
    · exact hr.latched.packetWritten k
    · exact packetWritten_updPkt (by rintro rfl; exact .setup)
  | pktIovAdd =>
    rcases pktIovAdd_cases h with hr | ⟨-, -, -, -, -, -, rfl⟩
    · exact hr.latched.packetWritten k
    · exact packetWritten_updPkt (by rintro rfl; exact .segment)
  | pktSetParam =>
    rcases pktSetParam_cases h with hr | ⟨-, -, -, rfl⟩
    · exact hr.latched.packetWritten k
    · exact packetWritten_updPkt (by rintro rfl; exact .param)
  | submit j d =>
    obtain ⟨u, hm, hl⟩ := exec_moves h (.inr (.inr ⟨d, rfl⟩))
    by_cases hj : k = j
    · rw [hl.pkt, hm.pkt, hj]; exact .submit
    · have honly := submit_keeps (I := OnlyPacket j s) h (fun _ _ => rfl)
        (fun _ => onlyPacket_submit j d s)
        fun c w u hu => hu.trans fun k _ => Latched.pkt (.inr ⟨c, w, rfl⟩) k
      rw [honly k hj]; exact .same
  | cancel j =>
    rcases cancel_cases h with hr | ⟨-, -, -, -, rfl⟩
    · exact hr.latched.packetWritten k
    · have hhook : ∀ d b (u : State), (cancelHook d j b u).pkt k = u.pkt k := fun d b u => by
        unfold cancelHook
        split <;> rfl
      rw [hhook, State.removeQueue, State.pkt_updEp]
      exact packetWritten_updPkt (by rintro rfl; exact .cancel)
  | complete j =>
    obtain ⟨u, hm, hl⟩ := exec_moves h (.inr (.inl rfl))
    rw [hl.pkt, hm.pkt]; exact .complete
  | epSetType | epSetIfnum | epSetMps | epSetPipe | epSetHalt =>
    rcases setEndpoint_cases h with hr | ⟨-, -, rfl⟩
    · exact hr.latched.packetWritten k
    · exact .same
  | epGet | pktRead | portBind | attach | detach | resetPort | findDevice | devSetAddr
  | devSetRwake => rw [(exec_sameTables h rfl).pkt]; exact .same

/-- Settles O16: read off what a command may leave in a packet. -/
theorem packetFieldWriters : Obligations.PacketFieldWriters := by
  intro i s t k h
  have hw := exec_packetWritten h k
  dsimp only
  generalize t.pkt k = P' at hw
  clear h
  cases hw with
  | setup => exact .inl ⟨_, _, _, _, _, _, _, rfl⟩
  | same =>
    exact .inr ⟨rfl, (absurd rfl ·), (absurd rfl ·), fun hc => (hc.elim (· rfl) (· rfl)).elim,
      (absurd rfl ·)⟩
  | segment =>
    exact .inr ⟨rfl, (absurd rfl ·), fun _ => ⟨_, _, rfl⟩,
      fun hc => (hc.elim (· rfl) (· rfl)).elim, (absurd rfl ·)⟩
  | param =>
    exact .inr ⟨rfl, fun _ => ⟨_, rfl⟩, (absurd rfl ·), fun hc => (hc.elim (· rfl) (· rfl)).elim,
      (absurd rfl ·)⟩
  | submit =>
    exact .inr ⟨rfl, (absurd rfl ·), (absurd rfl ·), fun _ => rfl, fun _ => .inr (.inl ⟨_, rfl⟩)⟩
  | cancel =>
    exact .inr ⟨rfl, (absurd rfl ·), (absurd rfl ·), fun hc => (hc.elim (· rfl) (· rfl)).elim,
      fun _ => .inl rfl⟩
  | complete =>
    exact .inr ⟨rfl, (absurd rfl ·), (absurd rfl ·), fun _ => rfl, fun _ => .inr (.inr ⟨_, rfl⟩)⟩

end Sys2Proof.Machine
end

section
/-! PROOF. What a step can do to host memory (spec 20_memory.md R40, R42, R43): it keeps the
canonical form and the bound, and writes only bytes that the vector of an IN packet names. -/

namespace Sys2Proof.Machine

variable {i : Instr} {s t u : State}

/-- The commands that run transfers move one endpoint and may then raise; all the others leave host
memory and the control sequencer as they were. -/
theorem exec_quiet_or_moves (h : exec i s = .next t) :
    (Claim.dispatches i = false ∧ Quiet s t) ∨
    (Claim.dispatches i = true ∧ ∃ r u, Moves r s u ∧ Latched u t) := by
  cases hd : Claim.dispatches i with
  | false =>
    exact .inl ⟨rfl, exec_quiet h (by rintro k d rfl; cases hd) (by rintro k rfl; cases hd)⟩
  | true =>
    refine .inr ⟨rfl, ?_⟩
    cases i with
    | submit k d => exact ⟨_, exec_moves h (.inr (.inr ⟨d, rfl⟩))⟩
    | complete k => exact ⟨_, exec_moves h (.inr (.inl rfl))⟩
    | _ => cases hd

theorem Latched.hmem (h : Latched u t) : t.hmem = u.hmem := by
  rcases h with rfl | ⟨c, w, rfl⟩ <;> simp

/-- The property looks only at host memory and its size. -/
theorem hostMemoryOk_of_eq (hs : HostMemoryOk s) (hm : t.hmem = s.hmem) (hc : t.cfg = s.cfg) :
    HostMemoryOk t := by
  rw [HostMemoryOk, hm, hc]; exact hs

theorem hostMemoryOk_contractViolation (c : Cause) (w : Word) (hs : HostMemoryOk s) :
    HostMemoryOk (contractViolation c w s) :=
  hostMemoryOk_of_eq hs (by simp) (by simp)

theorem hostMemoryOk_exec (h : exec i s = .next t) (hs : HostMemoryOk s) : HostMemoryOk t := by
  rcases exec_quiet_or_moves h with ⟨-, hq⟩ | ⟨-, r, u, hm, hl⟩
  · exact hostMemoryOk_of_eq hs hq.hmem hq.cfg
  · exact hl.keeps (hm.hmemOk hs) fun c w _ => hostMemoryOk_contractViolation c w

/-- Settles O19: only the byte mover writes host memory, and it keeps the canonical form and stays
below the size; the reset leaves host memory as it was. -/
theorem hostMemoryInvariant : Obligations.HostMemoryInvariant := by
  intro s t hs h
  exact step_keeps h hs (hostMemoryOk_of_eq hs rfl rfl) (fun _ => hostMemoryOk_of_eq hs rfl rfl)
    (fun c w _ => hostMemoryOk_contractViolation c w) fun i u hu he => hostMemoryOk_exec he hu

/-- Settles O11: a byte that differs rules out the commands that leave host memory as it was, and
the transfers of the others write only positions of the vectors of IN packets. -/
theorem hostMemoryChangesInsideVectors : Obligations.HostMemoryChangesInsideVectors := by
  intro i s t a hwf h ha
  rcases exec_quiet_or_moves h with ⟨-, hq⟩ | ⟨hd, r, u, hm, hl⟩
  · exact absurd (by rw [hq.hmem]) ha
  · rw [hl.hmem] at ha
    obtain ⟨k, htoken, pos, hpos⟩ := (hm.hmem hwf).2 a ha
    exact ⟨hd, k, pos, htoken, hpos⟩

end Sys2Proof.Machine
end

section
/-! PROOF. Every step answers a next state (spec 20_memory.md R41, R44, 41_packet_lifecycle.md R92):
no command is without a meaning, and the byte mover meets no missing host address where the packets
are as the rules keep them. -/

namespace Sys2Proof.Machine

variable {α β : Type} {s : State}

/-- Two parts in turn, neither of which stops from any state. -/
theorem Run.Sure.andThen {x : Run α} {f : α → State → Run β} (hx : x.Sure fun _ => True)
    (hf : ∀ a u, (f a u).Sure fun _ => True) : (x.bind f).Sure fun _ => True :=
  hx.bind (fun _ _ => trivial) fun a u _ _ => hf a u

/-- What follows a check starts from the state that was checked. -/
theorem require_andThen (b : Bool) (c : Cause) {f : Unit → State → Run β}
    (hf : (f () s).Sure fun _ => True) : ((require b c s).bind f).Sure fun _ => True := by
  rw [require_bind]
  split
  · exact hf
  · trivial

theorem selectEp_sure (d : Index) (dir : Dir) (n : Index) (s : State) :
    (selectEp d dir n s).Sure fun _ => True := by
  unfold selectEp
  split
  · trivial
  split <;> trivial

theorem setEndpoint_sure (d n : Index) (dir : Dir) (f : Endpoint → Endpoint) (s : State) :
    (setEndpoint d n dir f s).Sure fun _ => True :=
  (selectEp_sure d dir n s).andThen fun _ _ => trivial

theorem pktSetupChecks_sure (k d n : Index) (tk : Token) (s : State) :
    (pktSetupChecks k d n tk s).Sure fun _ => True :=
  require_andThen _ _ <| require_andThen _ _ <| require_andThen _ _ <| require_andThen _ _ <|
    (selectEp_sure _ _ _ s).andThen fun _ _ => trivial

theorem checkPrepared_sure (k : Index) (s : State) : (checkPrepared k s).Sure fun _ => True :=
  require_andThen _ _ (require_sure _ _ trivial)

theorem attachPort_sure (p : Index) (s : State) : (attachPort p s).Sure fun _ => True :=
  require_andThen _ _ trivial

theorem detachPort_sure (p : Index) (s : State) : (detachPort p s).Sure fun _ => True :=
  require_andThen _ _ trivial

theorem resolver_sure (d : Index) (a : BitVec 8) (s : State) :
    (resolver d a s).Sure fun _ => True := by
  unfold resolver
  split
  · exact require_andThen _ _ trivial
  · trivial

/-- A command whose body does not stop answers a next state, latched or not (R171). -/
theorem exec_answers_of_sure {i : Instr} {body : State → Run Unit}
    (he : ∀ u, exec i u = command i u body) (h : (body s).Sure fun _ => True) :
    ∃ t, exec i s = .next t := by
  rw [he]
  cases hf : s.fault with
  | true => exact ⟨s, command_of_fault i body hf⟩
  | false =>
    cases hb : body s with
    | ok _ t => exact ⟨t, command_of_ok i hf hb⟩
    | raised c t => exact ⟨_, command_of_raised i hf hb⟩
    | stopped e => rw [hb] at h; exact h.elim

/-- Of the commands only SUBMIT and COMPLETE copy bytes, and so need the packets' vectors to lie in
host memory (R41, R92). -/
theorem exec_answers (i : Instr) (hs : PacketsOk s) : ∃ t, exec i s = .next t := by
  cases i with refine exec_answers_of_sure (fun _ => rfl) ?_
  | epSetType | epSetIfnum | epSetMps | epSetPipe | epSetHalt =>
    exact setEndpoint_sure _ _ _ _ s
  | epGet => exact (selectEp_sure _ _ _ s).andThen fun _ _ => trivial
  | pktSetup => exact (pktSetupChecks_sure _ _ _ _ s).andThen fun _ _ => trivial
  | pktIovAdd =>
    exact require_andThen _ _ <| require_andThen _ _ <|
      (checkPrepared_sure _ s).andThen fun _ _ => require_andThen _ _ trivial
  | pktSetParam =>
    exact require_andThen _ _ <|
      (checkPrepared_sure _ s).andThen fun _ _ => trivial
  | submit k d =>
    exact require_andThen _ _ <| require_andThen _ _ (submit_sure d (hs k).fits)
  | cancel =>
    exact require_andThen _ _ <| require_andThen _ _ <|
      require_andThen _ _ trivial
  | complete k => exact require_andThen _ _ (complete_sure k hs)
  | pktRead => exact require_andThen _ _ <| require_andThen _ _ trivial
  | portBind =>
    exact require_andThen _ _ <| require_andThen _ _ <|
      require_andThen _ _ <| require_andThen _ _ trivial
  | attach => exact require_andThen _ _ (attachPort_sure _ s)
  | detach => exact require_andThen _ _ (detachPort_sure _ s)
  | resetPort =>
    exact require_andThen _ _ <| (detachPort_sure _ s).andThen fun _ u =>
      (attachPort_sure _ u).andThen fun _ _ => trivial
  | findDevice =>
    refine require_andThen _ _ ?_
    dsimp only
    split
    · trivial
    split
    · trivial
    · exact resolver_sure _ _ s
  | devSetAddr | devSetRwake => exact require_andThen _ _ trivial

/-- Settles O24: the reset, waiting and a command the decoder refuses each have a next state, and
every command answers one. -/
theorem stepNeverStops : Obligations.StepNeverStops := by
  intro s hs
  unfold step
  split
  · exact ⟨_, rfl⟩
  split
  · exact ⟨s, rfl⟩
  · exact ⟨_, rfl⟩
  · exact exec_answers _ (packetsOk_of_pkt hs rfl rfl fun _ => rfl)

end Sys2Proof.Machine
end

section
/-! PROOF. The encoder gives back the words of a whole command whose reserved fields are 0, so that
a whole command is an encoding or is refused (spec 30_encoding.md R56 to R63). -/

namespace Sys2Proof.Laws

/-- Settles O1: the decoder undoes the encoder, format by format. -/
theorem decodeOfEncode : Obligations.DecodeOfEncode := decode_encode

/-- Two fields that stand side by side are one field. -/
theorem field_append_field (lo m n : Nat) (w : Word) :
    field (lo + n) m w ++ field lo n w = field lo (m + n) w :=
  BitVec.extractLsb'_append_extractLsb'_eq_extractLsb' rfl

theorem field_full (w : Word) : field 0 32 w = w := extract_full w

/-- A field below a zero field. -/
theorem zero_append_field {m n : Nat} {w : Word} (lo : Nat) (h : field (lo + n) m w = 0) :
    0#m ++ field lo n w = field lo (m + n) w := by
  rw [← field_append_field, h]; rfl

/-- A field inside a zero field. -/
theorem field_zero_of_le {lo n lo' n' : Nat} {w : Word} (h : field lo n w = 0) (hlo : lo ≤ lo')
    (hhi : lo' + n' ≤ lo + n) : field lo' n' w = 0 := by
  have hsub : field lo' n' w = (field lo n w).extractLsb' (lo' - lo) n' := by
    ext i hi
    simp [field, show lo' - lo + i < n by omega, show lo + (lo' - lo + i) = lo' + i by omega]
  rw [hsub, h]
  exact extract_zero ..

/-! ### The first word, written again from its operands (R56) -/

section
variable {o : Opcode} {w : Word} (ho : field 24 8 w = o.code)
include ho

theorem word0_of_endpoint (h : field 0 7 w = 0) :
    word0 o (field 16 8 w) (field 8 8 w) (dirByte (Dir.ofBit (field 7 1 w))) = w := by
  have hc : dirByte (Dir.ofBit (field 7 1 w)) = field 0 8 w := by
    rw [dirByte, bit_ofBit, ← field_append_field 0 1 7, h]; rfl
  rw [hc]
  exact (word0_of_fields o w ho).symm

theorem word0_of_two_operands (h : field 0 8 w = 0) :
    word0 o (field 16 8 w) (field 8 8 w) 0 = w := by
  rw [← h]; exact (word0_of_fields o w ho).symm

theorem word0_of_one_operand (h : field 0 16 w = 0) : word0 o (field 16 8 w) 0 0 = w := by
  have hb : field 8 8 w = 0 := field_zero_of_le h (by omega) (by omega)
  have hw := word0_of_two_operands ho (field_zero_of_le h (by omega) (by omega))
  rwa [hb] at hw

end

/-- The second word of PKT_SETUP, written again from its operands (R59). -/
theorem pktSetup_word_of_fields {w : Word} (h2 : field 2 6 w = 0) (h10 : field 10 6 w = 0) :
    field 16 16 w ++ 0#6 ++ field 9 1 w ++ field 8 1 w ++ 0#6 ++ field 0 2 w = w :=
  calc field 16 16 w ++ 0#6 ++ field 9 1 w ++ field 8 1 w ++ 0#6 ++ field 0 2 w
    _ = field 16 16 w ++ field 10 6 w ++ field 9 1 w ++ field 8 1 w ++ field 2 6 w ++
          field 0 2 w := by rw [h2, h10]; rfl
    _ = field 10 22 w ++ field 9 1 w ++ field 8 1 w ++ field 2 6 w ++ field 0 2 w := by
      rw [field_append_field 10 16 6 w]
    _ = field 9 23 w ++ field 8 1 w ++ field 2 6 w ++ field 0 2 w := by
      rw [field_append_field 9 22 1 w]
    _ = field 8 24 w ++ field 2 6 w ++ field 0 2 w := by rw [field_append_field 8 23 1 w]
    _ = field 2 30 w ++ field 0 2 w := by rw [field_append_field 2 24 6 w]
    _ = field 0 32 w := field_append_field 0 30 2 w
    _ = w := field_full w

/-- The encoder undoes the reading of an opcode's words whose reserved fields are 0 (R56 to R60). -/
theorem encode_build {o : Opcode} {w0 w1 w2 : Word} (ho : field 24 8 w0 = o.code)
    (h0 : fieldsZero o.zero0 w0 = true) (h1 : fieldsZero o.zero1 w1 = true) :
    encode (o.build w0 w1 w2) = [w0, w1, w2].take o.words := by
  cases o <;> simp [fieldsZero, Opcode.zero0, Opcode.zero1] at h0 h1 <;>
    simp only [Opcode.build, encode, flagBit_flagOf, code_ofCode]
  case epSetType | epSetIfnum | epSetMps | epSetPipe | epSetHalt =>
    rw [word0_of_endpoint ho h0]
    exact congrArg ([w0, ·]) ((zero_append_field 0 h1).trans (field_full w1))
  case epGet => rw [word0_of_endpoint ho h0]; rfl
  case pktSetup =>
    obtain ⟨h2, h10⟩ := h1
    rw [pktSetup_word_of_fields h2 h10, ← word0_of_fields _ _ ho]; rfl
  case submit | portBind | findDevice | devSetAddr => rw [word0_of_two_operands ho h0]; rfl
  case devSetRwake =>
    obtain ⟨hc, hb⟩ := h0
    rw [zero_append_field 8 hb, word0_of_two_operands ho hc]; rfl
  case pktSetParam =>
    rw [word0_of_one_operand ho h0, extract_append_low _ _ _ _ (by omega),
      extract_append_high _ _ _ _ (by omega), extract_full, Nat.sub_self, extract_full]
    rfl
  case pktIovAdd | cancel | complete | pktRead | attach | detach | resetPort =>
    rw [word0_of_one_operand ho h0]; rfl

/-- With all the words its opcode asks for on the port, the decoder looks at those words and leaves
the rest (R57). -/
theorem decode_whole {o : Opcode} {w0 : Word} {ws : List Word}
    (ho : Opcode.ofCode (field 24 8 w0) = some o) (hlen : o.words ≤ (w0 :: ws).length) :
    ∃ w1 w2, decode (w0 :: ws) = decodeWords o w0 w1 w2 ((w0 :: ws).drop o.words) ∧
      [w0, w1, w2].take o.words = (w0 :: ws).take o.words := by
  have hw : o.words = 1 ∨ o.words = 2 ∨ o.words = 3 := by cases o <;> decide
  rcases hw with hw | hw | hw
  · exact ⟨0, 0, by simp [decode, ho, hw], by rw [hw]; rfl⟩
  · match ws with
    | w1 :: ws => exact ⟨w1, 0, by simp [decode, ho, hw], by rw [hw]; rfl⟩
    | [] => simp [hw] at hlen
  · match ws with
    | w1 :: w2 :: ws => exact ⟨w1, w2, by simp [decode, ho, hw], by rw [hw]; rfl⟩
    | [_] | [] => simp [hw] at hlen

/-- A whole command is the encoding of an instruction or is refused for its reserved fields
(R62 (b)). -/
theorem decode_whole_cases {o : Opcode} {w0 : Word} {ws : List Word}
    (ho : Opcode.ofCode (field 24 8 w0) = some o) (hlen : o.words ≤ (w0 :: ws).length) :
    (∃ i, encode i = (w0 :: ws).take o.words ∧
      decode (w0 :: ws) = .command i ((w0 :: ws).drop o.words)) ∨
    decode (w0 :: ws) = .rejected .reservedBits w0 ((w0 :: ws).drop o.words) := by
  obtain ⟨w1, w2, hd, ht⟩ := decode_whole ho hlen
  rw [hd, ← ht, decodeWords]
  split
  · rename_i hz
    obtain ⟨h0, h1⟩ := Bool.and_eq_true_iff.mp hz
    exact .inl ⟨_, encode_build (ofCode_some ho) h0 h1, rfl⟩
  · exact .inr rfl

/-- The codes of the opcode map are those outside the reserved ranges (R61, R63). -/
theorem ofCode_isSome_iff (c : BitVec 8) : (Opcode.ofCode c).isSome = true ↔
    ¬ (c.toNat = 0 ∨ (0x07 ≤ c.toNat ∧ c.toNat ≤ 0x0F) ∨ (0x17 ≤ c.toNat ∧ c.toNat ≤ 0x1F) ∨
      0x27 ≤ c.toNat) := by
  revert c; decide

/-- A code outside the opcode map is a refused command of one word (R57, R62 (a)). -/
theorem decode_badOpcode {w0 : Word} (ws : List Word) (h : Opcode.ofCode (field 24 8 w0) = none) :
    decode (w0 :: ws) = .rejected .badOpcode w0 ws := by
  simp [decode, h]

/-- Settles O4: the decoder run on each of the worked encodings. -/
theorem specWordsDecode : Obligations.SpecWordsDecode := by
  unfold Obligations.SpecWordsDecode
  decide

end Sys2Proof.Laws
end

section
/-! PROOF. What a step does with a whole command at the head of the port that is no encoding
(spec 30_encoding.md R62, R63). -/

namespace Sys2Proof.Machine

variable {s : State}

/-- A refused command leaves the port, its cause and its first word are recorded, and nothing else
is done (R62, R171). -/
theorem step_of_rejected {r : Reject} {w0 : Word} {rest : List Word} (hf : s.fault = false)
    (hr : s.resetIn = false) (hd : decode s.cmds = .rejected r w0 rest) :
    step s = .next { s with
      cmds := rest, fault := true, fcause := (rejectCause r).code, finfo := w0 } := by
  simp [step, hr, hd, rejectCommand, contractViolation, hf]

/-- Settles O2: a whole command is an encoding, or it is refused, and then it is none because the
decoder would give the encoded command back. -/
theorem wholeCommandRunsOrRaises : Obligations.WholeCommandRunsOrRaises := by
  intro s w0 ws o hf hr hc ho hlen
  rw [hc] at hlen ⊢
  rcases Laws.decode_whole_cases ho hlen with ⟨i, hi, hd⟩ | hd
  · exact .inl ⟨i, hi, step_of_command hr (hc ▸ hd)⟩
  · refine .inr ⟨fun i hi => ?_, step_of_rejected (r := .reservedBits) hf hr (hc ▸ hd)⟩
    have hcommand := Laws.decode_encode i ((w0 :: ws).drop o.words)
    rw [hi, List.take_append_drop, hd] at hcommand
    cases hcommand

/-- Settles O3: the decoder finds a code in the opcode map exactly outside the reserved ranges. -/
theorem reservedOpcodes : Obligations.ReservedOpcodes := by
  intro s w0 ws op reserved
  have hmap := Laws.ofCode_isSome_iff (field 24 8 w0)
  refine ⟨hmap.mpr, fun h hf hr hc => step_of_rejected (r := .badOpcode) hf hr ?_⟩
  have hnone : Opcode.ofCode (field 24 8 w0) = none :=
    Option.not_isSome_iff_eq_none.mp fun hsome => hmap.mp hsome h
  rw [hc]
  exact Laws.decode_badOpcode ws hnone

end Sys2Proof.Machine
end

section
/-! PROOF. What an operand check raises, before any rule of its command runs (spec 30_encoding.md
R62, 60_exceptions.md R175, 10_state.md R23). -/

namespace Sys2Proof.Machine

open Sys2Proof.Claim

variable {i : Instr} {c : Cause} {d k p : Index} {s u : State}

/-- A command whose body raises from a state with the latch clear (R171). -/
theorem raisesFrom_of_body {body : State → Run Unit} (he : ∀ v, exec i v = command i v body)
    (hf : s.fault = false) (hu : u.fault = false) (hb : body s = .raised c u) :
    RaisesFrom i c.code s u := by
  rw [RaisesFrom, he, command_of_raised i hf hb, contractViolation_of_clear u c _ hu]

/-- A command whose body raises before it has changed anything (R171). -/
theorem raises_of_body {body : State → Run Unit} (he : ∀ v, exec i v = command i v body)
    (hf : s.fault = false) (hb : body s = .raised c s) : Raises i c.code s :=
  raisesFrom_of_body he hf hf hb

/-- A command that looks at an operand first, and finds it out of range. -/
theorem raises_of_check {x : State → Run Unit} {f : Unit → State → Run Unit}
    (he : ∀ v, exec i v = command i v fun v => (x v).bind f) (hf : s.fault = false)
    (hx : x s = .raised c s) : Raises i c.code s :=
  raises_of_body he hf (by rw [hx, Run.bind_raised])

/-! ### The operand checks -/

theorem checkPort_raised (h : ¬ IsPort s p) : checkPort p s = .raised .badOperand s := by
  rw [checkPort, Bool.eq_false_iff.mpr (mt (port_limits s p).mp h), require_false]

theorem checkPort_ok (h : IsPort s p) : checkPort p s = .ok () s := by
  rw [checkPort, (port_limits s p).mpr h, require_true]

theorem checkPacket_raised (h : ¬ IsPacket s k) : checkPacket k s = .raised .badOperand s := by
  rw [checkPacket, Bool.eq_false_iff.mpr (mt (packet_limits s k).mp h), require_false]

theorem checkPacket_ok (h : IsPacket s k) : checkPacket k s = .ok () s := by
  rw [checkPacket, (packet_limits s k).mpr h, require_true]

theorem checkDevice_raised (h : ¬ IsDevice s d) : checkDevice d s = .raised .devAbsent s := by
  rw [checkDevice, Bool.eq_false_iff.mpr (mt (device_limits s d).mp h), require_false]

theorem checkDeviceOrNone_raised (h : ¬ IsDevice s d) (hn : d ≠ noIndex) :
    checkDeviceOrNone d s = .raised .devAbsent s := by
  have hout : ¬ (d = noIndex ∨ d.toNat < s.devs.length) := fun h' =>
    h'.elim hn fun hlt => h ⟨hn, hlt⟩
  rw [checkDeviceOrNone, Bool.eq_false_iff.mpr (mt (deviceOrNone_limits s d).mp hout),
    require_false]

theorem checkDeviceOrNone_ok (h : d = noIndex ∨ IsDevice s d) :
    checkDeviceOrNone d s = .ok () s := by
  rw [checkDeviceOrNone, (deviceOrNone_limits s d).mpr (h.imp_right And.right), require_true]

theorem checkValid_raised (h : (s.pkt k).valid = false) :
    checkValid k s = .raised .pktInvalid s := by
  rw [checkValid, h, require_false]

theorem checkValid_ok (h : (s.pkt k).valid = true) : checkValid k s = .ok () s := by
  rw [checkValid, h, require_true]

theorem checkHostAddr_ok {a : Word} (h : a.toNat < s.cfg.hostSize) :
    checkHostAddr a s = .ok () s := by
  rw [checkHostAddr, (hostAddr_limits s a).mpr h, require_true]

/-- Each command that names a port looks at it first (R62 (c)). -/
theorem raises_badPort (hf : s.fault = false) (hp : ¬ IsPort s p) :
    Raises (.attach p) 16 s ∧ Raises (.detach p) 16 s ∧ Raises (.resetPort p) 16 s ∧
      (∀ a, Raises (.findDevice p a) 16 s) ∧ ∀ d, Raises (.portBind p d) 16 s := by
  have raises : ∀ {i f}, (∀ v, exec i v = command i v fun v => (checkPort p v).bind f) →
      Raises i 16 s := fun he => raises_of_check he hf (checkPort_raised hp)
  exact ⟨raises fun _ => rfl, raises fun _ => rfl, raises fun _ => rfl,
    fun _ => raises fun _ => rfl, fun _ => raises fun _ => rfl⟩

theorem pktSetupChecks_badPacket {n : Index} {tk : Token} (hk : ¬ IsPacket s k) :
    pktSetupChecks k d n tk s = .raised .badOperand s := by
  simp [pktSetupChecks, checkPacket_raised hk]

theorem pktSetupChecks_badDevice {n : Index} {tk : Token} (hk : IsPacket s k)
    (hd : ¬ IsDevice s d) : pktSetupChecks k d n tk s = .raised .devAbsent s := by
  simp [pktSetupChecks, checkPacket_ok hk, checkDevice_raised hd]

/-- PKT_IOV_ADD raises cause 16 for a bad packet, whether or not the address fits. -/
theorem raises_pktIovAdd_badPacket {a l : Word} (hf : s.fault = false) (hk : ¬ IsPacket s k) :
    Raises (.pktIovAdd k a l) 16 s := by
  refine raises_of_body (c := .badOperand) (fun _ => rfl) hf ?_
  simp only [checkHostAddr, require_bind, checkPacket_raised hk, Run.bind_raised, ite_self]

/-- Each command that names a packet raises cause 16 before it looks at its device operand or at the
slot (R62 (c); log 9). -/
theorem raises_badPacket (hf : s.fault = false) (hk : ¬ IsPacket s k) :
    Raises (.cancel k) 16 s ∧ Raises (.complete k) 16 s ∧ Raises (.pktRead k) 16 s ∧
      (∀ p, Raises (.pktSetParam k p) 16 s) ∧ (∀ a l, Raises (.pktIovAdd k a l) 16 s) ∧
      (∀ d, Raises (.submit k d) 16 s) ∧
      ∀ d n tk so ir st id, Raises (.pktSetup k d n tk so ir st id) 16 s := by
  have raises : ∀ {i f}, (∀ v, exec i v = command i v fun v => (checkPacket k v).bind f) →
      Raises i 16 s := fun he => raises_of_check he hf (checkPacket_raised hk)
  exact ⟨raises fun _ => rfl, raises fun _ => rfl, raises fun _ => rfl,
    fun _ => raises fun _ => rfl, fun _ _ => raises_pktIovAdd_badPacket hf hk,
    fun _ => raises fun _ => rfl, fun _ _ _ _ _ _ _ =>
      raises_of_check (fun _ => rfl) hf (pktSetupChecks_badPacket hk)⟩

/-- Each command that names a device raises cause 5, once its port or packet operand is known to be
in range (R62 (c), R175; log 9, log 10). -/
theorem raises_badDevice (hf : s.fault = false) (hd : ¬ IsDevice s d) :
    (∀ a, Raises (.devSetAddr d a) 5 s) ∧ (∀ f, Raises (.devSetRwake d f) 5 s) ∧
      (∀ k n tk so ir st id, IsPacket s k → Raises (.pktSetup k d n tk so ir st id) 5 s) ∧
      (d ≠ noIndex → (∀ p, IsPort s p → Raises (.portBind p d) 5 s) ∧
        ∀ k, IsPacket s k → Raises (.submit k d) 5 s) := by
  refine ⟨fun _ => raises_of_check (fun _ => rfl) hf (checkDevice_raised hd),
    fun _ => raises_of_check (fun _ => rfl) hf (checkDevice_raised hd),
    fun _ _ _ _ _ _ _ hk => raises_of_check (fun _ => rfl) hf (pktSetupChecks_badDevice hk hd),
    fun hn => ⟨fun _ hp => raises_of_body (c := .devAbsent) (fun _ => rfl) hf ?_,
      fun _ hk => raises_of_body (c := .devAbsent) (fun _ => rfl) hf ?_⟩⟩
  · simp [checkPort_ok hp, checkDeviceOrNone_raised hd hn]
  · simp [checkPacket_ok hk, checkDeviceOrNone_raised hd hn]

/-- Each command that works on a packet raises cause 17 for a slot never set up, once its operands
are known to be in range (R23). -/
theorem raises_invalidPacket (hf : s.fault = false) (hk : IsPacket s k)
    (hv : (s.pkt k).valid = false) :
    Raises (.cancel k) 17 s ∧ Raises (.complete k) 17 s ∧ Raises (.pktRead k) 17 s ∧
      (∀ p, Raises (.pktSetParam k p) 17 s) ∧
      (∀ a l, a.toNat < s.cfg.hostSize → Raises (.pktIovAdd k a l) 17 s) ∧
      ∀ d, d = noIndex ∨ IsDevice s d → Raises (.submit k d) 17 s := by
  have raises : ∀ {i body}, (∀ v, exec i v = command i v body) →
      body s = .raised .pktInvalid s → Raises i 17 s := fun he => raises_of_body he hf
  refine ⟨raises (fun _ => rfl) ?_, raises (fun _ => rfl) ?_, raises (fun _ => rfl) ?_,
    fun _ => raises (fun _ => rfl) ?_, fun _ _ ha => raises (fun _ => rfl) ?_,
    fun _ hd => raises (fun _ => rfl) ?_⟩
  · simp [checkPacket_ok hk, checkValid_raised hv]
  · simp [checkPacket_ok hk, completePacket, checkValid_raised hv]
  · simp [checkPacket_ok hk, checkValid_raised hv]
  · simp [checkPacket_ok hk, checkPrepared, checkValid_raised hv]
  · simp [checkHostAddr_ok ha, checkPacket_ok hk, checkPrepared, checkValid_raised hv]
  · simp [checkPacket_ok hk, checkDeviceOrNone_ok hd, submitPacket, checkValid_raised hv]

/-- Settles O29: for each operand, by the first check that is not met. -/
theorem indexOperandFaults : Obligations.IndexOperandFaults := fun _ hf =>
  ⟨fun _ => raises_badPort hf, fun _ => raises_badPacket hf, fun _ => raises_badDevice hf,
    fun _ => raises_invalidPacket hf⟩

end Sys2Proof.Machine
end

section
/-! PROOF. What a backend response can violate where it is applied, and what a COMPLETE refuses
(spec 30_encoding.md R67, 41_packet_lifecycle.md R100, R108, R112, 20_memory.md R43). -/

namespace Sys2Proof.Machine

open Sys2Proof.Claim

variable {c : Cause} {d k : Index} {r : Resp} {s u : State}

/-! ### Responses -/

/-- The reserved codes are 6 and 7 (R27). -/
theorem Status.ofCode_none_iff (c : BitVec 3) : Status.ofCode c = none ↔ 6 ≤ c.toNat := by
  revert c; decide

theorem Status.exists_ofCode {c : BitVec 3} (h : c.toNat < 6) : ∃ st, Status.ofCode c = some st :=
  Option.ne_none_iff_exists'.mp fun hn => by
    have := (Status.ofCode_none_iff c).mp hn
    omega

/-- NAK, Async and AddToQueue (R108). -/
theorem unfinishedResp_iff (r : Resp) :
    unfinishedResp r = true ↔ r.status = 2 ∨ r.status = 4 ∨ r.status = 5 := by
  obtain ⟨c, n, data⟩ := r
  simp only [unfinishedResp]
  revert c; decide

theorem inOrder_iff (r : EpRef) : inOrder k r s = true ↔
    (s.pkt k).stream ≠ 0 ∨ (s.ep r).pipeline = true ∨ (s.ep r).queue.head? = some k := by
  simp [inOrder, or_assoc]

/-- The data list of a data response has the length its packet asks for (R67, R100). -/
def DataShape (P : Packet) (r : Resp) : Prop :=
  if P.token = .inn then r.data.length = r.n.toNat else r.data = []

/-- A control response with a reserved status, or that the block does not accept, moves nothing
(R67, R100; log 11). -/
theorem applyCtlResp_malformed (h : 6 ≤ r.status.toNat ∨ ¬ AcceptedByControl s r) :
    applyCtlResp d k r s = .raised .badOperand s := by
  unfold applyCtlResp
  split
  · rfl
  · rename_i st hst
    have hknown : ¬ 6 ≤ r.status.toNat := by simp [← Status.ofCode_none_iff, hst]
    exact if_neg (h.resolve_left hknown)

/-- So does a data response with a reserved status or of the wrong shape (R67, R100; log 11). -/
theorem applyDataResp_malformed {emits : Bool}
    (h : 6 ≤ r.status.toNat ∨ ¬ DataShape (s.pkt k) r) :
    applyDataResp d k r emits s = .raised .badOperand s := by
  unfold applyDataResp
  split
  · rfl
  · rename_i st hst
    have hknown : ¬ 6 ≤ r.status.toNat := by simp [← Status.ofCode_none_iff, hst]
    have hshape := h.resolve_left hknown
    by_cases ht : (s.pkt k).token = .inn
    · have hlen : r.data.length ≠ r.n.toNat := by simpa [DataShape, ht] using hshape
      simp [ht, require_bind, hlen]
    · have hdata : r.data ≠ [] := by simpa [DataShape, ht] using hshape
      simp [ht, require_bind, hdata]

/-- A response of the right shape moves the bytes it counts and then writes its status (R100). -/
theorem applyDataResp_shaped {emits : Bool} {st : Status} (hst : Status.ofCode r.status = some st)
    (hshape : DataShape (s.pkt k) r) :
    applyDataResp d k r emits s =
      (packetCopy k r.data r.n.toNat s).bind fun sink u =>
        .ok () ((if (s.pkt k).token ≠ .inn ∧ emits = true then u.emit (.outBytes d k sink)
          else u).setStatus k st) := by
  by_cases ht : (s.pkt k).token = .inn
  · have hlen : r.data.length = r.n.toNat := by simpa [DataShape, ht] using hshape
    simp [applyDataResp, hst, ht, hlen]
  · have hdata : r.data = [] := by simpa [DataShape, ht] using hshape
    simp [applyDataResp, hst, ht, hdata]

theorem packetCopy_overrun {buf : List Byte} {n : Nat}
    (h : iovSize (s.pkt k).iov < (s.pkt k).actualLength.toNat + n) :
    packetCopy k buf n s = .raised .copyOverrun s := by
  simp [packetCopy, h]

/-- A data response that moves more than the vector holds moves nothing (R43). -/
theorem applyDataResp_overrun {emits : Bool} (hst : r.status.toNat < 6)
    (hshape : DataShape (s.pkt k) r)
    (h : iovSize (s.pkt k).iov < (s.pkt k).actualLength.toNat + r.n.toNat) :
    applyDataResp d k r emits s = .raised .copyOverrun s := by
  obtain ⟨st, hst⟩ := Status.exists_ofCode hst
  rw [applyDataResp_shaped hst hshape, packetCopy_overrun h, Run.bind_raised]

/-! ### COMPLETE -/

theorem complete_raisesFrom (hf : s.fault = false) (hk : IsPacket s k) (hu : u.fault = false)
    (hb : completePacket k s = .raised c u) : RaisesFrom (.complete k) c.code s u :=
  raisesFrom_of_body (fun _ => rfl) hf hu (by rw [checkPacket_ok hk, Run.bind_ok, hb])

theorem completePacket_notAsync (hv : (s.pkt k).valid = true) (hst : (s.pkt k).state ≠ .async) :
    completePacket k s = .raised .completeState s := by
  simp [completePacket, checkValid_ok hv, require_bind, hst]

/-- COMPLETE of an Async packet: its response is taken, then the response's status and the
packet's place in the queue are looked at, then the response is applied (R108). -/
theorem completePacket_async (hv : (s.pkt k).valid = true) (hst : (s.pkt k).state = .async) :
    completePacket k s =
      if unfinishedResp s.nextResp = true then .raised .badStatus s.dropResp
      else if inOrder k (s.pkt k).endpoint s = true then
        (applyCompletion k s.nextResp s.dropResp).bind fun _ u =>
          advance (s.pkt k).endpoint
            ((completeOne k (s.pkt k).endpoint u).ep (s.pkt k).endpoint).queue.length
            (completeOne k (s.pkt k).endpoint u)
      else .raised .order s.dropResp := by
  have horder : inOrder k (s.pkt k).endpoint s.dropResp = inOrder k (s.pkt k).endpoint s := by
    simp [inOrder]
  cases hu : unfinishedResp s.nextResp <;>
    simp [completePacket, checkValid_ok hv, require_bind, hst, hu, horder]

/-- The response of a COMPLETE has the shape its packet asks for (R67, R100). -/
def CompletionShape (k : Index) (r : Resp) (s : State) : Prop :=
  if (s.pkt k).epNr = 0 then AcceptedByControl s r else DataShape (s.pkt k) r

theorem applyCompletion_malformed (h : 6 ≤ r.status.toNat ∨ ¬ CompletionShape k r s) :
    applyCompletion k r s = .raised .badOperand s := by
  unfold applyCompletion CompletionShape at *
  dsimp only
  split
  · rename_i hep
    rw [if_pos hep] at h
    rw [ctlAsyncDone, applyCtlResp_malformed h, Run.bind_raised]
  · rename_i hep
    rw [if_neg hep] at h
    exact applyDataResp_malformed h

theorem completionShape_dropResp :
    CompletionShape k r s.dropResp ↔ CompletionShape k r s := by
  simp [CompletionShape, AcceptedByControl]

theorem applyCompletion_overrun (hep : (s.pkt k).epNr ≠ 0) (hst : r.status.toNat < 6)
    (hshape : CompletionShape k r s)
    (h : iovSize (s.pkt k).iov < (s.pkt k).actualLength.toNat + r.n.toNat) :
    applyCompletion k r s = .raised .copyOverrun s := by
  rw [CompletionShape, if_neg hep] at hshape
  rw [applyCompletion, if_neg hep, applyDataResp_overrun hst hshape h]

/-- Settles O51: by the first of the checks of a COMPLETE that is not met, the last ones those of
its response. -/
theorem completeRefusals : Obligations.CompleteRefusals := by
  intro s k hf hk hv
  have hdrop : s.dropResp.fault = false := by simpa using hf
  have raises : ∀ {c}, completePacket k s = .raised c s.dropResp →
      RaisesFrom (.complete k) c.code s s.dropResp := complete_raisesFrom hf hk hdrop
  refine ⟨fun hst => complete_raisesFrom hf hk hf (completePacket_notAsync hv hst),
    ?_, ?_, ?_, ?_⟩
  · intro hst hheld
    refine raises (c := .badStatus) ?_
    rw [completePacket_async hv hst, if_pos ((unfinishedResp_iff _).mpr hheld)]
  · intro hst hheld hin
    refine raises (c := .order) ?_
    rw [completePacket_async hv hst, if_neg (mt (unfinishedResp_iff _).mp hheld),
      if_neg (mt (inOrder_iff _).mp hin)]
  · intro hst hheld hin hbad
    refine raises (c := .badOperand) ?_
    rw [completePacket_async hv hst, if_neg (mt (unfinishedResp_iff _).mp hheld),
      if_pos ((inOrder_iff _).mpr hin), applyCompletion_malformed, Run.bind_raised]
    exact hbad.imp_right (mt completionShape_dropResp.mp)
  · intro hst hheld hin hknown hshape hep hover
    refine raises (c := .copyOverrun) ?_
    rw [completePacket_async hv hst, if_neg (mt (unfinishedResp_iff _).mp hheld),
      if_pos ((inOrder_iff _).mpr hin), applyCompletion_overrun, Run.bind_raised]
    · simpa using hep
    · exact hknown
    · exact completionShape_dropResp.mpr hshape
    · simpa using hover

end Sys2Proof.Machine
end

section
/-! PROOF. What the frames of the statements say of an update, and what a copy moves in the words of
the statements (spec 20_memory.md R43, R44, R47). -/

namespace Sys2Proof.Machine

open Sys2Proof.Claim

variable {d k : Index} {s t u : State} {P : Packet} {D : Device} {iov : List Segment} {m : Memory}
  {pos n : Nat} {bs : List Byte}

/-! ### Bytes -/

theorem stored_of_vectorWrite (h : vectorWrite s.cfg iov s.hmem pos bs = some m)
    (hw : s.hmem.wf = true) (ht : t.hmem = m) : Stored s t iov pos bs := by
  subst ht
  exact ⟨fun a ha => vectorWrite_frame h hw a ha,
    fun a j hj ha hlast => vectorWrite_read h hw hj ha hlast⟩

theorem reads_of_vectorRead (h : vectorRead s.cfg iov s.hmem pos n = some bs) :
    bs.length = n ∧ Reads s iov pos bs := by
  obtain ⟨hlen, hread⟩ := vectorRead_eq_some h
  refine ⟨hlen, fun j hj => ?_⟩
  obtain ⟨a, ha, hb⟩ := hread j (hlen ▸ hj)
  exact ⟨a, ha, hb.symm⟩

/-- The bytes that the positions of a vector hold are those a copy reads there. -/
theorem vectorRead_of_reads (h : Reads s iov pos bs) :
    vectorRead s.cfg iov s.hmem pos bs.length = some bs := by
  induction bs generalizing pos with
  | nil => rfl
  | cons b bs ih =>
    obtain ⟨a, ha, hb⟩ := h 0 (Nat.zero_lt_succ _)
    have hrest := ih (pos := pos + 1) fun j hj => by
      have := h (j + 1) (Nat.succ_lt_succ hj)
      rwa [show pos + (j + 1) = pos + 1 + j by omega] at this
    have hb : s.hmem.read a = b := hb
    rw [Nat.add_zero] at ha
    simp only [List.length_cons, vectorRead, ha, hrest, hb]

theorem readList_eq_bytesOf (m : Memory) (x n : Nat) : m.readList x n = bytesOf m x n := by
  induction n generalizing x with
  | zero => rfl
  | succ n ih =>
    rw [Memory.readList, ih, bytesOf, bytesOf, List.range_succ_eq_map]
    simp [Function.comp_def, Nat.add_comm, Nat.add_left_comm]

theorem written_writeList (off : Nat) (bs : List Byte) (h : m.wf = true) :
    Written m (m.writeList off bs) off bs := fun x => Memory.read_writeList off x bs h

/-- A copy from the vector of an OUT or SETUP packet within its capacity (R43). -/
theorem packetCopy_reads {buf : List Byte} (ht : (s.pkt k).token ≠ .inn)
    (hroom : (s.pkt k).actualLength.toNat + n ≤ iovSize (s.pkt k).iov)
    (hr : vectorRead s.cfg (s.pkt k).iov s.hmem (s.pkt k).actualLength.toNat n = some bs) :
    packetCopy k buf n s = .ok bs (moveActual k n s) := by
  unfold packetCopy
  cases htok : (s.pkt k).token with
  | inn => exact absurd htok ht
  | setup | out | reserved => simp [htok, hr, Nat.not_lt.mpr hroom, moveActual]

/-- A copy to the vector of an IN packet within its capacity (R43). -/
theorem packetCopy_writes {buf : List Byte} (ht : (s.pkt k).token = .inn)
    (hroom : (s.pkt k).actualLength.toNat + n ≤ iovSize (s.pkt k).iov)
    (hw : vectorWrite s.cfg (s.pkt k).iov s.hmem (s.pkt k).actualLength.toNat buf = some m) :
    packetCopy k buf n s = .ok [] (moveActual k n { s with hmem := m }) := by
  simp only [packetCopy, ht, hw, if_neg (Nat.not_lt.mpr hroom)]
  rfl

/-! ### Frames -/

theorem packetIs_refl (k : Index) (s : State) : PacketIs k (s.pkt k) s s :=
  ⟨rfl, rfl, fun _ _ => rfl⟩

theorem packetIs_of_pkts (h : PacketIs k P s u) (ht : t.pkts = u.pkts) : PacketIs k P s t := by
  simpa only [PacketIs, State.pkt, ht] using h

theorem packetIs_updPkt (h : PacketIs k P s u) (hk : IsPacket s k) (f : Packet → Packet) :
    PacketIs k (f P) s (u.updPkt k f) := by
  obtain ⟨hlen, hself, hother⟩ := h
  refine ⟨by simpa using hlen, ?_, fun j hj => ?_⟩
  · rw [State.pkt_updPkt_self _ _ _ (hlen ▸ hk), hself]
  · rw [State.pkt_updPkt_other _ _ hj, hother j hj]

theorem deviceIs_refl (d : Index) (s : State) : DeviceIs d (s.dev d) s s :=
  ⟨rfl, rfl, fun _ _ => rfl⟩

theorem deviceIs_of_devs (h : DeviceIs d D s u) (ht : t.devs = u.devs) : DeviceIs d D s t := by
  simpa only [DeviceIs, State.dev, ht] using h

theorem deviceIs_updDev (h : DeviceIs d D s u) (hd : IsDevice s d) (f : Device → Device) :
    DeviceIs d (f D) s (u.updDev d f) := by
  obtain ⟨hlen, hself, hother⟩ := h
  refine ⟨by simpa using hlen, ?_, fun j hj => ?_⟩
  · rw [State.dev_updDev_self _ _ _ (hlen ▸ hd.2), hself]
  · rw [State.dev_updDev_other _ _ hj, hother j hj]

/-- The state differs from `s` in packet `k`, which is now `P`, and in device `d`, which is now `D`,
and in nothing else. -/
structure Reached (k d : Index) (P : Packet) (D : Device) (s u : State) : Prop where
  frame  : u = { s with pkts := u.pkts, devs := u.devs }
  packet : PacketIs k P s u
  device : DeviceIs d D s u

namespace Reached

theorem refl (k d : Index) (s : State) : Reached k d (s.pkt k) (s.dev d) s s :=
  ⟨rfl, packetIs_refl k s, deviceIs_refl d s⟩

theorem pkt (h : Reached k d P D s u) : u.pkt k = P := h.packet.2.1

theorem dev (h : Reached k d P D s u) : u.dev d = D := h.device.2.1

theorem isPacket (h : Reached k d P D s u) (hk : IsPacket s k) : IsPacket u k := by
  rw [IsPacket, h.packet.1]; exact hk

theorem updPkt (h : Reached k d P D s u) (hk : IsPacket s k) (f : Packet → Packet) :
    Reached k d (f P) D s (u.updPkt k f) where
  frame := by
    conv_lhs => rw [h.frame]
    rfl
  packet := packetIs_updPkt h.packet hk f
  device := deviceIs_of_devs h.device rfl

theorem updDev (h : Reached k d P D s u) (hd : IsDevice s d) (f : Device → Device) :
    Reached k d P (f D) s (u.updDev d f) where
  frame := by
    conv_lhs => rw [h.frame]
    rfl
  packet := packetIs_of_pkts h.packet rfl
  device := deviceIs_updDev h.device hd f

theorem setStatus (h : Reached k d P D s u) (hk : IsPacket s k) (st : Status) :
    Reached k d { P with status := st } D s (u.setStatus k st) :=
  h.updPkt hk fun P => { P with status := st }

theorem setActual (h : Reached k d P D s u) (hk : IsPacket s k) (n : Word) :
    Reached k d { P with actualLength := n } D s (u.setActual k n) :=
  h.updPkt hk fun P => { P with actualLength := n }

theorem moveActual (h : Reached k d P D s u) (hk : IsPacket s k) (n : Nat) :
    Reached k d { P with actualLength := BitVec.ofNat 32 (P.actualLength.toNat + n) } D s
      (moveActual k n u) := by
  obtain rfl := h.pkt
  exact h.updPkt hk fun Q => { Q with actualLength := _ }

theorem beginRequest (h : Reached k d P D s u) (hd : IsDevice s d) (b : SetupBuf) (c : CtlState) :
    Reached k d P { D with setupBuf := b, ctlState := c, setupLen := b.length, setupIndex := 0 } s
      (beginRequest d b c u) :=
  h.updDev hd fun D =>
    { D with setupBuf := b, ctlState := c, setupLen := b.length, setupIndex := 0 }

theorem writeDataBuf (h : Reached k d P D s u) (hd : IsDevice s d) (off : Nat) (bs : List Byte) :
    Reached k d P { D with dataBuf := D.dataBuf.writeList off bs } s
      (u.updDev d fun D => { D with dataBuf := D.dataBuf.writeList off bs }) :=
  h.updDev hd fun D => { D with dataBuf := D.dataBuf.writeList off bs }

end Reached

/-- Taking a response looks at the channel alone, so it commutes with what changes the rest. -/
theorem State.dropResp_frame (s : State) (ps : List Packet) (ds : List Device) (es : List Event) :
    { s with pkts := ps, devs := ds, trace := es }.dropResp =
      { s.dropResp with pkts := ps, devs := ds, trace := es } := by
  unfold State.dropResp
  dsimp only
  cases s.resps <;> rfl

theorem called_of_hook {b : Nat} (es : List Event) (h : s.hasHook d b = true) :
    called d b es s = { s.dropResp with trace := s.trace ++ es } := by
  rw [called, if_pos h]

end Sys2Proof.Machine
end

section
/-! PROOF. A SUBMIT that dispatches its packet at once ends as its dispatch does (spec
41_packet_lifecycle.md R94 to R103). -/

namespace Sys2Proof.Machine

open Sys2Proof.Claim

variable {c : Cause} {d k : Index} {r : EpRef} {s u : State}

theorem submit_raisesFrom (h : Submittable k d s) (hb : submitPacket k d s = .raised c u) :
    RaisesFrom (.submit k d) c.code s u := by
  have hm := moves_submitPacket k d s
  rw [hb] at hm
  refine raisesFrom_of_body (fun _ => rfl) h.clear (hm.fault.trans h.clear) ?_
  rw [checkPacket_ok h.packet, Run.bind_ok, checkDeviceOrNone_ok (.inr h.device), Run.bind_ok, hb]

/-- Every check of the SUBMIT is met, the halt is clear and the packet need not wait
(R94 to R99). -/
theorem submitPacket_of_dispatchable (h : Dispatchable k d s) :
    submitPacket k d s =
      (dispatch k s).bind fun _ u => afterDispatch k (s.pkt k).endpoint u := by
  have hfree : mustQueue k (s.pkt k).endpoint s = false := by
    rcases h.free with hq | hp | hst
    · simp [mustQueue, hq]
    · simp [mustQueue, hp]
    · have hst : ((s.pkt k).stream == 0) = false := by simpa using hst
      rw [mustQueue, hst, Bool.and_false]
  simp [submitPacket, checkValid_ok h.valid, require_bind, h.setup, noTarget, h.device.1,
    h.attached, h.own, submitAccepted, clearHalt, h.running, hfree]

theorem submit_raisesFrom_dispatch (h : Dispatchable k d s) (hb : dispatch k s = .raised c u) :
    RaisesFrom (.submit k d) c.code s u :=
  submit_raisesFrom h.toSubmittable (by rw [submitPacket_of_dispatchable h, hb, Run.bind_raised])

theorem checkAsync_raised (h : ¬ MayDefer r s) :
    checkAsync r s = .raised (if (s.ep r).type = 3 then .isoAsync else .intAsync) s := by
  by_cases ht : (s.ep r).type = 3
  · simp [checkAsync, ht]
  · have hint : (s.ep r).type ≠ 3 → (s.ep r).type = 2 ∧ s.hostRole r.dev = false := by
      simpa [MayDefer] using h
    simp [checkAsync, hint ht]

/-- An answer Async that the endpoint or its device may not give raises where the dispatch left off
(R103). -/
theorem submit_raisesFrom_async (h : Dispatchable k d s) (hb : dispatch k s = .ok () u)
    (hst : (u.pkt k).status = .async) (hm : ¬ MayDefer (s.pkt k).endpoint s) :
    RaisesFrom (.submit k d) (if (s.ep (s.pkt k).endpoint).type = 3 then 8 else 9) s u := by
  have hT := transfers_dispatch k s
  rw [hb] at hT
  have hm' : ¬ MayDefer (s.pkt k).endpoint u := by
    rwa [MayDefer, hT.ep, State.hostRole, hT.cfg]
  have hraised := submit_raisesFrom (u := u) h.toSubmittable (by
    rw [submitPacket_of_dispatchable h, hb, Run.bind_ok, afterDispatch, hst]
    dsimp only
    rw [checkAsync_raised hm', Run.bind_raised])
  rw [hT.ep] at hraised
  by_cases ht : (s.ep (s.pkt k).endpoint).type = 3
  · rw [if_pos ht] at hraised ⊢; exact hraised
  · rw [if_neg ht] at hraised ⊢; exact hraised

end Sys2Proof.Machine
end

section
/-! PROOF. What the answer of a data handler can violate in a SUBMIT (spec 30_encoding.md R67,
41_packet_lifecycle.md R100, R103, 20_memory.md R43). -/

namespace Sys2Proof.Machine

open Sys2Proof.Claim

variable {d k : Index} {n : Nat} {m : Memory} {r : Resp} {s : State} {st : Status}

/-! ### The call of the data handler -/

/-- The state in which the answer of the data handler is applied: the call is in the trace, the
answer is taken and the packet's status is the Success of the dispatch (R100, R101). -/
def dataCalled (d k : Index) (s : State) : State :=
  { called d 7 [.handleData d k] s with
    pkts := s.pkts.modify k.toNat fun P => { P with status := .success } }

theorem dispatch_data (hep : (s.pkt k).epNr ≠ 0) (hown : (s.pkt k).dev = d)
    (hhook : s.hasHook d 7 = true) :
    dispatch k s = applyDataResp d k s.nextResp true (dataCalled d k s) := by
  have hcalled : ((s.setStatus k .success).emit (.handleData d k)).dropResp =
      dataCalled d k s := by
    rw [dataCalled, called_of_hook _ hhook]
    exact (State.dropResp_frame s _ s.devs _).trans (by simp [State.setStatus, State.updPkt])
  have hhook' : (s.setStatus k .success).hasHook d 7 = true := hhook
  simp only [dispatch, if_neg hep, hown, dataHandler, if_pos hhook', hcalled]
  rfl

theorem packetIs_dataCalled (hk : IsPacket s k) :
    PacketIs k { s.pkt k with status := .success } s (dataCalled d k s) :=
  packetIs_of_pkts
    (packetIs_updPkt (packetIs_refl k s) hk fun P => { P with status := .success }) rfl

theorem pkt_dataCalled (hk : IsPacket s k) :
    (dataCalled d k s).pkt k = { s.pkt k with status := .success } :=
  (packetIs_dataCalled hk).2.1

@[simp] theorem dataCalled_cfg : (dataCalled d k s).cfg = s.cfg := by
  unfold dataCalled called
  split <;> simp

@[simp] theorem dataCalled_hmem : (dataCalled d k s).hmem = s.hmem := by
  unfold dataCalled called
  split <;> simp

theorem fits_dataCalled (hs : Sound k d s) (hk : IsPacket s k) : Fits k (dataCalled d k s) :=
  hs.packet.fits.of_eq dataCalled_cfg (by rw [pkt_dataCalled hk])
    (by rw [pkt_dataCalled hk]; exact hs.packet.moved)

/-! ### A response that is applied -/

/-- The state a data response leaves: host memory is `m`, the events `es` are emitted, the packet's
length has advanced and its status is written (R100). -/
def dataMoved (k : Index) (n : Nat) (m : Memory) (es : List Event) (st : Status) (u : State) :
    State :=
  (moveActual k n { u with hmem := m, trace := u.trace ++ es }).setStatus k st

theorem dataMoved_frame (es : List Event) (hhook : s.hasHook d 7 = true) :
    dataMoved k n m es st (dataCalled d k s) =
      { called d 7 (.handleData d k :: es) s with
        hmem := m, pkts := (dataMoved k n m es st (dataCalled d k s)).pkts } := by
  simp [dataMoved, moveActual, State.setStatus, State.updPkt, dataCalled, called_of_hook _ hhook]

theorem packetIs_dataMoved (es : List Event) (hk : IsPacket s k) :
    PacketIs k
      { s.pkt k with status := st, actualLength := (s.pkt k).actualLength + BitVec.ofNat 32 n } s
      (dataMoved k n m es st (dataCalled d k s)) := by
  have hlen : BitVec.ofNat 32 (((dataCalled d k s).pkt k).actualLength.toNat + n) =
      (s.pkt k).actualLength + BitVec.ofNat 32 n := by
    rw [pkt_dataCalled hk]; simp [BitVec.ofNat_add]
  rw [← hlen]
  have hmoved := packetIs_updPkt (packetIs_dataCalled (d := d) hk) hk fun P =>
    { P with actualLength := BitVec.ofNat 32 (((dataCalled d k s).pkt k).actualLength.toNat + n) }
  exact packetIs_of_pkts (packetIs_updPkt hmoved hk fun P => { P with status := st }) rfl

section
variable (hst : Status.ofCode r.status = some st) (hshape : DataShape (s.pkt k) r)
  (hfit : Fits k s) (hroom : (s.pkt k).actualLength.toNat + r.n.toNat ≤ iovSize (s.pkt k).iov)
include hst hshape hfit hroom

/-- A response to an IN packet writes its bytes to the vector (R100). -/
theorem applyDataResp_in {emits : Bool} (ht : (s.pkt k).token = .inn) :
    ∃ m, vectorWrite s.cfg (s.pkt k).iov s.hmem (s.pkt k).actualLength.toNat r.data = some m ∧
      applyDataResp d k r emits s = .ok () (dataMoved k r.n.toNat m [] st s) := by
  have hlen : r.data.length = r.n.toNat := by simpa [DataShape, ht] using hshape
  obtain ⟨m, hm⟩ := vectorWrite_isSome (pos := (s.pkt k).actualLength.toNat) s.hmem hfit.inHost
    (hlen ▸ hroom)
  refine ⟨m, hm, ?_⟩
  rw [applyDataResp_shaped hst hshape, packetCopy_writes ht hroom hm, Run.bind_ok,
    if_neg fun h => h.1 ht]
  simp [dataMoved]

/-- A response to any other packet emits the bytes it reads from the vector (R100). -/
theorem applyDataResp_out (ht : (s.pkt k).token ≠ .inn) :
    ∃ bs, vectorRead s.cfg (s.pkt k).iov s.hmem (s.pkt k).actualLength.toNat r.n.toNat = some bs ∧
      applyDataResp d k r true s =
        .ok () (dataMoved k r.n.toNat s.hmem [.outBytes d k bs] st s) := by
  obtain ⟨bs, hbs⟩ := vectorRead_isSome s.hmem hfit.inHost hroom
  refine ⟨bs, hbs, ?_⟩
  rw [applyDataResp_shaped hst hshape, packetCopy_reads ht hroom hbs, Run.bind_ok,
    if_pos ⟨ht, rfl⟩]
  rfl

end

/-! ### The violations -/

section
variable (h : Dispatchable k d s) (hep : (s.pkt k).epNr ≠ 0) (hhook : s.hasHook d 7 = true)
include h hep hhook

/-- A malformed answer moves no byte (R67, R100; log 11). -/
theorem data_malformed_raises
    (hbad : 6 ≤ s.nextResp.status.toNat ∨ ¬ DataShape (s.pkt k) s.nextResp) :
    RaisesFrom (.submit k d) 16 s (dataCalled d k s) := by
  refine submit_raisesFrom_dispatch (c := .badOperand) h ?_
  rw [dispatch_data hep h.own hhook, applyDataResp_malformed]
  rw [pkt_dataCalled h.packet]
  exact hbad

/-- An answer that moves more than the vector holds moves no byte (R43). -/
theorem data_overrun_raises (hst : s.nextResp.status.toNat < 6)
    (hshape : DataShape (s.pkt k) s.nextResp)
    (hover : iovSize (s.pkt k).iov < (s.pkt k).actualLength.toNat + s.nextResp.n.toNat) :
    RaisesFrom (.submit k d) 6 s (dataCalled d k s) := by
  refine submit_raisesFrom_dispatch (c := .copyOverrun) h ?_
  rw [dispatch_data hep h.own hhook, applyDataResp_overrun hst] <;> rw [pkt_dataCalled h.packet]
  · exact hshape
  · exact hover

variable (hs : Sound k d s) (hst : s.nextResp.status = 4)
  (hshape : DataShape (s.pkt k) s.nextResp)
  (hroom : (s.pkt k).actualLength.toNat + s.nextResp.n.toNat ≤ iovSize (s.pkt k).iov)
  (hmay : ¬ MayDefer (s.pkt k).endpoint s)
include hs hst hshape hroom hmay

/-- An answer Async that may not be given raises after its bytes moved (R103). -/
theorem data_async_raises :
    ∃ m bs, RaisesFrom (.submit k d) (if (s.ep (s.pkt k).endpoint).type = 3 then 8 else 9) s
        (dataMoved k s.nextResp.n.toNat m
          (if (s.pkt k).token = .inn then [] else [.outBytes d k bs]) .async (dataCalled d k s)) ∧
      ((s.pkt k).token = .inn → vectorWrite s.cfg (s.pkt k).iov s.hmem
        (s.pkt k).actualLength.toNat s.nextResp.data = some m) ∧
      ((s.pkt k).token ≠ .inn → m = s.hmem ∧ vectorRead s.cfg (s.pkt k).iov s.hmem
        (s.pkt k).actualLength.toNat s.nextResp.n.toNat = some bs) := by
  have hcode : Status.ofCode s.nextResp.status = some .async := by rw [hst]; rfl
  have hfit := fits_dataCalled hs h.packet
  have hpkt := pkt_dataCalled (d := d) h.packet
  have raises : ∀ {n m es}, applyDataResp d k s.nextResp true (dataCalled d k s) =
      .ok () (dataMoved k n m es .async (dataCalled d k s)) →
      RaisesFrom (.submit k d) (if (s.ep (s.pkt k).endpoint).type = 3 then 8 else 9) s
        (dataMoved k n m es .async (dataCalled d k s)) := fun {n m es} happly => by
    obtain ⟨-, hself, -⟩ := packetIs_dataMoved (d := d) (n := n) (m := m) (st := .async) es h.packet
    exact submit_raisesFrom_async h ((dispatch_data hep h.own hhook).trans happly)
      (by rw [hself]) hmay
  have hshape' : DataShape ((dataCalled d k s).pkt k) s.nextResp := by rw [hpkt]; exact hshape
  have hroom' : ((dataCalled d k s).pkt k).actualLength.toNat + s.nextResp.n.toNat ≤
      iovSize ((dataCalled d k s).pkt k).iov := by rw [hpkt]; exact hroom
  by_cases ht : (s.pkt k).token = .inn
  · obtain ⟨m, hm, happly⟩ := applyDataResp_in (d := d) (emits := true) hcode hshape' hfit hroom'
      (by rw [hpkt]; exact ht)
    rw [hpkt, dataCalled_cfg, dataCalled_hmem] at hm
    exact ⟨m, [], by rw [if_pos ht]; exact raises happly, fun _ => hm, fun hn => absurd ht hn⟩
  · obtain ⟨bs, hbs, happly⟩ := applyDataResp_out (d := d) hcode hshape' hfit hroom'
      (by rw [hpkt]; exact ht)
    rw [hpkt, dataCalled_cfg, dataCalled_hmem] at hbs
    exact ⟨_, bs, by rw [if_neg ht]; exact raises happly, fun hi => absurd hi ht,
      fun _ => ⟨dataCalled_hmem, hbs⟩⟩

/-- The same in the words of the statements. -/
theorem data_async_faults :
    ∃ t bs, exec (.submit k d) s = .next t ∧
      ((s.pkt k).token ≠ .inn → bs.length = s.nextResp.n.toNat ∧
        Reads s (s.pkt k).iov (s.pkt k).actualLength.toNat bs ∧ SameMemory s t) ∧
      ((s.pkt k).token = .inn →
        Stored s t (s.pkt k).iov (s.pkt k).actualLength.toNat s.nextResp.data) ∧
      t = { called d 7
            (.handleData d k :: if (s.pkt k).token = .inn then [] else [.outBytes d k bs]) s with
          hmem := t.hmem, pkts := t.pkts, fault := true
          fcause := if (s.ep (s.pkt k).endpoint).type = 3 then 8 else 9
          finfo := (Instr.submit k d).firstWord } ∧
      PacketIs k
        { s.pkt k with
          status := .async, actualLength := (s.pkt k).actualLength + s.nextResp.n } s t := by
  obtain ⟨m, bs, hraise, hin, hout⟩ := data_async_raises h hep hhook hs hst hshape hroom hmay
  refine ⟨_, bs, hraise, fun ht => ?_, fun ht => stored_of_vectorWrite (hin ht) hs.memory rfl,
    by rw [dataMoved_frame _ hhook], ?_⟩
  · obtain ⟨rfl, hbs⟩ := hout ht
    obtain ⟨hlen, hreads⟩ := reads_of_vectorRead hbs
    exact ⟨hlen, hreads, fun _ => rfl⟩
  · have hP := packetIs_dataMoved (d := d) (n := s.nextResp.n.toNat) (m := m) (st := .async)
      (if (s.pkt k).token = .inn then [] else [.outBytes d k bs]) h.packet
    rw [BitVec.ofNat_toNat, BitVec.setWidth_eq] at hP
    exact packetIs_of_pkts hP rfl

end

end Sys2Proof.Machine
end

section
/-! PROOF. How a SUBMIT of an endpoint-0 packet comes to call the control handler, and what the
handler's answer can violate (spec 42_control_transfer.md R120 to R130, R140, 41_packet_lifecycle.md
R100, R103). -/

namespace Sys2Proof.Machine

open Sys2Proof.Claim

variable {d k : Index} {r : Resp} {s u v : State} {st : Status} {P : Packet} {D : Device}
  {bs ps : List Byte}

/-! ### Setup bytes -/

/-- At the call the device holds the setup bytes of the request (R121). -/
theorem controlCall_setupBuf (h : ControlCall s k d bs P D) : D.setupBuf = bufferOf bs := by
  cases h <;> rfl

theorem controlCall_dataBuf_wf (h : ControlCall s k d bs P D) (hs : (s.dev d).dataBuf.wf = true) :
    D.dataBuf.wf = true := by
  cases h with
  | setupToken | statusPhase => exact hs
  | param => exact Memory.wf_writeList _ _ hs

/-! ### The parts of the sequencer that call the handler -/

/-- A part of a command that calls the control handler in the state `u`, and that does nothing more
if the answer is Async (R122, R126, R130). -/
def CallsHandler (d k : Index) (u : State) (x : Run Unit) : Prop :=
  ∃ f : Nat → State → Run Unit, x = (controlHandler d k u).bind f ∧
    ∀ n v, (v.pkt k).status = .async → f n v = .ok () v

theorem callsHandler_setupTokenIn (d k : Index) (u : State) :
    CallsHandler d k u (setupTokenIn d k u) :=
  ⟨_, rfl, fun n v h => by simp only [h]⟩

theorem callsHandler_statusPhaseIn (h : (u.dev d).setupBuf.dirIn = false) :
    CallsHandler d k u (statusPhaseIn d k u) :=
  ⟨_, by rw [statusPhaseIn, h]; rfl, fun n v h => by simp only [h, if_true]⟩

/-- The SETUP token of an IN request that fits the buffer (R125, R126). -/
theorem callsHandler_tokenSetup (hk : IsPacket u k) (htok : (u.pkt k).token = .setup)
    (hsize : iovSize (u.pkt k).iov = 8) (hlen : bs.length = 8) (hr : Reads u (u.pkt k).iov 0 bs)
    (hfit : (lengthOf bs).toNat ≤ u.cfg.ctrlBufSize) (hdir : dirInOf bs = true) :
    CallsHandler d k
      (beginRequest d (bufferOf bs) .setup ((moveActual k 8 (u.setActual k 0)).setActual k 0))
      (tokenSetup d k u) := by
  have hpkt : (u.setActual k 0).pkt k = { u.pkt k with actualLength := 0 } :=
    State.pkt_updPkt_self _ _ _ hk
  have hcopy : packetCopy k [] 8 (u.setActual k 0) =
      .ok bs (moveActual k 8 (u.setActual k 0)) := by
    refine packetCopy_reads ?_ ?_ ?_ <;> rw [hpkt]
    · simp [htok]
    · simp [hsize]
    · exact hlen ▸ vectorRead_of_reads hr
  rw [tokenSetup, if_neg (not_not.mpr hsize), hcopy, Run.bind_ok]
  dsimp only
  rw [if_neg, if_pos]
  · exact callsHandler_setupTokenIn d k _
  · exact hdir
  · exact Nat.not_lt.mpr hfit

/-- The OUT payload of a Param packet is in the data buffer before the handler call (R122). -/
theorem paramPayload_reaches (h : Reached k d P D s u) (hk : IsPacket s k) (hd : IsDevice s d)
    (hps : if P.token = .out then
        ps.length = min D.setupLen.toNat (iovSize P.iov) ∧ Reads s P.iov 0 ps
      else ps = []) :
    ∃ v, paramPayload d k u = .ok () v ∧
      Reached k d
        { P with
          actualLength := if P.token = .out then BitVec.ofNat 32 ps.length else P.actualLength }
        { D with dataBuf := D.dataBuf.writeList 0 ps } s v := by
  by_cases htok : P.token = .out
  · rw [if_pos htok] at hps ⊢
    obtain ⟨hlen, hr⟩ := hps
    have hstart := h.setActual hk 0
    have hread := (hstart.moveActual hk ps.length).writeDataBuf hd 0 ps
    rw [show (0 : Word).toNat + ps.length = ps.length from Nat.zero_add _] at hread
    have hplen : paramLength d k u = ps.length := by rw [paramLength, h.dev, h.pkt, hlen]
    have hvector : vectorRead (u.setActual k 0).cfg P.iov (u.setActual k 0).hmem 0 ps.length =
        some ps := by
      rw [hstart.frame]; exact vectorRead_of_reads hr
    refine ⟨_, ?_, hread⟩
    rw [paramPayload, h.pkt, if_pos htok, copyDataBuf, hplen, packetCopy_reads (bs := ps),
      Run.bind_ok] <;> rw [hstart.pkt]
    · simp [htok]
    · simp [hlen]
    · exact hvector
  · rw [if_neg htok] at hps ⊢
    subst hps
    exact ⟨u, by rw [paramPayload, h.pkt, if_neg htok], h⟩

/-- A Param packet whose request fits the buffer (R122). -/
theorem callsHandler_paramPath
    (hfit : (SetupBuf.ofParameter (u.pkt k).parameter).length.toNat ≤ u.cfg.ctrlBufSize)
    (hpay : paramPayload d k (beginRequest d (.ofParameter (u.pkt k).parameter) .param u) =
      .ok () v) : CallsHandler d k v (paramPath d k u) := by
  have hfit' : ¬ (beginRequest d (.ofParameter (u.pkt k).parameter) .param u).cfg.ctrlBufSize <
      (SetupBuf.ofParameter (u.pkt k).parameter).length.toNat := Nat.not_lt.mpr hfit
  rw [paramPath, if_neg hfit', hpay, Run.bind_ok]
  exact ⟨_, rfl, fun n v h => by simp [h]⟩

/-! ### The dispatch -/

theorem dispatch_control (hep : (s.pkt k).epNr = 0) (hown : (s.pkt k).dev = d) :
    dispatch k s = controlDispatch d k (s.setStatus k .success) := by
  simp only [dispatch, if_pos hep, hown]

/-- The control path of a packet is picked by its parameter and its token (R120). -/
theorem controlDispatch_token (hpar : (u.pkt k).parameter = 0) :
    controlDispatch d k u = match (u.pkt k).token with
      | .setup => tokenSetup d k u
      | .inn => tokenIn d k u
      | .out | .reserved => tokenOut d k u := by
  rw [controlDispatch, if_neg (not_not.mpr hpar)] <;> rfl

section
variable (h : Submittable k d s) (hep : (s.pkt k).epNr = 0)
include h hep

theorem dispatch_setupToken_calls (hpar : (s.pkt k).parameter = 0)
    (htok : (s.pkt k).token = .setup) (hsize : iovSize (s.pkt k).iov = 8) (hlen : bs.length = 8)
    (hr : Reads s (s.pkt k).iov 0 bs) (hfit : (lengthOf bs).toNat ≤ s.cfg.ctrlBufSize)
    (hdir : dirInOf bs = true) :
    ∃ u, CallsHandler d k u (dispatch k s) ∧
      Reached k d { s.pkt k with status := .success, actualLength := 0 }
        { s.dev d with
          setupBuf := bufferOf bs, ctlState := .setup, setupLen := lengthOf bs, setupIndex := 0 }
        s u := by
  have hk := h.packet
  have hstart := (Reached.refl k d s).setStatus hk .success
  have hpkt := hstart.pkt
  refine ⟨_, ?_, (((hstart.setActual hk 0).moveActual hk 8).setActual hk 0).beginRequest
    h.device (bufferOf bs) .setup⟩
  rw [dispatch_control hep h.own, controlDispatch_token (by rw [hpkt]; exact hpar), hpkt]
  dsimp only
  rw [htok]
  exact callsHandler_tokenSetup (hstart.isPacket hk) (by rw [hpkt]; exact htok)
    (by rw [hpkt]; exact hsize) hlen (by rw [hpkt]; exact hr) hfit hdir

theorem dispatch_statusPhase_calls (hpar : (s.pkt k).parameter = 0)
    (htok : (s.pkt k).token = .inn) (hctl : (s.dev d).ctlState = .ack)
    (hdir : dirInOf (bytesOfBuffer (s.dev d).setupBuf) = false) :
    ∃ u, CallsHandler d k u (dispatch k s) ∧
      Reached k d { s.pkt k with status := .success } (s.dev d) s u := by
  have hstart := (Reached.refl k d s).setStatus h.packet .success
  have hpkt := hstart.pkt
  have hctl' : ((s.setStatus k .success).dev d).ctlState = .ack := hctl
  refine ⟨_, ?_, hstart⟩
  rw [dispatch_control hep h.own, controlDispatch_token (by rw [hpkt]; exact hpar), hpkt]
  dsimp only
  rw [htok, tokenIn, hctl']
  exact callsHandler_statusPhaseIn hdir

theorem dispatch_param_calls (hpar : (s.pkt k).parameter ≠ 0)
    (hfit : (lengthOf (parameterBytes (s.pkt k).parameter)).toNat ≤ s.cfg.ctrlBufSize)
    (hps : if (s.pkt k).token = .out then
        ps.length = min (lengthOf (parameterBytes (s.pkt k).parameter)).toNat
          (iovSize (s.pkt k).iov) ∧ Reads s (s.pkt k).iov 0 ps
      else ps = []) :
    ∃ u, CallsHandler d k u (dispatch k s) ∧
      Reached k d
        { s.pkt k with
          status := .success
          actualLength := if (s.pkt k).token = .out then BitVec.ofNat 32 ps.length
            else (s.pkt k).actualLength }
        { s.dev d with
          setupBuf := bufferOf (parameterBytes (s.pkt k).parameter), ctlState := .param
          setupLen := lengthOf (parameterBytes (s.pkt k).parameter), setupIndex := 0
          dataBuf := (s.dev d).dataBuf.writeList 0 ps } s u := by
  have hk := h.packet
  have hstart := (Reached.refl k d s).setStatus hk .success
  have hpkt := hstart.pkt
  have hbegun := hstart.beginRequest h.device (.ofParameter (s.pkt k).parameter) .param
  obtain ⟨v, hpay, hv⟩ := paramPayload_reaches hbegun hk h.device hps
  refine ⟨v, ?_, hv⟩
  rw [dispatch_control hep h.own, controlDispatch, hpkt, if_pos hpar]
  exact callsHandler_paramPath (by rw [hpkt]; exact hfit) (by rw [hpkt]; exact hpay)

/-- Every dispatch that calls the handler reaches the call with the packet and the device of the
statement, and has changed nothing else (R140). -/
theorem dispatch_calls (hc : ControlCall s k d bs P D) :
    ∃ u, CallsHandler d k u (dispatch k s) ∧ Reached k d P D s u := by
  cases hc with
  | setupToken _ hpar htok hsize hlen hr hfit hdir =>
    exact dispatch_setupToken_calls h hep hpar htok hsize hlen hr hfit hdir
  | statusPhase hpar htok hctl hdir => exact dispatch_statusPhase_calls h hep hpar htok hctl hdir
  | param ps hpar hfit hps => exact dispatch_param_calls h hep hpar hfit hps

end

/-! ### The call of the control handler -/

/-- The state in which the answer of a control handler called in `u` is applied (R100, R140). -/
def controlCalled (d k : Index) (u : State) : State := (u.emit (controlEvent d k u)).dropResp

section
variable (h : Reached k d P D s u)
include h

theorem Reached.controlHandler (hhook : s.hasHook d 6 = true) :
    controlHandler d k u = applyCtlResp d k s.nextResp (controlCalled d k u) := by
  have hhook' : u.hasHook d 6 = true := by rw [h.frame]; exact hhook
  have hresp : (u.emit (controlEvent d k u)).nextResp = s.nextResp := by rw [h.frame]; rfl
  rw [Machine.controlHandler, if_pos hhook', ← hresp]
  rfl

theorem controlEvent_eq (hbuf : D.setupBuf = bufferOf bs) :
    controlEvent d k u = controlCall d k bs D.setupLen D.dataBuf := by
  rw [controlEvent, h.dev, hbuf, readList_eq_bytesOf]
  rfl

theorem controlCalled_frame (hhook : s.hasHook d 6 = true) (hbuf : D.setupBuf = bufferOf bs) :
    controlCalled d k u = { called d 6 [controlCall d k bs D.setupLen D.dataBuf] s with
      pkts := u.pkts, devs := u.devs } := by
  rw [controlCalled, controlEvent_eq h hbuf, called_of_hook _ hhook]
  conv_lhs => rw [h.frame]
  exact State.dropResp_frame s u.pkts u.devs _

theorem packetIs_controlCalled : PacketIs k P s (controlCalled d k u) :=
  packetIs_of_pkts h.packet (by simp [controlCalled])

theorem deviceIs_controlCalled : DeviceIs d D s (controlCalled d k u) :=
  deviceIs_of_devs h.device (by simp [controlCalled])

theorem acceptedByControl_controlCalled :
    AcceptedByControl (controlCalled d k u) r ↔ AcceptedByControl s r := by
  have hcfg : (controlCalled d k u).cfg = s.cfg := by
    rw [controlCalled, State.dropResp_cfg, State.emit_cfg, h.frame]
  rw [AcceptedByControl, hcfg, AcceptedByControl]

end

/-! ### A response that is applied -/

/-- The state an accepted control response leaves: its bytes are in the data buffer and its
status is written (R100). -/
def ctlAnswered (d k : Index) (r : Resp) (st : Status) (v : State) : State :=
  (v.updDev d fun D => { D with dataBuf := D.dataBuf.writeList 0 r.data }).setStatus k st

theorem packetIs_ctlAnswered (h : PacketIs k P s v) (hk : IsPacket s k) :
    PacketIs k { P with status := st } s (ctlAnswered d k r st v) :=
  packetIs_updPkt (packetIs_of_pkts h rfl) hk fun P => { P with status := st }

theorem deviceIs_ctlAnswered (h : DeviceIs d D s v) (hd : IsDevice s d) :
    DeviceIs d { D with dataBuf := D.dataBuf.writeList 0 r.data } s (ctlAnswered d k r st v) :=
  deviceIs_of_devs (deviceIs_updDev h hd fun D =>
    { D with dataBuf := D.dataBuf.writeList 0 r.data }) rfl

theorem applyCtlResp_accepted (hst : Status.ofCode r.status = some st)
    (h : AcceptedByControl s r) :
    applyCtlResp d k r s = .ok r.n.toNat (ctlAnswered d k r st s) := by
  unfold applyCtlResp
  rw [hst]
  exact if_pos h

/-! ### The violations -/

section
variable (h : Dispatchable k d s) (hep : (s.pkt k).epNr = 0) (hhook : s.hasHook d 6 = true)
  (hc : ControlCall s k d bs P D)
include h hep hhook hc

/-- A malformed answer moves no byte (R67, R100; log 11). -/
theorem control_malformed_raises
    (hbad : 6 ≤ s.nextResp.status.toNat ∨ ¬ AcceptedByControl s s.nextResp) :
    ∃ u, Reached k d P D s u ∧ RaisesFrom (.submit k d) 16 s (controlCalled d k u) := by
  obtain ⟨u, ⟨f, hd, -⟩, hu⟩ := dispatch_calls h.toSubmittable hep hc
  refine ⟨u, hu, submit_raisesFrom_dispatch (c := .badOperand) h ?_⟩
  rw [hd, hu.controlHandler hhook, applyCtlResp_malformed, Run.bind_raised]
  rwa [acceptedByControl_controlCalled hu]

/-- An answer Async that may not be given raises after its bytes moved (R103). -/
theorem control_async_raises (hst : s.nextResp.status = 4)
    (hacc : AcceptedByControl s s.nextResp) (hmay : ¬ MayDefer (s.pkt k).endpoint s) :
    ∃ u, Reached k d P D s u ∧
      RaisesFrom (.submit k d) (if (s.ep (s.pkt k).endpoint).type = 3 then 8 else 9) s
        (ctlAnswered d k s.nextResp .async (controlCalled d k u)) := by
  have hcode : Status.ofCode s.nextResp.status = some .async := by rw [hst]; rfl
  obtain ⟨u, ⟨f, hd, hf⟩, hu⟩ := dispatch_calls h.toSubmittable hep hc
  have hasync :
      ((ctlAnswered d k s.nextResp .async (controlCalled d k u)).pkt k).status = .async := by
    obtain ⟨-, hself, -⟩ := packetIs_ctlAnswered (d := d) (r := s.nextResp) (st := .async)
      (packetIs_controlCalled hu) h.packet
    rw [hself]
  refine ⟨u, hu, submit_raisesFrom_async h ?_ hasync hmay⟩
  rw [hd, hu.controlHandler hhook, applyCtlResp_accepted hcode, Run.bind_ok, hf _ _ hasync]
  rwa [acceptedByControl_controlCalled hu]

end

/-- Settles O39: a malformed answer raises where it is applied, before any byte moves, and an answer
Async where the dispatch ends, for the data handler and for every call of the control handler. -/
theorem responseFaults : Obligations.ResponseFaults := by
  refine ⟨fun s k d h hs hep hhook => ⟨data_malformed_raises h hep hhook,
      data_overrun_raises h hep hhook, data_async_faults h hep hhook hs⟩,
    fun s k d bs P D h hs hep hhook hc => ⟨fun hbad => ?_, fun hst hacc hmay => ?_⟩⟩
  · obtain ⟨u, hu, hraise⟩ := control_malformed_raises h hep hhook hc hbad
    refine ⟨_, hraise, ?_, packetIs_of_pkts (packetIs_controlCalled hu) rfl,
      deviceIs_of_devs (deviceIs_controlCalled hu) rfl⟩
    rw [controlCalled_frame hu hhook (controlCall_setupBuf hc)]
  · obtain ⟨u, hu, hraise⟩ := control_async_raises h hep hhook hc hst hacc hmay
    have hP := packetIs_ctlAnswered (d := d) (r := s.nextResp) (st := .async)
      (packetIs_controlCalled hu) h.packet
    have hD := deviceIs_ctlAnswered (k := k) (r := s.nextResp) (st := .async)
      (deviceIs_controlCalled hu) h.device
    have hbuf := congrArg Device.dataBuf hD.2.1
    refine ⟨_, hraise, ?_, packetIs_of_pkts hP rfl, ?_, ?_⟩
    · rw [controlCalled_frame hu hhook (controlCall_setupBuf hc)]
      rfl
    · exact hbuf.symm ▸ written_writeList 0 _ (controlCall_dataBuf_wf hc hs.device.buffer)
    · exact deviceIs_of_devs (hbuf.symm ▸ hD) rfl

end Sys2Proof.Machine
end

section
/-! PROOF. Which endpoint a number and a direction select, and what the six endpoint commands raise
before they look at it (spec 10_state.md R19, 40_endpoint_config.md R75). -/

namespace Sys2Proof.Machine

open Sys2Proof.Claim

variable {i : Instr} {d n : Index} {dir : Dir} {s : State}

/-- The numbers 1 to 15 name the elements of the array, in order (R19). -/
theorem ofNat_pred_val_succ {nr : Nat} (h1 : 1 ≤ nr) (h15 : nr ≤ 15) :
    (Fin.ofNat 15 (nr - 1)).val + 1 = nr := by
  rw [Fin.val_ofNat, Nat.mod_eq_of_lt (by omega)]
  omega

theorem epId_of_pos {nr : Nat} (h : 1 ≤ nr) :
    epId .inn nr = .inn (Fin.ofNat 15 (nr - 1)) ∧ epId .out nr = .out (Fin.ofNat 15 (nr - 1)) :=
  ⟨if_neg (by omega), if_neg (by omega)⟩

theorem selectEp_badDevice (h : ¬ IsDevice s d) : selectEp d dir n s = .raised .devAbsent s := by
  rw [selectEp, Bool.eq_false_iff.mpr (mt (device_limits s d).mp h)]
  rfl

theorem selectEp_badNumber (hd : IsDevice s d) (hn : 15 < n.toNat) :
    selectEp d dir n s = .raised .epRange s := by
  rw [selectEp, (device_limits s d).mpr hd, WellFormed.endpoint, decide_eq_false (by omega)]
  rfl

theorem selectEp_ok (hd : IsDevice s d) (hn : n.toNat ≤ 15) :
    selectEp d dir n s = .ok ⟨d, epId dir n.toNat⟩ s :=
  selectEp_eq_ok.mpr ⟨(device_limits s d).mpr hd, decide_eq_true hn, rfl, rfl⟩

/-- A command that selects an endpoint first raises what the selection raises: the device is looked
at before the number (R75). -/
theorem raises_of_selectEp {f : EpRef → State → Run Unit}
    (he : ∀ v, exec i v = command i v fun v => (selectEp d dir n v).bind f)
    (hf : s.fault = false) :
    (¬ IsDevice s d → Raises i 5 s) ∧ (IsDevice s d → 15 < n.toNat → Raises i 4 s) :=
  ⟨fun hd => raises_of_body (c := .devAbsent) he hf
      (by rw [selectEp_badDevice hd, Run.bind_raised]),
    fun hd hn => raises_of_body (c := .epRange) he hf
      (by rw [selectEp_badNumber hd hn, Run.bind_raised])⟩

/-- Settles O28: each of the six commands selects its endpoint before anything else. -/
theorem endpointLookup : Obligations.EndpointLookup := by
  refine ⟨fun _ => rfl, fun nr h1 h15 => ?_, fun s d n dir i hf hi => ?_⟩
  · obtain ⟨hin, hout⟩ := epId_of_pos h1
    have hval := ofNat_pred_val_succ h1 h15
    exact ⟨⟨_, hin, hval⟩, ⟨_, hout, hval⟩⟩
  · rcases hi with ⟨_, rfl⟩ | ⟨_, rfl⟩ | ⟨_, rfl⟩ | ⟨_, rfl⟩ | ⟨_, rfl⟩ | rfl <;>
      exact raises_of_selectEp (fun _ => rfl) hf

end Sys2Proof.Machine
end

section
/-! PROOF. What the endpoint setters write, and what they leave (spec 40_endpoint_config.md
R75 to R80). -/

namespace Sys2Proof.Machine

open Sys2Proof.Claim

variable {i : Instr} {d n : Index} {dir : Dir} {s : State}

/-- A write to an endpoint keeps every field of its device that is not one (R19). -/
theorem Device.updEndpoint_frame (D : Device) (e : EpId) (f : Endpoint → Endpoint) :
    { D with
      epCtl := (D.updEndpoint e f).epCtl, epIn := (D.updEndpoint e f).epIn
      epOut := (D.updEndpoint e f).epOut } = D.updEndpoint e f := by
  cases e <;> rfl

theorem endpointIs_updEp {r : EpRef} (hd : IsDevice s r.dev) (f : Endpoint → Endpoint) :
    EndpointIs r (f (s.ep r)) s (s.updEp r f) := by
  refine ⟨State.ep_updEp_self s r f hd.2, fun q hq => State.ep_updEp_other s f hq, ?_⟩
  have hdev : (s.updEp r f).dev r.dev = (s.dev r.dev).updEndpoint r.ep f :=
    State.dev_updDev_self s r.dev _ hd.2
  rw [hdev, Device.updEndpoint_frame]
  exact deviceIs_updDev (deviceIs_refl r.dev s) hd _

/-- A setter of an existing endpoint completes, with that endpoint written and nothing else
(R75 to R80). -/
theorem setEndpoint_writes {f : Endpoint → Endpoint}
    (he : ∀ v, exec i v = command i v (setEndpoint d n dir f)) (hf : s.fault = false)
    (hd : IsDevice s d) (hn : n.toNat ≤ 15) :
    ∃ t, exec i s = .next t ∧ t = { s with devs := t.devs } ∧ SameMemory s t ∧
      EndpointIs ⟨d, epId dir n.toNat⟩ (f (s.ep ⟨d, epId dir n.toNat⟩)) s t := by
  refine ⟨s.updEp ⟨d, epId dir n.toNat⟩ f, ?_, rfl, fun _ => rfl, endpointIs_updEp hd f⟩
  rw [he]
  exact command_of_ok i hf (by rw [setEndpoint, selectEp_ok hd hn, Run.bind_ok])

/-- Settles O26: the five commands are one setter with different fields. -/
theorem endpointSetters : Obligations.EndpointSetters := by
  intro s d n dir hf hd hn
  refine ⟨fun v => ?_, fun v => ?_, fun v => ?_, fun v => ?_, fun v => ?_⟩
  · exact setEndpoint_writes (f := fun e => { e with type := v }) (fun _ => rfl) hf hd hn
  · exact setEndpoint_writes (f := fun e => { e with ifnum := v }) (fun _ => rfl) hf hd hn
  · exact setEndpoint_writes (f := fun e => { e with maxPacketSize := maskPacketSize v })
      (fun _ => rfl) hf hd hn
  · exact setEndpoint_writes (f := fun e => { e with pipeline := v }) (fun _ => rfl) hf hd hn
  · exact setEndpoint_writes (f := fun e => { e with halted := v }) (fun _ => rfl) hf hd hn

end Sys2Proof.Machine
end

section
/-! PROOF. The result registers of EP_GET (spec 40_endpoint_config.md R81). -/

namespace Sys2Proof.Machine

open Sys2Proof.Claim Sys2Proof.Laws

variable {d n : Index} {dir : Dir} {s : State}

/-! ### The fields of `RES0` -/

theorem endpointWord_type (e : Endpoint) : (endpointWord e).extractLsb' 0 3 = e.type := by
  rw [endpointWord, extract_append_low _ _ _ _ (by omega), extract_full]

theorem flagBit_bit (b : Bool) : (flagBit b).getLsbD 0 = b := by
  cases b <;> rfl

theorem endpointWord_halted (e : Endpoint) : (endpointWord e).getLsbD 8 = e.halted := by
  simp only [endpointWord, BitVec.getLsbD_append]
  exact flagBit_bit e.halted

theorem endpointWord_pipeline (e : Endpoint) : (endpointWord e).getLsbD 9 = e.pipeline := by
  simp only [endpointWord, BitVec.getLsbD_append]
  exact flagBit_bit e.pipeline

theorem endpointWord_ifnum (e : Endpoint) : (endpointWord e).extractLsb' 16 8 = e.ifnum := by
  unfold endpointWord
  iterate 5 rw [extract_append_high _ _ _ _ (by omega)]
  rw [extract_append_low _ _ _ _ (by omega), extract_full]

/-- The bits of `RES0` that belong to no field, written in the widths of `endpointWord`. -/
theorem endpointWord_reserved (e : Endpoint) : endpointWord e &&& 0xFF00FCF8 = 0 := by
  change (0#8 ++ e.ifnum ++ 0#6 ++ flagBit e.pipeline ++ flagBit e.halted ++ 0#5 ++ e.type) &&&
    (0xFF#8 ++ 0#8 ++ 0x3F#6 ++ 0#1 ++ 0#1 ++ 0x1F#5 ++ 0#3) = 0#32
  simp only [BitVec.and_append, BitVec.zero_and, BitVec.and_zero]
  decide

/-! ### `RES3` -/

theorem queueHeadWord_nil : queueHeadWord [] = 0xFFFFFFFF := rfl

theorem toNat_queueHeadWord_cons (k : Index) (ks : List Index) :
    (queueHeadWord (k :: ks)).toNat = k.toNat :=
  BitVec.toNat_setWidth_of_le (by omega)

/-! ### The command -/

/-- EP_GET of an existing endpoint completes with the result registers written (R81). -/
theorem exec_epGet (hf : s.fault = false) (hd : IsDevice s d) (hn : n.toNat ≤ 15) :
    exec (.epGet d n dir) s = .next { s with
      res0 := endpointWord (s.ep ⟨d, epId dir n.toNat⟩)
      res1 := (s.ep ⟨d, epId dir n.toNat⟩).maxPacketSize.zeroExtend 32
      res2 := BitVec.ofNat 32 (s.ep ⟨d, epId dir n.toNat⟩).queue.length
      res3 := queueHeadWord (s.ep ⟨d, epId dir n.toNat⟩).queue } := by
  rw [exec, execEpGet]
  exact command_of_ok _ hf (by rw [selectEp_ok hd hn, Run.bind_ok])

/-- Settles O27: each register by the lemma for its fields. -/
theorem endpointRead : Obligations.EndpointRead := by
  intro s d n dir hf hd hn e
  refine ⟨_, exec_epGet hf hd hn, rfl, fun _ => rfl, endpointWord_type e, endpointWord_halted e,
    endpointWord_pipeline e, endpointWord_ifnum e, endpointWord_reserved e,
    BitVec.toNat_setWidth_of_le (by omega), fun hlt => Nat.mod_eq_of_lt hlt,
    fun hq => ?_, fun k ks hq => ?_⟩
  · dsimp only
    rw [hq, queueHeadWord_nil]
  · dsimp only
    rw [hq, toNat_queueHeadWord_cons]

end Sys2Proof.Machine
end

section
/-! PROOF. What the commands that prepare, read and cancel a packet write, and what they refuse
(spec 41_packet_lifecycle.md R91 to R93, R107, R113). -/

namespace Sys2Proof.Machine

open Sys2Proof.Claim Sys2Proof.Laws

variable {i : Instr} {d k n : Index} {r : EpRef} {s t u : State}

/-! ### Frames -/

theorem checkDevice_ok (h : IsDevice s d) : checkDevice d s = .ok () s := by
  rw [checkDevice, (device_limits s d).mpr h, require_true]

/-- A command whose body writes one packet slot completes with that slot written and nothing
else. -/
theorem writesPacket_of_body {body : State → Run Unit} {f : Packet → Packet}
    (he : ∀ v, exec i v = command i v body) (hf : s.fault = false) (hk : IsPacket s k)
    (hb : body s = .ok () (s.updPkt k f)) :
    ∃ t, exec i s = .next t ∧ t = { s with pkts := t.pkts } ∧ SameMemory s t ∧
      PacketIs k (f (s.pkt k)) s t :=
  ⟨s.updPkt k f, by rw [he, command_of_ok i hf hb], rfl, fun _ => rfl,
    packetIs_updPkt (packetIs_refl k s) hk f⟩

theorem endpointIs_of_devs {e : Endpoint} (h : EndpointIs r e s u) (ht : t.devs = u.devs) :
    EndpointIs r e s t := by
  simpa only [EndpointIs, DeviceIs, State.ep, State.dev, ht] using h

theorem endpointIs_refl (r : EpRef) (s : State) : EndpointIs r (s.ep r) s s :=
  ⟨rfl, fun _ _ => rfl, rfl, rfl, fun _ _ => rfl⟩

theorem endpointIs_updEp_of_lt (hd : r.dev.toNat < s.devs.length) (f : Endpoint → Endpoint) :
    EndpointIs r (f (s.ep r)) s (s.updEp r f) := by
  refine ⟨State.ep_updEp_self s r f hd, fun q hq => State.ep_updEp_other s f hq, by simp, ?_,
    fun j hj => State.dev_updDev_other s _ hj⟩
  have hdev : (s.updEp r f).dev r.dev = (s.dev r.dev).updEndpoint r.ep f :=
    State.dev_updDev_self s r.dev _ hd
  rw [hdev, Device.updEndpoint_frame]

/-- A write to an endpoint of no device is dropped (log 22). -/
theorem updEp_of_not_lt (hd : ¬ r.dev.toNat < s.devs.length) (f : Endpoint → Endpoint) :
    s.updEp r f = s := by
  rw [State.updEp, State.updDev, List.modify_eq_self (Nat.le_of_not_lt hd)]

theorem queue_of_not_lt (hd : ¬ r.dev.toNat < s.devs.length) : (s.ep r).queue = [] := by
  rw [State.ep, reset_dev hd]
  cases r.ep <;> simp [Device.endpoint, Device.reset, Endpoint.resetCtl, Endpoint.resetOther,
    Vector.get_eq_getElem]

/-- A packet leaves a queue, whether or not the endpoint exists (R20). -/
theorem endpointIs_removeQueue (r : EpRef) (k : Index) (s : State) :
    EndpointIs r { s.ep r with queue := (s.ep r).queue.filter (· != k) } s (s.removeQueue r k) := by
  by_cases hd : r.dev.toNat < s.devs.length
  · exact endpointIs_updEp_of_lt hd fun e => { e with queue := e.queue.filter (· != k) }
  · have hq := queue_of_not_lt hd
    have hsame : { s.ep r with queue := (s.ep r).queue.filter (· != k) } = s.ep r := by
      rw [hq, List.filter_nil, ← hq]
    rw [hsame, State.removeQueue, updEp_of_not_lt hd]
    exact endpointIs_refl r s

/-! ### PKT_SETUP -/

/-- The checks of PKT_SETUP behind its index operands (R91; log 10). -/
theorem pktSetupChecks_of_operands {tk : Token} (hk : IsPacket s k) (hd : IsDevice s d) :
    pktSetupChecks k d n tk s =
      if (s.pkt k).valid = true ∧ (s.pkt k).state.inFlight = true then .raised .setupInflight s
      else if tk = .reserved then .raised .badOperand s
      else (selectEp d (tokenDir tk) n s).bind fun _ s => .ok () s := by
  simp only [pktSetupChecks, checkPacket_ok hk, checkDevice_ok hd, Run.bind_ok, require_bind,
    WellFormed.token]
  cases (s.pkt k).valid <;> cases (s.pkt k).state.inFlight <;> cases tk <;> rfl

theorem tokenDir_eq (tk : Token) : tokenDir tk = if tk = .inn then .inn else .out := by
  cases tk <;> rfl

/-- Settles O30: by the first check that is not met, else by the one write to the slot. -/
theorem packetSetup : Obligations.PacketSetup := by
  intro s k d n tk so ir st id hf hk hd i busy
  have hchecks := pktSetupChecks_of_operands (n := n) (tk := tk) hk hd
  have raises : ∀ {c}, pktSetupChecks k d n tk s = .raised c s → Raises i c.code s :=
    raises_of_check (fun _ => rfl) hf
  refine ⟨fun hb => ?_, fun hb htk => ?_, fun hb htk hn => ?_, fun hb htk hn => ?_⟩
  · exact raises (c := .setupInflight) (by rw [hchecks, if_pos hb])
  · exact raises (c := .badOperand) (by rw [hchecks, if_neg hb, if_pos htk])
  · exact raises (c := .epRange) (by
      rw [hchecks, if_neg hb, if_neg htk, selectEp_badNumber hd hn, Run.bind_raised])
  · rw [if_neg hb, if_neg htk, selectEp_ok hd hn, Run.bind_ok] at hchecks
    rw [← tokenDir_eq]
    exact writesPacket_of_body (i := i) (f := fun _ => ⟨true, id, tk, d, tokenDir tk,
      n.extractLsb' 0 4, st, .success, 0, 0, so, ir, [], .setup, noIndex⟩) (fun _ => rfl) hf hk
      (by rw [hchecks, Run.bind_ok])

/-! ### PKT_IOV_ADD and PKT_SET_PARAM -/

theorem checkPrepared_notSetup (hv : (s.pkt k).valid = true) (hst : (s.pkt k).state ≠ .setup) :
    checkPrepared k s = .raised .pktNotSetup s := by
  simp [checkPrepared, checkValid_ok hv, require, hst]

theorem checkPrepared_ok (hv : (s.pkt k).valid = true) (hst : (s.pkt k).state = .setup) :
    checkPrepared k s = .ok () s := by
  simp [checkPrepared, checkValid_ok hv, hst]

/-- A segment is refused for a full vector, for its end or for the capacity it would give (R92). -/
theorem checkSegment_eq (k : Index) (g : Segment) (s : State) :
    checkSegment k g s =
      if (s.pkt k).iov.length = s.cfg.iovMax ∨ s.cfg.hostSize < g.addr.toNat + g.len.toNat ∨
        2 ^ 32 ≤ iovSize (s.pkt k).iov + g.len.toNat then .raised .badOperand s
      else .ok () s := by
  rw [checkSegment, require, ← ite_not]
  refine if_congr ?_ rfl rfl
  simp only [Bool.and_eq_true, bne_iff_ne, decide_eq_true_eq, ne_eq, and_assoc, not_and_or,
    not_not, not_le, not_lt]

/-- Settles O31: by the first check that is not met, else by the one write to the slot. -/
theorem packetPrepared : Obligations.PacketPrepared := by
  intro s k hf hk P writes
  refine ⟨fun p => ⟨fun hv => ?_, fun hv hst => ?_, fun hv hst => ?_⟩, fun addr len =>
    ⟨fun ha => ?_, fun ha hv => ?_, fun ha hv hst => ?_, fun ha hv hst hbad => ?_,
      fun ha hv hst hbad => ?_⟩⟩
  · obtain ⟨-, -, -, raises, -⟩ := raises_invalidPacket hf hk hv
    exact raises p
  · refine raises_of_body (c := .pktNotSetup) (fun _ => rfl) hf ?_
    rw [checkPacket_ok hk, Run.bind_ok, checkPrepared_notSetup hv hst, Run.bind_raised]
  · refine writesPacket_of_body (f := fun P => { P with parameter := p }) (fun _ => rfl) hf hk ?_
    rw [checkPacket_ok hk, Run.bind_ok, checkPrepared_ok hv hst, Run.bind_ok]
  · refine raises_of_check (c := .badOperand) (fun _ => rfl) hf (x := checkHostAddr addr) ?_
    rw [checkHostAddr, Bool.eq_false_iff.mpr (mt (hostAddr_limits s addr).mp ha), require_false]
  · obtain ⟨-, -, -, -, raises, -⟩ := raises_invalidPacket hf hk hv
    exact raises addr len ha
  · refine raises_of_body (c := .pktNotSetup) (fun _ => rfl) hf ?_
    rw [checkHostAddr_ok ha, Run.bind_ok, checkPacket_ok hk, Run.bind_ok,
      checkPrepared_notSetup hv hst, Run.bind_raised]
  · refine raises_of_body (c := .badOperand) (fun _ => rfl) hf ?_
    rw [checkHostAddr_ok ha, Run.bind_ok, checkPacket_ok hk, Run.bind_ok, checkPrepared_ok hv hst,
      Run.bind_ok, checkSegment_eq, if_pos hbad, Run.bind_raised]
  · refine writesPacket_of_body (f := fun P => { P with iov := P.iov ++ [⟨addr, len⟩] })
      (fun _ => rfl) hf hk ?_
    rw [checkHostAddr_ok ha, Run.bind_ok, checkPacket_ok hk, Run.bind_ok, checkPrepared_ok hv hst,
      Run.bind_ok, checkSegment_eq, if_neg hbad, Run.bind_ok]

/-! ### PKT_READ -/

theorem packetWord_status (P : Packet) : (packetWord P).extractLsb' 0 3 = P.status.code := by
  rw [packetWord, extract_append_low _ _ _ _ (by omega), extract_full]

theorem packetWord_state (P : Packet) : (packetWord P).extractLsb' 8 3 = P.state.code := by
  rw [packetWord]
  iterate 2 rw [extract_append_high _ _ _ _ (by omega)]
  rw [extract_append_low _ _ _ _ (by omega), extract_full]

/-- The bits of `RES0` that belong to no field, written in the widths of `packetWord`. -/
theorem packetWord_reserved (P : Packet) : packetWord P &&& 0xFFFFF8F8 = 0 := by
  change (0#21 ++ P.state.code ++ 0#5 ++ P.status.code) &&&
    (0x1FFFFF#21 ++ 0#3 ++ 0x1F#5 ++ 0#3) = 0#32
  simp only [BitVec.and_append, BitVec.zero_and, BitVec.and_zero]
  decide

/-- The capacity of a vector is the sum of the lengths of its segments (R25). -/
theorem iovSize_eq_sum (iov : List Segment) : iovSize iov = (iov.map fun g => g.len.toNat).sum := by
  induction iov with
  | nil => rfl
  | cons g gs ih => rw [iovSize, ih, List.map_cons, List.sum_cons]

/-- PKT_READ of a slot in use completes with the result registers written (R113). -/
theorem exec_pktRead (hf : s.fault = false) (hk : IsPacket s k) (hv : (s.pkt k).valid = true) :
    exec (.pktRead k) s = .next { s with
      res0 := packetWord (s.pkt k), res1 := (s.pkt k).actualLength, res2 := (s.pkt k).id
      res3 := BitVec.ofNat 32 (iovSize (s.pkt k).iov) } := by
  rw [exec, execPktRead]
  exact command_of_ok _ hf (by
    rw [checkPacket_ok hk, Run.bind_ok, checkValid_ok hv, Run.bind_ok])

/-- Settles O32: each register by the lemma for its fields. -/
theorem packetRead : Obligations.PacketRead := by
  intro s k hf hk P
  refine ⟨fun hv => ?_, fun hv => ⟨_, exec_pktRead hf hk hv, rfl, fun _ => rfl, ?_, ?_,
    packetWord_reserved P, rfl, rfl, fun hlt => ?_⟩⟩
  · obtain ⟨-, -, raises, -⟩ := raises_invalidPacket hf hk hv
    exact raises
  · dsimp only
    rw [packetWord_status]
    cases P.status <;> rfl
  · dsimp only
    rw [packetWord_state]
    cases P.state <;> rfl
  · rw [← iovSize_eq_sum]
    exact Nat.mod_eq_of_lt hlt

/-! ### CANCEL -/

theorem cancelHook_eq (d k : Index) (b : Bool) (s : State) :
    cancelHook d k b s =
      { s with
        trace := s.trace ++
          if b = true ∧ s.hasHook d 2 = true then [.cancelHook d k] else [] } := by
  cases b <;> cases hh : s.hasHook d 2 <;> simp [cancelHook, hh, State.emit]

/-- CANCEL of a packet in flight completes with the packet out of its queue (R107). -/
theorem exec_cancel (hf : s.fault = false) (hk : IsPacket s k) (hv : (s.pkt k).valid = true)
    (hin : (s.pkt k).state.inFlight = true) :
    exec (.cancel k) s = .next (cancelHook (s.pkt k).dev k ((s.pkt k).state == .async)
      ((s.setPktState k .canceled).removeQueue (s.pkt k).endpoint k)) := by
  rw [exec, execCancel]
  exact command_of_ok _ hf (by
    rw [checkPacket_ok hk, Run.bind_ok, checkValid_ok hv, Run.bind_ok, hin, require_true,
      Run.bind_ok])

/-- Settles O50: a packet in flight becomes Canceled, leaves its queue and has its hook called. -/
theorem cancel : Obligations.Cancel := by
  intro s k hf hk P r
  refine ⟨fun hv => ?_, fun hv hin => ?_,
    fun hv hin => ⟨_, exec_cancel hf hk hv hin, ?_, ?_, ?_, ?_⟩⟩
  · obtain ⟨raises, -⟩ := raises_invalidPacket hf hk hv
    exact raises
  · refine raises_of_body (c := .cancelState) (fun _ => rfl) hf ?_
    rw [checkPacket_ok hk, Run.bind_ok, checkValid_ok hv, Run.bind_ok, hin, require_false,
      Run.bind_raised]
  all_goals rw [cancelHook_eq]
  · simp only [beq_iff_eq]
    rfl
  · exact fun _ => rfl
  · exact packetIs_of_pkts
      (packetIs_updPkt (packetIs_refl k s) hk fun P => { P with state := .canceled }) rfl
  · exact endpointIs_of_devs (endpointIs_removeQueue r k s) rfl

end Sys2Proof.Machine
end

section
/-! PROOF. What a SUBMIT does before it dispatches: it refuses, it finds no device, it clears the
halt or it queues the packet (spec 41_packet_lifecycle.md R94 to R99, R106). -/

namespace Sys2Proof.Machine

open Sys2Proof.Claim

variable {d k : Index} {r : EpRef} {s t u : State}

/-! ### The checks of a SUBMIT -/

/-- Two commands whose bodies end alike, from states with the same latch. -/
theorem command_congr {i : Instr} {body body' : State → Run Unit} (hf : s.fault = u.fault)
    (hff : s.fault = false) (hb : body s = body' u) : command i s body = command i u body' := by
  simp only [command, ← hf, hff, hb]
  rfl

/-- A SUBMIT whose operands are in range runs its packet (R94). -/
theorem exec_submit (hf : s.fault = false) (hk : IsPacket s k) (hd : d = noIndex ∨ IsDevice s d) :
    exec (.submit k d) s = command (.submit k d) s (submitPacket k d) := by
  rw [exec, execSubmit]
  refine command_congr rfl hf ?_
  rw [checkPacket_ok hk, Run.bind_ok, checkDeviceOrNone_ok hd, Run.bind_ok]

section
variable (hv : (s.pkt k).valid = true)
include hv

theorem submitPacket_notSetup (hst : (s.pkt k).state ≠ .setup) :
    submitPacket k d s = .raised .submitState s := by
  simp [submitPacket, checkValid_ok hv, require, hst]

theorem submitPacket_setup (hst : (s.pkt k).state = .setup) :
    submitPacket k d s =
      if noTarget d s = true then .ok () ((s.setStatus k .noDevice).setPktState k .complete)
      else (require (d == (s.pkt k).dev) .devMismatch s).bind fun _ s =>
        submitAccepted k (s.pkt k).endpoint s := by
  rw [submitPacket, checkValid_ok hv, Run.bind_ok, hst]
  rfl

end

theorem noTarget_iff (d : Index) (s : State) :
    noTarget d s = true ↔ d = noIndex ∨ (s.dev d).attached = false := by
  simp [noTarget]

/-- SUBMIT to the packet's own, attached device is accepted (R94). -/
theorem submitPacket_accepted (h : Submittable k d s) :
    submitPacket k d s = submitAccepted k (s.pkt k).endpoint s := by
  have htarget : ¬ noTarget d s = true := by
    rw [noTarget_iff, h.attached]
    exact fun hn => hn.elim h.device.1 nofun
  rw [submitPacket_setup h.valid h.setup, if_neg htarget, h.own, beq_self_eq_true, require_true,
    Run.bind_ok]

/-- The packet's endpoint is one of the device it is submitted to (R25). -/
theorem isDevice_endpoint (h : Submittable k d s) : IsDevice s (s.pkt k).endpoint.dev := by
  have hdev : (s.pkt k).endpoint.dev = d := h.own
  rw [hdev]
  exact h.device

/-- Settles O33: the packet is completed before its device is looked at. -/
theorem submitNoDevice : Obligations.SubmitNoDevice := by
  intro s k d hf hk hv hst hd
  have htarget : noTarget d s = true := (noTarget_iff d s).mpr (hd.imp_right And.right)
  have hb : submitPacket k d s = .ok () ((s.setStatus k .noDevice).setPktState k .complete) := by
    rw [submitPacket_setup hv hst, if_pos htarget]
  refine ⟨_, (exec_submit hf hk (hd.imp_right And.left)).trans (command_of_ok _ hf hb), rfl,
    fun _ => rfl, ?_⟩
  exact packetIs_updPkt (packetIs_updPkt (packetIs_refl k s) hk fun P =>
    { P with status := .noDevice }) hk fun P => { P with state := .complete }

/-- Settles O34: both are found before anything is written. -/
theorem submitRefusals : Obligations.SubmitRefusals := by
  intro s k d hf hk hv hd
  have raises : ∀ {c}, submitPacket k d s = .raised c s → Raises (.submit k d) c.code s :=
    fun hb => raises_of_body (fun _ => rfl) hf (by
      rw [checkPacket_ok hk, Run.bind_ok, checkDeviceOrNone_ok hd, Run.bind_ok, hb])
  refine ⟨fun hst => raises (c := .submitState) (submitPacket_notSetup hv hst),
    fun hst hn hatt hown => raises (c := .devMismatch) ?_⟩
  have htarget : ¬ noTarget d s = true := by simp [noTarget_iff, hn, hatt]
  rw [submitPacket_setup hv hst, if_neg htarget, beq_false_of_ne hown, require_false,
    Run.bind_raised]

/-! ### The halt -/

theorem clearHalt_running (h : (s.ep r).halted = false) : clearHalt r s = .ok () s := by
  rw [clearHalt, h]
  rfl

theorem clearHalt_busy (h : (s.ep r).halted = true) (hq : (s.ep r).queue ≠ []) :
    clearHalt r s = .raised .haltQueue s := by
  simp [clearHalt, h, require, hq]

theorem clearHalt_idle (h : (s.ep r).halted = true) (hq : (s.ep r).queue = []) :
    clearHalt r s = .ok () (s.updEp r fun e => { e with halted := false }) := by
  simp [clearHalt, h, hq]

/-- SUBMIT to a halted endpoint with an empty queue runs from the state with the halt cleared
(R97). -/
theorem submitAccepted_halted (hd : r.dev.toNat < s.devs.length) (h : (s.ep r).halted = true)
    (hq : (s.ep r).queue = []) :
    submitAccepted k r s = submitAccepted k r (s.updEp r fun e => { e with halted := false }) := by
  have hrunning : ((s.updEp r fun e => { e with halted := false }).ep r).halted = false := by
    rw [State.ep_updEp_self s r _ hd]
  rw [submitAccepted, submitAccepted, clearHalt_idle h hq, clearHalt_running hrunning]

/-- A write to an endpoint leaves a SUBMIT as acceptable as it was. -/
theorem submittable_updEp (h : Submittable k d s) (r : EpRef) (f : Endpoint → Endpoint) :
    Submittable k d (s.updEp r f) where
  clear := h.clear
  packet := h.packet
  valid := h.valid
  setup := h.setup
  device := ⟨h.device.1, by simpa using h.device.2⟩
  attached := by
    simp only [State.updEp, State.dev_updDev]
    split
    · cases r.ep <;> exact h.attached
    · exact h.attached
  own := h.own

/-- Settles O35: the halt is the first thing an accepted SUBMIT looks at, and the rest of the
command runs from the state with the halt cleared. -/
theorem submitClearsHalt : Obligations.SubmitClearsHalt := by
  intro s k d h r hhalt
  refine ⟨fun hq => submit_raisesFrom (c := .haltQueue) h ?_, fun hq => ?_⟩
  · rw [submitPacket_accepted h, submitAccepted, clearHalt_busy hhalt hq, Run.bind_raised]
  · have h' := submittable_updEp h r fun e => { e with halted := false }
    have hrunning : ((s.updEp r fun e => { e with halted := false }).ep r).halted = false := by
      rw [State.ep_updEp_self s r _ (isDevice_endpoint h).2]
    have hbody : submitPacket k d s =
        submitPacket k d (s.updEp r fun e => { e with halted := false }) := by
      rw [submitPacket_accepted h, submitPacket_accepted h',
        submitAccepted_halted (isDevice_endpoint h).2 hhalt hq]
      rfl
    have hexec : exec (.submit k d) s =
        exec (.submit k d) (s.updEp r fun e => { e with halted := false }) := by
      rw [exec_submit h.clear h.packet (.inr h.device),
        exec_submit h'.clear h'.packet (.inr h'.device)]
      exact command_congr rfl h.clear hbody
    refine ⟨hexec, fun t ht => ?_⟩
    rw [hexec] at ht
    exact (submit_keeps ht (fun _ => .inl rfl) (fun _ => haltCleared_submit k d _)
      haltCleared_contractViolation r).elim (·.trans hrunning) id

/-! ### The queue -/

theorem mustQueue_iff : mustQueue k r s = true ↔
    (s.ep r).queue ≠ [] ∧ (s.ep r).pipeline = false ∧ (s.pkt k).stream = 0 := by
  simp [mustQueue, and_assoc]

/-- Settles O36: the packet must wait, so it is queued or refused. -/
theorem submitBusy : Obligations.SubmitBusy := by
  intro s k d h r hrun hq hpipe hstream
  have hbody : submitPacket k d s =
      if s.cfg.strictInflight then .raised .inflightLimit s else .ok () (queueOne k r s) := by
    rw [submitPacket_accepted h, submitAccepted, clearHalt_running hrun, Run.bind_ok,
      if_pos (mustQueue_iff.mpr ⟨hq, hpipe, hstream⟩)]
  refine ⟨fun hstrict => submit_raisesFrom (c := .inflightLimit) h (by rw [hbody, if_pos hstrict]),
    fun hstrict => ⟨queueOne k r s, ?_, rfl, fun _ => rfl, ?_, ?_⟩⟩
  · rw [hstrict, if_neg Bool.false_ne_true] at hbody
    exact (exec_submit h.clear h.packet (.inr h.device)).trans (command_of_ok _ h.clear hbody)
  · rw [queueOne_eq]
    exact packetIs_of_pkts (packetIs_updPkt (packetIs_refl k s) h.packet fun P =>
      { P with state := .queued, status := .async }) rfl
  · exact endpointIs_of_devs (endpointIs_updEp (isDevice_endpoint h)
      fun e => { e with queue := e.queue ++ [k] }) rfl

end Sys2Proof.Machine
end

section
/-! PROOF. A SUBMIT whose data handler answers well, and a COMPLETE of a data packet (spec
41_packet_lifecycle.md R100 to R105, R108, R109, 20_memory.md R43). -/

namespace Sys2Proof.Machine

open Sys2Proof.Claim

variable {d k : Index} {n : Nat} {m : Memory} {q r : EpRef} {a : Resp} {s t u : State}
  {st : Status} {P : Packet} {es : List Event}

theorem Status.ofCode_code (st : Status) : Status.ofCode st.code = some st := by
  cases st <;> rfl

/-! ### The answer of a data handler, with or without its hook -/

/-- A data dispatch applies what its call answers (R100, R101, R158). -/
theorem dispatch_data_reply (hep : (s.pkt k).epNr ≠ 0) (hown : (s.pkt k).dev = d) :
    dispatch k s = applyDataResp d k (reply d 7 s) (s.hasHook d 7) (dataCalled d k s) := by
  cases hhook : s.hasHook d 7 with
  | true => rw [dispatch_data hep hown hhook, reply, if_pos hhook]
  | false =>
    have hhook' : (s.setStatus k .success).hasHook d 7 = false := hhook
    simp only [dispatch, if_neg hep, hown, dataHandler, hhook', reply, hhook, dataCalled, called]
    rfl

/-- A response to a packet that is not IN hands the bytes it reads from the vector to the sink, if
there is one (R100). -/
theorem applyDataResp_sink {emits : Bool} (hst : Status.ofCode a.status = some st)
    (hshape : DataShape (s.pkt k) a) (hfit : Fits k s)
    (hroom : (s.pkt k).actualLength.toNat + a.n.toNat ≤ iovSize (s.pkt k).iov)
    (ht : (s.pkt k).token ≠ .inn) :
    ∃ bs, vectorRead s.cfg (s.pkt k).iov s.hmem (s.pkt k).actualLength.toNat a.n.toNat = some bs ∧
      applyDataResp d k a emits s = .ok ()
        (dataMoved k a.n.toNat s.hmem (if emits = true then [.outBytes d k bs] else []) st s) := by
  obtain ⟨bs, hbs⟩ := vectorRead_isSome s.hmem hfit.inHost hroom
  refine ⟨bs, hbs, ?_⟩
  rw [applyDataResp_shaped hst hshape, packetCopy_reads ht hroom hbs, Run.bind_ok]
  cases emits with
  | true => rw [if_pos ⟨ht, rfl⟩]; rfl
  | false => simp [dataMoved]

/-- The frame of a data dispatch: only the call, its events and its answer, host memory and the
packets (R100, R101). -/
theorem dataMoved_called (es : List Event) :
    dataMoved k n m (if s.hasHook d 7 = true then es else []) st (dataCalled d k s) =
      { called d 7 (.handleData d k :: es) s with
        hmem := m
        pkts := (dataMoved k n m (if s.hasHook d 7 = true then es else []) st
          (dataCalled d k s)).pkts } := by
  by_cases hhook : s.hasHook d 7 = true
  · rw [if_pos hhook, dataMoved_frame es hhook]
  · simp [dataMoved, moveActual, State.setStatus, State.updPkt, dataCalled, called, hhook]

/-! ### What the status decides -/

theorem settled_status (st st' : Status) (P : Packet) :
    settled st { P with status := st' } = settled st P := by
  cases st <;> rfl

theorem checkAsync_ok (h : MayDefer r s) : checkAsync r s = .ok () s := by
  obtain ⟨hiso, hint⟩ := h
  rw [checkAsync, require_bind, if_pos (bne_iff_ne.mpr hiso)]
  simpa [require, Bool.or_eq_true, imp_iff_not_or] using hint

theorem afterDispatch_async (hst : (s.pkt k).status = .async) (hm : MayDefer r s) :
    afterDispatch k r s = .ok () ((s.setPktState k .async).appendQueue r k) := by
  rw [afterDispatch, hst]
  exact congrArg (Run.bind · _) (checkAsync_ok hm)

theorem afterDispatch_async_raised (hst : (s.pkt k).status = .async) (hm : ¬ MayDefer r s) :
    afterDispatch k r s = .raised (if (s.ep r).type = 3 then .isoAsync else .intAsync) s := by
  rw [afterDispatch, hst]
  exact congrArg (Run.bind · _) (checkAsync_raised hm)

theorem afterDispatch_addToQueue (hst : (s.pkt k).status = .addToQueue) :
    afterDispatch k r s = .ok () (queueOne k r s) := by
  rw [afterDispatch, hst]

theorem afterDispatch_nak (hst : (s.pkt k).status = .nak) : afterDispatch k r s = .ok () s := by
  rw [afterDispatch, hst]

theorem afterDispatch_final (hst : Final (s.pkt k).status) :
    afterDispatch k r s = .ok () (s.setPktState k .complete) := by
  rcases hst with hst | hst | hst <;> rw [afterDispatch, hst]

/-- What a dispatch's status decides of the packet and its queue (R102 to R105). -/
theorem afterDispatch_settles (hk : IsPacket s k) (hr : IsDevice s r.dev) (hP : PacketIs k P s u)
    (hdevs : u.devs = s.devs) (hcfg : u.cfg = s.cfg) (hst : P.status = st)
    (hmay : st = .async → MayDefer r s) :
    ∃ t, afterDispatch k r u = .ok () t ∧ t = { u with pkts := t.pkts, devs := t.devs } ∧
      PacketIs k (settled st P) s t ∧
      EndpointIs r { s.ep r with queue := queueAfter st k (s.ep r).queue } s t := by
  have hep : ∀ q, u.ep q = s.ep q := fun q => by simp only [State.ep, State.dev, hdevs]
  have happend : EndpointIs r { s.ep r with queue := (s.ep r).queue ++ [k] } s
      (s.appendQueue r k) := endpointIs_updEp hr fun e => { e with queue := e.queue ++ [k] }
  have hdevs' : (u.appendQueue r k).devs = (s.appendQueue r k).devs := by
    simp only [State.appendQueue, State.updEp, State.updDev, hdevs]
  have hstatus : (u.pkt k).status = st := by rw [hP.2.1, hst]
  have hcomplete := packetIs_updPkt hP hk fun P => { P with state := .complete }
  have hsame := endpointIs_of_devs (endpointIs_refl r s) hdevs
  cases hst
  cases hst : P.status with
  | async =>
    have hmay' : MayDefer r u := by
      rw [MayDefer, hep, State.hostRole, hcfg]; exact hmay hst
    refine ⟨_, afterDispatch_async (hstatus.trans hst) hmay', rfl, ?_,
      endpointIs_of_devs happend hdevs'⟩
    rw [settled, ← hst]
    exact packetIs_of_pkts (packetIs_updPkt hP hk fun P => { P with state := .async }) rfl
  | addToQueue =>
    refine ⟨_, afterDispatch_addToQueue (hstatus.trans hst), rfl, ?_,
      endpointIs_of_devs happend hdevs'⟩
    rw [queueOne_eq]
    exact packetIs_of_pkts
      (packetIs_updPkt hP hk fun P => { P with state := .queued, status := .async }) rfl
  | nak =>
    refine ⟨u, afterDispatch_nak (hstatus.trans hst), rfl, ?_, hsame⟩
    rw [settled, ← hst]
    exact hP
  | success | stall | noDevice =>
    refine ⟨_, afterDispatch_final (by simp [hstatus, hst, Final]), rfl, ?_, hsame⟩
    rw [settled, ← hst]
    exact hcomplete

/-- A SUBMIT whose dispatch goes on ends with what the status of its packet decides (R102 to
R105). -/
theorem exec_submit_dispatched (h : Dispatchable k d s) (hb : dispatch k s = .ok () u)
    (hP : PacketIs k P s u) (hdevs : u.devs = s.devs) (hcfg : u.cfg = s.cfg) (hst : P.status = st)
    (hmay : st = .async → MayDefer (s.pkt k).endpoint s) :
    ∃ t, exec (.submit k d) s = .next t ∧ t = { u with pkts := t.pkts, devs := t.devs } ∧
      PacketIs k (settled st P) s t ∧
      EndpointIs (s.pkt k).endpoint
        { s.ep (s.pkt k).endpoint with
          queue := queueAfter st k (s.ep (s.pkt k).endpoint).queue } s t := by
  obtain ⟨t, ht, hframe, hpkt, hep⟩ :=
    afterDispatch_settles h.packet (isDevice_endpoint h.toSubmittable) hP hdevs hcfg hst hmay
  have hbody : submitPacket k d s = .ok () t := by
    rw [submitPacket_of_dispatchable h, hb, Run.bind_ok, ht]
  refine ⟨t, ?_, hframe, hpkt, hep⟩
  exact (exec_submit h.clear h.packet (.inr h.device)).trans (command_of_ok _ h.clear hbody)

/-! ### SUBMIT -/

/-- The packet that a data response leaves (R100). -/
theorem packetIs_dataMoved_resp (es : List Event) (hk : IsPacket s k) (hP : PacketIs k P s u) :
    PacketIs k { P with status := st, actualLength := P.actualLength + a.n } s
      (dataMoved k a.n.toNat m es st u) := by
  have hlen : BitVec.ofNat 32 ((u.pkt k).actualLength.toNat + a.n.toNat) =
      P.actualLength + a.n := by
    rw [hP.2.1, BitVec.ofNat_add]
    simp
  rw [← hlen]
  have hmoved := packetIs_updPkt hP hk fun P =>
    { P with actualLength := BitVec.ofNat 32 ((u.pkt k).actualLength.toNat + a.n.toNat) }
  exact packetIs_of_pkts (packetIs_updPkt hmoved hk fun P => { P with status := st }) rfl

/-- What a SUBMIT of a data packet leaves where its dispatch moves the bytes (R100 to R105). -/
theorem submit_dataMoved (h : Dispatchable k d s)
    (hb : dispatch k s = .ok () (dataMoved k a.n.toNat m
      (if s.hasHook d 7 = true then es else []) st (dataCalled d k s)))
    (hmay : st = .async → MayDefer (s.pkt k).endpoint s) :
    ∃ t, exec (.submit k d) s = .next t ∧
      t = { called d 7 (.handleData d k :: es) s with
        hmem := m, pkts := t.pkts, devs := t.devs } ∧
      PacketIs k
        (settled st { s.pkt k with actualLength := (s.pkt k).actualLength + a.n }) s t ∧
      EndpointIs (s.pkt k).endpoint
        { s.ep (s.pkt k).endpoint with
          queue := queueAfter st k (s.ep (s.pkt k).endpoint).queue } s t := by
  have hframe := dataMoved_called (d := d) (k := k) (n := a.n.toNat) (m := m) (s := s) (st := st) es
  have hP := packetIs_dataMoved_resp (a := a) (m := m) (st := st)
    (if s.hasHook d 7 = true then es else []) h.packet (packetIs_dataCalled (d := d) h.packet)
  obtain ⟨t, ht, htf, hpkt, hep⟩ := exec_submit_dispatched h hb hP
    (by unfold dataMoved dataCalled called; split <;> simp [moveActual, State.setStatus])
    dataCalled_cfg rfl hmay
  refine ⟨t, ht, ?_, ?_, hep⟩
  · rw [htf, hframe]
  · rw [← settled_status st st]
    exact hpkt

/-- Settles O37: the bytes of the answer go to the vector, and the status decides the rest. -/
theorem submitDataIn : Obligations.SubmitDataIn := by
  intro s k d st h hs hep htok P r hst hlen hroom hmay
  have hpkt := pkt_dataCalled (d := d) h.packet
  have hcode : Status.ofCode r.status = some st := by rw [← hst, Status.ofCode_code]
  obtain ⟨m, hm, happly⟩ := applyDataResp_in (d := d) (emits := s.hasHook d 7) hcode
    (by rw [hpkt, DataShape, if_pos htok]; exact hlen) (fits_dataCalled hs h.packet)
    (by rw [hpkt]; exact hroom) (by rw [hpkt]; exact htok)
  rw [hpkt, dataCalled_cfg, dataCalled_hmem] at hm
  obtain ⟨t, ht, hframe, hP, hE⟩ := submit_dataMoved (a := r) (es := []) h
    (by rw [dispatch_data_reply hep h.own, happly, ite_self]) hmay
  refine ⟨t, ht, ?_, stored_of_vectorWrite hm hs.memory (by rw [hframe]), hP, hE⟩
  rw [hframe]

/-- Settles O38: the bytes the handler takes are those of the vector, and the status decides the
rest. -/
theorem submitDataOut : Obligations.SubmitDataOut := by
  intro s k d st h hs hep htok P r hst hdata hroom hmay
  have hpkt := pkt_dataCalled (d := d) h.packet
  have htok : (s.pkt k).token ≠ .inn := by rcases htok with ht | ht <;> rw [ht] <;> decide
  have hcode : Status.ofCode r.status = some st := by rw [← hst, Status.ofCode_code]
  obtain ⟨bs, hbs, happly⟩ := applyDataResp_sink (d := d) (emits := s.hasHook d 7) hcode
    (by rw [hpkt, DataShape, if_neg htok]; exact hdata) (fits_dataCalled hs h.packet)
    (by rw [hpkt]; exact hroom) (by rw [hpkt]; exact htok)
  rw [hpkt, dataCalled_cfg, dataCalled_hmem] at hbs
  rw [dataCalled_hmem] at happly
  obtain ⟨t, ht, hframe, hP, hE⟩ := submit_dataMoved (a := r) h
    ((dispatch_data_reply hep h.own).trans happly) hmay
  obtain ⟨hlen, hreads⟩ := reads_of_vectorRead hbs
  have hmem : (called d 7 [.handleData d k, .outBytes d k bs] s).hmem = s.hmem := by
    unfold called; split <;> simp
  refine ⟨t, bs, ht, hlen, hreads, ?_, fun x => by rw [hframe], hP, hE⟩
  rw [hframe, ← hmem]

/-! ### COMPLETE -/

/-- With nothing left to dispatch the queue advance does nothing (R110). -/
theorem advance_idle (fuel : Nat)
    (h : ∀ j, (s.ep r).queue.head? = some j → (s.pkt j).state = .async) :
    advance r fuel s = .ok () s := by
  cases fuel with
  | zero => rfl
  | succ fuel =>
    unfold advance
    split
    · rfl
    · rename_i j tl hq
      rw [if_pos (h j (by rw [hq]; rfl))]

theorem queue_completeOne (k : Index) (r : EpRef) (s : State) :
    ((completeOne k r s).ep r).queue = (s.ep r).queue.filter (· != k) := by
  obtain ⟨hself, -⟩ := endpointIs_removeQueue r k s
  have hep : (completeOne k r s).ep r = (s.removeQueue r k).ep r := rfl
  rw [hep, hself]

theorem pkt_completeOne_other {j : Index} (hj : j ≠ k) :
    (completeOne k r s).pkt j = s.pkt j :=
  State.pkt_updPkt_other s (fun P => { P with state := .complete }) hj

/-- A COMPLETE whose operand is in range runs its packet (R108). -/
theorem exec_complete (hf : s.fault = false) (hk : IsPacket s k) :
    exec (.complete k) s = command (.complete k) s (completePacket k) := by
  rw [exec, execComplete]
  exact command_congr rfl hf (by rw [checkPacket_ok hk, Run.bind_ok])

theorem unfinishedResp_of_final (h : Final st) (hst : st.code = a.status) :
    unfinishedResp a = false := by
  rw [unfinishedResp, ← hst, Status.ofCode_code]
  rcases h with rfl | rfl | rfl <;> rfl

/-- A COMPLETE that may go on, with nothing left to dispatch behind it, ends with its packet
completed (R108 to R110). -/
theorem exec_complete_applied (h : Completable k s) (hunf : unfinishedResp s.nextResp = false)
    (happly : applyCompletion k s.nextResp s.dropResp = .ok () u) :
    exec (.complete k) s = .next (completeOne k (s.pkt k).endpoint u) := by
  have hT := transfers_applyCompletion k s.nextResp s.dropResp
  rw [happly] at hT
  have hidle : ∀ j, ((completeOne k (s.pkt k).endpoint u).ep (s.pkt k).endpoint).queue.head? =
      some j → ((completeOne k (s.pkt k).endpoint u).pkt j).state = .async := by
    intro j hj
    rw [queue_completeOne, hT.ep, State.ep_dropResp] at hj
    have hne : j ≠ k := by simpa using (List.mem_filter.mp (List.mem_of_head? hj)).2
    rw [pkt_completeOne_other hne, hT.pktOther j hne, State.pkt_dropResp]
    exact h.quiet j hj
  rw [exec_complete h.clear h.packet]
  refine command_of_ok _ h.clear ?_
  rw [completePacket_async h.valid h.async, hunf, if_neg Bool.false_ne_true,
    if_pos ((inOrder_iff _).mpr h.inOrder), happly, Run.bind_ok, advance_idle _ hidle]

/-- The frame of a completion behind a data response: host memory, the packets, the devices, and the
events with the report behind them (R100, R109, R182). -/
theorem completeOne_frame {ps : List Packet}
    (hu : u = { s with hmem := m, pkts := ps, trace := s.trace ++ es }) :
    completeOne k r u = { s with
      hmem := (completeOne k r u).hmem, pkts := (completeOne k r u).pkts
      devs := (completeOne k r u).devs
      trace := s.trace ++ es ++ [.complete k (u.pkt k).id (u.pkt k).intReq] } := by
  subst hu
  rfl

/-- A completed packet, its queue and its report, where the packet is all that was written before
(R109). -/
theorem completeOne_frames (hk : IsPacket s k) (hP : PacketIs k P s u)
    (hdevs : u.devs = s.devs) :
    PacketIs k { P with state := .complete } s (completeOne k r u) ∧
      EndpointIs r { s.ep r with queue := (s.ep r).queue.filter (· != k) } s
        (completeOne k r u) := by
  refine ⟨packetIs_of_pkts (packetIs_updPkt hP hk fun P => { P with state := .complete }) rfl,
    endpointIs_of_devs (endpointIs_removeQueue r k s) ?_⟩
  simp only [completeOne, State.removeQueue, State.updEp, State.updDev, State.emit,
    State.setPktState, State.updPkt, hdevs]

/-- What a COMPLETE of a data packet leaves where its response moves the bytes (R108, R109). -/
theorem complete_dataMoved (h : Completable k s) (hep : (s.pkt k).epNr ≠ 0) (hfin : Final st)
    (hst : st.code = s.nextResp.status)
    (happly : applyDataResp (s.pkt k).dev k s.nextResp true s.dropResp =
      .ok () (dataMoved k s.nextResp.n.toNat m es st s.dropResp)) :
    ∃ t, exec (.complete k) s = .next t ∧ t.hmem = m ∧
      t = { s.dropResp with
        hmem := t.hmem, pkts := t.pkts, devs := t.devs
        trace := s.trace ++ es ++ [.complete k (s.pkt k).id (s.pkt k).intReq] } ∧
      PacketIs k { s.pkt k with
        status := st, state := .complete
        actualLength := (s.pkt k).actualLength + s.nextResp.n } s t ∧
      EndpointIs (s.pkt k).endpoint { s.ep (s.pkt k).endpoint with
        queue := (s.ep (s.pkt k).endpoint).queue.filter (· != k) } s t := by
  have hcompletion : applyCompletion k s.nextResp s.dropResp =
      .ok () (dataMoved k s.nextResp.n.toNat m es st s.dropResp) := by
    rw [applyCompletion, State.pkt_dropResp, if_neg hep, happly]
  have hP := packetIs_dataMoved_resp (a := s.nextResp) (m := m) (st := st) es h.packet
    (packetIs_of_pkts (packetIs_refl k s) (State.dropResp_pkts s))
  obtain ⟨hpkt, hE⟩ := completeOne_frames (r := (s.pkt k).endpoint) h.packet hP
    (State.dropResp_devs s)
  have hexec := exec_complete_applied h (unfinishedResp_of_final hfin hst) hcompletion
  have hmoved : ∃ ps, dataMoved k s.nextResp.n.toNat m es st s.dropResp =
      { s.dropResp with hmem := m, pkts := ps, trace := s.dropResp.trace ++ es } := ⟨_, rfl⟩
  generalize dataMoved k s.nextResp.n.toNat m es st s.dropResp = u at *
  obtain ⟨ps, hu⟩ := hmoved
  have hframe := completeOne_frame (k := k) (r := (s.pkt k).endpoint) hu
  obtain ⟨-, hself, -⟩ := hP
  rw [State.dropResp_trace, hself] at hframe
  exact ⟨_, hexec, congrArg State.hmem hu, hframe, hpkt, hE⟩

/-- Settles O52: the response moves its bytes, and the packet is completed once. -/
theorem completeData : Obligations.CompleteData := by
  intro s k st h hs P q r hep hfin hst hshape hroom
  have hcode : Status.ofCode r.status = some st := by rw [← hst, Status.ofCode_code]
  have hfit : Fits k s.dropResp :=
    hs.packet.fits.of_eq (by simp) (by simp) (by simpa using hs.packet.moved)
  have hshape' : DataShape (s.dropResp.pkt k) r := by rw [State.pkt_dropResp]; exact hshape
  have hroom' : (s.dropResp.pkt k).actualLength.toNat + r.n.toNat ≤
      iovSize (s.dropResp.pkt k).iov := by rw [State.pkt_dropResp]; exact hroom
  by_cases ht : P.token = .inn
  · obtain ⟨m, hm, happly⟩ := applyDataResp_in (d := P.dev) (emits := true) hcode hshape' hfit
      hroom' (by rw [State.pkt_dropResp]; exact ht)
    rw [State.pkt_dropResp, State.dropResp_cfg, State.dropResp_hmem] at hm
    obtain ⟨t, hexec, hmem, hframe, hP, hE⟩ := complete_dataMoved h hep hfin hst happly
    refine ⟨t, [], hexec, fun hn => absurd ht hn,
      fun _ => stored_of_vectorWrite hm hs.memory hmem, ?_, hP, hE⟩
    rw [if_pos ht]
    exact hframe
  · obtain ⟨bs, hbs, happly⟩ := applyDataResp_out (d := P.dev) hcode hshape' hfit hroom'
      (by rw [State.pkt_dropResp]; exact ht)
    rw [State.pkt_dropResp, State.dropResp_cfg, State.dropResp_hmem] at hbs
    rw [State.dropResp_hmem] at happly
    obtain ⟨t, hexec, hmem, hframe, hP, hE⟩ := complete_dataMoved h hep hfin hst happly
    obtain ⟨hlen, hreads⟩ := reads_of_vectorRead hbs
    refine ⟨t, bs, hexec, fun _ => ⟨hlen, hreads, fun x => by rw [hmem]⟩,
      fun hi => absurd hi ht, ?_, hP, hE⟩
    rw [if_neg ht]
    exact hframe

end Sys2Proof.Machine
end

section
/-! PROOF. The packet state changes only by the transitions of its table (spec
41_packet_lifecycle.md R90). -/

namespace Sys2Proof.Machine

open Sys2Proof.Claim

variable {i : Instr} {d j k : Index} {r : EpRef} {s t u : State} {st : PktState}

/-- The packet has the state it had, or the one it was given. -/
theorem state_setPktState (j k : Index) (st : PktState) (s : State) :
    ((s.setPktState k st).pkt j).state = (s.pkt j).state ∨
      (j = k ∧ ((s.setPktState k st).pkt j).state = st) := by
  rw [State.setPktState, State.pkt_updPkt]
  split
  · rename_i h; exact .inr ⟨h.1.symm, rfl⟩
  · exact .inl rfl

theorem Transfers.state (h : Transfers d k s t) (j : Index) :
    (t.pkt j).state = (s.pkt j).state := by
  by_cases hj : j = k
  · rw [hj, h.pktSelf]
  · rw [h.pktOther j hj]

theorem state_completeOne (j k : Index) (r : EpRef) (s : State) :
    ((completeOne k r s).pkt j).state = (s.pkt j).state ∨
      (j = k ∧ ((completeOne k r s).pkt j).state = .complete) :=
  state_setPktState j k .complete s

/-- Everything a COMPLETE can do: it is refused before or after its response is taken, or it applies
the response, completes its packet and lets the queue advance (R108 to R110). -/
theorem completePacket_cases (k : Index) (s : State) :
    (∃ c, completePacket k s = .raised c s) ∨
    (∃ c, completePacket k s = .raised c s.dropResp) ∨
    ((s.pkt k).valid = true ∧ (s.pkt k).state = .async ∧ unfinishedResp s.nextResp = false ∧
      inOrder k (s.pkt k).endpoint s = true ∧ completePacket k s =
      (applyCompletion k s.nextResp s.dropResp).bind fun _ u =>
        advance (s.pkt k).endpoint
          ((completeOne k (s.pkt k).endpoint u).ep (s.pkt k).endpoint).queue.length
          (completeOne k (s.pkt k).endpoint u)) := by
  cases hv : (s.pkt k).valid with
  | false => exact .inl ⟨.pktInvalid, by rw [completePacket, checkValid_raised hv, Run.bind_raised]⟩
  | true =>
    by_cases hst : (s.pkt k).state = .async
    · rw [completePacket_async hv hst]
      split
      · exact .inr (.inl ⟨_, rfl⟩)
      rename_i hunf
      split
      · exact .inr (.inr ⟨rfl, hst, Bool.eq_false_iff.mpr hunf, ‹_›, rfl⟩)
      · exact .inr (.inl ⟨_, rfl⟩)
    · exact .inl ⟨.completeState, completePacket_notAsync hv hst⟩

/-! ### The queue advance -/

/-- Packet states as a queue advance may leave them: a Queued packet has become Async or Complete
(R110, R111). -/
def Advanced (s t : State) : Prop :=
  ∀ j, (t.pkt j).state = (s.pkt j).state ∨
    ((s.pkt j).state = .queued ∧ ((t.pkt j).state = .async ∨ (t.pkt j).state = .complete))

theorem Advanced.trans (h : Advanced s t) (h' : Advanced t u) : Advanced s u := fun j => by
  rcases h' j with hu | ⟨htq, hu⟩
  · rw [hu]; exact h j
  · rcases h j with ht | ⟨-, ht | ht⟩
    · exact .inr ⟨ht ▸ htq, hu⟩
    all_goals rw [ht] at htq; cases htq

theorem Transfers.advanced (h : Transfers d k s t) : Advanced s t := fun j => .inl (h.state j)

theorem advanced_setPktState (hq : (s.pkt k).state = .queued) :
    Advanced s (s.setPktState k .async) :=
  fun j => (state_setPktState j k .async s).imp_right fun ⟨hj, hst⟩ => ⟨hj ▸ hq, .inl hst⟩

theorem advanced_completeOne (hq : (s.pkt k).state = .queued) :
    Advanced s (completeOne k r s) :=
  fun j => (state_completeOne j k r s).imp_right fun ⟨hj, hst⟩ => ⟨hj ▸ hq, .inr hst⟩

/-- The packet at the head of a queue that the advance dispatches is Queued (R110, R114 (b)). -/
theorem QueuesOk.queued_of_mem (hs : QueuesOk s) (hm : k ∈ (s.ep r).queue)
    (hst : (s.pkt k).state ≠ .async) : (s.pkt k).state = .queued := by
  obtain ⟨-, -, hin, -⟩ := hs.member r k hm
  cases hk : (s.pkt k).state <;> simp_all [PktState.inFlight]

/-- Between the dispatch of the head and its outcome the head is still a Queued packet of its
queue. -/
structure Dispatched (r : EpRef) (h : Index) (u : State) : Prop where
  queues : QueuesOk u
  head   : (u.ep r).queue.head? = some h
  queued : (u.pkt h).state = .queued

theorem Dispatched.mem {h : Index} (hu : Dispatched r h u) : h ∈ (u.ep r).queue :=
  List.mem_of_head? hu.head

theorem dispatched_of_transfers {h : Index} (hT : Transfers d k u t) (hu : QueuesOk u)
    (hq : (u.ep r).queue.head? = some h) (hst : (u.pkt h).state ≠ .async) : Dispatched r h t :=
  ⟨hT.queuesOk hu, by rw [hT.ep]; exact hq,
    by rw [hT.state]; exact hu.queued_of_mem (List.mem_of_head? hq) hst⟩

theorem Dispatched.setAsync {h : Index} (hu : Dispatched r h u) :
    QueuesOk (u.setPktState h .async) :=
  queuesOk_setState hu.queues (by rw [hu.queued]; rfl)

/-- A property of two states that a queue advance keeps, if each turn keeps it (R110, R111). -/
theorem advance_related {R : State → State → Prop} (hrefl : ∀ s, R s s)
    (htrans : ∀ {s t u}, R s t → R t u → R s u)
    (hdispatch : ∀ {h u v}, Transfers (u.pkt h).dev h u v → R u v)
    (hasync : ∀ {h u}, Dispatched r h u → R u (u.setPktState h .async))
    (hdone : ∀ {h u}, Dispatched r h u → R u (completeOne h r u)) (fuel : Nat)
    (hs : QueuesOk s) : (advance r fuel s).All (R s) := by
  refine (advance_all (I := fun u => QueuesOk u ∧ R s u)
    (J := fun h u => Dispatched r h u ∧ R s u) r ?_ ?_ ?_ ?_ fuel s ⟨hs, hrefl s⟩).mono
    fun _ h => h.2
  · rintro h tl u ⟨hu, hR⟩ hq hst
    refine (transfers_dispatch h u).mono fun v hT => ⟨?_, htrans hR (hdispatch hT)⟩
    exact dispatched_of_transfers hT hu (by rw [hq, List.head?_cons]) hst
  · exact fun h u ⟨hu, hR⟩ => ⟨hu.queues, hR⟩
  · exact fun h u ⟨hu, hR⟩ _ => ⟨hu.setAsync, htrans hR (hasync hu)⟩
  · exact fun h u ⟨hu, hR⟩ _ => ⟨queuesOk_completeOne hu.queues hu.mem, htrans hR (hdone hu)⟩

theorem advanced_advance (fuel : Nat) (hs : QueuesOk s) : (advance r fuel s).All (Advanced s) :=
  advance_related (R := Advanced) (fun _ _ => .inl rfl) (fun h h' => h.trans h')
    (fun hT => hT.advanced) (fun hu => advanced_setPktState hu.queued)
    (fun hu => advanced_completeOne hu.queued) fuel hs

/-! ### The commands -/

/-- The state that the command `i` leaves in slot `k` (R90). -/
def Moved (i : Instr) (s t : State) (k : Index) : Prop :=
  (t.pkt k).state = (s.pkt k).state ∨ Transition i k (s.pkt k).state (t.pkt k).state

theorem Latched.moved (h : Latched s t) (k : Index) : Moved i s t k := .inl (by rw [h.pkt])

theorem moved_contractViolation (c : Cause) (w : Word) (u : State) (h : Moved i s u k) :
    Moved i s (contractViolation c w u) k := by
  rw [Moved, Latched.pkt (.inr ⟨c, w, rfl⟩)]; exact h

/-- A command that writes one slot. -/
theorem moved_updPkt {f : Packet → Packet}
    (h : j = k → (f (s.pkt k)).state = (s.pkt k).state ∨
      Transition i k (s.pkt k).state (f (s.pkt k)).state) : Moved i s (s.updPkt j f) k := by
  rw [Moved, State.pkt_updPkt]
  split
  · rename_i hj; exact h hj.1
  · exact .inl rfl

/-- SUBMIT moves a packet in state Setup, to Queued, Async or Complete, or leaves its state
(R94 to R106). -/
theorem moved_submit (d j k : Index) (s : State) :
    (submitPacket j d s).All fun t => Moved (.submit j d) s t k := by
  by_cases hk : k = j
  · subst hk
    by_cases hst : (s.pkt k).state = .setup
    · have moved : ∀ {u st}, Moved (.submit k d) s u k →
          (st = .queued ∨ st = .async ∨ st = .complete) →
          Moved (.submit k d) s (u.setPktState k st) k := fun {u st} hu hto => by
        rcases state_setPktState k k st u with h | ⟨-, h⟩ <;> rw [Moved, h]
        · exact hu
        · exact .inr ⟨rfl, hst, hto⟩
      have hrefl : Moved (.submit k d) s s k := .inl rfl
      have htransfer : ∀ {u v d'}, Moved (.submit k d) s u k → Transfers d' k u v →
          Moved (.submit k d) s v k := fun hu hT => by rw [Moved, hT.state]; exact hu
      have hqueue : ∀ u, Moved (.submit k d) s u k →
          Moved (.submit k d) s (queueOne k (s.pkt k).endpoint u) k := fun u hu => by
        have hst := htransfer (moved hu (.inl rfl))
          (transfers_setStatus (d := d) (u.setPktState k .queued) .async)
        exact hst
      refine submitPacket_all hrefl (fun _ => moved
        (htransfer hrefl (transfers_setStatus (d := d) s .noDevice)) (.inr (.inr rfl))) fun _ => ?_
      refine submitAccepted_all (J := fun u => Moved (.submit k d) s u k) hrefl hrefl hqueue
        (fun u hu => (transfers_dispatch k u).mono fun _ hT => htransfer hu hT) (fun _ h => h)
        fun u hu => ?_
      exact afterDispatch_all hu (fun _ => moved hu (.inr (.inl rfl))) (hqueue u hu)
        (moved hu (.inr (.inr rfl)))
    · cases hv : (s.pkt k).valid with
      | false => rw [submitPacket, checkValid_raised hv]; exact .inl rfl
      | true => rw [submitPacket_notSetup hv hst]; exact .inl rfl
  · exact (onlyPacket_submit j d s).mono fun t h => .inl (by rw [h k hk])

/-- COMPLETE completes its own Async packet and then only advances Queued ones (R108 to R111). -/
theorem moved_complete (hs : QueuesOk s) (j k : Index) :
    (completePacket j s).All fun t => Moved (.complete j) s t k := by
  rcases completePacket_cases j s with ⟨c, h⟩ | ⟨c, h⟩ | ⟨-, hst, -, -, h⟩ <;> rw [h]
  · exact .inl rfl
  · exact .inl (by rw [State.pkt_dropResp])
  have hdrop := transfers_dropResp (d := (s.pkt j).dev) (k := j) s
  refine (transfers_applyCompletion j s.nextResp s.dropResp).bind
    (fun u hT => .inl ((hT.state k).trans (hdrop.state k))) fun _ u _ hT => ?_
  rw [State.pkt_dropResp] at hT
  have hTs := hdrop.trans hT
  have hmem : j ∈ (u.ep (s.pkt j).endpoint).queue := by
    rw [hTs.ep]; exact (hs.queued j (by rw [hst]; rfl)).2
  have hlt : j.toNat < u.pkts.length := by
    rw [hTs.pktsLen]; exact inFlight_lt (by rw [hst]; rfl)
  refine (advanced_advance _ (queuesOk_completeOne (hTs.queuesOk hs) hmem)).mono fun t hA => ?_
  by_cases hk : k = j
  · subst hk
    have hdone : ((completeOne k (s.pkt k).endpoint u).pkt k).state = .complete := by
      show ((u.updPkt k fun P => { P with state := .complete }).pkt k).state = _
      rw [State.pkt_updPkt_self _ _ _ hlt]
    rcases hA k with ht | ⟨hq, -⟩
    · exact .inr (.inl ⟨rfl, hst, ht.trans hdone⟩)
    · rw [hdone] at hq; cases hq
  · have hsame : ((completeOne j (s.pkt j).endpoint u).pkt k).state = (s.pkt k).state := by
      rw [pkt_completeOne_other hk, hTs.state]
    rcases hA k with ht | ⟨hq, ht⟩
    · exact .inl (ht.trans hsame)
    · exact .inr (.inr ⟨hk, hsame ▸ hq, ht⟩)

/-- Settles O17: command by command, with the transitions of the queue advance in COMPLETE. -/
theorem packetTransitions : Obligations.PacketTransitions := by
  intro i s t k hs h
  show Moved i s t k
  cases i with
  | epSetType | epSetIfnum | epSetMps | epSetPipe | epSetHalt =>
    rcases setEndpoint_cases h with hr | ⟨-, -, rfl⟩
    · exact hr.latched.moved k
    · exact .inl rfl
  | pktSetup j =>
    rcases pktSetup_cases h with hr | ⟨-, -, -, -, hfree, rfl⟩
    · exact hr.latched.moved k
    · refine moved_updPkt fun hj => .inr ⟨hj.symm, ?_, rfl⟩
      subst hj
      refine hfree.elim (fun hv => ?_) id
      by_contra hn
      simp [hs.valid_of_inFlight (by simpa using hn)] at hv
  | pktIovAdd =>
    rcases pktIovAdd_cases h with hr | ⟨-, -, -, -, -, -, rfl⟩
    · exact hr.latched.moved k
    · exact moved_updPkt fun _ => .inl rfl
  | pktSetParam =>
    rcases pktSetParam_cases h with hr | ⟨-, -, -, rfl⟩
    · exact hr.latched.moved k
    · exact moved_updPkt fun _ => .inl rfl
  | submit j d =>
    exact submit_keeps (I := fun t => Moved (.submit j d) s t k) h (.inl rfl)
      (fun _ => moved_submit d j k s) moved_contractViolation
  | cancel j =>
    rcases cancel_cases h with hr | ⟨-, -, -, hin, rfl⟩
    · exact hr.latched.moved k
    · rw [cancelHook_eq]
      exact moved_updPkt fun hj => .inr ⟨hj.symm, hj ▸ hin, rfl⟩
  | complete j =>
    exact complete_keeps (I := fun t => Moved (.complete j) s t k) h (.inl rfl)
      (moved_complete hs j k) moved_contractViolation
  | epGet | pktRead | portBind | attach | detach | resetPort | findDevice | devSetAddr
  | devSetRwake => exact .inl (by rw [(exec_sameTables h rfl).pkt k])

end Sys2Proof.Machine
end

section
/-! PROOF. COMPLETE and its queue advance complete packets in queue order, until nothing is left to
dispatch (spec 41_packet_lifecycle.md R109 to R112, 60_exceptions.md R182). -/

namespace Sys2Proof.Machine

open Sys2Proof.Claim

variable {d h k : Index} {r : EpRef} {s t u : State} {es : List Event}

/-! ### The packets an event list reports -/

theorem completions_append (es es' : List Event) :
    completions (es ++ es') = completions es ++ completions es' := by
  induction es with
  | nil => rfl
  | cons e es ih => cases e <;> simp [completions, ih]

theorem completions_of_none (he : ∀ j id f, Event.complete j id f ∉ es) : completions es = [] := by
  induction es with
  | nil => rfl
  | cons e es ih =>
    have ih := ih fun j id f hm => he j id f (List.mem_cons_of_mem _ hm)
    cases e with
    | complete j id f => exact absurd List.mem_cons_self (he j id f)
    | _ => exact ih

/-! ### The packets a queue advance takes -/

/-- The events from `s` to `t` report the packets taken from the head of the queue, which are
Complete; what is left is the rest (R109, R110, R182). -/
def Took (r : EpRef) (s t : State) : Prop :=
  ∃ es, t.trace = s.trace ++ es ∧ (s.ep r).queue = completions es ++ (t.ep r).queue ∧
    ∀ h ∈ completions es, (t.pkt h).state = .complete

theorem Advanced.complete (hA : Advanced s t) (hc : (s.pkt h).state = .complete) :
    (t.pkt h).state = .complete := by
  rcases hA h with ht | ⟨hq, -⟩
  · rw [ht, hc]
  · rw [hc] at hq; cases hq

theorem Took.trans (ht : Took r s t) (hu : Took r t u) (hA : Advanced t u) : Took r s u := by
  obtain ⟨es, htrace, hqueue, hdone⟩ := ht
  obtain ⟨es', htrace', hqueue', hdone'⟩ := hu
  refine ⟨es ++ es', by rw [htrace', htrace, List.append_assoc], ?_, fun h hm => ?_⟩
  · rw [hqueue, hqueue', completions_append, List.append_assoc]
  · rw [completions_append, List.mem_append] at hm
    exact hm.elim (fun hm => hA.complete (hdone h hm)) (hdone' h)

theorem took_of_none (he : ∀ j id f, Event.complete j id f ∉ es) (htrace : t.trace = s.trace ++ es)
    (hqueue : (t.ep r).queue = (s.ep r).queue) : Took r s t := by
  refine ⟨es, htrace, ?_, ?_⟩ <;> rw [completions_of_none he]
  · rw [hqueue, List.nil_append]
  · exact nofun

theorem Transfers.took (hT : Transfers d k s t) (r : EpRef) : Took r s t := by
  obtain ⟨es, htrace, he⟩ := hT.trace
  exact took_of_none he htrace (by rw [hT.ep])

/-- The rest of a queue behind the packet that leaves it (R20, R109). -/
theorem filter_head {q : List Index} (hnodup : q.Nodup) (hq : q.head? = some h) :
    q.filter (· != h) = q.tail := by
  obtain ⟨tl, rfl⟩ := List.head?_eq_some_iff.mp hq
  rw [List.filter_cons_of_neg (by simp), List.tail_cons, List.filter_eq_self]
  exact fun j hj => bne_iff_ne.mpr fun e => (List.nodup_cons.mp hnodup).1 (e ▸ hj)

theorem state_completeOne_self (hk : k.toNat < s.pkts.length) :
    ((completeOne k r s).pkt k).state = .complete := by
  show ((s.updPkt k fun P => { P with state := .complete }).pkt k).state = _
  rw [State.pkt_updPkt_self _ _ _ hk]

/-- The head of the queue, completed and reported (R109). -/
theorem Dispatched.took (hs : Dispatched r h s) : Took r s (completeOne h r s) := by
  obtain ⟨hlt, -⟩ := hs.queues.member r h hs.mem
  refine ⟨[.complete h (s.pkt h).id (s.pkt h).intReq], rfl, ?_, fun j hj => ?_⟩
  · rw [queue_completeOne, filter_head (hs.queues.nodup r) hs.head]
    exact (List.cons_head?_tail hs.head).symm
  · obtain rfl : j = h := by simpa [completions] using hj
    exact state_completeOne_self hlt

/-- The queue advance takes packets from the head of the queue and reports them in order (R110,
R111). -/
theorem took_advance (fuel : Nat) (hs : QueuesOk s) : (advance r fuel s).All (Took r s) := by
  have hrefl : ∀ u, Took r u u := fun u => took_of_none (es := []) nofun (by simp) rfl
  refine (advance_related (R := fun u v => Advanced u v ∧ Took r u v) (fun u => ⟨fun _ => .inl rfl,
    hrefl u⟩) ?_ (fun hT => ⟨hT.advanced, hT.took r⟩) ?_ ?_ fuel hs).mono fun _ h => h.2
  · exact fun ⟨hA, ht⟩ ⟨hA', hu⟩ => ⟨hA.trans hA', ht.trans hu hA'⟩
  · exact fun hu => ⟨advanced_setPktState hu.queued, took_of_none (es := []) nofun (by simp) rfl⟩
  · exact fun hu => ⟨advanced_completeOne hu.queued, hu.took⟩

/-! ### One turn of the queue advance -/

/-- What a turn of the queue advance does with the packet it dispatched (R111). -/
def turnOutcome (r : EpRef) (fuel : Nat) (h : Index) (s : State) : Run Unit :=
  match (s.pkt h).status with
  | .async => (checkAsync r s).bind fun _ s => .ok () (s.setPktState h .async)
  | .nak | .addToQueue => .raised .badStatus s
  | .success | .stall | .noDevice => advance r fuel (completeOne h r s)

theorem advance_turn (fuel : Nat) (hq : (s.ep r).queue.head? = some h)
    (hst : (s.pkt h).state ≠ .async) :
    advance r (fuel + 1) s = (dispatch h s).bind fun _ u => turnOutcome r fuel h u := by
  obtain ⟨tl, hq⟩ := List.head?_eq_some_iff.mp hq
  unfold advance turnOutcome
  rw [hq]
  exact if_neg hst

theorem turnOutcome_final {fuel : Nat} (hfin : Final (s.pkt h).status) :
    turnOutcome r fuel h s = advance r fuel (completeOne h r s) := by
  unfold turnOutcome
  rcases hfin with hst | hst | hst <;> rw [hst]

/-- Everything a turn that goes on can end with: the packet is Async and the advance is over, or it
is completed and the advance goes on (R111). -/
theorem turnOutcome_eq_ok {fuel : Nat} (ht : turnOutcome r fuel h s = .ok () t) :
    t = s.setPktState h .async ∨
      (Final (s.pkt h).status ∧ advance r fuel (completeOne h r s) = .ok () t) := by
  cases hst : (s.pkt h).status with
  | async =>
    rw [turnOutcome, hst] at ht
    obtain ⟨_, u, hu, hset⟩ := Run.bind_eq_ok.mp ht
    obtain ⟨rfl, -⟩ := checkAsync_eq_ok hu
    cases hset
    exact .inl rfl
  | nak | addToQueue => rw [turnOutcome, hst] at ht; cases ht
  | success => exact .inr ⟨.inl rfl, by rwa [turnOutcome_final (hst ▸ .inl rfl)] at ht⟩
  | stall => exact .inr ⟨.inr (.inl rfl), by rwa [turnOutcome_final (hst ▸ .inr (.inl rfl))] at ht⟩
  | noDevice =>
    exact .inr ⟨.inr (.inr rfl), by rwa [turnOutcome_final (hst ▸ .inr (.inr rfl))] at ht⟩

theorem length_queue_completeOne (hm : h ∈ (s.ep r).queue) :
    ((completeOne h r s).ep r).queue.length < (s.ep r).queue.length := by
  rw [queue_completeOne]
  exact List.length_filter_lt_length_iff_exists.mpr ⟨h, hm, by simp⟩

/-- A queue advance that no contract violation ends stops only where nothing is left to dispatch
(R110). -/
theorem advance_stops (fuel : Nat) (hs : QueuesOk s) (hfuel : (s.ep r).queue.length ≤ fuel)
    (ht : advance r fuel s = .ok () t) :
    ∀ j, (t.ep r).queue.head? = some j → (t.pkt j).state = .async := by
  induction fuel generalizing s with
  | zero =>
    cases ht
    rw [List.eq_nil_of_length_eq_zero (Nat.le_zero.mp hfuel)]
    exact nofun
  | succ fuel ih =>
    by_cases hidle : ∀ j, (s.ep r).queue.head? = some j → (s.pkt j).state = .async
    · rw [advance_idle _ hidle] at ht
      cases ht
      exact hidle
    · push Not at hidle
      obtain ⟨h, hq, hst⟩ := hidle
      rw [advance_turn fuel hq hst] at ht
      obtain ⟨_, u, hu, ht⟩ := Run.bind_eq_ok.mp ht
      have hT := transfers_dispatch h s
      rw [hu] at hT
      have hD := dispatched_of_transfers hT hs hq hst
      rcases turnOutcome_eq_ok ht with rfl | ⟨-, ht⟩
      · intro j hj
        have hhead : (u.ep r).queue.head? = some j := hj
        obtain rfl : h = j := Option.some.inj (hD.head.symm.trans hhead)
        obtain ⟨hlt, -⟩ := hD.queues.member r h hD.mem
        show ((u.updPkt h fun P => { P with state := .async }).pkt h).state = _
        rw [State.pkt_updPkt_self _ _ _ hlt]
      · refine ih (queuesOk_completeOne hD.queues hD.mem) ?_ ht
        have := length_queue_completeOne hD.mem
        rw [hT.ep] at this
        omega

/-! ### COMPLETE -/

/-- What a COMPLETE reports of the queue of endpoint `r`: nothing, or its packet and then the
packets taken from the head (R109, R182). -/
def Reported (k : Index) (r : EpRef) (s t : State) : Prop :=
  ∃ es, t.trace = s.trace ++ es ∧
    ((completions es = [] ∧ (t.ep r).queue = (s.ep r).queue) ∨
     ∃ done, completions es = k :: done ∧ (s.ep r).queue.filter (· != k) = done ++ (t.ep r).queue ∧
       ∀ h ∈ done, (t.pkt h).state = .complete)

theorem Transfers.reported (hT : Transfers d k s t) (r : EpRef) : Reported k r s t := by
  obtain ⟨es, htrace, he⟩ := hT.trace
  exact ⟨es, htrace, .inl ⟨completions_of_none he, by rw [hT.ep]⟩⟩

theorem reported_contractViolation (c : Cause) (w : Word) (u : State) (h : Reported k r s u) :
    Reported k r s (contractViolation c w u) := by
  have hl : Latched u (contractViolation c w u) := .inr ⟨c, w, rfl⟩
  simpa only [Reported, contractViolation_trace, hl.ep, hl.pkt] using h

/-- A packet that completes, and what the advance takes behind it. -/
theorem reported_of_took (hT : Transfers d k s u) (ht : Took r (completeOne k r u) t) :
    Reported k r s t := by
  obtain ⟨es, htrace, he⟩ := hT.trace
  obtain ⟨es', htrace', hqueue, hdone⟩ := ht
  rw [queue_completeOne, hT.ep] at hqueue
  refine ⟨es ++ .complete k (u.pkt k).id (u.pkt k).intReq :: es', ?_,
    .inr ⟨completions es', ?_, hqueue, hdone⟩⟩
  · rw [htrace', ← List.singleton_append, ← List.append_assoc, ← List.append_assoc, ← htrace]
    rfl
  · rw [completions_append, completions_of_none he]
    rfl

/-- The state in which a COMPLETE lets the queue advance (R109). -/
theorem queuesOk_completed (hs : QueuesOk s) (hst : (s.pkt k).state = .async)
    (hT : Transfers d k s u) : QueuesOk (completeOne k (s.pkt k).endpoint u) := by
  refine queuesOk_completeOne (hT.queuesOk hs) ?_
  rw [hT.ep]
  exact (hs.queued k (by rw [hst]; rfl)).2

/-- The response of a COMPLETE taken and applied is one transfer of its packet (R108). -/
theorem transfers_completion (k : Index) (s : State) :
    (applyCompletion k s.nextResp s.dropResp).All (Transfers (s.pkt k).dev k s) := by
  have h := transfers_applyCompletion k s.nextResp s.dropResp
  rw [State.pkt_dropResp] at h
  exact h.mono fun _ hT => (transfers_dropResp s).trans hT

theorem reported_complete (hs : QueuesOk s) :
    (completePacket k s).All (Reported k (s.pkt k).endpoint s) := by
  rcases completePacket_cases k s with ⟨c, h⟩ | ⟨c, h⟩ | ⟨-, hst, -, -, h⟩ <;> rw [h]
  · exact (Transfers.refl 0 k s).reported _
  · exact (transfers_dropResp (d := 0) s).reported _
  · refine (transfers_completion k s).bind (fun _ hT => hT.reported _) fun _ u _ hT => ?_
    exact (took_advance _ (queuesOk_completed hs hst hT)).mono fun _ ht => reported_of_took hT ht

/-- A COMPLETE that goes on applies its response and lets the queue advance to its end (R108 to
R111). -/
theorem completePacket_eq_ok (h : completePacket k s = .ok () t) :
    ∃ u, (s.pkt k).state = .async ∧ Transfers (s.pkt k).dev k s u ∧
      advance (s.pkt k).endpoint
        ((completeOne k (s.pkt k).endpoint u).ep (s.pkt k).endpoint).queue.length
        (completeOne k (s.pkt k).endpoint u) = .ok () t := by
  rcases completePacket_cases k s with ⟨c, h'⟩ | ⟨c, h'⟩ | ⟨-, hst, -, -, h'⟩ <;> rw [h'] at h
  · cases h
  · cases h
  · obtain ⟨_, u, hu, h⟩ := Run.bind_eq_ok.mp h
    have hT := transfers_completion k s
    rw [hu] at hT
    exact ⟨u, hst, hT, h⟩

/-- A COMPLETE that no contract violation ends went on to its end (R171). -/
theorem completePacket_of_exec (h : exec (.complete k) s = .next t) (ht : t.fault = false) :
    s.fault = false ∧ k.toNat < s.pkts.length ∧ completePacket k s = .ok () t := by
  rcases complete_cases h with (⟨hs, rfl⟩ | ⟨-, c, rfl⟩) | ⟨hs, hk, ⟨hok, -⟩ | ⟨c, u, -, -, rfl⟩⟩
  · rw [hs] at ht; cases ht
  · rw [contractViolation_fault] at ht; cases ht
  · exact ⟨hs, hk, hok⟩
  · rw [contractViolation_fault] at ht; cases ht

/-- Settles O18: the completions of the packet and of the advance, and where the advance stops. -/
theorem completionsInQueueOrder : Obligations.CompletionsInQueueOrder := by
  intro k s t hs h r
  refine ⟨complete_keeps (I := Reported k r s) h ((Transfers.refl 0 k s).reported r)
    (reported_complete hs) reported_contractViolation, fun hf => ?_⟩
  obtain ⟨-, -, hok⟩ := completePacket_of_exec h hf
  obtain ⟨u, hst, hT, hadvance⟩ := completePacket_eq_ok hok
  exact advance_stops _ (queuesOk_completed hs hst hT) le_rfl hadvance

end Sys2Proof.Machine
end

section
/-! PROOF. What a dispatch does not look at: the lifecycle state of a packet, the attached flag of a
device, and the halt and the queue of an endpoint. A change of these commutes with the dispatch
(spec 41_packet_lifecycle.md R100, R101, R108, 42_control_transfer.md R120 to R138). -/

namespace Sys2Proof.Machine

open Sys2Proof.Claim

variable {α β : Type} {d k : Index} {s t : State}

/-! ### Updates -/

theorem modify_comm (l : List α) (i j : Nat) {f g : α → α}
    (h : i = j → ∀ x, f (g x) = g (f x)) :
    (l.modify i f).modify j g = (l.modify j g).modify i f := by
  refine List.ext_getElem? fun n => ?_
  simp only [List.getElem?_modify]
  cases l[n]? with
  | none => rfl
  | some x =>
    by_cases hi : i = n
    · by_cases hj : j = n
      · simp [hi, hj, h (hi.trans hj.symm)]
      · simp [hi, hj]
    · simp [hi]

theorem updPkt_comm (s : State) (j k : Index) {f g : Packet → Packet}
    (h : j = k → ∀ P, f (g P) = g (f P)) :
    (s.updPkt j f).updPkt k g = (s.updPkt k g).updPkt j f :=
  congrArg (fun ps => { s with pkts := ps })
    (modify_comm s.pkts _ _ fun hjk => h (index_eq_of_toNat.mp hjk))

/-- The part of a command with its states changed. -/
def Run.map (F : State → State) : Run α → Run α
  | .ok a s => .ok a (F s)
  | .raised c s => .raised c (F s)
  | .stopped e => .stopped e

theorem Run.map_ok (F : State → State) (a : α) (s : State) :
    (Run.ok a s).map F = .ok a (F s) := rfl

theorem Run.map_bind {F : State → State} {x y : Run α} {f : α → State → Run β}
    (hx : x = y.map F) (hf : ∀ a s, f a (F s) = (f a s).map F) :
    x.bind f = (y.bind f).map F := by
  subst hx
  cases y with
  | ok a s => exact hf a s
  | raised | stopped => rfl

theorem Run.map_ite {F : State → State} {p : Prop} [Decidable p] (x y : Run α) :
    (if p then x else y).map F = if p then x.map F else y.map F := by
  split <;> rfl

theorem require_map (F : State → State) (b : Bool) (c : Cause) (s : State) :
    require b c (F s) = (require b c s).map F := by
  cases b <;> rfl

/-- A change of a device that a dispatch does not see: only the attached flag and the endpoints, no
packet size of the control endpoint, and the same change whatever the control fields hold. -/
structure UnseenDevice (g : Device → Device) : Prop where
  frame : ∀ D, g D = { D with
    attached := (g D).attached, epCtl := (g D).epCtl, epIn := (g D).epIn, epOut := (g D).epOut }
  size : ∀ D, (g D).epCtl.maxPacketSize = D.epCtl.maxPacketSize
  control : ∀ D b c m l i,
    g { D with setupBuf := b, ctlState := c, dataBuf := m, setupLen := l, setupIndex := i } =
      { g D with setupBuf := b, ctlState := c, dataBuf := m, setupLen := l, setupIndex := i }

/-- A change of the state that commutes with a dispatch, because the dispatch neither reads nor
writes what it changes. -/
structure Unseen (F : State → State) : Prop where
  cfg : ∀ s, (F s).cfg = s.cfg
  hmem : ∀ s, (F s).hmem = s.hmem
  nextResp : ∀ s, (F s).nextResp = s.nextResp
  pkt : ∀ s k, (F s).pkt k = { s.pkt k with state := ((F s).pkt k).state }
  dev : ∀ s d, (F s).dev d = { s.dev d with
    attached := ((F s).dev d).attached, epCtl := ((F s).dev d).epCtl
    epIn := ((F s).dev d).epIn, epOut := ((F s).dev d).epOut }
  size : ∀ s d, ((F s).dev d).epCtl.maxPacketSize = (s.dev d).epCtl.maxPacketSize
  setMem : ∀ s m, { F s with hmem := m } = F { s with hmem := m }
  emit : ∀ s e, (F s).emit e = F (s.emit e)
  dropResp : ∀ s, (F s).dropResp = F s.dropResp
  setStatus : ∀ s k st, (F s).setStatus k st = F (s.setStatus k st)
  setActual : ∀ s k n, (F s).setActual k n = F (s.setActual k n)
  updDev : ∀ s d f, (∀ g, UnseenDevice g → ∀ D, f (g D) = g (f D)) →
    (F s).updDev d f = F (s.updDev d f)

theorem Unseen.comp {F G : State → State} (hF : Unseen F) (hG : Unseen G) :
    Unseen fun s => F (G s) where
  cfg s := (hF.cfg _).trans (hG.cfg s)
  hmem s := (hF.hmem _).trans (hG.hmem s)
  nextResp s := (hF.nextResp _).trans (hG.nextResp s)
  pkt s k := by rw [hF.pkt, hG.pkt]
  dev s d := by rw [hF.dev, hG.dev]
  size s d := (hF.size _ d).trans (hG.size s d)
  setMem s m := by rw [hF.setMem, hG.setMem]
  emit s e := by rw [hF.emit, hG.emit]
  dropResp s := by rw [hF.dropResp, hG.dropResp]
  setStatus s k st := by rw [hF.setStatus, hG.setStatus]
  setActual s k n := by rw [hF.setActual, hG.setActual]
  updDev s d f hf := by rw [hF.updDev _ d f hf, hG.updDev s d f hf]

theorem unseen_setPktState (k : Index) (st : PktState) : Unseen fun s => s.setPktState k st where
  cfg _ := rfl
  hmem _ := rfl
  nextResp _ := rfl
  pkt s j := by
    simp only [State.setPktState, State.pkt_updPkt]
    split <;> rfl
  dev _ _ := rfl
  size _ _ := rfl
  setMem _ _ := rfl
  emit _ _ := rfl
  dropResp s := by unfold State.dropResp State.setPktState State.updPkt; dsimp only; split <;> rfl
  setStatus s j q :=
    updPkt_comm s k j (f := fun P => { P with state := st }) fun _ _ => rfl
  setActual s j n :=
    updPkt_comm s k j (f := fun P => { P with state := st }) fun _ _ => rfl
  updDev _ _ _ _ := rfl

theorem unseen_updDev (d : Index) {g : Device → Device} (hg : UnseenDevice g) :
    Unseen fun s => s.updDev d g where
  cfg _ := rfl
  hmem _ := rfl
  nextResp _ := rfl
  pkt _ _ := rfl
  dev s j := by
    simp only [State.dev_updDev]
    split
    · exact hg.frame _
    · rfl
  size s j := by
    simp only [State.dev_updDev]
    split
    · exact hg.size _
    · rfl
  setMem _ _ := rfl
  emit _ _ := rfl
  dropResp s := by unfold State.dropResp State.updDev; dsimp only; split <;> rfl
  setStatus _ _ _ := rfl
  setActual _ _ _ := rfl
  updDev s j f hf := by
    simp only [State.updDev]
    rw [modify_comm _ _ _ fun _ D => (hf g hg D).symm]

/-! ### What a dispatch reads and writes -/

section
variable {F : State → State} (hF : Unseen F)
include hF

/-- Everything a dispatch reads is as it was. -/
theorem Unseen.reads :
    (∀ s k, ((F s).pkt k).token = (s.pkt k).token) ∧ (∀ s k, ((F s).pkt k).iov = (s.pkt k).iov) ∧
    (∀ s k, ((F s).pkt k).dev = (s.pkt k).dev) ∧ (∀ s k, ((F s).pkt k).epNr = (s.pkt k).epNr) ∧
    (∀ s k, ((F s).pkt k).status = (s.pkt k).status) ∧
    (∀ s k, ((F s).pkt k).actualLength = (s.pkt k).actualLength) ∧
    (∀ s k, ((F s).pkt k).parameter = (s.pkt k).parameter) ∧
    (∀ s d, ((F s).dev d).setupBuf = (s.dev d).setupBuf) ∧
    (∀ s d, ((F s).dev d).ctlState = (s.dev d).ctlState) ∧
    (∀ s d, ((F s).dev d).dataBuf = (s.dev d).dataBuf) ∧
    (∀ s d, ((F s).dev d).setupLen = (s.dev d).setupLen) ∧
    ∀ s d, ((F s).dev d).setupIndex = (s.dev d).setupIndex := by
  refine ⟨?_, ?_, ?_, ?_, ?_, ?_, ?_, ?_, ?_, ?_, ?_, ?_⟩ <;> intro s x
  iterate 7 rw [hF.pkt s x]
  all_goals rw [hF.dev s x]

theorem Unseen.status (s : State) (k : Index) : ((F s).pkt k).status = (s.pkt k).status := by
  simp only [hF.reads]

theorem Unseen.hasHook (s : State) (d : Index) (b : Nat) : (F s).hasHook d b = s.hasHook d b := by
  rw [State.hasHook, hF.cfg, State.hasHook]

/-- A write to control fields from control fields. -/
theorem Unseen.updControl (s : State) (d : Index) {f : Device → Device}
    (hf : ∀ D, f D = { D with
      setupBuf := (f D).setupBuf, ctlState := (f D).ctlState, dataBuf := (f D).dataBuf
      setupLen := (f D).setupLen, setupIndex := (f D).setupIndex })
    (hread : ∀ D a c i o, f { D with attached := a, epCtl := c, epIn := i, epOut := o } =
      { f D with attached := a, epCtl := c, epIn := i, epOut := o }) :
    (F s).updDev d f = F (s.updDev d f) := by
  refine hF.updDev s d f fun g hg D => ?_
  calc f (g D)
      = { f D with
          attached := (g D).attached, epCtl := (g D).epCtl, epIn := (g D).epIn
          epOut := (g D).epOut } := by rw [← hread, ← hg.frame]
    _ = { g D with
          setupBuf := (f D).setupBuf, ctlState := (f D).ctlState, dataBuf := (f D).dataBuf
          setupLen := (f D).setupLen, setupIndex := (f D).setupIndex } := by
        rw [hg.frame D, hf D]
    _ = g (f D) := by rw [← hg.control, ← hf]

theorem Unseen.setCtl (s : State) (d : Index) (c : CtlState) :
    (F s).setCtl d c = F (s.setCtl d c) :=
  hF.updControl s d (fun _ => rfl) fun _ _ _ _ _ => rfl

theorem Unseen.writeDataBuf (s : State) (d : Index) (off : Nat) (bs : List Byte) :
    ((F s).updDev d fun D => { D with dataBuf := D.dataBuf.writeList off bs }) =
      F (s.updDev d fun D => { D with dataBuf := D.dataBuf.writeList off bs }) :=
  hF.updControl s d (fun _ => rfl) fun _ _ _ _ _ => rfl

theorem Unseen.beginRequest (s : State) (d : Index) (b : SetupBuf) (c : CtlState) :
    beginRequest d b c (F s) = F (beginRequest d b c s) :=
  hF.updControl s d (fun _ => rfl) fun _ _ _ _ _ => rfl

theorem Unseen.stallToIdle (s : State) (d k : Index) :
    stallToIdle d k (F s) = F (stallToIdle d k s) := by
  rw [Machine.stallToIdle, hF.setStatus, hF.setCtl, Machine.stallToIdle]

theorem Unseen.shortenSetup (s : State) (d : Index) (n : Nat) :
    shortenSetup d n (F s) = F (shortenSetup d n s) := by
  simp only [Machine.shortenSetup, hF.reads]
  split
  · exact hF.updControl s d (fun _ => rfl) fun _ _ _ _ _ => rfl
  · rfl

/-! ### The parts of the sequencer -/

theorem Unseen.packetCopy (k : Index) (buf : List Byte) (n : Nat) (s : State) :
    packetCopy k buf n (F s) = (packetCopy k buf n s).map F := by
  have hmoved : ∀ u a, ((F u).updPkt k fun P => { P with actualLength := a }) =
      F (u.updPkt k fun P => { P with actualLength := a }) := fun u a => hF.setActual u k a
  simp only [Machine.packetCopy, hF.reads, hF.cfg, hF.hmem, hmoved]
  split
  · rfl
  split
  · cases vectorWrite s.cfg (s.pkt k).iov s.hmem (s.pkt k).actualLength.toNat buf with
    | none => rfl
    | some m =>
      have hset := hF.setMem s m
      simp only [hF.cfg] at hset
      dsimp only
      rw [hset, hmoved]
      rfl
  all_goals cases vectorRead s.cfg (s.pkt k).iov s.hmem (s.pkt k).actualLength.toNat n <;> rfl

theorem Unseen.applyCtlResp (d k : Index) (r : Resp) (s : State) :
    applyCtlResp d k r (F s) = (applyCtlResp d k r s).map F := by
  simp only [Machine.applyCtlResp, hF.cfg, hF.writeDataBuf, hF.setStatus]
  split
  · rfl
  split <;> rfl

theorem Unseen.controlEvent (d k : Index) (s : State) :
    controlEvent d k (F s) = controlEvent d k s := by
  simp only [Machine.controlEvent, hF.reads]

theorem Unseen.controlHandler (d k : Index) (s : State) :
    controlHandler d k (F s) = (controlHandler d k s).map F := by
  simp only [Machine.controlHandler, hF.hasHook, hF.controlEvent, hF.emit, hF.nextResp,
    hF.dropResp, hF.applyCtlResp, Run.map_ite]

theorem Unseen.copyDataBuf (d k : Index) (off n : Nat) (s : State) :
    copyDataBuf d k off n (F s) = (copyDataBuf d k off n s).map F := by
  simp only [Machine.copyDataBuf, hF.reads]
  refine Run.map_bind (hF.packetCopy k _ n s) fun bs u => ?_
  rw [hF.writeDataBuf]
  rfl

theorem Unseen.paramLength (d k : Index) (s : State) :
    paramLength d k (F s) = paramLength d k s := by
  simp only [Machine.paramLength, hF.reads]

theorem Unseen.paramFinish (d k : Index) (n : Nat) (s : State) :
    paramFinish d k n (F s) = (paramFinish d k n s).map F := by
  simp only [Machine.paramFinish, hF.shortenSetup, hF.reads, hF.paramLength, hF.setActual,
    hF.copyDataBuf, Run.map_ite, Run.map_ok]

theorem Unseen.paramPayload (d k : Index) (s : State) :
    paramPayload d k (F s) = (paramPayload d k s).map F := by
  simp only [Machine.paramPayload, hF.reads, hF.paramLength, hF.setActual, hF.copyDataBuf,
    Run.map_ite, Run.map_ok]

theorem Unseen.paramPath (d k : Index) (s : State) :
    paramPath d k (F s) = (paramPath d k s).map F := by
  simp only [Machine.paramPath, hF.reads, hF.beginRequest, hF.cfg, hF.stallToIdle, Run.map_ite]
  refine if_congr Iff.rfl rfl (Run.map_bind (hF.paramPayload d k _) fun _ u =>
    Run.map_bind (hF.controlHandler d k u) fun n v => ?_)
  simp only [hF.reads, hF.paramFinish, Run.map_ite, Run.map_ok]

theorem Unseen.setupTokenIn (d k : Index) (s : State) :
    setupTokenIn d k (F s) = (setupTokenIn d k s).map F := by
  refine Run.map_bind (hF.controlHandler d k s) fun n u => ?_
  simp only [hF.reads, hF.shortenSetup, hF.setCtl, hF.setActual]
  split <;> rfl

theorem Unseen.setupTokenOut (d k : Index) (s : State) :
    setupTokenOut d k (F s) = F (setupTokenOut d k s) := by
  simp only [Machine.setupTokenOut, hF.reads, hF.setCtl, hF.setActual]

theorem Unseen.tokenSetup (d k : Index) (s : State) :
    tokenSetup d k (F s) = (tokenSetup d k s).map F := by
  simp only [Machine.tokenSetup, hF.reads, hF.stallToIdle, hF.setActual, Run.map_ite]
  refine if_congr Iff.rfl rfl (Run.map_bind (hF.packetCopy k [] 8 _) fun bs u => ?_)
  simp only [hF.setActual, hF.beginRequest, hF.cfg, hF.stallToIdle, hF.setupTokenIn,
    hF.setupTokenOut, Run.map_ite, Run.map_ok]

theorem Unseen.chunkLength (d k : Index) (s : State) :
    chunkLength d k (F s) = chunkLength d k s := by
  simp only [Machine.chunkLength, hF.reads, hF.size]

theorem Unseen.dataChunk (d k : Index) (s : State) :
    dataChunk d k (F s) = (dataChunk d k s).map F := by
  simp only [Machine.dataChunk, hF.reads, hF.chunkLength]
  refine Run.map_bind (hF.copyDataBuf d k _ _ s) fun _ u => ?_
  rw [hF.updControl u d (fun _ => rfl) fun _ _ _ _ _ => rfl]
  rfl

theorem Unseen.statusPhaseIn (d k : Index) (s : State) :
    statusPhaseIn d k (F s) = (statusPhaseIn d k s).map F := by
  simp only [Machine.statusPhaseIn, hF.reads, Run.map_ite]
  refine if_congr Iff.rfl rfl (Run.map_bind (hF.controlHandler d k s) fun n u => ?_)
  simp only [hF.reads, hF.setCtl, hF.setActual, Run.map_ite, Run.map_ok]

theorem Unseen.tokenIn (d k : Index) (s : State) :
    tokenIn d k (F s) = (tokenIn d k s).map F := by
  simp only [Machine.tokenIn, hF.reads, hF.statusPhaseIn, hF.dataChunk, hF.stallToIdle]
  split
  · rfl
  · split <;> rfl
  all_goals rfl

theorem Unseen.tokenOut (d k : Index) (s : State) :
    tokenOut d k (F s) = (tokenOut d k s).map F := by
  simp only [Machine.tokenOut, hF.reads, hF.setCtl, hF.dataChunk, hF.stallToIdle]
  split
  · split <;> rfl
  · split <;> rfl
  all_goals rfl

theorem Unseen.controlDispatch (d k : Index) (s : State) :
    controlDispatch d k (F s) = (controlDispatch d k s).map F := by
  simp only [Machine.controlDispatch, hF.reads, hF.paramPath, hF.tokenSetup, hF.tokenIn,
    hF.tokenOut, Run.map_ite]
  refine if_congr Iff.rfl rfl ?_
  split <;> rfl

theorem Unseen.pendingKind (s : State) (k : Index) :
    pendingKind ((F s).pkt k) = pendingKind (s.pkt k) := by
  rw [hF.pkt]
  rfl

theorem Unseen.ctlAsyncDone (d k : Index) (r : Resp) (s : State) :
    ctlAsyncDone d k r (F s) = (ctlAsyncDone d k r s).map F := by
  refine Run.map_bind (hF.applyCtlResp d k r s) fun n u => ?_
  simp only [hF.pendingKind, hF.reads, hF.shortenSetup, hF.setCtl, hF.setActual, hF.paramFinish,
    Run.map_ite]
  refine if_congr Iff.rfl rfl ?_
  split
  · split <;> rfl
  · rfl
  · split <;> rfl
  all_goals rfl

theorem Unseen.applyDataResp (d k : Index) (r : Resp) (emits : Bool) (s : State) :
    applyDataResp d k r emits (F s) = (applyDataResp d k r emits s).map F := by
  simp only [Machine.applyDataResp, hF.reads]
  split
  · rfl
  rw [Run.map_ite]
  refine if_congr Iff.rfl ?_ ?_
  · refine Run.map_bind (require_map F _ _ s) fun _ u =>
      Run.map_bind (hF.packetCopy k _ _ u) fun bs v => ?_
    rw [hF.setStatus]
    rfl
  · refine Run.map_bind (require_map F _ _ s) fun _ u =>
      Run.map_bind (hF.packetCopy k _ _ u) fun bs v => ?_
    rw [hF.emit]
    cases emits with
    | true => exact congrArg (Run.ok ()) (hF.setStatus (v.emit _) k _)
    | false => exact congrArg (Run.ok ()) (hF.setStatus v k _)

theorem Unseen.dataHandler (d k : Index) (s : State) :
    dataHandler d k (F s) = (dataHandler d k s).map F := by
  simp only [Machine.dataHandler, hF.hasHook, hF.emit, hF.nextResp, hF.dropResp,
    hF.applyDataResp, Run.map_ite]

/-- A dispatch commutes with the change (R101). -/
theorem Unseen.dispatch (k : Index) (s : State) : dispatch k (F s) = (dispatch k s).map F := by
  simp only [Machine.dispatch, hF.reads, hF.setStatus, hF.controlDispatch, hF.dataHandler,
    Run.map_ite]

/-- So does the response of a COMPLETE (R108). -/
theorem Unseen.applyCompletion (k : Index) (r : Resp) (s : State) :
    applyCompletion k r (F s) = (applyCompletion k r s).map F := by
  simp only [Machine.applyCompletion, hF.reads, hF.ctlAsyncDone, hF.applyDataResp, Run.map_ite]

end

end Sys2Proof.Machine
end

section
/-! PROOF. What a SUBMIT of a packet from the state `ready` leaves, seen from the queue advance:
`resumed` forgets what `ready` and the SUBMIT changed beyond the dispatch (spec 41_packet_lifecycle.md R110,
R111). -/

namespace Sys2Proof.Machine

open Sys2Proof.Claim

variable {d h k : Index} {q r : EpRef} {s t u v w : State} {st : Status} {p : PktState}
  {rest : List Index}

/-! ### Updates of one slot in turn -/

theorem updPkt_updPkt (s : State) (k : Index) (f g : Packet → Packet) :
    (s.updPkt k f).updPkt k g = s.updPkt k fun P => g (f P) := by
  simp only [State.updPkt, List.modify_modify_eq, Function.comp_def]

theorem updDev_updDev (s : State) (d : Index) (f g : Device → Device) :
    (s.updDev d f).updDev d g = s.updDev d fun D => g (f D) := by
  simp only [State.updDev, List.modify_modify_eq, Function.comp_def]

theorem modify_congr {α : Type} {l : List α} {i : Nat} {f g : α → α} (x : α)
    (h : f (l.getD i x) = g (l.getD i x)) : l.modify i f = l.modify i g := by
  refine List.ext_getElem? fun n => ?_
  simp only [List.getElem?_modify]
  by_cases hi : i = n
  · subst hi
    rw [List.getD_eq_getElem?_getD] at h
    cases hn : l[i]? with
    | none => rfl
    | some y => simpa [hn] using h
  · simp [hi]

theorem updPkt_congr {f g : Packet → Packet} (h : f (s.pkt k) = g (s.pkt k)) :
    s.updPkt k f = s.updPkt k g :=
  congrArg (fun ps => { s with pkts := ps }) (modify_congr Packet.reset h)

theorem updDev_congr {f g : Device → Device} (h : f (s.dev d) = g (s.dev d)) :
    s.updDev d f = s.updDev d g :=
  congrArg (fun ds => { s with devs := ds }) (modify_congr Device.reset h)

theorem updDev_self {f : Device → Device} (h : f (s.dev d) = s.dev d) : s.updDev d f = s := by
  rw [updDev_congr (g := id) h, State.updDev, List.modify_id]

theorem Device.updEndpoint_congr {D : Device} {e : EpId} {f g : Endpoint → Endpoint}
    (h : f (D.endpoint e) = g (D.endpoint e)) : D.updEndpoint e f = D.updEndpoint e g := by
  cases e <;> simp only [Device.endpoint] at h <;> simp only [Device.updEndpoint, h]

theorem Device.updEndpoint_id (D : Device) (e : EpId) : D.updEndpoint e id = D := by
  cases e <;> simp [Device.updEndpoint, Vector.get_eq_getElem]

theorem Device.updEndpoint_updEndpoint (D : Device) (e : EpId) (f g : Endpoint → Endpoint) :
    (D.updEndpoint e f).updEndpoint e g = D.updEndpoint e fun x => g (f x) := by
  cases e <;> simp [Device.updEndpoint, Vector.get_eq_getElem]

theorem updEp_congr {f g : Endpoint → Endpoint} (h : f (s.ep r) = g (s.ep r)) :
    s.updEp r f = s.updEp r g :=
  updDev_congr (Device.updEndpoint_congr h)

theorem updEp_self {f : Endpoint → Endpoint} (h : f (s.ep r) = s.ep r) : s.updEp r f = s := by
  rw [updEp_congr (g := id) h]
  exact updDev_self (Device.updEndpoint_id _ _)

theorem updEp_updEp (s : State) (r : EpRef) (f g : Endpoint → Endpoint) :
    (s.updEp r f).updEp r g = s.updEp r fun e => g (f e) := by
  simp only [State.updEp, updDev_updDev, Device.updEndpoint_updEndpoint]

theorem setPktState_setPktState (s : State) (k : Index) (a b : PktState) :
    (s.setPktState k a).setPktState k b = s.setPktState k b :=
  updPkt_updPkt s k _ _

/-! ### `ready` and `resumed` -/

theorem unseenDevice_updEndpoint (e : EpId) {f : Endpoint → Endpoint}
    (hf : ∀ x, (f x).maxPacketSize = x.maxPacketSize) :
    UnseenDevice fun D => D.updEndpoint e f where
  frame D := by cases e <;> rfl
  size D := by
    cases e with
    | ctl => exact hf _
    | inn | out => rfl
  control D := by cases e <;> intros <;> rfl

/-- What makes a SUBMIT possible is not seen by its dispatch. -/
theorem unseen_ready (q : EpRef) (h : Index) : Unseen (ready q h) :=
  (unseen_updDev q.dev (g := fun D => { D with attached := true })
    ⟨fun _ => rfl, fun _ => rfl, fun _ _ _ _ _ _ => rfl⟩).comp
  ((unseen_updDev q.dev (unseenDevice_updEndpoint q.ep
    (f := fun e => { e with halted := false, queue := [] }) fun _ => rfl)).comp
    (unseen_setPktState h .setup))

theorem resumed_updPkt {f : Packet → Packet}
    (hf : ∀ P, { f P with status := st, state := p } = { P with status := st, state := p }) :
    resumed q h u (w.updPkt h f) st p rest = resumed q h u w st p rest := by
  simp only [resumed, updPkt_updPkt, hf]

/-- `resumed` writes the attached flag and the endpoint again. -/
theorem resumed_updDev {g : Device → Device}
    (hg : ∀ D a e, ({ g D with attached := a } : Device).updEndpoint q.ep (fun _ => e) =
      ({ D with attached := a } : Device).updEndpoint q.ep fun _ => e) :
    resumed q h u (w.updDev q.dev g) st p rest = resumed q h u w st p rest := by
  have hcomm : (w.updDev q.dev g).updPkt h (fun P => { P with status := st, state := p }) =
    (w.updPkt h fun P => { P with status := st, state := p }).updDev q.dev g := rfl
  simp only [resumed, hcomm, State.updEp, updDev_updDev, hg]

theorem resumed_setPktState (a : PktState) :
    resumed q h u (w.setPktState h a) st p rest = resumed q h u w st p rest :=
  resumed_updPkt fun _ => rfl

theorem resumed_setStatus (a : Status) :
    resumed q h u (w.setStatus h a) st p rest = resumed q h u w st p rest :=
  resumed_updPkt fun _ => rfl

theorem resumed_updEp (f : Endpoint → Endpoint) :
    resumed q h u (w.updEp q f) st p rest = resumed q h u w st p rest := by
  refine resumed_updDev fun D a e => ?_
  have hset : ∀ D : Device, ({ D.updEndpoint q.ep f with attached := a } : Device) =
      ({ D with attached := a } : Device).updEndpoint q.ep f := fun D => by cases q.ep <;> rfl
  rw [hset, Device.updEndpoint_updEndpoint]

theorem resumed_ready : resumed q h u (ready q h w) st p rest = resumed q h u w st p rest := by
  rw [ready, resumed_updDev (g := fun D => { D with attached := true }) fun _ _ _ => rfl,
    resumed_updEp, resumed_setPktState]

/-- After a dispatch alone `resumed` writes the packet's state and the queue, if it keeps the
status. -/
theorem resumed_of_transfers (hT : Transfers d h u v) :
    resumed q h u v (v.pkt h).status p (u.ep q).queue = v.setPktState h p := by
  have hpkt : v.updPkt h (fun P => { P with status := (v.pkt h).status, state := p }) =
      v.setPktState h p := updPkt_congr rfl
  have hatt : (v.dev q.dev).attached = (u.dev q.dev).attached := by
    rw [(hT.moves q).dev]
  rw [resumed, hpkt, updDev_self (by simp only [State.setPktState, State.dev_updPkt, ← hatt]),
    updEp_self]
  exact (hT.ep q).symm

theorem resumed_queue (w : State) (rest rest' : List Index) :
    resumed q h u w st p rest' =
      (resumed q h u w st p rest).updEp q fun e => { e with queue := rest' } := by
  rw [resumed, resumed, updEp_updEp]

end Sys2Proof.Machine
end

section
/-! PROOF. The queue advance dispatches a Queued packet as a SUBMIT does, and what follows its
status (spec 41_packet_lifecycle.md R101, R109 to R111). -/

namespace Sys2Proof.Machine

open Sys2Proof.Claim

variable {c : Cause} {h j k : Index} {q r : EpRef} {s t u v w : State}

/-! ### The COMPLETE up to the packet -/

theorem setPktState_comm (s : State) (hj : j ≠ h) (a b : PktState) :
    (s.setPktState h a).setPktState j b = (s.setPktState j b).setPktState h a :=
  updPkt_comm s h j fun e => absurd e.symm hj

theorem pkt_setPktState_other (s : State) (hj : j ≠ h) (a : PktState) :
    (s.setPktState h a).pkt j = s.pkt j :=
  State.pkt_updPkt_other s _ hj

theorem state_setPktState_self (hh : h.toNat < s.pkts.length) (a : PktState) :
    ((s.setPktState h a).pkt h).state = a := by
  rw [State.setPktState, State.pkt_updPkt_self _ _ _ hh]

theorem state_queueOne (hh : h.toNat < s.pkts.length) :
    ((queueOne h r s).pkt h).state = .queued := by
  rw [queueOne_eq, State.appendQueue, State.pkt_updEp, State.pkt_updPkt_self _ _ _ hh]

/-- Completing a packet looks at no other packet (R109). -/
theorem completeOne_setPktState (hj : j ≠ h) (a : PktState) :
    completeOne j r (s.setPktState h a) = (completeOne j r s).setPktState h a := by
  unfold completeOne
  dsimp only
  rw [pkt_setPktState_other s hj, setPktState_comm s hj]
  rfl

/-- An advance that stops at `h`, because it is Async, comes to `h` in the same way where it is
Queued (R110). -/
theorem advance_reaches (fuel : Nat) (hheld : (v.pkt h).state = .async)
    (hfuel : (v.ep q).queue.length ≤ fuel) (hok : advance q fuel v = .ok () u)
    (hhead : (u.ep q).queue.head? = some h) :
    ∃ n, advance q fuel (v.setPktState h .queued) =
      advance q (n + 1) (u.setPktState h .queued) := by
  induction fuel generalizing v with
  | zero =>
    cases hok
    rw [List.eq_nil_of_length_eq_zero (Nat.le_zero.mp hfuel)] at hhead
    cases hhead
  | succ fuel ih =>
    by_cases hidle : ∀ j, (v.ep q).queue.head? = some j → (v.pkt j).state = .async
    · rw [advance_idle _ hidle] at hok
      cases hok
      exact ⟨fuel, rfl⟩
    push Not at hidle
    obtain ⟨j, hq, hst⟩ := hidle
    have hj : j ≠ h := fun e => hst (e ▸ hheld)
    have hstF : ((v.setPktState h .queued).pkt j).state ≠ .async := by
      rwa [pkt_setPktState_other v hj]
    have hqF : ((v.setPktState h .queued).ep q).queue.head? = some j := hq
    rw [advance_turn fuel hq hst] at hok
    rw [advance_turn fuel hqF hstF, (unseen_setPktState h .queued).dispatch]
    obtain ⟨_, x, hx, hok⟩ := Run.bind_eq_ok.mp hok
    have hT := transfers_dispatch j v
    rw [hx] at hT ⊢
    rcases turnOutcome_eq_ok hok with rfl | ⟨hfin, hok⟩
    · have hheadx : (x.ep q).queue.head? = some h := hhead
      rw [hT.ep] at hheadx
      exact absurd (Option.some.inj (hq.symm.trans hheadx)) hj
    have hfinF : Final ((x.setPktState h .queued).pkt j).status := by
      rwa [pkt_setPktState_other x hj]
    have hmem : j ∈ (x.ep q).queue := by rw [hT.ep]; exact List.mem_of_head? hq
    have hlen := length_queue_completeOne hmem
    rw [hT.ep] at hlen
    rw [Run.map_ok, Run.bind_ok, turnOutcome_final hfinF, completeOne_setPktState hj]
    refine ih ?_ (by omega) hok
    rw [pkt_completeOne_other (Ne.symm hj), hT.pktOther h (Ne.symm hj), hheld]

theorem held_setPktState (hst : (s.pkt h).state = .queued) :
    (held h s).setPktState h .queued = s := by
  rw [held, setPktState_setPktState, State.setPktState, updPkt_congr (g := id) (by rw [← hst]; rfl),
    State.updPkt, List.modify_id]

/-- A COMPLETE whose advance comes to the Queued packet `h` has done by then what it does where `h`
stops it (R108 to R110). -/
theorem completePacket_reaches (hs : QueuesOk s) (hst : (s.pkt h).state = .queued)
    (hok : completePacket k (held h s) = .ok () u)
    (hhead : (u.ep (s.pkt k).endpoint).queue.head? = some h) :
    ∃ n, completePacket k s = advance (s.pkt k).endpoint (n + 1) (u.setPktState h .queued) := by
  have hin : (s.pkt h).state.inFlight = true := by rw [hst]; rfl
  have hs' : QueuesOk (held h s) := queuesOk_setState hs hin
  have hq' : ((held h s).pkt k).endpoint = (s.pkt k).endpoint :=
    (moves_setPktState (r := (s.pkt k).endpoint) s h .async).endpoint k
  rcases completePacket_cases k (held h s) with ⟨c, h'⟩ | ⟨c, h'⟩ | ⟨hv, hasync, hunf, horder, h'⟩
  · rw [h'] at hok; cases hok
  · rw [h'] at hok; cases hok
  rw [h'] at hok
  obtain ⟨_, v, hv', hok⟩ := Run.bind_eq_ok.mp hok
  have hT := transfers_completion k (held h s)
  rw [hv'] at hT
  have hqueues := queuesOk_completed hs' hasync hT
  rw [hq'] at hok horder hqueues
  have hne : h ≠ k := by
    have htook := took_advance (r := (s.pkt k).endpoint)
      ((completeOne k (s.pkt k).endpoint v).ep (s.pkt k).endpoint).queue.length hqueues
    rw [hok] at htook
    obtain ⟨es, -, hqueue, -⟩ := htook
    rw [queue_completeOne] at hqueue
    have hmem : h ∈ (v.ep (s.pkt k).endpoint).queue.filter (· != k) := by
      rw [hqueue]; exact List.mem_append_right _ (List.mem_of_head? hhead)
    simpa using (List.mem_filter.mp hmem).2
  have hpk : (held h s).pkt k = s.pkt k := pkt_setPktState_other s (Ne.symm hne) .async
  rw [hpk] at hv hasync
  have horder' : inOrder k (s.pkt k).endpoint s = true := by
    rw [inOrder, hpk] at horder
    exact horder
  have hunf' : unfinishedResp s.nextResp = false := hunf
  have happly : applyCompletion k s.nextResp s.dropResp = .ok () (v.setPktState h .queued) := by
    have hF := unseen_setPktState h .queued
    conv_lhs => rw [← held_setPktState hst]
    rw [hF.dropResp, hF.nextResp, hF.applyCompletion, hv', Run.map_ok]
  rw [completePacket_async hv hasync, if_neg (Bool.eq_false_iff.mp hunf'), if_pos horder', happly,
    Run.bind_ok, completeOne_setPktState (Ne.symm hne)]
  refine advance_reaches _ ?_ le_rfl hok hhead
  rw [pkt_completeOne_other hne, hT.state]
  exact state_setPktState_self (inFlight_lt hin) .async

/-! ### The SUBMIT of the packet -/

@[simp] theorem fault_ready : (ready q h v).fault = v.fault := by
  simp [ready]

theorem pkt_ready (hh : h.toNat < u.pkts.length) :
    (ready q h u).pkt h = { u.pkt h with state := .setup } :=
  State.pkt_updPkt_self u h (fun P => { P with state := .setup }) hh

theorem ep_ready (hq : q.dev.toNat < u.devs.length) :
    (ready q h u).ep q = { u.ep q with halted := false, queue := [] } := by
  have hattached : ∀ x : State, (x.updDev q.dev fun D => { D with attached := true }).ep q =
      x.ep q := fun x => by
    simp only [State.ep, State.dev_updDev]
    split
    · cases q.ep <;> rfl
    · rfl
  rw [ready, hattached]
  exact State.ep_updEp_self _ q _ hq

/-- The packet at the head of a queue can be submitted once nothing is in its way (R94). -/
theorem dispatchable_ready (hf : u.fault = false) (hs : QueuesOk u)
    (hhead : (u.ep q).queue.head? = some h) (hd : IsDevice u q.dev) :
    Dispatchable h q.dev (ready q h u) ∧ ((ready q h u).pkt h).endpoint = q := by
  obtain ⟨hh, hv, -, hend⟩ := hs.member q h (List.mem_of_head? hhead)
  have hpkt : (ready q h u).pkt h = { u.pkt h with state := .setup } := pkt_ready hh
  have hendpoint : ((ready q h u).pkt h).endpoint = q := by rw [hpkt]; exact hend
  have hep : (ready q h u).ep q = { u.ep q with halted := false, queue := [] } := ep_ready hd.2
  refine ⟨⟨⟨hf, ?_, ?_, ?_, ⟨hd.1, ?_⟩, ?_, ?_⟩, ?_, .inl ?_⟩, hendpoint⟩
  · simpa [IsPacket, ready, State.setPktState] using hh
  · rw [hpkt]; exact hv
  · rw [hpkt]
  · simpa [ready, State.setPktState] using hd.2
  · rw [ready, State.dev_updDev_self _ _ _ (by simpa [State.setPktState] using hd.2)]
  · exact congrArg EpRef.dev hendpoint
  · rw [hendpoint, hep]
  · rw [hendpoint, hep]

theorem exec_submit_ready (hf : u.fault = false) (hs : QueuesOk u)
    (hhead : (u.ep q).queue.head? = some h) (hd : IsDevice u q.dev) :
    exec (.submit h q.dev) (ready q h u) = command (.submit h q.dev) (ready q h u) fun _ =>
      ((dispatch h u).map (ready q h)).bind fun _ x => afterDispatch h q x := by
  obtain ⟨hD, hendpoint⟩ := dispatchable_ready hf hs hhead hd
  rw [exec_submit hD.clear hD.packet (.inr hD.device)]
  refine command_congr rfl hD.clear ?_
  rw [submitPacket_of_dispatchable hD, hendpoint, (unseen_ready q h).dispatch]

/-! ### What follows the dispatch -/

/-- What the advance makes of the packet `h`, whose SUBMIT from `ready` leaves `w` (R109 to
R111). -/
structure Resumes (i : Instr) (s u w : State) (q : EpRef) (h : Index) : Prop where
  done : w.fault = false → (w.pkt h).state = .complete →
    (∀ j, (u.ep q).queue.tail.head? = some j → (s.pkt j).state = .async) →
    exec i s = .next { resumed q h u w (w.pkt h).status .complete (u.ep q).queue.tail with
      trace := w.trace ++ [.complete h (w.pkt h).id (w.pkt h).intReq] }
  async : w.fault = false → (w.pkt h).state = .async →
    exec i s = .next (resumed q h u w .async .async (u.ep q).queue)
  nak : w.fault = false → (w.pkt h).state = .setup →
    exec i s = .next { resumed q h u w .nak .queued (u.ep q).queue with
      fault := true, fcause := 15, finfo := i.firstWord }
  requeued : w.fault = false → (w.pkt h).state = .queued →
    exec i s = .next { resumed q h u w .addToQueue .queued (u.ep q).queue with
      fault := true, fcause := 15, finfo := i.firstWord }
  raised : w.fault = true →
    exec i s = .next { resumed q h u w (w.pkt h).status .queued (u.ep q).queue with
      finfo := i.firstWord }

variable {i : Instr} {x : Word} {n : Nat}

/-- The four outcomes without a violation are told apart by the packet's state (R102 to R105). -/
theorem Resumes.of_done (hf : w.fault = false) (hst : (w.pkt h).state = .complete)
    (he : (∀ j, (u.ep q).queue.tail.head? = some j → (s.pkt j).state = .async) →
      exec i s = .next { resumed q h u w (w.pkt h).status .complete (u.ep q).queue.tail with
        trace := w.trace ++ [.complete h (w.pkt h).id (w.pkt h).intReq] }) :
    Resumes i s u w q h :=
  ⟨fun _ _ => he, by simp [hst], by simp [hst], by simp [hst], by simp [hf]⟩

theorem Resumes.of_async (hf : w.fault = false) (hst : (w.pkt h).state = .async)
    (he : exec i s = .next (resumed q h u w .async .async (u.ep q).queue)) :
    Resumes i s u w q h :=
  ⟨by simp [hst], fun _ _ => he, by simp [hst], by simp [hst], by simp [hf]⟩

theorem Resumes.of_nak (hf : w.fault = false) (hst : (w.pkt h).state = .setup)
    (he : exec i s = .next { resumed q h u w .nak .queued (u.ep q).queue with
      fault := true, fcause := 15, finfo := i.firstWord }) : Resumes i s u w q h :=
  ⟨by simp [hst], by simp [hst], fun _ _ => he, by simp [hst], by simp [hf]⟩

theorem Resumes.of_requeued (hf : w.fault = false) (hst : (w.pkt h).state = .queued)
    (he : exec i s = .next { resumed q h u w .addToQueue .queued (u.ep q).queue with
      fault := true, fcause := 15, finfo := i.firstWord }) : Resumes i s u w q h :=
  ⟨by simp [hst], by simp [hst], by simp [hst], fun _ _ => he, by simp [hf]⟩

theorem command_const_ok (hs : s.fault = false) :
    command i s (fun _ => .ok () t) = .next t := command_of_ok i hs rfl

theorem command_const_raised (hs : s.fault = false) :
    command i s (fun _ => .raised c t) = .next (contractViolation c i.firstWord t) :=
  command_of_raised i hs rfl

theorem resumed_queueOne {st : Status} {p : PktState} {rest : List Index} :
    resumed q h u (queueOne h q w) st p rest = resumed q h u w st p rest := by
  rw [queueOne, State.appendQueue, resumed_updEp, resumed_setStatus, resumed_setPktState]

theorem resumed_contractViolation {st : Status} {p : PktState} {rest : List Index}
    (hw : w.fault = false) :
    resumed q h u (contractViolation c x w) st p rest =
      contractViolation c x (resumed q h u w st p rest) := by
  have hresumed : (resumed q h u w st p rest).fault = false := hw
  rw [contractViolation_of_clear _ _ _ hw, contractViolation_of_clear _ _ _ hresumed]
  rfl

/-- A violation of the dispatch, or of its answer Async, is one of the COMPLETE (R103, R171). -/
theorem resumes_of_raised (hv : v.fault = false) (hT : Transfers d h u v)
    (hw : contractViolation c x (ready q h v) = w)
    (hi : exec i s = .next (contractViolation c i.firstWord (v.setPktState h .queued))) :
    Resumes i s u w q h := by
  have hfault : w.fault = true := by rw [← hw, contractViolation_fault]
  have hstatus : (w.pkt h).status = (v.pkt h).status := by
    rw [← hw, Latched.pkt (.inr ⟨c, x, rfl⟩), (unseen_ready q h).status]
  refine ⟨?_, ?_, ?_, ?_, fun _ => ?_⟩
  iterate 4 (intro hf; rw [hfault] at hf; cases hf)
  have hready : (ready q h v).fault = false := fault_ready.trans hv
  have hresumed : (v.setPktState h .queued).fault = false := hv
  rw [hi, hstatus, ← hw, resumed_contractViolation hready, resumed_ready, resumed_of_transfers hT,
    contractViolation_of_clear _ _ _ hresumed, contractViolation_of_clear _ _ _ hresumed]

/-- NAK and AddToQueue: the SUBMIT keeps or queues the packet, the advance raises cause 15
(R111). -/
theorem turnOutcome_unfinished (h : (s.pkt k).status = .nak ∨ (s.pkt k).status = .addToQueue) :
    turnOutcome r n k s = .raised .badStatus s := by
  rcases h with h | h <;> rw [turnOutcome, h]

theorem status_ready : ((ready q h v).pkt h).status = (v.pkt h).status :=
  (unseen_ready q h).status v h

theorem length_ready : (ready q h v).pkts.length = v.pkts.length := by
  simp [ready, State.setPktState]

theorem mayDefer_ready (hq : q.dev.toNat < v.devs.length) :
    MayDefer q (ready q h v) ↔ MayDefer q v := by
  rw [MayDefer, ep_ready hq]
  rfl

theorem Unseen.report {F : State → State} (hF : Unseen F) (s : State) (k : Index) :
    ((F s).pkt k).id = (s.pkt k).id ∧ ((F s).pkt k).intReq = (s.pkt k).intReq := by
  rw [hF.pkt]
  exact ⟨rfl, rfl⟩

/-- The completion of a packet in the advance, as one write to the packet and one to the queue
(R109). -/
theorem completeOne_resumed (hT : Transfers d h u v) (hnodup : (u.ep q).queue.Nodup)
    (hhead : (u.ep q).queue.head? = some h) (a : PktState) :
    completeOne h q (v.setPktState h a) =
      { resumed q h u v (v.pkt h).status .complete (u.ep q).queue.tail with
        trace := v.trace ++ [.complete h (v.pkt h).id (v.pkt h).intReq] } := by
  have hremove : (v.setPktState h .complete).removeQueue q h =
      (v.setPktState h .complete).updEp q fun e => { e with queue := (u.ep q).queue.tail } := by
    refine updEp_congr (congrArg (fun l => { v.ep q with queue := l }) ?_)
    show (v.ep q).queue.filter (· != h) = _
    rw [hT.ep, filter_head hnodup hhead]
  obtain ⟨hid, hint⟩ := (unseen_setPktState h a).report v h
  rw [resumed_queue v (u.ep q).queue, resumed_of_transfers hT, ← hremove, ← hid, ← hint,
    ← setPktState_setPktState v h a .complete]
  rfl

section
variable (hv : v.fault = false) (hs : s.fault = false) (hT : Transfers d h u v)
  (hi : exec i s = command i s fun _ => turnOutcome q n h (v.setPktState h .queued))
include hv hs hT hi

/-- After NAK or AddToQueue the packet is Queued in its place (R111). -/
theorem exec_of_unfinished
    (hst : (v.pkt h).status = .nak ∨ (v.pkt h).status = .addToQueue) :
    exec i s = .next { resumed q h u v (v.pkt h).status .queued (u.ep q).queue with
      fault := true, fcause := 15, finfo := i.firstWord } := by
  have hresumed : (v.setPktState h .queued).fault = false := hv
  have hst' : ((v.setPktState h .queued).pkt h).status = .nak ∨
      ((v.setPktState h .queued).pkt h).status = .addToQueue := by
    rwa [(unseen_setPktState h .queued).status]
  rw [hi, turnOutcome_unfinished hst', command_const_raised hs, resumed_of_transfers hT,
    contractViolation_of_clear _ _ _ hresumed]
  rfl

omit hv in
/-- After Async the packet keeps its place, in state Async (R111). -/
theorem exec_of_async (hst : (v.pkt h).status = .async) (hm : MayDefer q v) :
    exec i s = .next (resumed q h u v .async .async (u.ep q).queue) := by
  have hst' : ((v.setPktState h .queued).pkt h).status = .async := by
    rw [(unseen_setPktState h .queued).status, hst]
  have hm' : MayDefer q (v.setPktState h .queued) := hm
  have hturn : turnOutcome q n h (v.setPktState h .queued) = .ok () (v.setPktState h .async) := by
    rw [turnOutcome, hst']
    dsimp only
    rw [checkAsync_ok hm', Run.bind_ok, setPktState_setPktState]
  rw [hi, hturn, command_const_ok hs, ← hst, resumed_of_transfers hT]

omit hv in
/-- After a final status the packet is completed, and the advance is over where the next packet is
Async (R109, R110). -/
theorem exec_of_final (hnodup : (u.ep q).queue.Nodup) (hhead : (u.ep q).queue.head? = some h)
    (htail : ∀ j, (u.ep q).queue.tail.head? = some j → (u.pkt j).state = .async)
    (hst : Final (v.pkt h).status) :
    exec i s = .next { resumed q h u v (v.pkt h).status .complete (u.ep q).queue.tail with
      trace := v.trace ++ [.complete h (v.pkt h).id (v.pkt h).intReq] } := by
  have hst' : Final ((v.setPktState h .queued).pkt h).status := by
    rwa [(unseen_setPktState h .queued).status]
  have hidle : ∀ j, ((completeOne h q (v.setPktState h .queued)).ep q).queue.head? = some j →
      ((completeOne h q (v.setPktState h .queued)).pkt j).state = .async := by
    intro j hj
    have hfilter := queue_completeOne h q (v.setPktState h .queued)
    rw [State.setPktState, State.ep_updPkt, hT.ep] at hfilter
    have hne : j ≠ h := by
      rw [State.setPktState, hfilter] at hj
      simpa using (List.mem_filter.mp (List.mem_of_head? hj)).2
    rw [pkt_completeOne_other hne, pkt_setPktState_other v hne, hT.pktOther j hne]
    refine htail j ?_
    rwa [State.setPktState, hfilter, filter_head hnodup hhead] at hj
  rw [hi, turnOutcome_final hst', advance_idle _ hidle, command_const_ok hs,
    completeOne_resumed hT hnodup hhead]

/-! ### The SUBMIT and the COMPLETE side by side, by the status of the dispatch -/

variable (hlen : h.toNat < v.pkts.length) (hready : (ready q h u).fault = false)
  (hw : command (.submit h q.dev) (ready q h u) (fun _ => afterDispatch h q (ready q h v)) =
    .next w)
include hlen hready hw

theorem resumes_of_final (hnodup : (u.ep q).queue.Nodup)
    (hhead : (u.ep q).queue.head? = some h)
    (htail : (∀ j, (u.ep q).queue.tail.head? = some j → (s.pkt j).state = .async) →
      ∀ j, (u.ep q).queue.tail.head? = some j → (u.pkt j).state = .async)
    (hst : Final (v.pkt h).status) : Resumes i s u w q h := by
  have hF := (unseen_setPktState h .complete).comp (unseen_ready q h)
  have hstatus := hF.status v h
  obtain ⟨hid, hint⟩ := hF.report v h
  have hst' : Final ((ready q h v).pkt h).status := by rw [status_ready]; exact hst
  rw [afterDispatch_final hst', command_const_ok hready] at hw
  have hlen' : h.toNat < (ready q h v).pkts.length := by rw [length_ready]; exact hlen
  obtain rfl := Host.Outcome.next.inj hw
  refine .of_done (by simp [hv]) (state_setPktState_self hlen' .complete) fun hs' => ?_
  rw [hstatus, hid, hint, resumed_setPktState, resumed_ready]
  exact exec_of_final hs hT hi hnodup hhead (htail hs') hst

theorem resumes_of_async (hq : q.dev.toNat < v.devs.length) (hst : (v.pkt h).status = .async) :
    Resumes i s u w q h := by
  have hst' : ((ready q h v).pkt h).status = .async := status_ready.trans hst
  by_cases hm : MayDefer q v
  · rw [afterDispatch_async hst' ((mayDefer_ready hq).mpr hm), command_const_ok hready] at hw
    have hlen' : h.toNat < (ready q h v).pkts.length := by rw [length_ready]; exact hlen
    obtain rfl := Host.Outcome.next.inj hw
    refine .of_async (by simp [hv]) (state_setPktState_self hlen' .async) ?_
    rw [State.appendQueue, resumed_updEp, resumed_setPktState, resumed_ready]
    exact exec_of_async hs hT hi hst hm
  · have hm' : ¬ MayDefer q (v.setPktState h .queued) := hm
    have hturn : turnOutcome q n h (v.setPktState h .queued) = .raised
        (if (v.ep q).type = 3 then .isoAsync else .intAsync) (v.setPktState h .queued) := by
      rw [turnOutcome, (unseen_setPktState h .queued).status, hst]
      dsimp only
      rw [checkAsync_raised hm', Run.bind_raised]
      rfl
    rw [afterDispatch_async_raised hst' (mt (mayDefer_ready hq).mp hm), ep_ready hq,
      command_const_raised hready] at hw
    rw [hturn, command_const_raised hs] at hi
    exact resumes_of_raised hv hT (Host.Outcome.next.inj hw) hi

theorem resumes_of_nak (hst : (v.pkt h).status = .nak) : Resumes i s u w q h := by
  rw [afterDispatch_nak (status_ready.trans hst), command_const_ok hready] at hw
  obtain rfl := Host.Outcome.next.inj hw
  refine .of_nak (fault_ready.trans hv) (by rw [pkt_ready hlen]) ?_
  rw [resumed_ready, ← hst]
  exact exec_of_unfinished hv hs hT hi (.inl hst)

theorem resumes_of_addToQueue (hst : (v.pkt h).status = .addToQueue) : Resumes i s u w q h := by
  rw [afterDispatch_addToQueue (status_ready.trans hst), command_const_ok hready] at hw
  obtain rfl := Host.Outcome.next.inj hw
  have hlen' : h.toNat < (ready q h v).pkts.length := by rw [length_ready]; exact hlen
  have hfault : (queueOne h q (ready q h v)).fault = false := by simp [queueOne, hv]
  refine .of_requeued hfault (state_queueOne hlen') ?_
  rw [resumed_queueOne, resumed_ready, ← hst]
  exact exec_of_unfinished hv hs hT hi (.inr hst)

/-- By the status of the dispatch (R102 to R105, R111). -/
theorem resumes_of_dispatched (hq : q.dev.toNat < v.devs.length) (hnodup : (u.ep q).queue.Nodup)
    (hhead : (u.ep q).queue.head? = some h)
    (htail : (∀ j, (u.ep q).queue.tail.head? = some j → (s.pkt j).state = .async) →
      ∀ j, (u.ep q).queue.tail.head? = some j → (u.pkt j).state = .async) :
    Resumes i s u w q h := by
  have hfinal := resumes_of_final hv hs hT hi hlen hready hw hnodup hhead htail
  cases hst : (v.pkt h).status with
  | async => exact resumes_of_async hv hs hT hi hlen hready hw hq hst
  | nak => exact resumes_of_nak hv hs hT hi hlen hready hw hst
  | addToQueue => exact resumes_of_addToQueue hv hs hT hi hlen hready hw hst
  | success => exact hfinal (.inl hst)
  | stall => exact hfinal (.inr (.inl hst))
  | noDevice => exact hfinal (.inr (.inr hst))

end

/-- A packet that stands Async behind `h` in the queue is Async where the COMPLETE comes to `h`
(R110). -/
theorem async_of_tail (hs : QueuesOk s) (hst : (s.pkt h).state = .queued)
    (he : exec (.complete k) (held h s) = .next u) (hu : QueuesOk u)
    (hhead : (u.ep q).queue.head? = some h) (hj : (u.ep q).queue.tail.head? = some j)
    (hasync : (s.pkt j).state = .async) : (u.pkt j).state = .async := by
  have hmem : j ∈ (u.ep q).queue := List.mem_of_mem_tail (List.mem_of_head? hj)
  have hne : j ≠ h := by
    rintro rfl
    rw [← filter_head (hu.nodup q) hhead] at hj
    simpa using (List.mem_filter.mp (List.mem_of_head? hj)).2
  have hs' : QueuesOk (held h s) := queuesOk_setState hs (by rw [hst]; rfl)
  have hasync' : ((held h s).pkt j).state = .async := by
    rw [held, pkt_setPktState_other s hne, hasync]
  obtain ⟨-, -, hin, -⟩ := hu.member q j hmem
  rcases packetTransitions _ _ _ j hs' he with hsame | ⟨-, -, hc⟩ | ⟨-, hq, -⟩
  · rw [hsame, hasync']
  · rw [hc] at hin; cases hin
  · rw [hasync'] at hq; cases hq

/-- The COMPLETE from the packet `h` on (R110, R111). -/
theorem exec_complete_reached (hs : QueuesOk s) (hf : s.fault = false)
    (hst : (s.pkt h).state = .queued) (he : exec (.complete k) (held h s) = .next u)
    (huf : u.fault = false) (hh : h.toNat < u.pkts.length)
    (hhead : (u.ep (s.pkt k).endpoint).queue.head? = some h) :
    ∃ n, exec (.complete k) s = command (.complete k) s fun _ =>
      ((dispatch h u).map fun x => x.setPktState h .queued).bind fun _ x =>
        turnOutcome (s.pkt k).endpoint n h x := by
  obtain ⟨-, hk, hok⟩ := completePacket_of_exec he huf
  obtain ⟨n, hreach⟩ := completePacket_reaches hs hst hok hhead
  have hk' : IsPacket s k := by simpa [held, State.setPktState, IsPacket] using hk
  have hheadF : ((u.setPktState h .queued).ep (s.pkt k).endpoint).queue.head? = some h := hhead
  have hqueued : ((u.setPktState h .queued).pkt h).state ≠ .async := by
    rw [state_setPktState_self hh]; decide
  refine ⟨n, ?_⟩
  rw [exec_complete hf hk']
  refine command_congr rfl hf ?_
  rw [hreach, advance_turn n hheadF hqueued, (unseen_setPktState h .queued).dispatch]

/-- Settles O55: the COMPLETE comes to the packet as it does where the packet stops it, and its
dispatch there is that of the SUBMIT. -/
theorem queueAdvanceDispatches : Obligations.QueueAdvanceDispatches := by
  intro s u w k h hf hdevs hs hst q he huf hhead hw P leaves queue i
  suffices hR : Resumes i s u w q h by
    obtain ⟨hdone, hasync, hnak, hrequeued, hraised⟩ := hR
    exact ⟨hdone, hasync, hnak, hrequeued, hraised⟩
  have hu : QueuesOk u := queuesOk_exec he (queuesOk_setState hs (by rw [hst]; rfl))
  obtain ⟨hh, -, hin, hend⟩ := hu.member q h (List.mem_of_head? hhead)
  have hlt : q.dev.toNat < u.devs.length := by
    rw [← hend]; exact (hu.queued h hin).1
  have hq : IsDevice u q.dev := by
    refine ⟨fun hn => ?_, hlt⟩
    rw [hn, (sameSetup_exec he).devsLen] at hlt
    exact absurd (hlt.trans_le hdevs) (by decide)
  have hready : (ready q h u).fault = false := fault_ready.trans huf
  obtain ⟨n, hi⟩ := exec_complete_reached hs hf hst he huf hh hhead
  rw [exec_submit_ready huf hu hhead hq] at hw
  have hT := transfers_dispatch h u
  cases hX : dispatch h u with
  | ok a v =>
    rw [hX] at hT hw hi
    exact resumes_of_dispatched (hT.fault.trans huf) hf hT hi (hT.pktsLen ▸ hh) hready hw
      (hT.devsLen ▸ hlt) (hu.nodup q) hhead fun htail j hj =>
        async_of_tail hs hst he hu hhead hj (htail j hj)
  | raised c v =>
    rw [hX] at hT hw hi
    rw [Run.map, Run.bind_raised, command_const_raised hready] at hw
    rw [Run.map, Run.bind_raised, command_const_raised hf] at hi
    exact resumes_of_raised (hT.fault.trans huf) hT (Host.Outcome.next.inj hw) hi
  | stopped f =>
    rw [hX, Run.map, Run.bind_stopped, command, hready] at hw
    cases hw

end Sys2Proof.Machine
end

section
/-! PROOF. How the sequencer's writes carry the packet and the device of a control transfer along,
and how a SUBMIT or a COMPLETE of an endpoint-0 packet ends (spec 41_packet_lifecycle.md R102 to
R105, R108, R109, 42_control_transfer.md R120). -/

namespace Sys2Proof.Machine

open Sys2Proof.Claim

variable {d k : Index} {r : EpRef} {s t u v : State} {st : Status} {P P' : Packet} {D D' : Device}
  {e : Endpoint} {es : List Event}

/-! ### Frames -/

theorem deviceIs_updDev_of_lt (h : DeviceIs d D s u) (hd : d.toNat < s.devs.length)
    (f : Device → Device) : DeviceIs d (f D) s (u.updDev d f) := by
  obtain ⟨hlen, hself, hother⟩ := h
  refine ⟨by simpa using hlen, ?_, fun j hj => ?_⟩
  · rw [State.dev_updDev_self _ _ _ (hlen ▸ hd), hself]
  · rw [State.dev_updDev_other _ _ hj, hother j hj]

/-- Where only the control endpoint of a device differs, the device differs in nothing else
(R19). -/
theorem deviceIs_of_endpointIs_ctl (h : EndpointIs ⟨d, .ctl⟩ e s t) :
    DeviceIs d { s.dev d with epCtl := e } s t := by
  obtain ⟨hself, hother, hlen, hdev, hrest⟩ := h
  have hin : (t.dev d).epIn = (s.dev d).epIn := Vector.ext fun i hi =>
    hother ⟨d, .inn ⟨i, hi⟩⟩ (by simp)
  have hout : (t.dev d).epOut = (s.dev d).epOut := Vector.ext fun i hi =>
    hother ⟨d, .out ⟨i, hi⟩⟩ (by simp)
  have hctl : (t.dev d).epCtl = e := hself
  rw [hin, hout, hctl] at hdev
  exact ⟨hlen, hdev, hrest⟩

theorem endpoint_control (hep : (s.pkt k).epNr = 0) :
    (s.pkt k).endpoint = ⟨(s.pkt k).dev, .ctl⟩ := by
  rw [Packet.endpoint, hep]
  rfl

@[simp] theorem called_cfg {b : Nat} : (called d b es s).cfg = s.cfg := by
  unfold called; split <;> simp

@[simp] theorem called_hmem {b : Nat} : (called d b es s).hmem = s.hmem := by
  unfold called; split <;> simp

@[simp] theorem called_pkts {b : Nat} : (called d b es s).pkts = s.pkts := by
  unfold called; split <;> simp

@[simp] theorem called_devs {b : Nat} : (called d b es s).devs = s.devs := by
  unfold called; split <;> simp

namespace Reached

theorem cfg (h : Reached k d P D s u) : u.cfg = s.cfg := by rw [h.frame]

theorem hmem (h : Reached k d P D s u) : u.hmem = s.hmem := by rw [h.frame]

theorem trans (h : Reached k d P D s u) (h' : Reached k d P' D' u t) : Reached k d P' D' s t := by
  obtain ⟨hframe, ⟨hplen, -, hpother⟩, hdlen, -, hdother⟩ := h
  obtain ⟨hframe', ⟨hplen', hpkt, hpother'⟩, hdlen', hdev, hdother'⟩ := h'
  exact ⟨by rw [hframe', hframe],
    ⟨hplen'.trans hplen, hpkt, fun j hj => (hpother' j hj).trans (hpother j hj)⟩,
    hdlen'.trans hdlen, hdev, fun j hj => (hdother' j hj).trans (hdother j hj)⟩

/-- A change outside the packets and the devices, made at both ends. -/
theorem rebase (h : Reached k d P D s u) (hpkts : v.pkts = s.pkts) (hdevs : v.devs = s.devs)
    (ht : t = { v with pkts := u.pkts, devs := u.devs }) : Reached k d P D v t := by
  obtain ⟨-, hP, hD⟩ := h
  subst ht
  refine ⟨rfl, ?_, ?_⟩
  · simpa only [PacketIs, State.pkt, hpkts] using hP
  · simpa only [DeviceIs, State.dev, hdevs] using hD

/-- The packet and the device, seen from a state with the same packets and devices. -/
theorem frames (h : Reached k d P D v t) (hpkts : v.pkts = s.pkts) (hdevs : v.devs = s.devs) :
    PacketIs k P s t ∧ DeviceIs d D s t := by
  obtain ⟨-, hP, hD⟩ := h
  exact ⟨by simpa only [PacketIs, State.pkt, hpkts] using hP,
    by simpa only [DeviceIs, State.dev, hdevs] using hD⟩

/-! ### Writes -/

theorem updDev_of_lt (h : Reached k d P D s u) (hd : d.toNat < s.devs.length)
    (f : Device → Device) : Reached k d P (f D) s (u.updDev d f) where
  frame := by
    conv_lhs => rw [h.frame]
    rfl
  packet := packetIs_of_pkts h.packet rfl
  device := deviceIs_updDev_of_lt h.device hd f

theorem setCtl (h : Reached k d P D s u) (hd : d.toNat < s.devs.length) (c : CtlState) :
    Reached k d P { D with ctlState := c } s (u.setCtl d c) :=
  h.updDev_of_lt hd fun D => { D with ctlState := c }

theorem stallToIdle (h : Reached k d P D s u) (hk : IsPacket s k)
    (hd : d.toNat < s.devs.length) :
    Reached k d { P with status := .stall } { D with ctlState := .idle } s (stallToIdle d k u) :=
  (h.setStatus hk .stall).setCtl hd .idle

theorem setMem (h : Reached k d P D s u) (m : Memory) :
    Reached k d P D { s with hmem := m } { u with hmem := m } :=
  h.rebase rfl rfl (by conv_lhs => rw [h.frame])

end Reached

/-! ### SUBMIT -/

section
variable (h : Dispatchable k d s) (hep : (s.pkt k).epNr = 0)
include h hep

/-- The path of an endpoint-0 packet without a parameter, by its token (R120). -/
theorem dispatch_token (hpar : (s.pkt k).parameter = 0) :
    ((s.pkt k).token = .setup → dispatch k s = tokenSetup d k (s.setStatus k .success)) ∧
    ((s.pkt k).token = .inn → dispatch k s = tokenIn d k (s.setStatus k .success)) ∧
    ((s.pkt k).token = .out → dispatch k s = tokenOut d k (s.setStatus k .success)) := by
  have hpkt : (s.setStatus k .success).pkt k = { s.pkt k with status := .success } :=
    State.pkt_updPkt_self _ _ _ h.packet
  have hpath := dispatch_control hep h.own
  rw [controlDispatch_token (by rw [hpkt]; exact hpar), hpkt] at hpath
  refine ⟨fun ht => ?_, fun ht => ?_, fun ht => ?_⟩ <;> rw [hpath, ht]

/-- A SUBMIT of an endpoint-0 packet ends with what the status its dispatch left decides of the
packet and of the control endpoint's queue (R102 to R105). -/
theorem submit_control_ends (hb : dispatch k s = .ok () u) (hu : Reached k d P D v u)
    (hst : P.status = st) (hmay : st = .async → MayDefer (s.pkt k).endpoint s) :
    ∃ t, exec (.submit k d) s = .next t ∧ Reached k d (settled st P)
      { D with epCtl := { D.epCtl with queue := queueAfter st k D.epCtl.queue } } v t := by
  have hT := transfers_dispatch k s
  rw [hb] at hT
  have hr : (s.pkt k).endpoint = ⟨d, .ctl⟩ := by rw [endpoint_control hep, h.own]
  have hk : IsPacket u k := by rw [IsPacket, hT.pktsLen]; exact h.packet
  have hd : IsDevice u d := ⟨h.device.1, by rw [hT.devsLen]; exact h.device.2⟩
  have hP : PacketIs k P u u := by rw [← hu.pkt]; exact packetIs_refl k u
  have hmay' : st = .async → MayDefer ⟨d, .ctl⟩ u := fun hasync => by
    rw [MayDefer, hT.ep, State.hostRole, hT.cfg, ← hr]
    exact hmay hasync
  obtain ⟨t, ht, hframe, hpkt, hE⟩ := afterDispatch_settles hk hd hP rfl rfl hst hmay'
  have hdev := deviceIs_of_endpointIs_ctl hE
  rw [State.ep, hu.dev] at hdev
  refine ⟨t, ?_, hu.trans ⟨hframe, hpkt, hdev⟩⟩
  rw [exec_submit h.clear h.packet (.inr h.device)]
  refine command_of_ok _ h.clear ?_
  rw [submitPacket_of_dispatchable h, hb, Run.bind_ok, hr, ht]

/-- The same for a dispatch that calls no handler and moves no byte of host memory. -/
theorem submit_control_quiet (hb : dispatch k s = .ok () u)
    (hu : Reached k d { P with status := st } D s u) (hfin : Final st) :
    ∃ t, exec (.submit k d) s = .next t ∧ t = { s with pkts := t.pkts, devs := t.devs } ∧
      SameMemory s t ∧ PacketIs k (settled st P) s t ∧ DeviceIs d D s t := by
  have hasync : st ≠ .async := by rcases hfin with rfl | rfl | rfl <;> decide
  have hqueue : queueAfter st k D.epCtl.queue = D.epCtl.queue := by
    rcases hfin with rfl | rfl | rfl <;> rfl
  obtain ⟨t, ht, hR⟩ := submit_control_ends h hep hb hu rfl fun he => absurd he hasync
  rw [settled_status, hqueue] at hR
  exact ⟨t, ht, hR.frame, fun _ => by rw [hR.frame], hR.packet, hR.device⟩

end

/-! ### COMPLETE -/

/-- A COMPLETE of an endpoint-0 packet ends with the packet complete, out of the control endpoint's
queue and reported (R108, R109). -/
theorem complete_control_ends (h : Completable k s) (hep : (s.pkt k).epNr = 0)
    (hfin : Final st) (hst : st.code = s.nextResp.status)
    (hb : ctlAsyncDone (s.pkt k).dev k s.nextResp s.dropResp = .ok () u)
    (hu : Reached k (s.pkt k).dev P D v u) :
    ∃ t, exec (.complete k) s = .next t ∧ Reached k (s.pkt k).dev { P with state := .complete }
      { D with epCtl := { D.epCtl with queue := D.epCtl.queue.filter (· != k) } }
      (v.emit (.complete k P.id P.intReq)) t := by
  have happly : applyCompletion k s.nextResp s.dropResp = .ok () u := by
    rw [applyCompletion, State.pkt_dropResp, if_pos hep, hb]
  have hT := transfers_applyCompletion k s.nextResp s.dropResp
  rw [happly] at hT
  have hk : IsPacket u k := by
    rw [IsPacket, hT.pktsLen, State.dropResp_pkts]; exact h.packet
  obtain ⟨hpkt, hE⟩ := completeOne_frames (r := ⟨(s.pkt k).dev, .ctl⟩) hk (packetIs_refl k u) rfl
  have hdev := deviceIs_of_endpointIs_ctl hE
  rw [hu.pkt] at hpkt
  rw [State.ep, hu.dev] at hdev
  refine ⟨_, exec_complete_applied h (unfinishedResp_of_final hfin hst) happly, ?_⟩
  rw [endpoint_control hep]
  have hemit : Reached k (s.pkt k).dev P D (v.emit (.complete k P.id P.intReq))
      (u.emit (.complete k P.id P.intReq)) :=
    hu.rebase rfl rfl (by
      conv_lhs => rw [hu.frame]
      rfl)
  refine hemit.trans ⟨?_, hpkt, hdev⟩
  rw [← hu.pkt]
  rfl

end Sys2Proof.Machine
end

section
/-! PROOF. The tokens of a control transfer that call no handler and move no data: stalled requests,
the SETUP token of an OUT request and the Ack tokens (spec 42_control_transfer.md R121 to R127,
R130, R132, R134, R137). -/

namespace Sys2Proof.Machine

open Sys2Proof.Claim

variable {d k : Index} {s u : State} {P : Packet} {D : Device} {bs : List Byte}

/-! ### Stalls -/

/-- Settles O40: the size of the vector is the first thing a SETUP token looks at. -/
theorem setupWrongSizeStalls : Obligations.SetupWrongSizeStalls := by
  intro s k d h hep hpar htok hsize
  have hstart := (Reached.refl k d s).setStatus h.packet .success
  obtain ⟨hsetup, -, -⟩ := dispatch_token h hep hpar
  refine submit_control_quiet h hep ?_ (hstart.stallToIdle h.packet h.device.2) (.inr (.inl rfl))
  rw [hsetup htok, tokenSetup, hstart.pkt, if_pos hsize]

/-- A SETUP token with eight setup bytes takes them and goes on by the length and the direction of
the request (R123, R125 to R127). -/
theorem tokenSetup_takes (h : Reached k d P D s u) (hk : IsPacket s k) (hd : IsDevice s d)
    (htok : P.token = .setup) (hsize : iovSize P.iov = 8) (hlen : bs.length = 8)
    (hr : Reads s P.iov 0 bs) :
    ∃ v, tokenSetup d k u =
        (if s.cfg.ctrlBufSize < (lengthOf bs).toNat then .ok () (stallToIdle d k v)
        else if dirInOf bs = true then setupTokenIn d k v else .ok () (setupTokenOut d k v)) ∧
      Reached k d { P with actualLength := 0 }
        { D with
          setupBuf := bufferOf bs, ctlState := .setup, setupLen := lengthOf bs, setupIndex := 0 }
        s v := by
  have hzero := h.setActual hk 0
  have hbegun := ((hzero.moveActual hk 8).setActual hk 0).beginRequest hd (bufferOf bs) .setup
  have hread : vectorRead (u.setActual k 0).cfg P.iov (u.setActual k 0).hmem 0 8 = some bs := by
    rw [hzero.cfg, hzero.hmem, ← hlen]
    exact vectorRead_of_reads hr
  have hcopy : packetCopy k [] 8 (u.setActual k 0) =
      .ok bs (moveActual k 8 (u.setActual k 0)) := by
    refine packetCopy_reads ?_ ?_ ?_ <;> rw [hzero.pkt]
    · simp [htok]
    · simp [hsize]
    · exact hread
  refine ⟨_, ?_, hbegun⟩
  rw [tokenSetup, h.pkt, if_neg (not_not.mpr hsize), hcopy, Run.bind_ok, ← hbegun.cfg]
  rfl

/-- A Param request longer than the buffer stalls once its setup bytes are taken (R122, R123). -/
theorem paramPath_oversized (hbuf : s.cfg.ctrlBufSize <
      (SetupBuf.ofParameter (s.pkt k).parameter).length.toNat) :
    paramPath d k s = .ok ()
      (stallToIdle d k (beginRequest d (.ofParameter (s.pkt k).parameter) .param s)) :=
  if_pos hbuf

theorem dispatch_param (h : Dispatchable k d s) (hep : (s.pkt k).epNr = 0)
    (hpar : (s.pkt k).parameter ≠ 0) :
    dispatch k s = paramPath d k (s.setStatus k .success) := by
  have hpkt := ((Reached.refl k d s).setStatus h.packet .success).pkt
  rw [dispatch_control hep h.own, controlDispatch, hpkt, if_pos hpar]

/-- Settles O41: the length is looked at before the handler is called, on either path. -/
theorem oversizedRequestStalls : Obligations.OversizedRequestStalls := by
  intro s k d bs h hs hep hlen hover hpath
  have hk := h.packet
  have hstart := (Reached.refl k d s).setStatus hk .success
  rcases hpath with ⟨hpar, htok, hsize, hr⟩ | ⟨hpar, rfl⟩
  · obtain ⟨hsetup, -, -⟩ := dispatch_token h hep hpar
    obtain ⟨v, hv, hR⟩ := tokenSetup_takes hstart hk h.device htok hsize hlen hr
    rw [if_pos hpar]
    refine submit_control_quiet h hep ?_ (hR.stallToIdle hk h.device.2) (.inr (.inl rfl))
    rw [hsetup htok, hv, if_pos hover]
  · have hR := hstart.beginRequest h.device (.ofParameter (s.pkt k).parameter) .param
    rw [if_neg hpar]
    refine submit_control_quiet h hep ?_ (hR.stallToIdle hk h.device.2) (.inr (.inl rfl))
    rw [dispatch_param h hep hpar, paramPath_oversized (by rw [hstart.pkt]; exact hover),
      hstart.pkt]

/-- Settles O42: the setup bytes are taken, and the length of the data stage decides the control
state. -/
theorem setupOutRequest : Obligations.SetupOutRequest := by
  intro s k d bs h hs hep hpar htok hsize hlen hr hfit hdir
  have hk := h.packet
  obtain ⟨hsetup, -, -⟩ := dispatch_token h hep hpar
  obtain ⟨v, hv, hR⟩ := tokenSetup_takes ((Reached.refl k d s).setStatus hk .success) hk
    h.device htok hsize hlen hr
  have hdone := (hR.setCtl h.device.2 (if lengthOf bs = 0 then .ack else .data)).setActual hk 8
  refine submit_control_quiet h hep ?_ hdone (.inl rfl)
  rw [hsetup htok, hv, if_neg (Nat.not_lt.mpr hfit), hdir, if_neg Bool.false_ne_true,
    setupTokenOut, hR.dev]

/-- A token in an unexpected control state (R132, R137). -/
theorem tokenIn_unexpected (h : (u.dev d).ctlState = .idle ∨ (u.dev d).ctlState = .setup ∨
      (u.dev d).ctlState = .param ∨
      (u.dev d).ctlState = .data ∧ (u.dev d).setupBuf.dirIn = false) :
    tokenIn d k u = .ok () (stallToIdle d k u) := by
  rcases h with h | h | h | ⟨h, hdir⟩ <;> rw [tokenIn, h]
  exact if_neg (Bool.eq_false_iff.mp hdir)

theorem tokenOut_unexpected (h : (u.dev d).ctlState = .idle ∨ (u.dev d).ctlState = .setup ∨
      (u.dev d).ctlState = .param ∨
      (u.dev d).ctlState = .data ∧ (u.dev d).setupBuf.dirIn = true) :
    tokenOut d k u = .ok () (stallToIdle d k u) := by
  rcases h with h | h | h | ⟨h, hdir⟩ <;> rw [tokenOut, h]
  exact if_pos hdir

/-- Settles O48: the control state, and in Data the direction of the request, are not those the
token goes on from. -/
theorem unexpectedTokenStalls : Obligations.UnexpectedTokenStalls := by
  intro s k d h P D dirIn hep hpar htok hctl
  have hR := ((Reached.refl k d s).setStatus h.packet .success).stallToIdle h.packet h.device.2
  obtain ⟨-, hin, hout⟩ := dispatch_token h hep hpar
  refine submit_control_quiet h hep ?_ hR (.inr (.inl rfl))
  have other : ∀ {a b : Token}, P.token = a → P.token = b → a = b := fun ha hb => ha.symm.trans hb
  rcases htok with ht | ht
  · rw [hin ht, tokenIn_unexpected]
    refine hctl.imp_right <| .imp_right <| .imp_right fun ⟨hdata, hdir⟩ => ⟨hdata, ?_⟩
    exact hdir.elim And.right fun ⟨ho, _⟩ => absurd (other ht ho) (by decide)
  · rw [hout ht, tokenOut_unexpected]
    refine hctl.imp_right <| .imp_right <| .imp_right fun ⟨hdata, hdir⟩ => ⟨hdata, ?_⟩
    exact hdir.elim (fun ⟨hi, _⟩ => absurd (other hi ht) (by decide)) And.right

/-! ### The Ack tokens -/

theorem tokenIn_ack (h : (u.dev d).ctlState = .ack) : tokenIn d k u = statusPhaseIn d k u := by
  rw [tokenIn, h]

theorem tokenOut_ack (h : (u.dev d).ctlState = .ack) :
    tokenOut d k u = .ok () (if (u.dev d).setupBuf.dirIn then u.setCtl d .idle else u) := by
  rw [tokenOut, h]

/-- Settles O47: only the OUT token of an IN request writes the control state. -/
theorem ackTokens : Obligations.AckTokens := by
  intro s k d h P D dirIn hep hpar hctl htok
  have hstart := (Reached.refl k d s).setStatus h.packet .success
  obtain ⟨-, hin, hout⟩ := dispatch_token h hep hpar
  have hctl' : ((s.setStatus k .success).dev d).ctlState = .ack := hctl
  have hsame : D = { D with ctlState := .ack } := by rw [← hctl]
  rcases htok with ht | ⟨ht, hdir⟩
  · have hdispatch : dispatch k s = .ok () (if dirIn = true then
        (s.setStatus k .success).setCtl d .idle else s.setStatus k .success) := by
      rw [hout ht, tokenOut_ack hctl']
      rfl
    by_cases hdir : dirIn = true
    · rw [if_pos hdir] at hdispatch
      rw [if_pos ⟨ht, hdir⟩]
      exact submit_control_quiet h hep hdispatch (hstart.setCtl h.device.2 .idle) (.inl rfl)
    · rw [if_neg hdir] at hdispatch
      rw [if_neg fun hn => hdir hn.2, ← hsame]
      exact submit_control_quiet h hep hdispatch hstart (.inl rfl)
  · rw [if_neg fun hn => absurd (ht.symm.trans hn.1) (by decide), ← hsame]
    refine submit_control_quiet h hep ?_ hstart (.inl rfl)
    rw [hin ht, tokenIn_ack hctl', statusPhaseIn]
    exact if_pos hdir

end Sys2Proof.Machine
end

section
/-! PROOF. The Data phase of a control transfer (spec 42_control_transfer.md R129, R131, R133, R136,
20_memory.md R43). -/

namespace Sys2Proof.Machine

open Sys2Proof.Claim

variable {d k : Index} {n off : Nat} {m : Memory} {s t u v : State} {P : Packet} {D : Device}
  {bs : List Byte}

/-! ### Copies between the vector and the data buffer -/

section
variable (h : Reached k d P D s u) (hk : IsPacket s k) (hd : d.toNat < s.devs.length)
  (hin : ∀ g ∈ P.iov, g.inHost s.cfg) (hroom : P.actualLength.toNat + n ≤ iovSize P.iov)
include h hk hd hin hroom

/-- A copy for an IN packet writes the bytes of the buffer to the vector (R43, R131). -/
theorem copyDataBuf_in (ht : P.token = .inn) :
    ∃ m v, copyDataBuf d k off n u = .ok () v ∧
      vectorWrite s.cfg P.iov s.hmem P.actualLength.toNat (bytesOf D.dataBuf off n) = some m ∧
      Reached k d { P with actualLength := P.actualLength + BitVec.ofNat 32 n } D
        { s with hmem := m } v := by
  have hlen : (bytesOf D.dataBuf off n).length = n := by simp [bytesOf]
  obtain ⟨m, hm⟩ := vectorWrite_isSome s.hmem hin (hlen.symm ▸ hroom)
  have hu : vectorWrite u.cfg (u.pkt k).iov u.hmem (u.pkt k).actualLength.toNat
      ((u.dev d).dataBuf.readList off n) = some m := by
    rwa [h.cfg, h.hmem, h.pkt, h.dev, readList_eq_bytesOf]
  have hmoved := ((h.setMem m).moveActual hk n).updDev_of_lt hd fun D =>
    { D with dataBuf := D.dataBuf.writeList off [] }
  rw [BitVec.ofNat_add, BitVec.ofNat_toNat, BitVec.setWidth_eq] at hmoved
  refine ⟨m, _, ?_, hm, hmoved⟩
  rw [copyDataBuf, packetCopy_writes (by rw [h.pkt, ht]) (by rw [h.pkt]; exact hroom) hu,
    Run.bind_ok]

/-- A copy for any other packet reads the bytes of the vector into the buffer (R43, R136). -/
theorem copyDataBuf_out (ht : P.token ≠ .inn) :
    ∃ bs v, copyDataBuf d k off n u = .ok () v ∧ bs.length = n ∧
      Reads s P.iov P.actualLength.toNat bs ∧
      Reached k d { P with actualLength := P.actualLength + BitVec.ofNat 32 n }
        { D with dataBuf := D.dataBuf.writeList off bs } s v := by
  obtain ⟨bs, hbs⟩ := vectorRead_isSome s.hmem hin hroom
  obtain ⟨hlen, hreads⟩ := reads_of_vectorRead hbs
  have hu : vectorRead u.cfg (u.pkt k).iov u.hmem (u.pkt k).actualLength.toNat n = some bs := by
    rwa [h.cfg, h.hmem, h.pkt]
  have hmoved := (h.moveActual hk n).updDev_of_lt hd fun D =>
    { D with dataBuf := D.dataBuf.writeList off bs }
  rw [BitVec.ofNat_add, BitVec.ofNat_toNat, BitVec.setWidth_eq] at hmoved
  refine ⟨bs, _, ?_, hlen, hreads, hmoved⟩
  rw [copyDataBuf, packetCopy_reads (by rwa [h.pkt]) (by rw [h.pkt]; exact hroom) hu,
    Run.bind_ok]

end

/-! ### One chunk -/

/-- The least of the bytes remaining, the max packet size and the room in the vector (R131,
R136). -/
def chunk (P : Packet) (D : Device) : Nat :=
  min (D.setupLen.toNat - D.setupIndex.toNat)
    (min D.epCtl.maxPacketSize.toNat (iovSize P.iov - P.actualLength.toNat))

/-- The device once a chunk has moved: the cursor has advanced, and at the full length the control
state is Ack (R131, R136). -/
def chunkMoved (n : Nat) (D : Device) : Device :=
  { D with
    setupIndex := D.setupIndex + BitVec.ofNat 16 n
    ctlState := if D.setupIndex.toNat + n = D.setupLen.toNat then .ack else .data }

theorem chunkLength_eq (h : Reached k d P D s u) : chunkLength d k u = chunk P D := by
  rw [chunkLength, h.dev, h.pkt, chunk, Nat.min_assoc]

theorem chunk_room (hmoved : P.actualLength.toNat ≤ iovSize P.iov) :
    P.actualLength.toNat + chunk P D ≤ iovSize P.iov := by
  have : chunk P D ≤ iovSize P.iov - P.actualLength.toNat :=
    (Nat.min_le_right _ _).trans (Nat.min_le_right _ _)
  omega

theorem chunk_remaining (hcursor : D.setupIndex.toNat ≤ D.setupLen.toNat) :
    D.setupIndex.toNat + chunk P D ≤ D.setupLen.toNat := by
  have : chunk P D ≤ D.setupLen.toNat - D.setupIndex.toNat := Nat.min_le_left _ _
  omega

/-- The cursor never passes the length, so reaching it is being at it. -/
theorem chunkMoved_eq (hdata : D.ctlState = .data)
    (hn : D.setupIndex.toNat + n ≤ D.setupLen.toNat) :
    chunkMoved n D = { D with
      setupIndex := BitVec.ofNat 16 (D.setupIndex.toNat + n)
      ctlState := if D.setupLen.toNat ≤ D.setupIndex.toNat + n then .ack else D.ctlState } := by
  have hindex : D.setupIndex + BitVec.ofNat 16 n = BitVec.ofNat 16 (D.setupIndex.toNat + n) := by
    rw [BitVec.ofNat_add, BitVec.ofNat_toNat, BitVec.setWidth_eq]
  have hfull : D.setupIndex.toNat + n = D.setupLen.toNat ↔
      D.setupLen.toNat ≤ D.setupIndex.toNat + n := by omega
  simp only [chunkMoved, hindex, hfull, hdata]

/-- A chunk is one copy at the cursor, with the cursor advanced behind it (R131, R136). -/
theorem dataChunk_of_copy (h : Reached k d P D s u) (hdata : D.ctlState = .data)
    (hcursor : D.setupIndex.toNat ≤ D.setupLen.toNat)
    (hcopy : copyDataBuf d k D.setupIndex.toNat (chunk P D) u = .ok () v)
    (hv : v.dev d = { D with dataBuf := m }) :
    dataChunk d k u = .ok () (v.updDev d (chunkMoved (chunk P D))) := by
  rw [dataChunk, h.dev, chunkLength_eq h, hcopy, Run.bind_ok]
  refine congrArg (Run.ok ()) (updDev_congr ?_)
  rw [hv]
  exact (chunkMoved_eq (D := { D with dataBuf := m }) hdata
    (chunk_remaining (P := P) (D := D) hcursor)).symm

/-! ### The tokens -/

theorem tokenIn_data (h : (u.dev d).ctlState = .data) (hdir : (u.dev d).setupBuf.dirIn = true) :
    tokenIn d k u = dataChunk d k u := by
  rw [tokenIn, h]
  exact if_pos hdir

theorem tokenOut_data (h : (u.dev d).ctlState = .data) (hdir : (u.dev d).setupBuf.dirIn = false) :
    tokenOut d k u = dataChunk d k u := by
  rw [tokenOut, h]
  exact if_neg (Bool.eq_false_iff.mp hdir)

/-- A device that is as given holds the buffer it is given with. -/
theorem written_of_deviceIs (h : DeviceIs d D s t) (hbuf : D.dataBuf = m.writeList off bs)
    (hm : m.wf = true) :
    Written m (t.dev d).dataBuf off bs ∧
      DeviceIs d { D with dataBuf := (t.dev d).dataBuf } s t := by
  have ⟨_, hself, _⟩ := h
  have hdev : (t.dev d).dataBuf = D.dataBuf := congrArg Device.dataBuf hself
  rw [hdev]
  exact ⟨hbuf ▸ written_writeList off bs hm, h⟩

/-- Settles O44: the chunk is written to the vector. -/
theorem dataPhaseIn : Obligations.DataPhaseIn := by
  intro s k d h hs P D hep hpar htok hctl hdir len
  have hk := h.packet
  have hd := h.device.2
  have hstart := (Reached.refl k d s).setStatus hk .success
  obtain ⟨-, hin, -⟩ := dispatch_token h hep hpar
  obtain ⟨m, v, hcopy, hm, hv⟩ := copyDataBuf_in (off := D.setupIndex.toNat) hstart hk hd
    hs.packet.inHost (chunk_room (D := D) hs.packet.moved) htok
  have hchunk := dataChunk_of_copy hstart hctl hs.device.cursor hcopy hv.dev
  have hdispatch : dispatch k s = .ok () (v.updDev d (chunkMoved len)) :=
    (hin htok).trans ((tokenIn_data (u := s.setStatus k .success) hctl hdir).trans hchunk)
  obtain ⟨t, ht, hT⟩ := submit_control_ends h hep hdispatch (hv.updDev_of_lt hd (chunkMoved len))
    rfl nofun
  refine ⟨t, ht, ?_, stored_of_vectorWrite hm hs.memory hT.hmem, hT.packet, hT.device⟩
  rw [hT.hmem]
  exact hT.frame

/-- Settles O45: the chunk is read into the data buffer. -/
theorem dataPhaseOut : Obligations.DataPhaseOut := by
  intro s k d h hs P D hep hpar htok hctl hdir len
  have hk := h.packet
  have hd := h.device.2
  have hstart := (Reached.refl k d s).setStatus hk .success
  obtain ⟨-, -, hout⟩ := dispatch_token h hep hpar
  obtain ⟨bs, v, hcopy, hlen, hreads, hv⟩ := copyDataBuf_out (off := D.setupIndex.toNat) hstart hk
    hd hs.packet.inHost (chunk_room (D := D) hs.packet.moved) (by rw [htok]; decide)
  have hchunk := dataChunk_of_copy hstart hctl hs.device.cursor hcopy hv.dev
  have hdispatch : dispatch k s = .ok () (v.updDev d (chunkMoved len)) :=
    (hout htok).trans ((tokenOut_data (u := s.setStatus k .success) hctl hdir).trans hchunk)
  obtain ⟨t, ht, hframe, hmem, hP, hD⟩ := submit_control_quiet (st := .success)
    (P := { P with actualLength := P.actualLength + BitVec.ofNat 32 len }) h hep hdispatch
    (hv.updDev_of_lt hd (chunkMoved len)) (.inl rfl)
  obtain ⟨hwritten, hD⟩ := written_of_deviceIs hD rfl hs.device.buffer
  exact ⟨t, bs, ht, hlen, hreads, hframe, hmem, hP, hwritten, hD⟩

end Sys2Proof.Machine
end

section
/-! PROOF. The parts of a control transfer that call the control handler, where its answer is one
the block accepts, and their COMPLETE (spec 42_control_transfer.md R126, R128, R130, R138, R140,
41_packet_lifecycle.md R100, R108). -/

namespace Sys2Proof.Machine

open Sys2Proof.Claim

variable {d k : Index} {n : Word} {a : Resp} {s u : State} {st : Status} {P : Packet} {D : Device}
  {bs : List Byte} {c : CtlState}

/-! ### The answer -/

section
variable (h : Reached k d P D s u) (hk : IsPacket s k) (hd : d.toNat < s.devs.length)
include h hk hd

theorem applyCtlResp_reaches (hst : st.code = a.status) (hacc : AcceptedByControl s a) :
    ∃ v, applyCtlResp d k a u = .ok a.n.toNat v ∧
      Reached k d { P with status := st } { D with dataBuf := D.dataBuf.writeList 0 a.data } s
        v := by
  have hcode : Status.ofCode a.status = some st := by rw [← hst, Status.ofCode_code]
  have hacc' : AcceptedByControl u a := by rwa [AcceptedByControl, h.cfg]
  refine ⟨_, applyCtlResp_accepted hcode hacc', ?_⟩
  exact (h.updDev_of_lt hd fun D =>
    { D with dataBuf := D.dataBuf.writeList 0 a.data }).setStatus hk st

/-- A call of the control handler applies what it answers, with or without its hook (R100, R140,
R158). -/
theorem controlHandler_reaches (hbuf : D.setupBuf = bufferOf bs)
    (hst : st.code = (reply d 6 s).status) (hacc : AcceptedByControl s (reply d 6 s)) :
    ∃ v, controlHandler d k u = .ok (reply d 6 s).n.toNat v ∧
      Reached k d { P with status := st }
        { D with dataBuf := D.dataBuf.writeList 0 (reply d 6 s).data }
        (called d 6 [controlCall d k bs D.setupLen D.dataBuf] s) v := by
  cases hhook : s.hasHook d 6 with
  | true =>
    have hreply : reply d 6 s = s.nextResp := if_pos hhook
    rw [hreply] at hst hacc ⊢
    rw [h.controlHandler hhook]
    exact applyCtlResp_reaches
      (h.rebase called_pkts called_devs (controlCalled_frame h hhook hbuf))
      (by rwa [IsPacket, called_pkts]) (by rwa [called_devs]) hst
      (by rwa [AcceptedByControl, called_cfg])
  | false =>
    have hreply : reply d 6 s = absentResp := by rw [reply, hhook]; rfl
    have hhook' : u.hasHook d 6 = false := by rw [State.hasHook, h.cfg]; exact hhook
    rw [hreply] at hst hacc ⊢
    rw [controlHandler, hhook', called, hhook]
    exact applyCtlResp_reaches h hk hd hst hacc

end

/-! ### The length -/

/-- A length, shortened to what a handler reports if `p` holds (R128). -/
def shortened (p : Prop) [Decidable p] (n : Word) (l : BitVec 16) : BitVec 16 :=
  if p ∧ n.toNat < l.toNat then n.extractLsb' 0 16 else l

theorem shortened_of_not {p : Prop} [Decidable p] (h : ¬ p) (l : BitVec 16) :
    shortened p n l = l :=
  if_neg fun hn => h hn.1

theorem Reached.shortenSetup {p : Prop} [Decidable p] (h : Reached k d P D s u)
    (hd : d.toNat < s.devs.length) (hp : p) (n : Word) :
    Reached k d P { D with setupLen := shortened p n D.setupLen } s
      (shortenSetup d n.toNat u) := by
  unfold Machine.shortenSetup shortened
  rw [h.dev]
  by_cases hn : n.toNat < D.setupLen.toNat
  · rw [if_pos hn, if_pos ⟨hp, hn⟩]
    exact h.updDev_of_lt hd fun D => { D with setupLen := BitVec.ofNat 16 n.toNat }
  · rw [if_neg hn, if_neg fun hpn => hn hpn.2]
    exact h

/-! ### The SETUP token of an IN request -/

/-- The control state the answer to a SETUP token leaves (R126). -/
def ctlAfterSetup (st : Status) (c : CtlState) : CtlState :=
  match st with
  | .success => .data
  | .async => c
  | .stall | .nak | .noDevice | .addToQueue => .idle

/-- After Success the Data phase begins (R126, R128). -/
theorem Reached.setupDone (h : Reached k d P D s u) (hk : IsPacket s k)
    (hd : d.toNat < s.devs.length) {p : Prop} [Decidable p] (hp : p) (n : Word) :
    Reached k d { P with actualLength := 8 }
      { D with setupLen := shortened p n D.setupLen, ctlState := .data } s
      (((Machine.shortenSetup d n.toNat u).setCtl d .data).setActual k 8) :=
  ((h.shortenSetup hd hp n).setCtl hd .data).setActual hk 8

section
variable (h : Reached k d P D s u) (hk : IsPacket s k) (hd : d.toNat < s.devs.length)
  (hbuf : D.setupBuf = bufferOf bs) (hst : st.code = (reply d 6 s).status)
  (hacc : AcceptedByControl s (reply d 6 s))
include h hk hd hbuf hst hacc

theorem setupTokenIn_reaches :
    ∃ v, setupTokenIn d k u = .ok () v ∧
      Reached k d
        { P with status := st, actualLength := if st = .success then 8 else P.actualLength }
        { D with
          dataBuf := D.dataBuf.writeList 0 (reply d 6 s).data
          setupLen := shortened (st = .success) (reply d 6 s).n D.setupLen
          ctlState := ctlAfterSetup st D.ctlState }
        (called d 6 [controlCall d k bs D.setupLen D.dataBuf] s) v := by
  obtain ⟨v, hv, hR⟩ := controlHandler_reaches h hk hd hbuf hst hacc
  have hk' : IsPacket (called d 6 [controlCall d k bs D.setupLen D.dataBuf] s) k := by
    rwa [IsPacket, called_pkts]
  have hd' : d.toNat < (called d 6 [controlCall d k bs D.setupLen D.dataBuf] s).devs.length := by
    rwa [called_devs]
  rw [setupTokenIn, hv, Run.bind_ok, hR.pkt]
  cases st with
  | success => exact ⟨_, rfl, hR.setupDone hk' hd' rfl _⟩
  | async => exact ⟨_, rfl, hR⟩
  | stall | nak | noDevice | addToQueue => exact ⟨_, rfl, hR.setCtl hd' .idle⟩

/-- The status phase of an OUT request (R130). -/
theorem statusPhaseIn_reaches (hdir : D.setupBuf.dirIn = false) :
    ∃ v, statusPhaseIn d k u = .ok () v ∧
      Reached k d
        { P with status := st, actualLength := if st = .async then P.actualLength else 0 }
        { D with
          dataBuf := D.dataBuf.writeList 0 (reply d 6 s).data
          ctlState := if st = .async then D.ctlState else .idle }
        (called d 6 [controlCall d k bs D.setupLen D.dataBuf] s) v := by
  obtain ⟨v, hv, hR⟩ := controlHandler_reaches h hk hd hbuf hst hacc
  rw [statusPhaseIn, h.dev, hdir, if_neg Bool.false_ne_true, hv, Run.bind_ok, hR.pkt]
  by_cases hasync : st = .async
  · simp only [if_pos hasync]
    exact ⟨_, rfl, hR⟩
  · simp only [if_neg hasync]
    exact ⟨_, rfl, (hR.setCtl (by rwa [called_devs]) .idle).setActual
      (by rwa [IsPacket, called_pkts]) 0⟩

end

/-- Settles O43: the setup bytes are taken, and the status of the answer decides the rest. -/
theorem setupInRequest : Obligations.SetupInRequest := by
  intro s k d bs st h hs hep hpar htok hsize hlen hr hfit hdir P D r hst hacc hmay
  have hk := h.packet
  obtain ⟨hsetup, -, -⟩ := dispatch_token h hep hpar
  obtain ⟨u, hu, hR⟩ := tokenSetup_takes ((Reached.refl k d s).setStatus hk .success) hk
    h.device htok hsize hlen hr
  rw [if_neg (Nat.not_lt.mpr hfit), if_pos hdir] at hu
  obtain ⟨v, hv, hR⟩ := setupTokenIn_reaches hR hk h.device.2 rfl hst hacc
  obtain ⟨t, ht, hT⟩ := submit_control_ends h hep ((hsetup htok).trans (hu.trans hv)) hR rfl hmay
  obtain ⟨hP, hD⟩ := hT.frames called_pkts called_devs
  obtain ⟨hwritten, hD⟩ := written_of_deviceIs hD rfl hs.device.buffer
  refine ⟨t, ht, hT.frame, fun x => by rw [hT.hmem, called_hmem], ?_, hwritten, hD⟩
  rw [← settled_status st st]
  exact hP

/-- Settles O46: the handler is called with the payload, and every answer but Async ends the
transfer. -/
theorem statusPhaseOfOutRequest : Obligations.StatusPhaseOfOutRequest := by
  intro s k d st h hs P D bs r hep hpar htok hctl hdir hst hacc hmay
  have hk := h.packet
  obtain ⟨-, hin, -⟩ := dispatch_token h hep hpar
  obtain ⟨v, hv, hR⟩ := statusPhaseIn_reaches (bs := bs)
    ((Reached.refl k d s).setStatus hk .success) hk h.device.2 rfl hst hacc hdir
  have hdispatch : dispatch k s = .ok () v :=
    (hin htok).trans ((tokenIn_ack (u := s.setStatus k .success) hctl).trans hv)
  obtain ⟨t, ht, hT⟩ := submit_control_ends h hep hdispatch hR rfl hmay
  obtain ⟨hP, hD⟩ := hT.frames called_pkts called_devs
  obtain ⟨hwritten, hD⟩ := written_of_deviceIs hD rfl hs.device.buffer
  refine ⟨t, ht, hT.frame, fun x => by rw [hT.hmem, called_hmem], ?_, hwritten, ?_⟩
  · rw [← settled_status st st]
    exact hP
  · rw [← hctl]
    exact hD

/-! ### COMPLETE of such a packet -/

theorem Reached.refl_dropResp (k d : Index) (s : State) :
    Reached k d (s.pkt k) (s.dev d) s.dropResp s.dropResp := by
  simpa using Reached.refl k d s.dropResp

/-- A response that comes while the device is in another control state than the one its call was
left pending in (R138). -/
theorem ctlAsyncDone_abandoned {m : Nat} {v : State} (hv : applyCtlResp d k a s = .ok m v)
    (hkind : pendingKind (v.pkt k) ≠ some (v.dev d).ctlState) :
    ctlAsyncDone d k a s = .ok () v := by
  rw [ctlAsyncDone, hv, Run.bind_ok, if_pos hkind]

/-- A response that comes while the transfer is still the one its call belonged to (R138). -/
theorem ctlAsyncDone_live {m : Nat} {v : State} (hv : applyCtlResp d k a s = .ok m v)
    (hkind : pendingKind (v.pkt k) = some c) (hctl : (v.dev d).ctlState = c) :
    (c = .setup → ctlAsyncDone d k a s =
      if (v.pkt k).status = .success then
        .ok () (((shortenSetup d m v).setCtl d .data).setActual k 8)
      else .ok () (v.setCtl d .idle)) ∧
    (c = .ack → ctlAsyncDone d k a s = .ok () ((v.setCtl d .idle).setActual k 0)) ∧
    (c = .param → ctlAsyncDone d k a s =
      if (v.pkt k).status = .success then paramFinish d k m v else .ok () v) := by
  have hlive : ¬ pendingKind (v.pkt k) ≠ some (v.dev d).ctlState := by simp [hkind, hctl]
  refine ⟨?_, ?_, ?_⟩ <;> rintro rfl <;>
    rw [ctlAsyncDone, hv, Run.bind_ok, if_neg hlive, hctl]

theorem pendingKind_token (hpar : P.parameter = 0) :
    (P.token = .setup → pendingKind P = some .setup) ∧
    (P.token = .inn → pendingKind P = some .ack) := by
  refine ⟨fun ht => ?_, fun ht => ?_⟩ <;> rw [pendingKind, if_neg (not_not.mpr hpar), ht]

/-- The rest of the synchronous path of a SETUP token of an IN request and of a status phase
(R126, R130, R138). -/
theorem ctlAsyncDone_continues (h : Reached k d P D s u) (hk : IsPacket s k)
    (hd : d.toNat < s.devs.length) (hst : st.code = a.status) (hacc : AcceptedByControl s a)
    (hpar : P.parameter = 0)
    (hkind : P.token = .setup ∧ D.ctlState = .setup ∨ P.token = .inn ∧ D.ctlState = .ack) :
    ∃ v, ctlAsyncDone d k a u = .ok () v ∧
      Reached k d
        { P with
          status := st
          actualLength := if P.token = .inn then 0 else if st = .success then 8
            else P.actualLength }
        { D with
          dataBuf := D.dataBuf.writeList 0 a.data
          setupLen := if P.token = .setup ∧ st = .success ∧ a.n.toNat < D.setupLen.toNat then
            a.n.extractLsb' 0 16 else D.setupLen
          ctlState := if P.token = .setup ∧ st = .success then .data else .idle }
        s v := by
  obtain ⟨hksetup, hkack⟩ := pendingKind_token hpar
  obtain ⟨v, hv, hR⟩ := applyCtlResp_reaches h hk hd hst hacc
  have hlive := fun c => ctlAsyncDone_live (c := c) hv
  simp only [hR.pkt, hR.dev] at hlive
  rcases hkind with ⟨htok, hctl⟩ | ⟨htok, hctl⟩
  · obtain ⟨hsetup, -, -⟩ := hlive .setup (hksetup htok) hctl
    rw [hsetup rfl]
    by_cases hsucc : st = .success
    · have hdone := hR.setupDone hk hd hsucc a.n
      rw [if_pos hsucc]
      exact ⟨_, rfl, by simpa [htok, hsucc, shortened] using hdone⟩
    · have hdone := hR.setCtl hd .idle
      rw [if_neg hsucc]
      exact ⟨_, rfl, by simpa [htok, hsucc] using hdone⟩
  · obtain ⟨-, hack, -⟩ := hlive .ack (hkack htok) hctl
    have hdone := (hR.setCtl hd .idle).setActual hk 0
    exact ⟨_, hack rfl, by simpa [htok] using hdone⟩

/-- Settles O53: the response is applied, and the rest is that of the synchronous path. -/
theorem completeControl : Obligations.CompleteControl := by
  intro s k st h hs P d D r hep hpar hfin hst hacc hkind
  obtain ⟨u, hu, hR⟩ := ctlAsyncDone_continues (Reached.refl_dropResp k d s)
    (by rw [IsPacket, State.dropResp_pkts]; exact h.packet)
    (by rw [State.dropResp_devs]; exact h.device) hst
    (by rwa [AcceptedByControl, State.dropResp_cfg]) hpar hkind
  obtain ⟨t, ht, hT⟩ := complete_control_ends h hep hfin hst hu hR
  obtain ⟨hP, hD⟩ := hT.frames (State.dropResp_pkts s) (State.dropResp_devs s)
  obtain ⟨hwritten, hD⟩ := written_of_deviceIs hD rfl hs.device.buffer
  refine ⟨t, ht, ?_, fun x => ?_, hP, hwritten, hD⟩
  · rw [← State.dropResp_trace s]
    exact hT.frame
  · rw [hT.hmem, State.emit_hmem, State.dropResp_hmem]

end Sys2Proof.Machine
end

section
/-! PROOF. A request delivered as a parameter, and the COMPLETE of one or of a transfer that was
abandoned (spec 42_control_transfer.md R120, R122, R128, R138, R140). -/

namespace Sys2Proof.Machine

open Sys2Proof.Claim

variable {d k : Index} {n : Word} {a : Resp} {m : Memory} {s t u v w : State} {st : Status}
  {P : Packet} {D : Device} {bs ps : List Byte} {c : CtlState} {live : Prop} [Decidable live]

/-! ### The bytes that come back -/

/-- How many bytes an IN packet receives: the length after the answer, clamped to the vector
(R122). -/
def returned (live : Prop) [Decidable live] (n : Word) (P : Packet) (D : Device) : Nat :=
  min (shortened live n D.setupLen).toNat (iovSize P.iov)

/-- The end `v` of a Param request whose answer was applied in a state with packet `P` and device
`D`, and that began in `s`: only if `live` holds is the length shortened to `n`, and does an IN
packet receive its bytes, which leaves host memory as `m` (R122, R128). -/
structure ParamEnds (k d : Index) (live : Prop) [Decidable live] (n : Word) (P : Packet)
    (D : Device) (s v : State) (m : Memory) : Prop where
  back : live ∧ P.token = .inn → vectorWrite s.cfg P.iov s.hmem 0
    (bytesOf D.dataBuf 0 (returned live n P D)) = some m
  kept : ¬ (live ∧ P.token = .inn) → m = s.hmem
  reached : Reached k d
    { P with
      actualLength := if live ∧ P.token = .inn then BitVec.ofNat 32 (returned live n P D)
        else P.actualLength }
    { D with setupLen := shortened live n D.setupLen } { s with hmem := m } v

theorem paramEnds_of_not (h : Reached k d P D s u) (hlive : ¬ live) :
    ParamEnds k d live n P D s u s.hmem where
  back hback := absurd hback.1 hlive
  kept _ := rfl
  reached := by
    rw [shortened_of_not hlive, if_neg fun hback => hlive hback.1]
    exact h

/-- After Success the length is shortened and an IN packet receives its bytes (R122, R128). -/
theorem paramFinish_ends (h : Reached k d P D s u) (hk : IsPacket s k)
    (hd : d.toNat < s.devs.length) (hin : ∀ g ∈ P.iov, g.inHost s.cfg) (hlive : live) (n : Word) :
    ∃ v m, paramFinish d k n.toNat u = .ok () v ∧ ParamEnds k d live n P D s v m := by
  have hshort := h.shortenSetup hd hlive n
  have hmoved : paramLength d k (shortenSetup d n.toNat u) = returned live n P D := by
    rw [paramLength, hshort.dev, hshort.pkt, returned]
  by_cases htok : P.token = .inn
  · obtain ⟨m, v, hcopy, hm, hR⟩ := copyDataBuf_in (n := returned live n P D) (off := 0)
      (hshort.setActual hk 0) hk hd hin (by simp [returned]) htok
    refine ⟨v, m, ?_, fun _ => hm, fun hn => absurd ⟨hlive, htok⟩ hn, ?_⟩
    · rw [paramFinish, hshort.pkt, if_pos htok, hmoved, hcopy]
    · rw [if_pos ⟨hlive, htok⟩, ← BitVec.zero_add (BitVec.ofNat 32 _)]
      exact hR
  · refine ⟨shortenSetup d n.toNat u, s.hmem, ?_, fun hback => absurd hback.2 htok,
      fun _ => rfl, ?_⟩
    · rw [paramFinish, hshort.pkt, if_neg htok]
    · rw [if_neg fun hback => htok hback.2]
      exact hshort

/-- Host memory at the end of the command, in the words of the statements. -/
theorem ParamEnds.memory (h : ParamEnds k d live n P D w v m) (hcfg : w.cfg = s.cfg)
    (hmem : w.hmem = s.hmem) (hwf : s.hmem.wf = true) (ht : t.hmem = m)
    (hbuf : (t.dev d).dataBuf = D.dataBuf) :
    (live ∧ P.token = .inn →
      Stored s t P.iov 0 (bytesOf (t.dev d).dataBuf 0 (returned live n P D))) ∧
    (¬ (live ∧ P.token = .inn) → SameMemory s t) := by
  obtain ⟨hback, hkept, -⟩ := h
  rw [hcfg, hmem] at hback
  rw [hmem] at hkept
  refine ⟨fun hb => ?_, fun hn x => by rw [ht, hkept hn]⟩
  rw [hbuf]
  exact stored_of_vectorWrite (hback hb) hwf ht

/-! ### SUBMIT -/

/-- A Param packet whose request fits takes its payload, calls the handler and ends by the status of
the answer (R122). -/
theorem paramPath_answered
    (hfit : (SetupBuf.ofParameter (u.pkt k).parameter).length.toNat ≤ u.cfg.ctrlBufSize) {m : Nat}
    (hpay : paramPayload d k (beginRequest d (.ofParameter (u.pkt k).parameter) .param u) =
      .ok () v) (hcall : controlHandler d k v = .ok m w) :
    paramPath d k u =
      if (w.pkt k).status = .success then paramFinish d k m w else .ok () w := by
  have hfit' : ¬ (beginRequest d (.ofParameter (u.pkt k).parameter) .param u).cfg.ctrlBufSize <
      (SetupBuf.ofParameter (u.pkt k).parameter).length.toNat := Nat.not_lt.mpr hfit
  rw [paramPath, if_neg hfit', hpay, Run.bind_ok, hcall, Run.bind_ok]

/-- A Param packet up to its end: the setup bytes of the parameter and an OUT payload are taken, the
handler is called, and its answer decides the rest (R122, R128, R140). -/
theorem paramPath_ends (h : Reached k d P D s u) (hk : IsPacket s k) (hd : IsDevice s d)
    (hin : ∀ g ∈ P.iov, g.inHost s.cfg) (hbs : bs = parameterBytes P.parameter)
    (hfit : (lengthOf bs).toNat ≤ s.cfg.ctrlBufSize)
    (hps : if P.token = .out then
        ps.length = min (lengthOf bs).toNat (iovSize P.iov) ∧ Reads s P.iov 0 ps
      else ps = [])
    (hst : st.code = (reply d 6 s).status) (hacc : AcceptedByControl s (reply d 6 s)) :
    ∃ x m, paramPath d k u = .ok () x ∧
      ParamEnds k d (st = .success) (reply d 6 s).n
        { P with
          status := st
          actualLength := if P.token = .out then BitVec.ofNat 32 ps.length else P.actualLength }
        { D with
          setupBuf := bufferOf bs, ctlState := .param, setupLen := lengthOf bs, setupIndex := 0
          dataBuf := (D.dataBuf.writeList 0 ps).writeList 0 (reply d 6 s).data }
        (called d 6 [controlCall d k bs (lengthOf bs) (D.dataBuf.writeList 0 ps)] s) x m := by
  subst hbs
  have hbegun := h.beginRequest hd (.ofParameter P.parameter) .param
  obtain ⟨v, hpay, hv⟩ := paramPayload_reaches hbegun hk hd hps
  obtain ⟨w, hcall, hw⟩ := controlHandler_reaches (bs := parameterBytes P.parameter) hv hk hd.2 rfl
    hst hacc
  rw [paramPath_answered (by rw [h.pkt, h.cfg]; exact hfit) (by rw [h.pkt]; exact hpay) hcall,
    hw.pkt]
  by_cases hsucc : st = .success
  · rw [if_pos hsucc]
    exact paramFinish_ends hw (by rwa [IsPacket, called_pkts]) (by rw [called_devs]; exact hd.2)
      (by rwa [called_cfg]) hsucc _
  · rw [if_neg hsucc]
    exact ⟨w, _, rfl, paramEnds_of_not hw hsucc⟩

/-- Only an IN packet receives bytes, so its length is not that of an OUT payload. -/
theorem length_of_back {p : Prop} [Decidable p] (x y z : Word) :
    (if P.token = .out then x else if p ∧ P.token = .inn then y else z) =
      if p ∧ P.token = .inn then y else if P.token = .out then x else z := by
  by_cases hback : p ∧ P.token = .inn
  · have hout : P.token ≠ .out := by rw [hback.2]; decide
    rw [if_pos hback, if_pos hback, if_neg hout]
  · rw [if_neg hback, if_neg hback]

/-- Settles O49: the payload is taken, the handler is called, and after Success the bytes come
back. -/
theorem parameterRequest : Obligations.ParameterRequest := by
  intro s k d st ps h hs P D bs r hep hpar hfit hps hst hacc hmay len back moved
  obtain ⟨x, m, hx, hend⟩ := paramPath_ends (bs := bs)
    ((Reached.refl k d s).setStatus h.packet .success) h.packet h.device hs.packet.inHost rfl
    hfit hps hst hacc
  obtain ⟨t, ht, hT⟩ := submit_control_ends h hep ((dispatch_param h hep hpar).trans hx)
    hend.reached rfl hmay
  obtain ⟨hP, hD⟩ := hT.frames (s := s) called_pkts called_devs
  have hbuf := congrArg Device.dataBuf hT.dev
  obtain ⟨hstored, hsame⟩ := hend.memory called_cfg called_hmem hs.memory hT.hmem hbuf
  obtain ⟨hwritten, hD⟩ := written_of_deviceIs hD rfl (Memory.wf_writeList 0 ps hs.device.buffer)
  refine ⟨t, D.dataBuf.writeList 0 ps, ht, written_writeList 0 ps hs.device.buffer, hwritten, ?_,
    hstored, hsame, ?_, hD⟩
  · rw [hT.hmem]
    exact hT.frame
  · rw [length_of_back, ← settled_status st st]
    exact hP

/-! ### COMPLETE -/

/-- The control state in which the handler call of a packet was left pending, with Idle for a packet
that has no such call (R138). -/
def pendingState (P : Packet) : CtlState :=
  if P.parameter ≠ 0 then .param
  else if P.token = .setup then .setup else if P.token = .inn then .ack else .idle

theorem pendingKind_eq_some (h : pendingKind P = some c) : c ≠ .idle ∧ c = pendingState P := by
  unfold pendingKind at h
  unfold pendingState
  split at h
  · rename_i hpar
    cases h
    exact ⟨nofun, (if_pos hpar).symm⟩
  · rename_i hpar
    rw [if_neg hpar]
    cases htok : P.token <;> rw [htok] at h <;> cases h <;> exact ⟨nofun, rfl⟩

theorem pendingKind_of_param (h : pendingState P = .param) : pendingKind P = some .param := by
  by_cases hpar : P.parameter ≠ 0
  · exact if_pos hpar
  · rw [pendingState, if_neg hpar] at h
    cases htok : P.token <;> rw [htok] at h <;> cases h

/-- Settles O54: a Param packet ends as on the synchronous path while its device is in control state
Param, and an abandoned one where its response is applied. -/
theorem completeParamOrAbandoned : Obligations.CompleteParamOrAbandoned := by
  intro s k st h hs P d D r kind hep hfin hst hacc hkind live len back moved
  have hk : IsPacket s.dropResp k := by rw [IsPacket, State.dropResp_pkts]; exact h.packet
  have hd : d.toNat < s.dropResp.devs.length := by rw [State.dropResp_devs]; exact h.device
  obtain ⟨v, hv, hR⟩ := applyCtlResp_reaches (Reached.refl_dropResp k d s) hk hd hst
    (by rwa [AcceptedByControl, State.dropResp_cfg])
  have hends : ∃ x m, ctlAsyncDone d k r s.dropResp = .ok () x ∧
      ParamEnds k d live r.n { P with status := st }
        { D with dataBuf := D.dataBuf.writeList 0 r.data } s.dropResp x m := by
    by_cases hparam : D.ctlState = .param ∧ kind = .param
    · obtain ⟨hctl, hpending⟩ := hparam
      obtain ⟨-, -, hdone⟩ := ctlAsyncDone_live hv (c := .param)
        (by rw [hR.pkt]; exact pendingKind_of_param hpending) (by rw [hR.dev]; exact hctl)
      rw [hdone rfl, hR.pkt]
      by_cases hsucc : st = .success
      · rw [if_pos hsucc]
        exact paramFinish_ends hR hk hd (by rw [State.dropResp_cfg]; exact hs.packet.inHost)
          ⟨hctl, hpending, hsucc⟩ r.n
      · rw [if_neg hsucc]
        exact ⟨v, _, rfl, paramEnds_of_not hR fun ⟨_, _, hl⟩ => hsucc hl⟩
    · refine ⟨v, _, ctlAsyncDone_abandoned hv ?_,
        paramEnds_of_not hR fun ⟨hctl, hpending, _⟩ => hparam ⟨hctl, hpending⟩⟩
      rw [hR.pkt, hR.dev]
      intro hp
      obtain ⟨hidle, hstate⟩ := pendingKind_eq_some hp
      rcases hkind with hother | hpending | hnone
      · exact hother hstate
      · exact hparam ⟨hstate.trans hpending, hpending⟩
      · exact hidle (hstate.trans hnone)
  obtain ⟨x, m, hx, hend⟩ := hends
  obtain ⟨t, ht, hT⟩ := complete_control_ends h hep hfin hst hx hend.reached
  obtain ⟨hP, hD⟩ := hT.frames (s := s) (State.dropResp_pkts s) (State.dropResp_devs s)
  have hbuf := congrArg Device.dataBuf hT.dev
  obtain ⟨hstored, hsame⟩ := hend.memory (State.dropResp_cfg s) (State.dropResp_hmem s) hs.memory
    hT.hmem hbuf
  obtain ⟨hwritten, hD⟩ := written_of_deviceIs hD rfl hs.device.buffer
  refine ⟨t, ht, ?_, hstored, hsame, hP, hwritten, hD⟩
  rw [hT.hmem, ← State.dropResp_trace s]
  exact hT.frame

end Sys2Proof.Machine
end

section
/-! PROOF. What PORT_BIND writes, and what it refuses (spec 43_port_device.md R150). -/

namespace Sys2Proof.Machine

open Sys2Proof.Claim

variable {d e p q : Index} {s t : State}

/-! ### Bindings -/

/-- A port that holds a device exists. -/
theorem isPort_of_bound (h : (s.port p).dev ≠ noIndex) : IsPort s p := by
  by_contra hn
  rw [State.port, List.getD_eq_default _ _ (Nat.le_of_not_lt hn)] at h
  exact h rfl

/-- With at most 255 entries no index of the table is the one that means none (log 21). -/
theorem ne_noIndex_of_lt {n : Nat} (hn : n ≤ 255) (h : p.toNat < n) : p ≠ noIndex := by
  rintro rfl
  have : noIndex.toNat = 255 := rfl
  omega

/-- With at most 255 ports, a port holds a device exactly if the device names the port (R150). -/
theorem BindingOk.dev_eq_iff (hs : BindingOk s) (hlen : s.ports.length ≤ 255) (hq : IsPort s q)
    (hd : IsDevice s d) : (s.port q).dev = d ↔ (s.dev d).port = q := by
  refine ⟨fun h => ?_, fun h => ?_⟩
  · subst h
    exact (hs.portDev q hq hd.1).2
  · subst h
    exact (hs.devPort d hd.2 (ne_noIndex_of_lt hlen hq)).2

/-- A device on a port names the port (R150). -/
theorem BindingOk.port_of_bound (hs : BindingOk s) (h : (s.port p).dev ≠ noIndex) :
    (s.dev (s.port p).dev).port = p :=
  (hs.portDev p (isPort_of_bound h) h).2

theorem isAttached_iff (d : Index) (s : State) :
    isAttached d s = true ↔ d ≠ noIndex ∧ (s.dev d).attached = true := by
  simp [isAttached]

/-! ### The parts of a PORT_BIND -/

@[simp] theorem port_setDevPort (d p q : Index) (s : State) :
    (setDevPort d p s).port q = s.port q := by
  unfold setDevPort
  split <;> rfl

/-- An existing device after a write to the port of a device, or of none. -/
theorem dev_setDevPort_of_isDevice (p : Index) (he : IsDevice s e) : (setDevPort d p s).dev e =
    { s.dev e with port := if e = d then p else (s.dev e).port } := by
  by_cases hed : e = d
  · subst hed
    rw [setDevPort, if_pos he.1, State.dev_updDev_self s e _ he.2, if_pos rfl]
  · rw [dev_setDevPort_other p s (Ne.symm hed), if_neg hed]

/-- The port that held the device holds none; it is the one the device names (R150). -/
theorem dev_port_leaveOldPort (hs : BindingOk s) (hlen : s.ports.length ≤ 255) (hq : IsPort s q)
    (hd : d = noIndex ∨ IsDevice s d) : ((leaveOldPort d s).port q).dev =
      if d ≠ noIndex ∧ (s.port q).dev = d then noIndex else (s.port q).dev := by
  rcases hd with rfl | hd
  · rw [leaveOldPort, if_neg fun h => h.1 rfl, if_neg fun h => h.1 rfl]
  have hbound := hs.dev_eq_iff hlen hq hd
  by_cases hdq : (s.dev d).port = q
  · rw [leaveOldPort, hdq, if_pos ⟨hd.1, ne_noIndex_of_lt hlen hq⟩, if_pos ⟨hd.1, hbound.mpr hdq⟩,
      State.port_updPort_self s q _ hq]
  · rw [if_neg fun h => hdq (hbound.mp h.2), leaveOldPort]
    split
    · rw [State.port_updPort_other s _ (Ne.symm hdq)]
    · rfl

/-! ### The binding after a PORT_BIND -/

/-- The binding of `s` with device `d`, or none, moved to port `p` (R150). -/
structure Rebound (p d : Index) (s t : State) : Prop where
  portsLen : t.ports.length = s.ports.length
  devsLen  : t.devs.length = s.devs.length
  port     : ∀ q, IsPort s q → (t.port q).dev =
    if q = p then d else if d ≠ noIndex ∧ (s.port q).dev = d then noIndex else (s.port q).dev
  dev      : ∀ e, IsDevice s e → t.dev e = { s.dev e with
    port := if e = d then p else if e = (s.port p).dev then noIndex else (s.dev e).port }

theorem quiet_bindPort (p d : Index) (s : State) : Quiet s (bindPort p d s) :=
  (quiet_leaveOldPort _ s).trans ((quiet_setDevPort _ _ _).trans
    ((quiet_updPort _ _ _).trans (quiet_setDevPort _ _ _)))

theorem dev_port_bindPort (hs : BindingOk s) (hlen : s.ports.length ≤ 255) (hq : IsPort s q)
    (hd : d = noIndex ∨ IsDevice s d) : ((bindPort p d s).port q).dev =
      if q = p then d else if d ≠ noIndex ∧ (s.port q).dev = d then noIndex
      else (s.port q).dev := by
  rw [bindPort, port_setDevPort]
  by_cases hqp : q = p
  · subst hqp
    have hlast : IsPort (setDevPort (s.port q).dev noIndex (leaveOldPort d s)) q := by
      rw [IsPort, (quiet_setDevPort _ _ _).portsLen, (quiet_leaveOldPort _ _).portsLen]
      exact hq
    rw [if_pos rfl, State.port_updPort_self _ q _ hlast]
  · rw [if_neg hqp, State.port_updPort_other _ _ hqp, port_setDevPort,
      dev_port_leaveOldPort hs hlen hq hd]

theorem dev_bindPort_of_isDevice (he : IsDevice s e) : (bindPort p d s).dev e = { s.dev e with
    port := if e = d then p else if e = (s.port p).dev then noIndex else (s.dev e).port } := by
  have hleft : IsDevice (leaveOldPort d s) e := by
    rw [IsDevice, (quiet_leaveOldPort _ _).devsLen]
    exact he
  have hheld : IsDevice
      ((setDevPort (s.port p).dev noIndex (leaveOldPort d s)).updPort p fun P => { P with dev := d })
      e := by
    rw [IsDevice, State.updPort_devs, (quiet_setDevPort _ _ _).devsLen]
    exact hleft
  rw [bindPort, dev_setDevPort_of_isDevice p hheld, State.dev_updPort,
    dev_setDevPort_of_isDevice noIndex hleft, dev_leaveOldPort]

theorem rebound_bindPort (p : Index) (hs : BindingOk s) (hlen : s.ports.length ≤ 255)
    (hd : d = noIndex ∨ IsDevice s d) : Rebound p d s (bindPort p d s) where
  portsLen := (quiet_bindPort p d s).portsLen
  devsLen := (quiet_bindPort p d s).devsLen
  port _ hq := dev_port_bindPort hs hlen hq hd
  dev _ he := dev_bindPort_of_isDevice he

/-! ### The command -/

theorem bindPort_frame (p d : Index) (s : State) : bindPort p d s =
    { s with ports := (bindPort p d s).ports, devs := (bindPort p d s).devs } := by
  unfold bindPort setDevPort leaveOldPort
  split_ifs <;> rfl

theorem exec_portBind (hf : s.fault = false) (hp : IsPort s p) (hd : d = noIndex ∨ IsDevice s d)
    (hold : isAttached (s.port p).dev s = false) (hnew : isAttached d s = false) :
    exec (.portBind p d) s = .next (bindPort p d s) := by
  rw [exec, execPortBind]
  exact command_of_ok _ hf (by
    simp [checkPort_ok hp, checkDeviceOrNone_ok hd, hold, hnew, bindPort])

/-- PORT_BIND looks at the port's device before it looks at the new one (R150). -/
theorem portBind_raises (hf : s.fault = false) (hp : IsPort s p) (hd : d = noIndex ∨ IsDevice s d)
    (h : isAttached (s.port p).dev s = true ∨ isAttached d s = true) :
    Raises (.portBind p d) 20 s := by
  refine raises_of_body (c := .bindState) (fun _ => rfl) hf ?_
  by_cases hold : isAttached (s.port p).dev s = true
  · simp [checkPort_ok hp, checkDeviceOrNone_ok hd, hold]
  · simp [checkPort_ok hp, checkDeviceOrNone_ok hd, hold, h.resolve_left hold]

/-- Settles O56: a device involved is attached, or the binding moves. -/
theorem portBind : Obligations.PortBind := by
  intro s p d hf hlen hs hp hd old held
  have hheld : held ↔ isAttached old s = true ∨ isAttached d s = true := by
    rw [isAttached_iff, isAttached_iff]
  refine ⟨fun h => portBind_raises hf hp hd (hheld.mp h), fun h => ?_⟩
  rw [hheld, not_or, Bool.not_eq_true, Bool.not_eq_true] at h
  obtain ⟨hold, hnew⟩ := h
  obtain ⟨hports, hdevs, hport, hdev⟩ := rebound_bindPort p hs hlen hd
  exact ⟨bindPort p d s, exec_portBind hf hp hd hold hnew, bindPort_frame p d s,
    fun _ => by rw [(quiet_bindPort p d s).hmem], hports, hdevs, hport, hdev⟩

end Sys2Proof.Machine
end

section
/-! PROOF. Ports and devices agree on who is bound to whom after every step (spec
43_port_device.md R150 to R153). -/

namespace Sys2Proof.Machine

open Sys2Proof.Claim

variable {d p : Index} {i : Instr} {s t u : State}

/-! ### PORT_BIND -/

theorem Rebound.portDev (h : Rebound p d s t) (hs : BindingOk s)
    (hd : d = noIndex ∨ IsDevice s d) (q : Index) (hq : IsPort s q) (hne : (t.port q).dev ≠ noIndex) :
    (t.port q).dev.toNat < s.devs.length ∧ (t.dev (t.port q).dev).port = q := by
  have hport := h.port q hq
  by_cases hqp : q = p
  · rw [if_pos hqp] at hport
    rw [hport] at hne ⊢
    have hdev := hd.resolve_left hne
    rw [h.dev d hdev, if_pos rfl]
    exact ⟨hdev.2, hqp.symm⟩
  · rw [if_neg hqp] at hport
    split at hport
    · exact absurd hport hne
    · rename_i hkept
      rw [hport] at hne ⊢
      obtain ⟨hlt, hback⟩ := hs.portDev q hq hne
      have hnew : (s.port q).dev ≠ d := fun he => hkept ⟨he ▸ hne, he⟩
      have hold : (s.port q).dev ≠ (s.port p).dev := fun he =>
        hqp (hback.symm.trans (he ▸ hs.port_of_bound (he ▸ hne)))
      rw [h.dev _ ⟨hne, hlt⟩, if_neg hnew, if_neg hold]
      exact ⟨hlt, hback⟩

theorem Rebound.devPort (h : Rebound p d s t) (hs : BindingOk s) (hp : IsPort s p) (e : Index)
    (he : IsDevice s e) (hne : (t.dev e).port ≠ noIndex) :
    IsPort s (t.dev e).port ∧ (t.port (t.dev e).port).dev = e := by
  have hport := congrArg Device.port (h.dev e he)
  dsimp only at hport
  by_cases hed : e = d
  · rw [hport, if_pos hed, h.port p hp, if_pos rfl]
    exact ⟨hp, hed.symm⟩
  · rw [if_neg hed] at hport
    split at hport
    · exact absurd hport hne
    · rename_i hold
      rw [hport] at hne ⊢
      obtain ⟨hq, hback⟩ := hs.devPort e he.2 hne
      have hqp : (s.dev e).port ≠ p := fun hq => hold (hq ▸ hback.symm)
      rw [h.port _ hq, if_neg hqp, hback, if_neg fun hd => hed hd.2]
      exact ⟨hq, rfl⟩

/-- A binding moved between devices that are not attached (R150). -/
theorem Rebound.bindingOk (h : Rebound p d s t) (hs : BindingOk s) (hdevs : s.devs.length ≤ 255)
    (hp : IsPort s p) (hd : d = noIndex ∨ IsDevice s d)
    (hold : isAttached (s.port p).dev s = false) (hnew : isAttached d s = false) :
    BindingOk t := by
  have hdev : ∀ e : Index, e.toNat < t.devs.length → IsDevice s e := fun e he =>
    have hlt := h.devsLen ▸ he
    ⟨ne_noIndex_of_lt hdevs hlt, hlt⟩
  refine ⟨fun q hq => ?_, fun e he => ?_, fun e he hatt => ?_⟩
  · rw [h.portsLen] at hq
    rw [h.devsLen]
    exact h.portDev hs hd q hq
  · rw [h.portsLen]
    exact h.devPort hs hp e (hdev e he)
  · have hE := hdev e he
    rw [h.dev e hE] at hatt ⊢
    have hatt' : isAttached e s = true := (isAttached_iff e s).mpr ⟨hE.1, hatt⟩
    have hed : e ≠ d := by
      rintro rfl
      exact absurd hatt' (Bool.eq_false_iff.mp hnew)
    have heold : e ≠ (s.port p).dev := by
      rintro rfl
      exact absurd hatt' (Bool.eq_false_iff.mp hold)
    rw [if_neg hed, if_neg heold]
    exact hs.attached e hE.2 hatt

/-! ### The other commands -/

/-- The ports are as they were, and so is what each device says of its port. -/
theorem bindingOk_of_unmoved (hs : BindingOk s) (hsetup : SameSetup s t)
    (hport : ∀ p, t.port p = s.port p) (hdev : ∀ d, (t.dev d).port = (s.dev d).port)
    (hatt : ∀ d : Index, d.toNat < s.devs.length → (t.dev d).attached = true →
      (s.dev d).port ≠ noIndex) : BindingOk t := by
  refine ⟨fun p => ?_, fun d => ?_, fun d => ?_⟩
  · rw [hsetup.portsLen, hsetup.devsLen, hport, hdev]
    exact hs.portDev p
  · rw [hsetup.portsLen, hsetup.devsLen, hdev, hport]
    exact hs.devPort d
  · rw [hsetup.devsLen, hdev]
    exact hatt d

theorem bindingOk_of_tables (hs : BindingOk s) (hsetup : SameSetup s t) (hports : t.ports = s.ports)
    (hdevs : t.devs = s.devs) : BindingOk t := by
  have hdev : ∀ d, t.dev d = s.dev d := fun d => by simp only [State.dev, hdevs]
  refine bindingOk_of_unmoved hs hsetup (fun p => by simp only [State.port, hports])
    (fun d => by rw [hdev]) fun d => ?_
  rw [hdev]
  exact hs.attached d

@[simp] theorem port_emitHook (d : Index) (b : Nat) (e : Event) (s : State) (q : Index) :
    (emitHook d b e s).port q = s.port q := by
  unfold emitHook
  split <;> rfl

@[simp] theorem port_deviceReset (d q : Index) (s : State) :
    (deviceReset d s).port q = s.port q := by
  rw [deviceReset, port_emitHook, State.port_updDev]

theorem Latched.port (h : Latched u t) (q : Index) : t.port q = u.port q := by
  rcases h with rfl | ⟨c, w, rfl⟩
  · rfl
  · simp only [State.port, contractViolation_ports]

/-- A port is written by PORT_BIND alone (R13). -/
theorem exec_port (h : exec i s = .next t) (hi : ∀ p d, i ≠ .portBind p d) (q : Index) :
    t.port q = s.port q := by
  have hmoves : ∀ {k}, (i = .cancel k ∨ i = .complete k ∨ ∃ d, i = .submit k d) →
      t.port q = s.port q := fun hk => by
    obtain ⟨u, hm, hl⟩ := exec_moves h hk
    rw [hl.port, State.port, hm.ports, State.port]
  cases i with
  | epSetType | epSetIfnum | epSetMps | epSetPipe | epSetHalt =>
    rcases setEndpoint_cases h with hr | ⟨-, -, rfl⟩
    · exact hr.latched.port q
    · rfl
  | epGet =>
    rcases epGet_cases h with hr | ⟨-, hr⟩
    · exact hr.latched.port q
    · rw [hr]; rfl
  | pktSetup =>
    rcases pktSetup_cases h with hr | ⟨-, -, -, -, -, rfl⟩
    · exact hr.latched.port q
    · rfl
  | pktIovAdd =>
    rcases pktIovAdd_cases h with hr | ⟨-, -, -, -, -, -, rfl⟩
    · exact hr.latched.port q
    · rfl
  | pktSetParam =>
    rcases pktSetParam_cases h with hr | ⟨-, -, -, rfl⟩
    · exact hr.latched.port q
    · rfl
  | submit k d => exact hmoves (.inr (.inr ⟨d, rfl⟩))
  | cancel => exact hmoves (.inl rfl)
  | complete => exact hmoves (.inr (.inl rfl))
  | pktRead =>
    rcases pktRead_cases h with hr | ⟨-, hr⟩
    · exact hr.latched.port q
    · rw [hr]; rfl
  | portBind p d => exact absurd rfl (hi p d)
  | attach =>
    rcases attach_cases h with hr | ⟨-, -, -, -, rfl⟩
    · exact hr.latched.port q
    · exact port_attached _ _ q
  | detach =>
    rcases detach_cases h with hr | ⟨-, -, -, -, rfl⟩
    · exact hr.latched.port q
    · exact port_detached _ _ q
  | resetPort =>
    rcases resetPort_cases h with hr | ⟨-, -, -, -, rfl⟩
    · exact hr.latched.port q
    · rw [port_deviceReset, port_attached, port_detached]
  | findDevice p a =>
    have hasked : (asked (s.port p).dev a s).port q = s.port q := by
      rw [asked, State.port_dropResp, State.port_emit]
    rcases findDevice_cases h with hr | ⟨-, hr | hr | ⟨c, rfl⟩⟩
    · exact hr.latched.port q
    · rw [hr]; rfl
    · rw [hr]; exact hasked
    · exact (Latched.port (.inr ⟨c, _, rfl⟩) q).trans hasked
  | devSetAddr =>
    rcases devSetAddr_cases h with hr | ⟨-, -, rfl⟩
    · exact hr.latched.port q
    · rfl
  | devSetRwake =>
    rcases devSetRwake_cases h with hr | ⟨-, -, rfl⟩
    · exact hr.latched.port q
    · rfl

theorem Placed.port {D' : Device} (h : Placed s d i D') (hi : ∀ p d, i ≠ .portBind p d) :
    D'.port = (s.dev d).port := by
  cases h with
  | same h => exact h.port
  | attach | detach | reset | addr | rwake => rfl
  | bind => exact absurd rfl (hi _ _)

/-- A device on an existing port names it, and so is not bound to none (R150). -/
theorem BindingOk.bound_of_port (hs : BindingOk s) (hports : s.ports.length ≤ 255)
    (hd : d ≠ noIndex) (hp : (s.port p).dev = d) : (s.dev d).port ≠ noIndex := by
  subst hp
  rw [hs.port_of_bound hd]
  exact ne_noIndex_of_lt hports (isPort_of_bound hd)

/-- A device is attached through its port alone, so an attached one is bound (R151, R153). -/
theorem Placed.bound_of_attached {D' : Device} (h : Placed s d i D') (hs : BindingOk s)
    (hports : s.ports.length ≤ 255) (hd : IsDevice s d) (hatt : D'.attached = true) :
    (s.dev d).port ≠ noIndex := by
  cases h with
  | same h => exact hs.attached d hd.2 (h.attached ▸ hatt)
  | attach hp | reset hp => exact hs.bound_of_port hports hd.1 hp
  | detach => cases hatt
  | addr | rwake | bind => exact hs.attached d hd.2 hatt

/-! ### The invariant -/

/-- Ports and devices agree, in a machine whose indices of ports and devices all differ from the one
that means none (R5; log 21). -/
structure WiringOk (s : State) : Prop where
  portsLen : s.ports.length ≤ 255
  devsLen  : s.devs.length ≤ 255
  binding  : BindingOk s

theorem bindingOk_exec (h : exec i s = .next t) (hs : WiringOk s) : BindingOk t := by
  obtain ⟨hports, hdevs, hb⟩ := hs
  by_cases hi : ∃ p d, i = .portBind p d
  · obtain ⟨p, d, rfl⟩ := hi
    rcases portBind_cases h with hr | ⟨-, hp, hd, hold, hnew, rfl⟩
    · exact hr.latched.keeps hb fun c w u hu =>
        bindingOk_of_tables hu (sameSetup_contractViolation c w u) (by simp) (by simp)
    · have hd' : d = noIndex ∨ IsDevice s d :=
        hd.imp_right fun hlt => ⟨ne_noIndex_of_lt hdevs hlt, hlt⟩
      exact (rebound_bindPort p hb hports hd').bindingOk hb hdevs hp hd' hold hnew
  · have hi' : ∀ p d, i ≠ .portBind p d := fun p d he => hi ⟨p, d, he⟩
    exact bindingOk_of_unmoved hb (sameSetup_exec h) (exec_port h hi')
      (fun d => (exec_placed h d).port hi')
      fun d hd => (exec_placed h d).bound_of_attached hb hports ⟨ne_noIndex_of_lt hdevs hd, hd⟩

/-- After a reset nothing is bound and nothing attached (R196). -/
theorem bindingOk_hardwareReset (s : State) : BindingOk s.hardwareReset := by
  constructor <;> simp [Port.reset, Device.reset]

theorem WiringOk.of_binding (hs : WiringOk s) (hsetup : SameSetup s t) (ht : BindingOk t) :
    WiringOk t :=
  ⟨hsetup.portsLen ▸ hs.portsLen, hsetup.devsLen ▸ hs.devsLen, ht⟩

theorem WiringOk.of_tables (hs : WiringOk s) (hsetup : SameSetup s t) (hports : t.ports = s.ports)
    (hdevs : t.devs = s.devs) : WiringOk t :=
  hs.of_binding hsetup (bindingOk_of_tables hs.binding hsetup hports hdevs)

/-- Settles O23: PORT_BIND moves both ends of a binding and only while nothing is attached there, and
every other command leaves the bindings and attaches only what is bound. -/
theorem bindingInvariant : Obligations.BindingInvariant := by
  intro s t hports hdevs hb h
  have hs : WiringOk s := ⟨hports, hdevs, hb⟩
  have ht : WiringOk t := step_keeps h hs
    (hs.of_binding (sameSetup_hardwareReset s) (bindingOk_hardwareReset s))
    (fun ws => hs.of_tables (sameSetup_cmds s ws) rfl rfl)
    (fun c w u hu => hu.of_tables (sameSetup_contractViolation c w u) (by simp) (by simp))
    fun _ _ hu he => hu.of_binding (sameSetup_exec he) (bindingOk_exec he hu)
  exact ht.binding

end Sys2Proof.Machine
end

section
/-! PROOF. What ATTACH, DETACH and RESET_PORT write and refuse (spec 43_port_device.md R151 to
R154). -/

namespace Sys2Proof.Machine

open Sys2Proof.Claim

variable {d p : Index} {s u : State} {D : Device}

/-! ### The hooks -/

/-- A hook that is called only if it is present emits its event and does no more (R158). -/
theorem emitHook_eq (d : Index) (b : Nat) (e : Event) (s : State) : emitHook d b e s =
    { s with trace := s.trace ++ if s.hasHook d b = true then [e] else [] } := by
  unfold emitHook
  split
  · rfl
  · rw [List.append_nil]

theorem deviceIs_emitHook (h : DeviceIs d D s u) (b : Nat) (e : Event) :
    DeviceIs d D s (emitHook d b e u) :=
  deviceIs_of_devs h (by rw [emitHook_eq])

/-! ### The parts -/

theorem attached_eq (p d : Index) (s : State) : attached p d s =
    { s with
      devs := (attached p d s).devs
      trace := s.trace ++ [.portAttach p d] ++
        if s.hasHook d 4 = true then [.attachHook d] else [] } := by
  rw [attached, emitHook_eq]
  rfl

theorem deviceIs_attached (h : DeviceIs d D s u) (hd : IsDevice s d) (p : Index) :
    DeviceIs d { D with attached := true, state := .attached } s (attached p d u) :=
  deviceIs_emitHook (deviceIs_updDev (deviceIs_of_devs h (State.emit_devs _ _)) hd
    fun D => { D with attached := true, state := .attached }) 4 _

theorem detached_eq (p d : Index) (s : State) : detached p d s =
    { s with devs := (detached p d s).devs, trace := s.trace ++ [.portDetach p d] } := rfl

theorem deviceIs_detached (h : DeviceIs d D s u) (hd : IsDevice s d) (p : Index) :
    DeviceIs d { D with attached := false, state := .notAttached } s (detached p d u) :=
  deviceIs_updDev (deviceIs_of_devs h (State.emit_devs _ _)) hd _

theorem deviceIs_deviceReset (h : DeviceIs d D s u) (hd : IsDevice s d) :
    DeviceIs d { D with remoteWakeup := false, addr := 0, state := .default } s
      (deviceReset d u) :=
  deviceIs_emitHook (deviceIs_updDev h hd
    fun D => { D with remoteWakeup := false, addr := 0, state := .default }) 5 _

/-- A port whose device is attached is detached (R152). -/
theorem detachPort_ok (h : isAttached (s.port p).dev s = true) :
    detachPort p s = .ok () (detached p (s.port p).dev s) := by
  simp [detachPort, h, detached]

theorem detachPort_raised (h : isAttached (s.port p).dev s = false) :
    detachPort p s = .raised .detachState s := by
  simp [detachPort, h]

/-- A port whose device is not attached is attached (R151). -/
theorem attachPort_ok (hd : (s.port p).dev ≠ noIndex)
    (hatt : (s.dev (s.port p).dev).attached = false) :
    attachPort p s = .ok () (attached p (s.port p).dev s) := by
  simp [attachPort, bne_iff_ne.mpr hd, hatt, attached]

theorem attachPort_raised
    (h : (s.port p).dev = noIndex ∨ (s.dev (s.port p).dev).attached = true) :
    attachPort p s = .raised .attachState s := by
  rcases h with h | h <;> simp [attachPort, h]

theorem isAttached_false_iff (d : Index) (s : State) :
    isAttached d s = false ↔ d = noIndex ∨ (s.dev d).attached = false := by
  rw [← Bool.not_eq_true, isAttached_iff, not_and_or, not_not, Bool.not_eq_true]

/-! ### The commands -/

theorem exec_attach (hf : s.fault = false) (hp : IsPort s p) (hd : (s.port p).dev ≠ noIndex)
    (hatt : (s.dev (s.port p).dev).attached = false) :
    exec (.attach p) s = .next (attached p (s.port p).dev s) := by
  rw [exec, execAttach]
  exact command_of_ok _ hf (by rw [checkPort_ok hp, Run.bind_ok, attachPort_ok hd hatt])

theorem exec_detach (hf : s.fault = false) (hp : IsPort s p)
    (h : isAttached (s.port p).dev s = true) :
    exec (.detach p) s = .next (detached p (s.port p).dev s) := by
  rw [exec, execDetach]
  exact command_of_ok _ hf (by rw [checkPort_ok hp, Run.bind_ok, detachPort_ok h])

/-- Settles O57: by the state of the port's device, with the parts of the two commands. -/
theorem attachDetach : Obligations.AttachDetach := by
  intro s p hf hp d D
  refine ⟨fun h => ?_, fun hd hatt => ⟨_, exec_attach hf hp hd.1 hatt, attached_eq p d s, ?_,
      deviceIs_attached (deviceIs_refl d s) hd p⟩,
    fun h => ?_, fun hd hatt => ⟨_, exec_detach hf hp ((isAttached_iff d s).mpr ⟨hd.1, hatt⟩),
      detached_eq p d s, fun _ => rfl, deviceIs_detached (deviceIs_refl d s) hd p⟩⟩
  · refine raises_of_body (c := .attachState) (fun _ => rfl) hf ?_
    rw [checkPort_ok hp, Run.bind_ok, attachPort_raised h]
  · exact fun _ => by rw [(quiet_attached p d s).hmem]
  · refine raises_of_body (c := .detachState) (fun _ => rfl) hf ?_
    rw [checkPort_ok hp, Run.bind_ok, detachPort_raised ((isAttached_false_iff d s).mpr h)]

/-- The state a RESET_PORT leaves: detached, attached and reset (R153). -/
def portReset (p d : Index) (s : State) : State :=
  deviceReset d (attached p d (detached p d s))

/-- RESET_PORT of a port whose device is attached: the detach lets the attach go on (R153). -/
theorem exec_resetPort (hf : s.fault = false) (hp : IsPort s p)
    (h : isAttached (s.port p).dev s = true) :
    exec (.resetPort p) s = .next (portReset p (s.port p).dev s) := by
  obtain ⟨hd, hatt⟩ := (isAttached_iff _ s).mp h
  have hattach : attachPort p (detached p (s.port p).dev s) =
      .ok () (attached p (s.port p).dev (detached p (s.port p).dev s)) :=
    attachPort_ok (s := detached p (s.port p).dev s) hd (by
      rw [port_detached, dev_detached, if_pos ⟨rfl, attached_lt hatt⟩])
  rw [exec, execResetPort]
  exact command_of_ok _ hf (by
    rw [checkPort_ok hp, Run.bind_ok, detachPort_ok h, Run.bind_ok, hattach, Run.bind_ok,
      port_attached, port_detached, portReset])

/-- The events of a RESET_PORT in order: the detach, the attach, and the hooks that are present
(R153). -/
theorem portReset_eq (p d : Index) (s : State) : portReset p d s =
    { s with
      devs := (portReset p d s).devs
      trace := s.trace ++ [.portDetach p d, .portAttach p d] ++
        (if s.hasHook d 4 = true then [.attachHook d] else []) ++
        (if s.hasHook d 5 = true then [.resetHook d] else []) } := by
  simp only [portReset, deviceReset, attached, detached, emitHook_eq, State.emit, State.updDev,
    List.append_assoc, List.cons_append, List.nil_append]
  rfl

/-- Settles O58: the three parts in turn, each by what it writes. -/
theorem resetPort : Obligations.ResetPort := by
  intro s p hf hp d D
  refine ⟨fun h => ?_, fun hd hatt => ⟨portReset p d s, exec_resetPort hf hp
    ((isAttached_iff d s).mpr ⟨hd.1, hatt⟩), portReset_eq p d s, fun _ => ?_, ?_⟩⟩
  · refine raises_of_body (c := .detachState) (fun _ => rfl) hf ?_
    rw [checkPort_ok hp, Run.bind_ok, detachPort_raised ((isAttached_false_iff d s).mpr h),
      Run.bind_raised]
  · rw [portReset_eq]
  · exact deviceIs_deviceReset (deviceIs_attached (deviceIs_detached (deviceIs_refl d s) hd p) hd p)
      hd

end Sys2Proof.Machine
end

section
/-! PROOF. What the device setters and FIND_DEVICE write and refuse (spec 43_port_device.md R155 to
R158). -/

namespace Sys2Proof.Machine

open Sys2Proof.Claim

variable {d p : Index} {a : BitVec 8} {i : Instr} {s : State}

/-! ### DEV_SET_ADDR and DEV_SET_RWAKE -/

/-- A setter of an existing device completes with that device written and nothing else. -/
theorem setDevice_writes {f : Device → Device}
    (he : ∀ v, exec i v = command i v fun v =>
      (checkDevice d v).bind fun _ v => .ok () (v.updDev d f))
    (hf : s.fault = false) (hd : IsDevice s d) :
    ∃ t, exec i s = .next t ∧ t = { s with devs := t.devs } ∧ SameMemory s t ∧
      DeviceIs d (f (s.dev d)) s t := by
  refine ⟨s.updDev d f, ?_, rfl, fun _ => rfl, deviceIs_updDev (deviceIs_refl d s) hd f⟩
  rw [he]
  exact command_of_ok i hf (by rw [checkDevice_ok hd, Run.bind_ok])

/-- Settles O59: the two commands are one setter with different fields. -/
theorem deviceSetters : Obligations.DeviceSetters := by
  intro s d hf
  refine ⟨fun hd => ?_, fun hd => ⟨fun a => ?_, fun f => ?_⟩⟩
  · obtain ⟨haddr, hrwake, -⟩ := raises_badDevice hf hd
    exact ⟨haddr, hrwake⟩
  · exact setDevice_writes (f := fun D => { D with addr := a }) (fun _ => rfl) hf hd
  · exact setDevice_writes (f := fun D => { D with remoteWakeup := f }) (fun _ => rfl) hf hd

/-! ### FIND_DEVICE -/

/-- The state in which a resolver has answered: its event is emitted, and its answer taken (R157). -/
theorem asked_eq (d : Index) (a : BitVec 8) (s : State) :
    asked d a s = { s.dropResp with trace := s.trace ++ [.findHook d a] } := by
  unfold asked State.dropResp State.emit
  cases s.resps <;> rfl

/-- What FIND_DEVICE takes for an answer: a device of the machine, or none (R157). -/
def Resolves (s : State) (r : Resp) : Prop :=
  r.data = [] ∧ (r.n.toNat < s.devs.length ∨ r.n = 0xFFFFFFFF)

theorem resolver_absent (h : s.hasHook d 1 = false) :
    resolver d a s = .ok () { s with res0 := noResult } := by
  simp [resolver, h]

theorem resolver_of_hook (h : s.hasHook d 1 = true) : resolver d a s =
    (require (s.nextResp.data.length == 0 &&
      (decide (s.nextResp.n.toNat < s.devs.length) || s.nextResp.n == noResult)) .badOperand
      (asked d a s)).bind fun _ u => .ok () { u with res0 := s.nextResp.n } := by
  rw [resolver, if_pos h]
  simp only [State.dropResp_devs, State.emit_devs]
  rfl

theorem resolves_iff (s : State) (r : Resp) : (r.data.length == 0 &&
    (decide (r.n.toNat < s.devs.length) || r.n == noResult)) = true ↔ Resolves s r := by
  simp [Resolves]

theorem resolver_answers (h : s.hasHook d 1 = true) (hr : Resolves s s.nextResp) :
    resolver d a s = .ok () { asked d a s with res0 := s.nextResp.n } := by
  rw [resolver_of_hook h, (resolves_iff s _).mpr hr, require_true, Run.bind_ok]

theorem resolver_raises (h : s.hasHook d 1 = true) (hr : ¬ Resolves s s.nextResp) :
    resolver d a s = .raised .badOperand (asked d a s) := by
  rw [resolver_of_hook h, Bool.eq_false_iff.mpr (mt (resolves_iff s _).mp hr), require_false,
    Run.bind_raised]

/-- An index in a result register, with zeros above it (R157). -/
theorem zeroExtend_index (d : Index) : d.zeroExtend 32 = (0#24 ++ d : Word) :=
  BitVec.setWidth_eq_append (by omega)

/-- The body of FIND_DEVICE behind its port operand, for the device `d` on the port (R157). -/
def lookup (d : Index) (a : BitVec 8) (s : State) : Run Unit :=
  if !isAttached d s then .ok () { s with res0 := noResult }
  else if (s.dev d).state = .default ∧ (s.dev d).addr = a then
    .ok () { s with res0 := d.zeroExtend 32 }
  else resolver d a s

theorem exec_findDevice (p : Index) (a : BitVec 8) (s : State) :
    exec (.findDevice p a) s = command (.findDevice p a) s fun s =>
      (checkPort p s).bind fun _ s => lookup (s.port p).dev a s := rfl

theorem lookup_detached (h : isAttached d s = false) :
    lookup d a s = .ok () { s with res0 := noResult } := by
  rw [lookup, h]
  rfl

theorem lookup_direct (h : isAttached d s = true)
    (hdir : (s.dev d).state = .default ∧ (s.dev d).addr = a) :
    lookup d a s = .ok () { s with res0 := 0#24 ++ d } := by
  rw [lookup, h, Bool.not_true, if_neg Bool.false_ne_true, if_pos hdir, zeroExtend_index]

theorem lookup_asks (h : isAttached d s = true)
    (hdir : ¬ ((s.dev d).state = .default ∧ (s.dev d).addr = a)) :
    lookup d a s = resolver d a s := by
  rw [lookup, h, Bool.not_true, if_neg Bool.false_ne_true, if_neg hdir]

/-- Settles O60: by what stands on the port, and then by what its resolver answers. -/
theorem findDevice : Obligations.FindDevice := by
  intro s p a hf hp d D i empty direct r good asked'
  have hasked : asked d a s = asked' := asked_eq d a s
  have hbody : ((checkPort p s).bind fun _ s => lookup (s.port p).dev a s) = lookup d a s := by
    rw [checkPort_ok hp, Run.bind_ok]
  have hdone : ∀ {u}, lookup d a s = .ok () u → exec i s = .next u := fun hu => by
    rw [exec_findDevice]
    exact command_of_ok i hf (hbody.trans hu)
  have hatt : ¬ empty → isAttached d s = true := fun he => by
    rwa [← Bool.not_eq_false, isAttached_false_iff]
  refine ⟨fun he => hdone (lookup_detached ((isAttached_false_iff d s).mpr he)),
    fun he hdir => hdone (lookup_direct (hatt he) hdir), fun he hdir hh => hdone ?_,
    fun he hdir hh hgood => hdone ?_, fun he hdir hh hbad => ?_⟩
  · rw [lookup_asks (hatt he) hdir]
    exact resolver_absent hh
  · rw [lookup_asks (hatt he) hdir, resolver_answers hh hgood, hasked]
  · rw [← hasked]
    exact raisesFrom_of_body (c := .badOperand) (exec_findDevice p a) hf (by simp [asked, hf])
      (by rw [hbody, lookup_asks (hatt he) hdir, resolver_raises hh hbad])

end Sys2Proof.Machine
end

section
/-! PROOF. The word at the head of the port is the first word of the command the decoder gives or
refuses (spec 30_encoding.md R55 to R57, R62). -/

namespace Sys2Proof.Laws

/-- The encoding of an instruction begins with its first word (R56, R171). -/
theorem head_encode (i : Instr) (rest : List Word) :
    (encode i ++ rest).head? = some i.firstWord := by
  cases i <;> rfl

/-- The decoder waits, or it gives a command whose encoding it took from the head of the port, or it
refuses the command that begins with the word at the head (R55 to R57, R62). -/
theorem decode_cases (ws : List Word) :
    decode ws = .waiting ∨
    (∃ i rest, decode ws = .command i rest ∧ ws = encode i ++ rest) ∨
    ∃ r w rest, decode ws = .rejected r w rest ∧ ws.head? = some w := by
  cases ws with
  | nil => exact .inl rfl
  | cons w0 ws =>
    cases ho : Opcode.ofCode (field 24 8 w0) with
    | none => exact .inr (.inr ⟨_, w0, _, decode_badOpcode ws ho, rfl⟩)
    | some o =>
      by_cases hlen : o.words ≤ (w0 :: ws).length
      · rcases decode_whole_cases ho hlen with ⟨i, hi, hd⟩ | hd
        · exact .inr (.inl ⟨i, _, hd, by rw [hi, List.take_append_drop]⟩)
        · exact .inr (.inr ⟨_, w0, _, hd, rfl⟩)
      · exact .inl (decode_short ho (Nat.lt_of_not_le hlen))

theorem head_of_decode_command {ws rest : List Word} {i : Instr} (h : decode ws = .command i rest) :
    ws.head? = some i.firstWord := by
  rcases decode_cases ws with hd | ⟨j, rest', hd, rfl⟩ | ⟨r, w, rest', hd, -⟩
  · rw [h] at hd; cases hd
  · obtain ⟨rfl, -⟩ := Fetched.command.inj (h.symm.trans hd)
    exact head_encode i rest'
  · rw [h] at hd; cases hd

theorem head_of_decode_rejected {ws rest : List Word} {r : Reject} {w : Word}
    (h : decode ws = .rejected r w rest) : ws.head? = some w := by
  rcases decode_cases ws with hd | ⟨i, rest', hd, -⟩ | ⟨r', w', rest', hd, hw⟩
  · rw [h] at hd; cases hd
  · rw [h] at hd; cases hd
  · obtain ⟨-, rfl, -⟩ := Fetched.rejected.inj (h.symm.trans hd)
    exact hw

end Sys2Proof.Laws
end

section
/-! PROOF. The fault latch: what sets it records the cause and the first word of the command, and
nothing but the reset clears it (spec 60_exceptions.md R171 to R173, R177). -/

namespace Sys2Proof.Machine

variable {i : Instr} {s t : State}

/-! ### The latch after each command -/

/-- Every cause has a number from 1 to 21 (R172). -/
theorem Cause.code_range (c : Cause) : 1 ≤ c.code.toNat ∧ c.code.toNat ≤ 21 := by
  cases c <;> decide

@[simp] theorem emitHook_fault (d : Index) (b : Nat) (e : Event) (s : State) :
    (emitHook d b e s).fault = s.fault := by
  unfold emitHook; split <;> rfl

@[simp] theorem attached_fault (p d : Index) (s : State) : (attached p d s).fault = s.fault := by
  simp [attached]

@[simp] theorem detached_fault (p d : Index) (s : State) : (detached p d s).fault = s.fault := rfl

@[simp] theorem deviceReset_fault (d : Index) (s : State) : (deviceReset d s).fault = s.fault := by
  simp [deviceReset]

@[simp] theorem setDevPort_fault (d p : Index) (s : State) :
    (setDevPort d p s).fault = s.fault := by
  unfold setDevPort; split <;> rfl

@[simp] theorem leaveOldPort_fault (d : Index) (s : State) :
    (leaveOldPort d s).fault = s.fault := by
  unfold leaveOldPort; split <;> rfl

@[simp] theorem bindPort_fault (p d : Index) (s : State) : (bindPort p d s).fault = s.fault := by
  simp [bindPort]

@[simp] theorem asked_fault (d : Index) (a : BitVec 8) (s : State) :
    (asked d a s).fault = s.fault := by
  simp [asked]

/-- The latch is clear, or the command took a contract violation from a state with a clear latch
(R171). -/
def ClearOrRaised (i : Instr) (t : State) : Prop :=
  t.fault = false ∨ ∃ c u, u.fault = false ∧ t = contractViolation c i.firstWord u

theorem Refused.clearOrRaised (h : Refused i s t) (hf : s.fault = false) : ClearOrRaised i t := by
  rcases h with ⟨-, rfl⟩ | ⟨-, c, rfl⟩
  · exact .inl hf
  · exact .inr ⟨c, s, hf, rfl⟩

/-- No part of a command writes the latch: only what it raises does, its queue advance included
(R171, R173). -/
theorem exec_clearOrRaised (h : exec i s = .next t) (hf : s.fault = false) : ClearOrRaised i t := by
  cases i with
  | epSetType | epSetIfnum | epSetMps | epSetPipe | epSetHalt =>
    rcases setEndpoint_cases h with hr | ⟨-, -, rfl⟩
    · exact hr.clearOrRaised hf
    · exact .inl hf
  | epGet =>
    rcases epGet_cases h with hr | ⟨-, hr⟩
    · exact hr.clearOrRaised hf
    · rw [hr]; exact .inl hf
  | pktSetup =>
    rcases pktSetup_cases h with hr | ⟨-, -, -, -, -, rfl⟩
    · exact hr.clearOrRaised hf
    · exact .inl hf
  | pktIovAdd =>
    rcases pktIovAdd_cases h with hr | ⟨-, -, -, -, -, -, rfl⟩
    · exact hr.clearOrRaised hf
    · exact .inl hf
  | pktSetParam =>
    rcases pktSetParam_cases h with hr | ⟨-, -, -, rfl⟩
    · exact hr.clearOrRaised hf
    · exact .inl hf
  | submit =>
    rcases submit_cases h with hr | ⟨-, -, ⟨-, hm⟩ | ⟨c, u, -, hm, rfl⟩⟩
    · exact hr.clearOrRaised hf
    · exact .inl (hm.fault.trans hf)
    · exact .inr ⟨c, u, hm.fault.trans hf, rfl⟩
  | cancel =>
    rcases cancel_cases h with hr | ⟨-, -, -, -, rfl⟩
    · exact hr.clearOrRaised hf
    · exact .inl ((moves_cancelHook (r := ⟨0, .ctl⟩) _ _ _ _).fault.trans hf)
  | complete =>
    rcases complete_cases h with hr | ⟨-, -, ⟨-, hm⟩ | ⟨c, u, -, hm, rfl⟩⟩
    · exact hr.clearOrRaised hf
    · exact .inl (hm.fault.trans hf)
    · exact .inr ⟨c, u, hm.fault.trans hf, rfl⟩
  | pktRead =>
    rcases pktRead_cases h with hr | ⟨-, hr⟩
    · exact hr.clearOrRaised hf
    · rw [hr]; exact .inl hf
  | portBind =>
    rcases portBind_cases h with hr | ⟨-, -, -, -, -, rfl⟩
    · exact hr.clearOrRaised hf
    · exact .inl (by simp [hf])
  | attach =>
    rcases attach_cases h with hr | ⟨-, -, -, -, rfl⟩
    · exact hr.clearOrRaised hf
    · exact .inl (by simp [hf])
  | detach =>
    rcases detach_cases h with hr | ⟨-, -, -, -, rfl⟩
    · exact hr.clearOrRaised hf
    · exact .inl hf
  | resetPort =>
    rcases resetPort_cases h with hr | ⟨-, -, -, -, rfl⟩
    · exact hr.clearOrRaised hf
    · exact .inl (by simp [hf])
  | findDevice p a =>
    have hasked : (asked (s.port p).dev a s).fault = false := by simp [hf]
    rcases findDevice_cases h with hr | ⟨-, hr | hr | ⟨c, rfl⟩⟩
    · exact hr.clearOrRaised hf
    · rw [hr]; exact .inl hf
    · rw [hr]; exact .inl hasked
    · exact .inr ⟨c, _, hasked, rfl⟩
  | devSetAddr =>
    rcases devSetAddr_cases h with hr | ⟨-, -, rfl⟩
    · exact hr.clearOrRaised hf
    · exact .inl hf
  | devSetRwake =>
    rcases devSetRwake_cases h with hr | ⟨-, -, rfl⟩
    · exact hr.clearOrRaised hf
    · exact .inl hf

/-- A command that sets the latch has recorded a cause and its own first word (R171 to R173). -/
theorem ClearOrRaised.records (h : ClearOrRaised i t) (ht : t.fault = true) :
    (1 ≤ t.fcause.toNat ∧ t.fcause.toNat ≤ 21) ∧ t.finfo = i.firstWord := by
  rcases h with hf | ⟨c, u, hu, rfl⟩
  · rw [hf] at ht; cases ht
  · rw [contractViolation_of_clear u c _ hu]
    exact ⟨c.code_range, rfl⟩

/-! ### The latch after a step -/

/-- Settles O9: a step that sets the latch is a command the decoder refuses, or a command that
raises, and the first word of either stands at the head of the port. -/
theorem faultRecordsCauseAndWord : Obligations.FaultRecordsCauseAndWord := by
  intro s t hf hr h ht
  rcases step_cases h with ⟨hr', -⟩ | ⟨-, -, rfl⟩ | ⟨-, r, w, rest, hd, -⟩ | ⟨-, i, rest, hd, he⟩
  · rw [hr] at hr'; cases hr'
  · rw [hf] at ht; cases ht
  · rw [step_of_rejected hf hr hd] at h
    cases h
    obtain ⟨hlo, hhi⟩ := (rejectCause r).code_range
    exact ⟨hlo, hhi, Laws.head_of_decode_rejected hd⟩
  · obtain ⟨⟨hlo, hhi⟩, hw⟩ := (exec_clearOrRaised he hf).records ht
    exact ⟨hlo, hhi, hw ▸ Laws.head_of_decode_command hd⟩

/-- While the latch is set a step without reset drops what the decoder takes, and nothing else
(R171, R177). -/
theorem step_of_fault (hf : s.fault = true) (hr : s.resetIn = false) :
    ∃ ws, step s = .next { s with cmds := ws } := by
  cases hd : decode s.cmds with
  | waiting => exact ⟨s.cmds, step_of_waiting hr hd⟩
  | rejected r w rest => exact ⟨rest, by simp [step, hr, hd, rejectCommand, hf]⟩
  | command i rest => exact ⟨rest, (step_of_command hr hd).trans (exec_of_fault i hf)⟩

/-- Settles O8: a step of a faulted block at most takes words from the port. -/
theorem faultedUntilReset : Obligations.FaultedUntilReset := by
  intro s hf hr
  obtain ⟨ws, h⟩ := step_of_fault hf hr
  exact ⟨_, h, hf, rfl, rfl, rfl⟩

end Sys2Proof.Machine
end

section
/-! PROOF. What a command adds to the trace, and that only COMPLETE reports a completion (spec
60_exceptions.md R181, R182). -/

namespace Sys2Proof.Machine

open Sys2Proof.Claim

variable {d k : Index} {i : Instr} {r : EpRef} {s t u : State}

/-- The trace only grew, and by no completion event (R181, R182). -/
def Unreported (s t : State) : Prop := ∃ es, t.trace = s.trace ++ es ∧ completions es = []

theorem Unreported.of_trace (h : t.trace = s.trace) : Unreported s t := ⟨[], by simp [h], rfl⟩

theorem Unreported.trans (h : Unreported s t) (h' : Unreported t u) : Unreported s u := by
  obtain ⟨es, htrace, he⟩ := h
  obtain ⟨es', htrace', he'⟩ := h'
  exact ⟨es ++ es', by rw [htrace', htrace, List.append_assoc],
    by rw [completions_append, he, he', List.append_nil]⟩

theorem Transfers.unreported (h : Transfers d k s t) : Unreported s t := by
  obtain ⟨es, htrace, he⟩ := h.trace
  exact ⟨es, htrace, completions_of_none he⟩

theorem Quiet.unreported (h : Quiet s t) : Unreported s t := by
  obtain ⟨es, htrace, he⟩ := h.trace
  exact ⟨es, htrace, completions_of_none he⟩

/-- A SUBMIT emits only what its dispatch does: its packet may complete, and is not reported
(R182). -/
theorem unreported_submitPacket (k d : Index) (s : State) :
    (submitPacket k d s).All (Unreported s) := by
  have hsame : ∀ {u v : State}, Unreported s u → v.trace = u.trace → Unreported s v :=
    fun hu hv => hu.trans (.of_trace hv)
  have hs : Unreported s s := .of_trace rfl
  refine submitPacket_all hs (fun _ => hsame hs rfl) fun _ => ?_
  refine submitAccepted_all (J := Unreported s) hs (hsame hs rfl) (fun u hu => hsame hu rfl) ?_
    (fun _ hu => hu) ?_
  · exact fun u hu => (transfers_dispatch k u).mono fun v hv => hu.trans hv.unreported
  · exact fun u hu => afterDispatch_all hu (fun _ => hsame hu rfl) (hsame hu rfl) (hsame hu rfl)

theorem exec_unreported (h : exec i s = .next t) (hc : ∀ k, i ≠ .complete k) : Unreported s t := by
  by_cases hs : ∃ k d, i = .submit k d
  · obtain ⟨k, d, rfl⟩ := hs
    exact submit_keeps h (.of_trace rfl) (fun _ => unreported_submitPacket k d s)
      fun c w u hu => hu.trans (.of_trace (by simp))
  · exact (exec_quiet h (fun k d e => hs ⟨k, d, e⟩) hc).unreported

/-- The events of a COMPLETE come behind those emitted so far (R181). -/
theorem complete_trace_prefix (h : exec (.complete k) s = .next t) : s.trace <+: t.trace := by
  obtain ⟨u, hm, hl⟩ := exec_moves h (.inr (.inl rfl))
  exact hl.keeps (I := fun v => s.trace <+: v.trace) hm.trace fun c w v hv => by simpa using hv

/-- Settles O13: a COMPLETE only adds events, and every other command adds none that reports a
completion. -/
theorem eventsOnlyAdded : Obligations.EventsOnlyAdded := by
  intro i s t h
  by_cases hc : ∃ k, i = .complete k
  · obtain ⟨k, rfl⟩ := hc
    obtain ⟨es, he⟩ := complete_trace_prefix h
    exact ⟨es, he.symm, fun hn => absurd rfl (hn k)⟩
  · obtain ⟨es, htrace, he⟩ := exec_unreported h fun k e => hc ⟨k, e⟩
    exact ⟨es, htrace, fun _ => he⟩

end Sys2Proof.Machine
end

section
/-! PROOF. The state right after a hardware reset (spec 70_reset_and_hazards.md R195, R196): the
values it holds, that a step with the reset line up gives it, and that it meets the invariants the
steps keep. -/

namespace Sys2Proof.Machine

/-- The reset line comes before the command port (R195). -/
theorem step_of_resetIn {s : State} (h : s.resetIn = true) : step s = .next s.hardwareReset := by
  rw [step, if_pos h]

/-- Settles O6: the step is the hardware reset, which builds its tables at the sizes it finds and
gives the latch, the result registers, the inputs and every table entry their reset values. -/
theorem hardwareReset : Obligations.HardwareReset := by
  intro s h
  obtain ⟨hcfg, hports, hdevs, hpkts⟩ := sameSetup_hardwareReset s
  exact ⟨s.hardwareReset, step_of_resetIn h, rfl, rfl, rfl, rfl, rfl, rfl, rfl, hcfg, hports, hdevs,
    hpkts, rfl, rfl, rfl, rfl, rfl, State.port_hardwareReset s, State.dev_hardwareReset s,
    State.pkt_hardwareReset s⟩

/-- Settles O7: every index, in range or not, reads the reset value of its table (log 22). -/
theorem resetValues : Obligations.ResetValues := by
  refine ⟨rfl, rfl, rfl, rfl, rfl, rfl, rfl, rfl, fun p => ?port, fun d => ?dev,
    fun d e => State.ep_resetWith _ _ _ ⟨d, e⟩, State.pkt_resetWith _ _ _⟩
  case port => exact congrArg Port.dev (State.port_resetWith _ _ _ p)
  case dev =>
    rw [show State.reset.dev d = Device.reset from State.dev_resetWith _ _ _ d]
    exact ⟨rfl, rfl, rfl, rfl, rfl, rfl, rfl, fun _ => rfl, rfl, rfl⟩

/-- A hardware reset of a state that was just reset changes nothing, so what holds after every
hardware reset holds of the reset state, whatever the launch. -/
theorem hardwareReset_resetWith (c : Config) (z : Sizes) (m : Memory) :
    (State.resetWith c z m).hardwareReset = State.resetWith c z m := by
  have hsizes : (⟨(State.resetWith c z m).devs.length, (State.resetWith c z m).ports.length,
      (State.resetWith c z m).pkts.length⟩ : Sizes) = z := by simp
  rw [State.hardwareReset, hsizes]
  rfl

theorem packetsOk_resetWith (c : Config) (z : Sizes) (m : Memory) :
    PacketsOk (State.resetWith c z m) := fun k => by
  rw [State.pkt_resetWith]
  exact packetOk_reset _ _

theorem devicesOk_resetWith (c : Config) (z : Sizes) (m : Memory) :
    DevicesOk (State.resetWith c z m) := fun d => by
  rw [State.dev_resetWith]
  exact dok_reset _

theorem queuesOk_resetWith (c : Config) (z : Sizes) (m : Memory) :
    QueuesOk (State.resetWith c z m) :=
  hardwareReset_resetWith c z m ▸ queuesOk_hardwareReset _

theorem bindingOk_resetWith (c : Config) (z : Sizes) (m : Memory) :
    BindingOk (State.resetWith c z m) :=
  hardwareReset_resetWith c z m ▸ bindingOk_hardwareReset _

/-- Settles O25: host memory is the launch memory, which is canonical by assumption; every packet
slot and device holds its reset value, every queue is empty and nothing is bound. -/
theorem resetMeetsInvariants : Obligations.ResetMeetsInvariants := fun c z m hwf hbelow =>
  ⟨⟨hwf, hbelow⟩, packetsOk_resetWith c z m, devicesOk_resetWith c z m, queuesOk_resetWith c z m,
    bindingOk_resetWith c z m⟩

end Sys2Proof.Machine
end
